-- ==== Sys2Proof/Word.lean ====
section
/-! DEFINITION. The widths and index ranges the manual gives (00_scope.md, Conventions; R1, R8, R18, R164): plain types and
their plainest arithmetic, nothing of the machine. -/

namespace Sys2Proof

/-- One word of the host bus and of the exchange memory (00_scope.md, Addresses and words). -/
abbrev Word := BitVec 16

/-- A station-clock value: a 32-bit count of milliseconds since the last reset (00_scope.md, Time). -/
abbrev Clock := BitVec 32

/-- A session slot. The manual numbers sessions 1–16 (R18); slot `n : Slot` is session `n + 1`. -/
abbrev Slot := Fin 16

/-- A member index, 0–63 (R1). -/
abbrev MemberIx := Fin 64

/-- A channel index, 0–15 (R8). -/
abbrev ChannelIx := Fin 16

/-- A request cell, 0–16; cell 0 is the station cell and cell n serves session n (R162, R163). -/
abbrev Cell := Fin 17

/-- The manual's number, 1–16, of a session slot. -/
def Slot.number (n : Slot) : Nat := n.val + 1

/-- The request cell of a session slot (00_scope.md, Sessions, members and channels). -/
def Slot.cell (n : Slot) : Cell := n.succ

/-- A Nat as a 16-bit word, modulo 65536. -/
def word (n : Nat) : Word := BitVec.ofNat 16 n

/-- An Int as a 16-bit two's-complement word. -/
def intWord (x : Int) : Word := BitVec.ofInt 16 x

/-- A yes/no flag as a word: 1 for yes (R174). -/
def flagWord (b : Bool) : Word := if b then 1 else 0

/-- A counter that saturates at `cap`, raised by `k` (00_scope.md, Arithmetic). -/
def saturate (cap x k : Nat) : Nat := min cap (x + k)

/-- `x` brought into the range `lo`–`hi` (00_scope.md: a value that is clamped). -/
def clamp (lo hi x : Nat) : Nat := max lo (min hi x)

/-- The same for a signed value (the transmit trim, R3). -/
def clampInt (lo hi x : Int) : Int := max lo (min hi x)

end Sys2Proof
end

