-- ==== Sys2Proof/Syntax.lean ====
section
/-! DEFINITION. The commands of the block: one constructor per row of spec/opcode_table.json, in the table's order, and the
operand types they carry. Every command is one event of the part, whole and indivisible (95_what_each_step_holds.md). -/

namespace Sys2Proof

/-- The end reasons and end causes of 11.5. NOT_PERMITTED, NO_BUDGET and LOCKED_OUT end queue entries only. -/
inductive EndReason where
  | released | cancelled | timeout | budget | channelBusy | noAudio | paNotReady | logFull | linkLost | closed | ejected
  | revoked | audioLost | preempted | killed | fault | disabled | stopped | idDone | notPermitted | noBudget | lockedOut
deriving DecidableEq, Repr

/-- The two reasons a clear notice can carry (R58). -/
inductive ClearReason where
  | stopped | lockedOut
deriving DecidableEq, Repr

/-- The commands. A request row is the service of the next pending cell (R164, R165), whose kind and arguments are words of
the exchange memory: it carries no operand but, where the manual lets the Key Controller take the end cause "at the same
moment … or after it" (R136), `causeNow`, which says which (notes/assumptions/5.md). A bus write carries the word written. -/
inductive Instr where
  -- station-cell requests
  | nop
  | start
  | stop (causeNow : Bool)
  | holdFloor
  | resumeFloor
  | setStation
  | setMember
  | readMember
  | setChannel
  | readChannel
  | refill
  | openSession
  | closeSession
  | clearLockout
  | kill (causeNow : Bool)
  | detectorHold
  | detectorRelease
  -- session-cell requests
  | keepalive
  | key
  | release
  | preempt (causeNow : Bool)
  | eject
  | killFromSession (causeNow : Bool)
  | clearLockoutFromSession
  | holdFloorFromSession
  | resumeFloorFromSession
  | undefinedRequest
  -- host accesses
  | attentionWrite (value : Word)
  | stationCellCall (value : Word)
  | interruptEnableWrite (value : Word)
  | softReset (value : Word)
  | eventEnableWrite (value : Word)
  | eventsClear (value : Word)
  | answeredRead
  | newsRead
  | readOnlyRegisterWrite (address value : Word)
  | hostMemoryWrite (address value : Word)
  -- reset and pins
  | hardwareReset
  | resetRelease
  | startUpClearingDone
  | txfaultChange (high causeNow : Bool)
  | disableAssert (causeNow : Bool)
  | disableReleaseBegin
  | releaseTimerExpiry
  -- receive samples
  | adcSample (sample : Word) (cosHigh : Bool)
  | debounceComplete (sample : Word) (cosHigh : Bool)
  | captureBoundary (sample : Word) (cosHigh : Bool)
  | statusPageRewrite
  -- floor and grant timers
  | courtesyExpiry
  | changeoverExpiry
  | busyWaitExpiry
  | gap1Expiry
  | gap2Expiry
  | prebufferLimitExpiry
  | blockBoundary
  | audioLost
  | drainLimit
  | tailExpiry
  | accountingTick
  | keyLimitReached
  | keyLimitNotice (member : MemberIx)
  | receiverRecoveryExpiry
  | surveillanceExpiry (session : Slot)
  | penaltyEnd (member : MemberIx)
  | intervalReached
  | quietTimerExpiry
  | idPatternStart
  | idPatternComplete
  | qualificationExpiry (causeNow : Bool)
  -- notices between blocks
  | endNotice
  | revocationNotice (member : MemberIx)
  | privilegeNotice (member : MemberIx)
  | clearNotice (reason : ClearReason)
  | endCause (tag : Word) (reason : EndReason)
deriving DecidableEq, Repr

end Sys2Proof
end

