-- ==== Sys2Proof/Decode.lean ====
section
/-! DEFINITION. The commands that a word spells by the bits of spec/opcode_table.json. No row of that table gives any bits: the
commands are accesses, requests, pins and moments, not encoded words (notes/assumptions/21.md). -/

namespace Sys2Proof

/-- The command that the `_nbits` low bits of `_w` spell by the table's rows: none, since no row has bits. -/
def decodeTableWord (_nbits _w : Nat) : Option Instr := none

end Sys2Proof
end

