-- ==== Sys2Proof/Machine/Level.lean ====
section
/-! DEFINITION. The level arithmetic (R104) that members' audio, concealment and the identification share. -/

namespace Sys2Proof.Machine

/-- The fine-stage multipliers F[0]–F[11] (R104). -/
def fineTable : List Int := [32768, 30935, 29205, 27571, 26029, 24573, 23198, 21900, 20675, 19519, 18427, 17396]

/-- F[f]. -/
def fine (f : Nat) : Int := fineTable.getD f 0

/-- The coarse stage (R104 step 4): doubled for c = −1, otherwise shifted right by c, rounding toward minus infinity. -/
def coarse (c y : Int) : Int := if c < 0 then 2 * y else y / 2 ^ c.toNat

/-- Saturation to the range of a sample (R104 step 5). -/
def saturateSample (y : Int) : Int := max (-32768) (min 32767 y)

/-- The level arithmetic: sample `x` at an attenuation of `a` steps (R104). -/
def level (x a : Int) : Int :=
  if 96 ≤ a then 0 else saturateSample (coarse (a / 12) (x * fine (a % 12).toNat / 2 ^ 15))

end Sys2Proof.Machine
end

