-- ==== Sys2Proof/Config.lean ====
section
/-! DEFINITION. What the part fixes, and the free values: constants without a body, of which no proof can know a value.
The free values are drawn only by the step on an empty command queue (notes/assumptions/2.md and 4.md). -/

namespace Sys2Proof

/-- IDENT reads 5A24h (R168). -/
def Config.identValue : Word := 0x5A24

/-- The page revision is 1 for this part (R171). -/
def Config.pageRevision : Word := 1

/-- The DISABLE release time is fixed at 100 ms and is no station parameter (R147, R149). -/
def Config.disableReleaseMs : Nat := 100

/-- FREE VALUE. Which of the part's own events that are due at one moment is taken first: the manual says "either may be
taken first" throughout and gives no order (notes/assumptions/4.md). -/
opaque Config.eventChoice : Nat → Nat

/-- FREE VALUE. The receive sample the ADC gives when no ADC_SAMPLE command has given it (notes/assumptions/2.md). -/
opaque Config.rxSample : Nat → Word

/-- FREE VALUE. The level of the COS input (true: high) at such a sample. -/
opaque Config.cosLevel : Nat → Bool

/-- FREE VALUE. Whether the Key Controller takes a Supervisor's end cause in the event that sends it or after it
(R136: "at the same moment as the report, or after it"), where no command has said which. -/
opaque Config.causeAtOnce : Nat → Bool

end Sys2Proof
end

