-- ==== Sys2Proof/Machine/State.lean ====
section
/-! DEFINITION. Everything the manual gives the SQ-24 to hold, block by block in its own order, as plain data, and its
values right after a reset (R2, R8, R18, R34, R38, R60, R88, R107, R111, R123, R135, R150, R164, R167, R168, R172).

Timers. A running timer holds the time it still has to run, in SAMPLE PERIODS of 125 µs (8 to the millisecond): the finest
step of time the manual has (R107, R131). Where the manual itself compares station-clock values (a surveillance deadline, a
penalty end, the last-ID time, the fault history), the station-clock value is kept (notes/assumptions/3.md). -/

namespace Sys2Proof.Machine

/-! ## Tables -/

/-- A transmit trim: attenuation steps, −12 to +36, or MUTED (R1). -/
inductive Trim where
  | steps (n : Int)
  | muted
deriving DecidableEq, Repr

/-- A member record (R1). -/
structure Member where
  present : Bool
  grade : Nat
  controlOperator : Bool
  /-- Permitted channels: bit c stands for channel c (R174). -/
  permitted : Word
  priority : Nat
  /-- Seconds. -/
  maxKeyTime : Nat
  unmetered : Bool
  /-- Units of 100 ms; absent for an unmetered member. -/
  allowance : Option Nat
  /-- Remaining budget, units of 100 ms. -/
  remaining : Nat
  trim : Trim
  penaltyEnd : Option Clock
  grantCount : Nat
  lostCount : Nat
deriving DecidableEq, Repr

/-- The reset values of a member record (R2). -/
def Member.reset : Member where
  present := false
  grade := 1
  controlOperator := false
  permitted := 0
  priority := 0
  maxKeyTime := 10
  unmetered := false
  allowance := some 0
  remaining := 0
  trim := .steps 0
  penaltyEnd := none
  grantCount := 0
  lostCount := 0

/-- A channel record (R8). -/
structure Channel where
  present : Bool
  radioMemory : Nat
  minGrade : Nat
  /-- Seconds. -/
  maxKeyTime : Nat
  attenuation : Nat
  busyCheck : Bool
deriving DecidableEq, Repr

/-- The reset values of a channel record (R8). -/
def Channel.reset : Channel where
  present := false
  radioMemory := 0
  minGrade := 1
  maxKeyTime := 10
  attenuation := 0
  busyCheck := true

/-! ## Sessions -/

/-- FREE, OPEN, LOST (R18). -/
inductive SessionState where
  | free | opened | lost
deriving DecidableEq, Repr

/-- A session record (R18). -/
structure Session where
  state : SessionState
  member : Option MemberIx
  deadline : Option Clock
  lastEndReason : Option EndReason
  lastEndTag : Option Word
  requestsTaken : Nat
  blocksPlayed : Nat
  stale : Nat
  late : Nat
  overrun : Nat
  concealed : Nat
  /-- MODEL'S OWN. How many counter notices the session has had: each leads to a rewrite of its status record, also where the
  counter stays at 65535 (R30). -/
  counterNotices : Nat
  /-- The change count of the session's status record (R32). -/
  changeCount : Word
deriving DecidableEq, Repr

/-- A FREE session with nothing recorded (R18). The change count reads 2 once the start-up has written the record (R34). -/
def Session.reset : Session where
  state := .free
  member := none
  deadline := none
  lastEndReason := none
  lastEndTag := none
  requestsTaken := 0
  blocksPlayed := 0
  stale := 0
  late := 0
  overrun := 0
  concealed := 0
  counterNotices := 0
  changeCount := 0

/-! ## The Floor Arbiter -/

/-- A floor queue entry (R35). -/
structure Entry where
  session : Slot
  member : MemberIx
  channel : ChannelIx
  priority : Nat
  arrival : Word
  /-- Persist retries left; absent for a request that is not persistent. -/
  retries : Option Nat
  /-- The preempt mark. -/
  marked : Bool
deriving DecidableEq, Repr

/-- The granted-entry memory (R51, R52). The member and channel are kept with the session and the retries, since R52 makes
the new entry "for the same session, member and channel" (notes/assumptions/12.md). -/
structure GrantedEntry where
  session : Slot
  member : MemberIx
  channel : ChannelIx
  retries : Option Nat
deriving DecidableEq, Repr

/-- The Floor Arbiter's state (chapter 3's list, R38). -/
structure Floor where
  /-- Front first. -/
  queue : List Entry
  arrival : Word
  tagCounter : Word
  hold : Bool
  /-- The courtesy interval: time left, absent while it is not running (which counts as expired, R38). -/
  courtesy : Option Nat
  /-- The floor-idle indication (R43). -/
  idle : Bool
  granted : Option GrantedEntry
  /-- MODEL'S OWN. How many notices of its floor state or queue position each session has been sent (R33, R39, R41, R51); only
  whether a count has changed in an event is used (notes/assumptions/35.md). -/
  positionNotices : Vector Nat 16
deriving DecidableEq, Repr

/-- R38. -/
def Floor.reset : Floor where
  queue := []
  arrival := 0
  tagCounter := 0
  hold := false
  courtesy := none
  idle := true
  granted := none
  positionNotices := Vector.replicate 16 0

/-! ## The Key Controller -/

/-- MEMBER or IDENT (R59). -/
inductive GrantKind where
  | member | ident
deriving DecidableEq, Repr

/-- Where a grant stands (R59). IDLE is the absence of a grant record. -/
inductive GrantState where
  | changeover | waitClear | gap1 | gap2 | prebuffer | keyed | idSending | drain | tail
deriving DecidableEq, Repr

/-- The busy-wait timer of a grant (R65): not running (before the first WAIT_CLEAR, and after GAP2), running with the time
left, or expired with the expiry recorded. -/
inductive BusyWait where
  | off
  | running (left : Nat)
  | expired
deriving DecidableEq, Repr

/-- The grant record (R59) with the grant's timers (R63–R69, R79). -/
structure Grant where
  tag : Word
  kind : GrantKind
  session : Option Slot
  member : Option MemberIx
  channel : ChannelIx
  state : GrantState
  keyUpTime : Option Clock
  /-- Key time, in sample periods since key-up; the manual's key time in ms is an eighth of it (`Grant.keyTime`). -/
  keySamples : Nat
  /-- Key limit, ms; absent for IDENT. -/
  keyLimit : Option Nat
  finalCount : Option Word
  endReason : Option EndReason
  cutShort : Bool
  forced : Bool
  budgetExhausted : Bool
  reservationHeld : Bool
  /-- A key-up event of the grant was not made, and "the grant stays in its state until the Supervisor's end cause is taken"
  (R71), also where PTT is allowed again before then. -/
  keyUpHeld : Bool
  /-- How many accounting ticks have been sent (R74: one for each completed 100 ms). -/
  ticks : Nat
  changeoverLeft : Option Nat
  busyWait : BusyWait
  gap1Left : Option Nat
  gap2Left : Option Nat
  prebufferLeft : Option Nat
  tailLeft : Option Nat
deriving DecidableEq, Repr

/-- The Key Controller's state (R59–R61, R84). -/
structure KeyController where
  /-- The current grant record; absent in IDLE. -/
  grant : Option Grant
  /-- The PTT output. -/
  ptt : Bool
  /-- The CHSEL output, 0–63. -/
  chsel : Nat
  chselChannel : Option ChannelIx
  /-- The receiver recovery timer. -/
  recovery : Option Nat
  /-- MODEL'S OWN. The session whose grant ended TIMEOUT most recently, and the moment of that unkey as `State.periods` has it: a
  RELEASE that the session places at that moment is answered ALREADY, while its last end reason is that TIMEOUT (R76). -/
  timedOut : Option (Slot × Nat)
deriving DecidableEq, Repr

/-- R60. -/
def KeyController.reset : KeyController where
  grant := none
  ptt := false
  chsel := 0
  chselChannel := none
  recovery := none
  timedOut := none

/-! ## The Playout Engine -/

/-- The Playout Engine's state (R88). -/
structure Playout where
  currentTag : Option Word
  /-- The playout position p, a count. -/
  position : Nat
  /-- The boundary timer: time to the next block boundary; absent while stopped. -/
  boundary : Option Nat
  missingRun : Nat
  lastPlayed : Option (List Word)
  concealment : Bool
  depth : Nat
  depthLow : Bool
  depthHigh : Bool
  drainCount : Nat
  released : Nat
  discarded : Nat
  slip : Nat
  /-- What is left of the block handed to the DAC, the sample now given first; after it the DAC is given 0 (R91, R99). -/
  dacBlock : List Int
deriving DecidableEq, Repr

/-- R88. -/
def Playout.reset : Playout where
  currentTag := none
  position := 0
  boundary := none
  missingRun := 0
  lastPlayed := none
  concealment := false
  depth := 0
  depthLow := false
  depthHigh := false
  drainCount := 0
  released := 0
  discarded := 0
  slip := 0
  dacBlock := []

/-! ## The Receive Path and the Busy Detector -/

/-- The Receive Path's state (R107). -/
structure Receive where
  captureSequence : Word
  /-- The collection, oldest sample first. -/
  collection : List Word
  keyedMark : Bool
  overflow : Nat
deriving DecidableEq, Repr

/-- R107. -/
def Receive.reset : Receive where
  captureSequence := 0
  collection := []
  keyedMark := false
  overflow := 0

/-- The Busy Detector's hold sources (R118): a set, one flag for each of the four. -/
structure HoldSources where
  ptt : Bool
  recovery : Bool
  changeover : Bool
  request : Bool
deriving DecidableEq, Repr

/-- The Busy Detector's state (R111). -/
structure Detector where
  /-- The speech filter S. -/
  speech : Nat
  /-- The noise filter N. -/
  noise : Nat
  levelS : Nat
  levelN : Nat
  s0 : Bool
  s1 : Bool
  s2 : Bool
  previousS1 : Bool
  /-- The sampled COS: active or not. -/
  cos : Bool
  rawBusy : Bool
  debounced : Bool
  /-- The debounce run: absent, or its count. -/
  run : Option Nat
  holds : HoldSources
deriving DecidableEq, Repr

/-- R111. -/
def Detector.reset : Detector where
  speech := 0
  noise := 0
  levelS := 0
  levelN := 0
  s0 := false
  s1 := false
  s2 := false
  previousS1 := false
  cos := false
  rawBusy := false
  debounced := false
  run := none
  holds := { ptt := false, recovery := false, changeover := false, request := false }

/-! ## The Identification Sender -/

/-- The quiet timer: stopped, running or expired (R123, R126). -/
inductive QuietTimer where
  | stopped
  | running (left : Nat)
  | expired
deriving DecidableEq, Repr

/-- The Identification Sender's state (R123). -/
structure Ident where
  owed : Bool
  lastId : Option Clock
  intervalReached : Bool
  quiet : QuietTimer
  due : Bool
  /-- The pattern position, counted in samples from the pattern's first (`patternPart` gives the element or gap and the
  sample within it); absent outside the pattern. -/
  position : Option Nat
  /-- The tone phase P. -/
  phase : Word
  forcedCount : Nat
deriving DecidableEq, Repr

/-- R123. -/
def Ident.reset : Ident where
  owed := false
  lastId := none
  intervalReached := false
  quiet := .stopped
  due := false
  position := none
  phase := 0
  forcedCount := 0

/-! ## The Transmitter Supervisor -/

/-- FAULTS or KILLED (R135). -/
inductive LockoutReason where
  | faults | killed
deriving DecidableEq, Repr

/-- RELEASED, ASSERTED, RELEASING (R135). -/
inductive DisableState where
  | released | asserted | releasing
deriving DecidableEq, Repr

/-- A running qualification (R143): the station-clock time it started at, and the time it still has to run. -/
structure Qualification where
  since : Clock
  left : Nat
deriving DecidableEq, Repr

/-- The Transmitter Supervisor's state (R135). The lockout flag is set exactly while its reason is present. -/
structure Supervisor where
  /-- Run state: true for RUNNING. -/
  running : Bool
  lockout : Option LockoutReason
  /-- Fault history, oldest first. -/
  history : List Clock
  faultCount : Nat
  txfaultActive : Bool
  qualification : Option Qualification
  qualifiedThisKeying : Bool
  disable : DisableState
  releaseTimer : Option Nat
deriving DecidableEq, Repr

/-- R135, with TXFAULT active judged from an inactive input (R142). -/
def Supervisor.reset : Supervisor where
  running := false
  lockout := none
  history := []
  faultCount := 0
  txfaultActive := false
  qualification := none
  qualifiedThisKeying := false
  disable := .released
  releaseTimer := none

/-! ## The Station Log, the Request Cell Unit and the Host Bus Interface -/

/-- The Station Log's state (R150); its entries stand in the exchange memory. -/
structure StationLog where
  next : Word
  lastMark : Word
  reserved : Bool
  markInvalid : Nat
deriving DecidableEq, Repr

/-- R150. -/
def StationLog.reset : StationLog where
  next := 0
  lastMark := 0
  reserved := false
  markInvalid := 0

/-- The Request Cell Unit's state (R164) and its attention-while-held count (R163, R171). -/
structure Cells where
  /-- The pending set: which cells wait for service. -/
  waiting : Vector Bool 17
  /-- The round-robin pointer: the session cell served most recently. -/
  pointer : Slot
  attentionHeld : Nat
deriving DecidableEq, Repr

/-- R164: the pending set empty, the pointer at 16. -/
def Cells.reset : Cells where
  waiting := Vector.replicate 17 false
  pointer := 15
  attentionHeld := 0

/-- The Host Bus Interface's registers (R168–R170) and figures (R171). IDENT, STATUS and INT# are computed
(`readRegister`, `interrupt`); CONTROL holds its two enable bits. -/
structure Bus where
  answerEnable : Bool
  newsEnable : Bool
  answered : Word
  news : Word
  events : Word
  eventEnable : Word
  writeToReadOnly : Nat
  /-- The change count of the station status page (R171). -/
  pageCount : Word
  /-- The word the part last drove on D[15:0] for a host read. -/
  data : Word
deriving DecidableEq, Repr

/-- R168: every register 0. -/
def Bus.reset : Bus where
  answerEnable := false
  newsEnable := false
  answered := 0
  news := 0
  events := 0
  eventEnable := 0
  writeToReadOnly := 0
  pageCount := 0
  data := 0

/-- Where a reset stands (R172, R173): RESET# asserted, the start-up clearing running, or STATUS.READY at 1. -/
inductive Phase where
  | held | clearing | ready
deriving DecidableEq, Repr

/-! ## Station parameters -/

/-- S0, S1 or S2 (R115). -/
inductive BusySource where
  | s0 | s1 | s2
deriving DecidableEq, Repr

/-- Every station parameter (11.3, R167, R175), in the units of SET STATION's words. -/
structure Params where
  surveillance : Nat
  holderSurveillance : Nat
  courtesy : Nat
  changeover : Nat
  busyWait : Nat
  gap1 : Nat
  gap2 : Nat
  prebufferTarget : Nat
  prebufferLimit : Nat
  maxDepth : Nat
  audioLoss : Nat
  drainLimit : Nat
  txDelay : Nat
  tail : Nat
  recovery : Nat
  timeoutPenalty : Nat
  faultQualify : Nat
  faultWindow : Nat
  lockoutCount : Nat
  idInterval : Nat
  idEndDelay : Nat
  idBusyLimit : Nat
  idUnit : Nat
  idTone : Nat
  idAttenuation : Nat
  decayCode : Nat
  threshold : Nat
  hysteresis : Nat
  debounce : Nat
  busySource : BusySource
  autoIntegrate : Bool
  cosUse : Bool
  /-- True for low active. -/
  cosLowActive : Bool
  /-- True for low active. -/
  txfaultLowActive : Bool
  /-- Character codes of the Morse table (11.3). -/
  idText : List Nat
deriving DecidableEq, Repr

/-- The defaults, from the chapters that use each parameter (R167). -/
def Params.reset : Params where
  surveillance := 3000
  holderSurveillance := 1000
  courtesy := 1000
  changeover := 150
  busyWait := 5000
  gap1 := 400
  gap2 := 100
  prebufferTarget := 4
  prebufferLimit := 500
  maxDepth := 12
  audioLoss := 25
  drainLimit := 20
  txDelay := 40
  tail := 200
  recovery := 100
  timeoutPenalty := 30
  faultQualify := 10
  faultWindow := 120
  lockoutCount := 3
  idInterval := 600
  idEndDelay := 30
  idBusyLimit := 10
  idUnit := 60
  idTone := 800
  idAttenuation := 12
  decayCode := 2
  threshold := 8
  hysteresis := 3
  debounce := 14
  busySource := .s2
  autoIntegrate := true
  cosUse := false
  cosLowActive := false
  txfaultLowActive := false
  idText := []

/-! ## The exchange memory and the notices between blocks -/

/-- The exchange memory: (word address, word) pairs, addresses strictly rising, no word 0 listed. An unlisted word reads
0, which the start-up clearing leaves in every word (R172). -/
abbrev Memory := List (Nat × Word)

/-- A notice one block has sent and another has not yet taken. The manual takes each in an event of its own that may come
before or after other events (R5, R6, R43, R58, R75, R80, R136). -/
inductive Notice where
  /-- The Key Controller's end notice (R43). -/
  | ended (kind : GrantKind) (tag : Word) (session : Option Slot) (reason : EndReason)
  /-- An end cause sent to the Key Controller with a grant's tag (R80). -/
  | cause (tag : Word) (reason : EndReason)
  /-- The Member Table's revocation notice (R5). -/
  | revocation (member : MemberIx)
  /-- The Member Table's privilege notice (R6). -/
  | privilege (member : MemberIx)
  /-- The Member Table's notice of a changed max key time (R17). -/
  | keyLimit (member : MemberIx)
  /-- The Transmitter Supervisor's clear notice (R58). -/
  | clear (reason : ClearReason)
deriving DecidableEq, Repr

/-! ## The machine -/

structure State where
  members : Vector Member 64
  channels : Vector Channel 16
  sessions : Vector Session 16
  floor : Floor
  key : KeyController
  playout : Playout
  receive : Receive
  detector : Detector
  ident : Ident
  supervisor : Supervisor
  log : StationLog
  cells : Cells
  bus : Bus
  params : Params
  mem : Memory
  phase : Phase
  /-- Sample periods of 125 µs since STATUS.READY became 1: the station clock is an eighth of it, modulo 2^32. -/
  periods : Nat
  /-- The TXFAULT input: true while high. -/
  txfaultPin : Bool
  /-- The DISABLE input: true while active (switch closed). -/
  disablePin : Bool
  /-- MODEL'S OWN. Notices sent and not yet taken, oldest first. -/
  notices : List Notice
  /-- MODEL'S OWN. Receive samples whose time has come and which no sample event has taken yet. -/
  samplesOwed : Nat
  /-- MODEL'S OWN. Status page rewrites whose time has come and which have not been made yet. -/
  pagesOwed : Nat
  /-- MODEL'S OWN. How many free choices the idle step has drawn: the argument of the free values. -/
  choices : Nat
  /-- The commands that wait, first in, first out. -/
  pending : List Instr
deriving DecidableEq, Repr

/-- No command of the SQ-24 stops the part with a fault: the manual gives every host access, request, notice and timer an
effect in every state, and accesses above 8007h are ignored (R160). The type has no constructor, so no step can fault (safe:
nothing is hidden by it). -/
inductive Fault
deriving DecidableEq, Repr

/-- Reasons for refusing a command. -/
inductive Refusal where
  /-- Raised by no arm of this model: every row of the table has its meaning. Safe: a refusal claims nothing. -/
  | notModelled (mnemonic : String)
deriving DecidableEq, Repr

/-- The part with RESET# just released after a hardware reset, the start-up clearing begun (R172), both inputs inactive and
no command waiting: every block at its reset values, STATUS.READY 0. -/
def State.reset : State where
  members := Vector.replicate 64 Member.reset
  channels := Vector.replicate 16 Channel.reset
  sessions := Vector.replicate 16 Session.reset
  floor := Floor.reset
  key := KeyController.reset
  playout := Playout.reset
  receive := Receive.reset
  detector := Detector.reset
  ident := Ident.reset
  supervisor := Supervisor.reset
  log := StationLog.reset
  cells := Cells.reset
  bus := Bus.reset
  params := Params.reset
  mem := []
  phase := .clearing
  periods := 0
  txfaultPin := false
  disablePin := false
  notices := []
  samplesOwed := 0
  pagesOwed := 0
  choices := 0
  pending := []

end Sys2Proof.Machine
end

