-- ==== Sys2Proof/Machine/Ops.lean ====
section
/-! DEFINITION. The named operations on memory, tables, notices and time that every meaning is written with. -/

namespace Sys2Proof.Machine

/-! ## The exchange memory -/

/-- One word of the exchange memory as it stands; an unlisted word reads 0 (R172). -/
def Memory.read : Memory → Nat → Word
  | [], _ => 0
  | (k, v) :: rest, a => if k = a then v else Memory.read rest a

/-- Stores one word, keeping the canonical form: storing 0 leaves the word unlisted (R160). -/
def Memory.write : Memory → Nat → Word → Memory
  | [], a, w => if w = 0 then [] else [(a, w)]
  | (k, v) :: rest, a, w =>
    if a < k then (if w = 0 then (k, v) :: rest else (a, w) :: (k, v) :: rest)
    else if a = k then (if w = 0 then rest else (a, w) :: rest)
    else (k, v) :: Memory.write rest a w

/-- Stores words one after another from a first address. -/
def Memory.writeAll : Memory → Nat → List Word → Memory
  | m, _, [] => m
  | m, a, w :: ws => Memory.writeAll (m.write a w) (a + 1) ws

/-- Whether every address of `m` is above `a`. -/
def Memory.above (a : Nat) (m : Memory) : Bool := m.all fun c => a < c.1

/-- The canonical form: addresses strictly rising, no word 0 listed. -/
def Memory.wf : Memory → Bool
  | [] => true
  | (k, v) :: rest => v != 0 && Memory.above k rest && Memory.wf rest

/-! ## Lists of every index -/

/-- The slots of sessions 1 to 16, in order. -/
def allSlots : List Slot := List.finRange 16

/-- The member indexes 0 to 63, in order. -/
def allMembers : List MemberIx := List.finRange 64

/-- The cells 0 to 16, in order. -/
def allCells : List Cell := List.finRange 17

namespace State

/-! ## Reading and replacing one block's state -/

/-- The station clock (00_scope.md, Time): milliseconds since READY, modulo 2^32. -/
def clock (s : State) : Clock := BitVec.ofNat 32 (s.periods / 8)

def member (s : State) (m : MemberIx) : Member := s.members[m]
def channel (s : State) (c : ChannelIx) : Channel := s.channels[c]
def session (s : State) (n : Slot) : Session := s.sessions[n]

/-- The member record of a member that may be absent from a record: an absent index reads as an absent member. -/
def memberOf (s : State) : Option MemberIx → Member
  | none => Member.reset
  | some m => s.member m

def withMember (s : State) (m : MemberIx) (r : Member) : State := { s with members := s.members.set m r }
def withChannel (s : State) (c : ChannelIx) (r : Channel) : State := { s with channels := s.channels.set c r }
def withSession (s : State) (n : Slot) (r : Session) : State := { s with sessions := s.sessions.set n r }
def withFloor (s : State) (f : Floor) : State := { s with floor := f }
def withKey (s : State) (k : KeyController) : State := { s with key := k }
def withPlayout (s : State) (p : Playout) : State := { s with playout := p }
def withReceive (s : State) (r : Receive) : State := { s with receive := r }
def withDetector (s : State) (d : Detector) : State := { s with detector := d }
def withIdent (s : State) (i : Ident) : State := { s with ident := i }
def withSupervisor (s : State) (v : Supervisor) : State := { s with supervisor := v }
def withLog (s : State) (l : StationLog) : State := { s with log := l }
def withCells (s : State) (c : Cells) : State := { s with cells := c }
def withBus (s : State) (b : Bus) : State := { s with bus := b }
def withParams (s : State) (p : Params) : State := { s with params := p }
def withMem (s : State) (m : Memory) : State := { s with mem := m }
def withNotices (s : State) (ns : List Notice) : State := { s with notices := ns }

/-- Replaces the current grant record, or discards it. -/
def withGrant (s : State) (g : Option Grant) : State := s.withKey { s.key with grant := g }

/-- Sends a notice: it is taken later, by the command that names it. -/
def notify (s : State) (n : Notice) : State := s.withNotices (s.notices ++ [n])

/-- One word of the exchange memory. -/
def read (s : State) (a : Nat) : Word := s.mem.read a

/-- A part-side or host-side store of one word. -/
def write (s : State) (a : Nat) (w : Word) : State := s.withMem (s.mem.write a w)

/-- A store of several words from a first address. -/
def writeAll (s : State) (a : Nat) (ws : List Word) : State := s.withMem (s.mem.writeAll a ws)

end State

/-! ## Station-clock comparison and time left -/

/-- Whether the station clock has reached `t`: (clock − t) mod 2^32 is less than 2^31 (R15). -/
def reached (now t : Clock) : Bool := (now - t).toNat < 2 ^ 31

/-- Milliseconds as sample periods. -/
def ms (n : Nat) : Nat := 8 * n

/-- Seconds as sample periods. -/
def seconds (n : Nat) : Nat := 8000 * n

/-- A station-clock time `n` milliseconds after `t`. -/
def Clock.plus (t : Clock) (n : Nat) : Clock := t + BitVec.ofNat 32 n

/-- Time left until the station clock reaches `t`, in sample periods; 0 once it has. -/
def State.leftTo (s : State) (t : Clock) : Nat :=
  if reached s.clock t then 0 else 8 * (t - s.clock).toNat - s.periods % 8

/-- A timer started with `n` sample periods. A time of 0 "expires at the moment it starts": the event that starts it goes
on at once, and no timer is left running. -/
def startTimer (n : Nat) : Option Nat := if n = 0 then none else some n

/-- The key time in ms (R59). -/
def Grant.keyTime (g : Grant) : Nat := g.keySamples / 8

/-- A grant that has keyed and not yet unkeyed: KEYED, DRAIN, TAIL or ID_SENDING. -/
def GrantState.onAir : GrantState → Bool
  | .keyed | .drain | .tail | .idSending => true
  | .changeover | .waitClear | .gap1 | .gap2 | .prebuffer => false

/-- A MEMBER grant that has keyed: KEYED, DRAIN or TAIL. -/
def GrantState.memberOnAir : GrantState → Bool
  | .keyed | .drain | .tail => true
  | .changeover | .waitClear | .gap1 | .gap2 | .prebuffer | .idSending => false

/-- The session holds the current grant. -/
def State.holds (s : State) (n : Slot) : Bool :=
  match s.key.grant with
  | none => false
  | some g => g.session == some n

/-- The session holds the current grant in KEYED, DRAIN or TAIL (R26, R27). -/
def State.holdsOnAir (s : State) (n : Slot) : Bool :=
  match s.key.grant with
  | none => false
  | some g => g.session == some n && g.state.memberOnAir

/-- The session's floor queue entry, if it has one. -/
def State.entryOf (s : State) (n : Slot) : Option Entry := s.floor.queue.find? fun e => e.session == n

/-- The queue position of session n, 1–16, while it has an entry (R35). -/
def Floor.positionOf (f : Floor) (n : Slot) : Option Nat := (f.queue.findIdx? fun e => e.session == n).map (· + 1)

/-- The queue becomes `q` by one join or one departure, and each session whose floor state or queue position that changes is
sent a notice (R39, R41, R51). A position that a later change of the same event restores has been notified all the same. -/
def Floor.withQueue (f : Floor) (q : List Entry) : Floor :=
  let t := { f with queue := q }
  { t with positionNotices := Vector.ofFn fun n =>
      if t.positionOf n = f.positionOf n then f.positionNotices[n] else f.positionNotices[n] + 1 }

/-- Session n's entry, if it has one, leaves the queue, and the entries behind it move up (R39). DEDUCED
(notes/assumptions/38.md): those ahead of it keep their positions, a skipped one of R48 included, though R48 says that a skipped
entry's position falls by one as a granted entry behind it leaves. -/
def Floor.without (f : Floor) (n : Slot) : Floor := f.withQueue (f.queue.filter fun e => e.session != n)

end Sys2Proof.Machine
end

