-- ==== Sys2Proof/Machine/Flags.lean ====
section
/-! DEFINITION. Every flag the manual gives: the EVENTS bits (R170), the ANSWERED and NEWS bits (R169), the STATUS bits
(R168), INT# (R170), the PTT report (R136), and the yes/no conditions on a state that several blocks read. -/

namespace Sys2Proof.Machine

/-- The thirteen event bits (R170). -/
inductive EventBit where
  | stationAnswer | logAppended | logFull | lockout | fault | disableChange | busyChange | detectorChange | rxReady
  | rxOverflow | abnormal | pttChange | idSent
deriving DecidableEq, Repr

/-- The bit number of each event (R170). -/
def EventBit.index : EventBit → Nat
  | .stationAnswer => 0
  | .logAppended => 1
  | .logFull => 2
  | .lockout => 3
  | .fault => 4
  | .disableChange => 5
  | .busyChange => 6
  | .detectorChange => 7
  | .rxReady => 8
  | .rxOverflow => 9
  | .abnormal => 10
  | .pttChange => 11
  | .idSent => 12

/-- The word with bit `k` alone. -/
def bitWord (k : Nat) : Word := 1#16 <<< k

/-- Sets EVENTS bits. -/
def State.raise (s : State) (e : EventBit) : State :=
  s.withBus { s.bus with events := s.bus.events ||| bitWord e.index }

/-- Sets ANSWERED bit n−1 (R169). -/
def State.setAnswered (s : State) (n : Slot) : State :=
  s.withBus { s.bus with answered := s.bus.answered ||| bitWord n.val }

/-- Sets NEWS bit n−1 (R33, R169). -/
def State.setNews (s : State) (n : Slot) : State :=
  s.withBus { s.bus with news := s.bus.news ||| bitWord n.val }

/-- INT# is asserted (R170). -/
def State.interrupt (s : State) : Bool :=
  s.bus.events &&& s.bus.eventEnable != 0
    || (s.bus.answered != 0 && s.bus.answerEnable)
    || (s.bus.news != 0 && s.bus.newsEnable)

/-- STATUS.READY (R168). -/
def State.ready (s : State) : Bool := s.phase == .ready

/-- The Supervisor's PTT report: PTT is forbidden (R136), and while STATUS.READY is 0 (R61). -/
def State.pttForbidden (s : State) : Bool :=
  !s.supervisor.running || s.supervisor.lockout.isSome || s.supervisor.disable != .released || !s.ready

/-- The reasons of the Supervisor's end causes (R136). -/
def supervisorReason : EndReason → Bool
  | .killed | .fault | .disabled | .stopped => true
  | .released | .cancelled | .timeout | .budget | .channelBusy | .noAudio | .paNotReady | .logFull | .linkLost | .closed | .ejected
  | .revoked | .audioLost | .preempted | .idDone | .notPermitted | .noBudget | .lockedOut => false

/-- An end cause of the Supervisor sent to grant `tag` (R136). -/
def Notice.supervisorCause (tag : Word) : Notice → Bool
  | .cause t r => t == tag && supervisorReason r
  | .ended _ _ _ _ | .revocation _ | .privilege _ | .keyLimit _ | .clear _ => false

/-- The Supervisor has sent grant `tag` an end cause that the Key Controller has not yet taken (R136). -/
def State.supervisorCauseWaits (s : State) (tag : Word) : Bool := s.notices.any (·.supervisorCause tag)

/-- A key-up event of grant `g` is not made: the Supervisor reports PTT forbidden (R71); or an earlier key-up event of the grant was
not made, and it stays in its state until the Supervisor's end cause is taken (R71); or that cause is on its way to it. DEDUCED
(notes/assumptions/39.md): the last also where the report has been withdrawn and no key-up event has come before, since the grant
keeps its state with PTT released until the cause is taken (R61, R136) and ends without keying (R138, R146). -/
def State.barsKeyUp (s : State) (g : Grant) : Bool := s.pttForbidden || g.keyUpHeld || s.supervisorCauseWaits g.tag

/-- The STATUS register (R168). -/
def State.status (s : State) : Word :=
  flagWord s.ready
    ||| flagWord s.supervisor.running <<< 1
    ||| flagWord s.supervisor.lockout.isSome <<< 2
    ||| flagWord (s.supervisor.disable != .released) <<< 3
    ||| flagWord s.key.ptt <<< 4
    ||| flagWord s.floor.hold <<< 5
    ||| flagWord s.supervisor.txfaultActive <<< 6
    ||| flagWord s.interrupt <<< 7

/-- TXFAULT as judged at its programmed active level (R142). -/
def State.txfaultJudged (s : State) : Bool := s.txfaultPin != s.params.txfaultLowActive

/-- The floor is quiet (R126): no grant exists, as the floor-idle indication has it, and the queue is empty. -/
def State.floorQuiet (s : State) : Bool := s.floor.idle && s.floor.queue.isEmpty

/-- The ID text is empty: it holds no character other than space, code 37 (R123). -/
def Params.idTextEmpty (p : Params) : Bool := p.idText.all (· == 37)

/-- The Busy Detector is held (R118). -/
def Detector.held (d : Detector) : Bool := d.holds.ptt || d.holds.recovery || d.holds.changeover || d.holds.request

/-- A timeout penalty in force: R15's part 2. DEDUCED (notes/assumptions/33.md): at the moment the station clock reaches the
penalty end, and before PENALTY_END is taken, the penalty is by that definition no longer in force, so an arbitration taken
then does not skip the entry, although R15's "Check taken first" has the entry skipped. -/
def State.penaltyInForce (s : State) (m : MemberIx) : Bool :=
  match (s.member m).penaltyEnd with
  | none => false
  | some t => !reached s.clock t

end Sys2Proof.Machine
end

