-- ==== Sys2Proof/Machine/Operands.lean ====
section
/-! DEFINITION. Operand forms and codes: the layout of the exchange memory (R161), the request cell (R162, 11.2), the forms
of arguments (R174), the arguments of SET STATION (11.3, R175), and the codes of 11.2 and 11.5. -/

namespace Sys2Proof.Machine

/-! ## Addresses (R161) -/

/-- Cell c begins at 0100h + 64·c. -/
def cellBase (c : Cell) : Nat := 0x100 + 64 * c.val
/-- Session status record n, at 0600h + 32·(n−1). -/
def recordBase (n : Slot) : Nat := 0x600 + 32 * n.val
/-- The station log's place k, at 0800h + 16·k. -/
def logBase (k : Nat) : Nat := 0x800 + 16 * k
/-- Transmit place i, at 1000h + 168·i (R85). -/
def txBase (i : Nat) : Nat := 0x1000 + 168 * i
/-- Receive place j, at 4000h + 168·j (R106). -/
def rxBase (j : Nat) : Nat := 0x4000 + 168 * j
/-- The read mark (R153). -/
def markAddress : Nat := 0x40
/-- The exchange memory holds 0000h–7FFFh. -/
def memorySize : Nat := 0x8000

/-! ## Codes (11.2, 11.5) -/

/-- Answer codes (11.2). -/
inductive AnswerCode where
  | done | queued | badRequest | badValue | notPermitted | stopped | lockedOut | noBudget | already | notHolding
  | sessionLost | sessionFree | inUse | duplicate | busy
deriving DecidableEq, Repr

def AnswerCode.code : AnswerCode → Nat
  | .done => 0
  | .queued => 1
  | .badRequest => 2
  | .badValue => 3
  | .notPermitted => 4
  | .stopped => 5
  | .lockedOut => 6
  | .noBudget => 7
  | .already => 8
  | .notHolding => 9
  | .sessionLost => 10
  | .sessionFree => 11
  | .inUse => 12
  | .duplicate => 13
  | .busy => 14

/-- DONE and QUEUED carry answer words; every other answer carries 0 in each (R165). -/
def AnswerCode.carriesWords : AnswerCode → Bool
  | .done | .queued => true
  | .badRequest | .badValue | .notPermitted | .stopped | .lockedOut | .noBudget | .already | .notHolding | .sessionLost
  | .sessionFree | .inUse | .duplicate | .busy => false

/-- An answer: its code, the CLAMPED flag and its answer words (R162). -/
structure Answer where
  code : AnswerCode
  clamped : Bool
  words : List Word
deriving DecidableEq, Repr

/-- An answer with no answer words. -/
def Answer.plain (c : AnswerCode) : Answer := { code := c, clamped := false, words := [] }

/-- End reason codes (11.5); an absent reason is 0. -/
def endReasonCode : EndReason → Nat
  | .released => 1
  | .cancelled => 2
  | .timeout => 3
  | .budget => 4
  | .channelBusy => 5
  | .noAudio => 6
  | .paNotReady => 7
  | .logFull => 8
  | .linkLost => 9
  | .closed => 10
  | .ejected => 11
  | .revoked => 12
  | .audioLost => 13
  | .preempted => 14
  | .killed => 15
  | .fault => 16
  | .disabled => 17
  | .stopped => 18
  | .idDone => 19
  | .notPermitted => 20
  | .noBudget => 21
  | .lockedOut => 22

/-- Key Controller state codes (11.5); IDLE is 0. -/
def GrantState.code : GrantState → Nat
  | .changeover => 1
  | .waitClear => 2
  | .gap1 => 3
  | .gap2 => 4
  | .prebuffer => 5
  | .keyed => 6
  | .idSending => 7
  | .drain => 8
  | .tail => 9

/-- The end reason a clear notice records (R58). -/
def clearEndReason : ClearReason → EndReason
  | .stopped => .stopped
  | .lockedOut => .lockedOut

/-! ## Request kinds (11.2, R166) -/

/-- What a cell's kind word asks for, in a cell of its own type. -/
inductive Request where
  | nop | start | stop | holdFloor | resumeFloor | setStation | setMember | readMember | setChannel | readChannel | refill
  | openSession | closeSession | clearLockout | kill | detectorHold | detectorRelease
  | keepalive | key | release | preempt | killFromSession | clearLockoutFromSession | eject | holdFloorFromSession
  | resumeFloorFromSession
  | undefinedRequest
deriving DecidableEq, Repr

/-- The station kinds by code. -/
def stationKind : Nat → Request
  | 0x01 => .nop
  | 0x02 => .start
  | 0x03 => .stop
  | 0x04 => .holdFloor
  | 0x05 => .resumeFloor
  | 0x06 => .setStation
  | 0x07 => .setMember
  | 0x08 => .readMember
  | 0x09 => .setChannel
  | 0x0A => .readChannel
  | 0x0B => .refill
  | 0x0C => .openSession
  | 0x0D => .closeSession
  | 0x0E => .clearLockout
  | 0x0F => .kill
  | 0x10 => .detectorHold
  | 0x11 => .detectorRelease
  | _ => .undefinedRequest

/-- The session kinds by code. -/
def sessionKind : Nat → Request
  | 0x20 => .keepalive
  | 0x21 => .key
  | 0x22 => .release
  | 0x23 => .preempt
  | 0x24 => .killFromSession
  | 0x25 => .clearLockoutFromSession
  | 0x26 => .eject
  | 0x27 => .holdFloorFromSession
  | 0x28 => .resumeFloorFromSession
  | _ => .undefinedRequest

/-- The request a cell holds, by the cell's type and its kind word; a kind of the other type of cell is undefined here
(R166). -/
def State.requestIn (s : State) (c : Cell) : Request :=
  if c = 0 then stationKind (s.read (cellBase c + 1)).toNat else sessionKind (s.read (cellBase c + 1)).toNat

/-- The cell the Request Cell Unit serves next (R164): cell 0 if it is pending, otherwise the first pending session cell
after the pointer, round again from 1. -/
def State.nextCell (s : State) : Option Cell :=
  if s.cells.waiting[(0 : Cell)] then some 0
  else ((allSlots.map fun k => s.cells.pointer + 1 + k).find? fun n => s.cells.waiting[n.cell]).map Slot.cell

/-! ## Arguments (R174) -/

/-- Argument word i of a cell: cell word 3 + i. -/
def State.argument (s : State) (c : Cell) (i : Nat) : Word := s.read (cellBase c + 3 + i)

/-- A yes/no or on/off argument: 0 no, 1 yes, any other value an undefined code. -/
def yesNo (w : Word) : Option Bool := if w = 0 then some false else if w = 1 then some true else none

/-- A member index argument, 0–63. -/
def memberArg (w : Word) : Option MemberIx := if h : w.toNat < 64 then some ⟨w.toNat, h⟩ else none

/-- A channel argument, 0–15. -/
def channelArg (w : Word) : Option ChannelIx := if h : w.toNat < 16 then some ⟨w.toNat, h⟩ else none

/-- A slot argument, 1–16. -/
def slotArg (w : Word) : Option Slot := if h : 1 ≤ w.toNat ∧ w.toNat ≤ 16 then some ⟨w.toNat - 1, by omega⟩ else none

/-- A transmit trim argument: 8000h means MUTED, otherwise a signed number of steps (R174). -/
def trimArg (w : Word) : Trim := if w = 0x8000 then .muted else .steps w.toInt

/-- A transmit trim as an answer word. -/
def Trim.word : Trim → Word
  | .muted => 0x8000
  | .steps n => intWord n

/-! ## SET STATION (11.3, R167, R175) -/

/-- Two bits of the option word. -/
def optionField (w : Word) (low : Nat) : Nat := (w.toNat >>> low) % 4

/-- The busy source code. -/
def busySourceArg : Nat → Option BusySource
  | 0 => some .s0
  | 1 => some .s1
  | 2 => some .s2
  | _ => none

/-- An on/off or high/low code of the option word. -/
def optionFlag : Nat → Option Bool
  | 0 => some false
  | 1 => some true
  | _ => none

/-- Character i of the ID text: character 2k in the low byte of word 31 + k, character 2k+1 in its high byte (R175). -/
def State.textCharacter (s : State) (c : Cell) (i : Nat) : Nat :=
  let w := (s.argument c (31 + i / 2)).toNat
  if i % 2 = 0 then w % 256 else w / 256

/-- The ID text: refused for a length above 16 or a code outside the table, 0–37, among its first length characters. -/
def State.idTextArg (s : State) (c : Cell) : Option (List Nat) :=
  let length := (s.argument c 30).toNat
  if length ≤ 16 then
    let text := (List.range length).map (s.textCharacter c)
    if text.all (· ≤ 37) then some text else none
  else none

/-- The codes of SET STATION's option word and its ID text, all checked before anything is clamped (R167 step 2). -/
structure StationCodes where
  busySource : BusySource
  autoIntegrate : Bool
  cosUse : Bool
  cosLowActive : Bool
  txfaultLowActive : Bool
  idText : List Nat
deriving DecidableEq, Repr

def State.stationCodes (s : State) (c : Cell) : Option StationCodes :=
  let options := s.argument c 29
  match busySourceArg (optionField options 0), optionFlag (optionField options 2), optionFlag (optionField options 4),
    optionFlag (optionField options 6), optionFlag (optionField options 8), s.idTextArg c with
  | some source, some auto, some use, some cosLow, some faultLow, some text =>
    some { busySource := source, autoIntegrate := auto, cosUse := use, cosLowActive := cosLow,
           txfaultLowActive := faultLow, idText := text }
  | _, _, _, _, _, _ => none

/-- A surveillance period: clamped, then rounded down to a multiple of 100 ms (R167 step 3). -/
def surveillanceArg (lo hi x : Nat) : Nat := clamp lo hi x / 100 * 100

/-- Every parameter, clamped (R167 step 3) to the range its chapter gives. -/
def State.stationParams (s : State) (c : Cell) (k : StationCodes) : Params :=
  let a := fun i => (s.argument c i).toNat
  let target := clamp 1 16 (a 7)
  { surveillance := surveillanceArg 500 10000 (a 0)
    holderSurveillance := surveillanceArg 200 3000 (a 1)
    courtesy := clamp 0 5000 (a 2)
    changeover := clamp 0 1000 (a 3)
    busyWait := clamp 0 30000 (a 4)
    gap1 := clamp 0 2000 (a 5)
    gap2 := clamp 0 1000 (a 6)
    prebufferTarget := target
    prebufferLimit := clamp 100 2000 (a 8)
    maxDepth := clamp (target + 1) 60 (a 9)
    audioLoss := clamp 5 250 (a 10)
    drainLimit := clamp 1 60 (a 11)
    txDelay := clamp 0 200 (a 12)
    tail := clamp 0 1000 (a 13)
    recovery := clamp 0 500 (a 14)
    timeoutPenalty := clamp 0 120 (a 15)
    faultQualify := clamp 0 100 (a 16)
    faultWindow := clamp 10 600 (a 17)
    lockoutCount := clamp 1 3 (a 18)
    idInterval := clamp 60 900 (a 19)
    idEndDelay := clamp 5 300 (a 20)
    idBusyLimit := clamp 0 60 (a 21)
    idUnit := clamp 40 240 (a 22)
    idTone := clamp 300 1200 (a 23)
    idAttenuation := clamp 0 60 (a 24)
    decayCode := clamp 0 3 (a 25)
    threshold := clamp 0 63 (a 26)
    hysteresis := clamp 0 31 (a 27)
    debounce := clamp 0 50 (a 28)
    busySource := k.busySource
    autoIntegrate := k.autoIntegrate
    cosUse := k.cosUse
    cosLowActive := k.cosLowActive
    txfaultLowActive := k.txfaultLowActive
    idText := k.idText }

/-- The numeric parameters in the order of SET STATION's words 0–28. -/
def Params.numbers (p : Params) : List Nat :=
  [p.surveillance, p.holderSurveillance, p.courtesy, p.changeover, p.busyWait, p.gap1, p.gap2, p.prebufferTarget,
   p.prebufferLimit, p.maxDepth, p.audioLoss, p.drainLimit, p.txDelay, p.tail, p.recovery, p.timeoutPenalty,
   p.faultQualify, p.faultWindow, p.lockoutCount, p.idInterval, p.idEndDelay, p.idBusyLimit, p.idUnit, p.idTone,
   p.idAttenuation, p.decayCode, p.threshold, p.hysteresis, p.debounce]

/-- Whether SET STATION's CLAMPED flag is set: some value was clamped or rounded (R167 step 4). -/
def State.stationClamped (s : State) (c : Cell) (p : Params) : Bool :=
  p.numbers != (List.range 29).map fun i => (s.argument c i).toNat

end Sys2Proof.Machine
end

