-- ==== Sys2Proof/Machine/Records.lean ====
section
/-! DEFINITION. The records the part writes into the exchange memory for the host to read: the session status records (R31–R34),
the station status page (R171), and the word forms of R174 and R176. -/

namespace Sys2Proof.Machine

/-! ## Word forms (R174) -/

/-- An optional 16-bit field whose absence is shown as 0. -/
def orZero : Option Word → Word
  | none => 0
  | some w => w

/-- A session number, 0 while absent. -/
def slotWord : Option Slot → Word
  | none => 0
  | some n => word n.number

/-- A member index, FFFFh while absent. -/
def memberWord : Option MemberIx → Word
  | none => 0xFFFF
  | some m => word m.val

/-- A channel, FFFFh while absent. -/
def channelWord : Option ChannelIx → Word
  | none => 0xFFFF
  | some c => word c.val

/-- An end reason, 0 while absent. -/
def reasonWord : Option EndReason → Word
  | none => 0
  | some r => word (endReasonCode r)

/-- The low word of a 32-bit value. -/
def lowWord (t : Clock) : Word := t.setWidth 16

/-- The high word of a 32-bit value. -/
def highWord (t : Clock) : Word := (t >>> 16).setWidth 16

/-- Flags as the bits of a word, the first in bit 0. -/
def flagsWord : List Bool → Word
  | [] => 0
  | b :: rest => flagWord b ||| (flagsWord rest <<< 1)

/-! ## The session status record -/

/-- Floor states (R31). -/
inductive FloorState where
  | none | queued | granted | keyed | draining
deriving DecidableEq, Repr

/-- What the grant's state shows to its holder (R31). -/
def GrantState.floorState : GrantState → FloorState
  | .changeover | .waitClear | .gap1 | .gap2 | .prebuffer => .granted
  | .keyed | .idSending => .keyed
  | .drain | .tail => .draining

/-- The current grant, when session n holds it. -/
def State.grantOf (s : State) (n : Slot) : Option Grant :=
  match s.key.grant with
  | .none => .none
  | some g => if g.session = some n then some g else .none

/-- The floor state of session n (R31). -/
def State.floorState (s : State) (n : Slot) : FloorState :=
  match s.entryOf n, s.grantOf n with
  | some _, _ => .queued
  | .none, some g => g.state.floorState
  | .none, .none => .none

def FloorState.code : FloorState → Nat
  | .none => 0
  | .queued => 1
  | .granted => 2
  | .keyed => 3
  | .draining => 4

def SessionState.code : SessionState → Nat
  | .free => 0
  | .opened => 1
  | .lost => 2

/-- The queue position of session n, 1–16, while it has an entry. -/
def State.positionOf (s : State) (n : Slot) : Option Nat := s.floor.positionOf n

/-- The grant of session n once it has keyed: the holder's playout and key-time figures are shown for it. -/
def State.keyedGrantOf (s : State) (n : Slot) : Option Grant := (s.grantOf n).filter fun g => g.state.memberOnAir

/-- The channel shown: the queue entry's while QUEUED, the grant's while GRANTED or later. -/
def State.channelOf (s : State) (n : Slot) : Option ChannelIx :=
  match s.entryOf n, s.grantOf n with
  | some e, _ => some e.channel
  | .none, some g => some g.channel
  | .none, .none => .none

/-- The remaining budget shown: the member's, and 0 while FREE or for an unmetered member. -/
def State.budgetOf (s : State) (n : Slot) : Nat :=
  match (s.session n).state, (s.session n).member with
  | .free, _ => 0
  | _, .none => 0
  | _, some m => if (s.member m).unmetered then 0 else (s.member m).remaining

/-- The fields whose change sets NEWS (R33): words 1, 2, 3, 11 and 12 of the record. -/
def State.newsFields (s : State) (n : Slot) : List Word :=
  [word (s.session n).state.code, word (s.floorState n).code, word ((s.positionOf n).getD 0),
   reasonWord (s.session n).lastEndReason, orZero (s.session n).lastEndTag]

/-- Words 1 to 18 of session n's status record (11.4), from their owning blocks as they stand (R31). -/
def State.recordFields (s : State) (n : Slot) : List Word :=
  let r := s.session n
  let keyed := s.keyedGrantOf n
  let shown := fun (x : Nat) => if keyed.isSome then word x else 0
  [word r.state.code, word (s.floorState n).code, word ((s.positionOf n).getD 0), orZero ((s.grantOf n).map (·.tag)),
   channelWord (s.channelOf n), shown s.playout.position, shown s.playout.depth,
   if keyed.isSome then flagsWord [s.playout.depthLow, s.playout.depthHigh] else 0,
   word ((keyed.map (·.ticks)).getD 0), word (s.budgetOf n), reasonWord r.lastEndReason, orZero r.lastEndTag,
   word r.requestsTaken, word r.blocksPlayed, word r.stale, word r.late, word r.overrun, word r.concealed]

/-- What decides whether an event rewrites session n's status record: any field of it (R32), a counter notice (R30), or a notice
of its floor state or queue position (R39). -/
def State.recordState (s : State) (n : Slot) : List Word × Nat × Nat :=
  (s.recordFields n, (s.session n).counterNotices, s.floor.positionNotices[n])

/-- What decides whether the rewrite sets NEWS: the fields of R33, or a notice of the session's floor state or queue position
(R33, R39). -/
def State.newsState (s : State) (n : Slot) : List Word × Nat := (s.newsFields n, s.floor.positionNotices[n])

/-- Words the layout does not name are written 0 (R176). -/
def padTo (n : Nat) (ws : List Word) : List Word := ws ++ List.replicate (n - ws.length) 0

/-- The bracketed rewrite of session n's status record (R32): the change count made odd, the record's other words written,
the change count made even. -/
def State.rewriteRecord (s : State) (n : Slot) : State :=
  let c := (s.session n).changeCount
  let t := s.withSession n { s.session n with changeCount := c + 2 }
  ((t.write (recordBase n) (c + 1)).writeAll (recordBase n + 1) (padTo 31 (s.recordFields n))).write (recordBase n) (c + 2)

/-- The Session Monitor's part of one event for session n: the record is rewritten once when any field of it has changed (R32),
or a counter notice (R30) or a notice of the session's floor state or queue position (R39) has come; and NEWS bit n−1 is set
after it when one of R33's fields has changed or a notice of the latter kind has come. -/
def publishOne (before : State) (n : Slot) (t : State) : State :=
  if before.recordState n = t.recordState n then t
  else if before.newsState n = t.newsState n then t.rewriteRecord n
  else (t.rewriteRecord n).setNews n

/-- The Session Monitor's part of one event: one rewrite for every session whose record the event has changed, or that has been
sent a notice. -/
def publish (before after : State) : State := allSlots.foldl (fun t n => publishOne before n t) after

/-- One whole event of the part: its effect, and the status records it changes. -/
def event (effect : State → State) (s : State) : State := publish s (effect s)

/-! ## The station status page -/

/-- Lockout as the page shows it: 0 clear, 1 FAULTS, 2 KILLED. -/
def lockoutCode : Option LockoutReason → Nat
  | .none => 0
  | some .faults => 1
  | some .killed => 2

def DisableState.code : DisableState → Nat
  | .released => 0
  | .asserted => 1
  | .releasing => 2

/-- The unread count: (next sequence − last valid mark) mod 65536 (R150). -/
def StationLog.unread (l : StationLog) : Nat := (l.next - l.lastMark).toNat

/-- Words 1 to 30 of the station status page (11.4), from their owning blocks as they stand (R171). -/
def State.pageFields (s : State) : List Word :=
  let g := s.key.grant
  let d := s.detector
  [Config.pageRevision, flagWord s.supervisor.running, word (lockoutCode s.supervisor.lockout),
   word s.supervisor.disable.code, flagWord s.floor.hold, word ((g.map (·.state.code)).getD 0), orZero (g.map (·.tag)),
   slotWord (g.bind (·.session)), memberWord (g.bind (·.member)), channelWord (g.map (·.channel)),
   word s.floor.queue.length, flagsWord [s.ident.owed, s.ident.due], word d.levelS, word d.levelN,
   flagsWord [d.s0, d.s1, d.s2, d.rawBusy, d.debounced, d.cos], word s.playout.released, word s.playout.discarded,
   word s.playout.slip, word s.receive.overflow, word s.ident.forcedCount, word s.supervisor.faultCount,
   word s.cells.attentionHeld, word s.log.markInvalid, word s.bus.writeToReadOnly, s.log.next, flagWord s.log.reserved,
   word s.log.unread, s.log.lastMark, lowWord s.clock, highWord s.clock]

/-- The bracketed rewrite of the station status page (R171). -/
def State.rewritePage (s : State) : State :=
  let c := s.bus.pageCount
  let t := s.withBus { s.bus with pageCount := c + 2 }
  ((t.write 0 (c + 1)).writeAll 1 (padTo 63 s.pageFields)).write 0 (c + 2)

end Sys2Proof.Machine
end

