-- ==== Sys2Proof/Machine/Ident.lean ====
section
/-! DEFINITION. The Identification Sender: owed and due (R124–R127), the Morse pattern, its tone and its envelope
(R130–R132, 11.3), and what the DAC is given at any moment (R101). -/

namespace Sys2Proof.Machine

/-! ## The Morse pattern -/

/-- The elements of a character (11.3): true for a dash. Space, and any code outside the table, has none. -/
def morse : Nat → List Bool
  | 0 => [true, true, true, true, true]
  | 1 => [false, true, true, true, true]
  | 2 => [false, false, true, true, true]
  | 3 => [false, false, false, true, true]
  | 4 => [false, false, false, false, true]
  | 5 => [false, false, false, false, false]
  | 6 => [true, false, false, false, false]
  | 7 => [true, true, false, false, false]
  | 8 => [true, true, true, false, false]
  | 9 => [true, true, true, true, false]
  | 10 => [false, true]
  | 11 => [true, false, false, false]
  | 12 => [true, false, true, false]
  | 13 => [true, false, false]
  | 14 => [false]
  | 15 => [false, false, true, false]
  | 16 => [true, true, false]
  | 17 => [false, false, false, false]
  | 18 => [false, false]
  | 19 => [false, true, true, true]
  | 20 => [true, false, true]
  | 21 => [false, true, false, false]
  | 22 => [true, true]
  | 23 => [true, false]
  | 24 => [true, true, true]
  | 25 => [false, true, true, false]
  | 26 => [true, true, false, true]
  | 27 => [false, true, false]
  | 28 => [false, false, false]
  | 29 => [true]
  | 30 => [false, false, true]
  | 31 => [false, false, false, true]
  | 32 => [false, true, true]
  | 33 => [true, false, false, true]
  | 34 => [true, false, true, true]
  | 35 => [true, true, false, false]
  | 36 => [true, false, false, true, false]
  | _ => []

/-- One part of the pattern: an element of tone or a gap, with its length in units (R130). -/
structure PatternPart where
  tone : Bool
  units : Nat
deriving DecidableEq, Repr

/-- The elements of one character, with the 1-unit gaps between them. -/
def characterParts : List Bool → List PatternPart
  | [] => []
  | [dash] => [⟨true, if dash then 3 else 1⟩]
  | dash :: rest => ⟨true, if dash then 3 else 1⟩ :: ⟨false, 1⟩ :: characterParts rest

/-- The pattern of a text (R130). `started` says that a character has been laid out, `spaces` that spaces have been passed
since it: the gap before the next character is then 7 units, else 3. Leading and trailing spaces leave no gap. -/
def patternFrom (started spaces : Bool) : List Nat → List PatternPart
  | [] => []
  | c :: rest =>
    if c = 37 then patternFrom started true rest
    else
      (if started then [⟨false, if spaces then 7 else 3⟩] else []) ++ characterParts (morse c) ++ patternFrom true false rest

/-- The pattern of the ID text. -/
def pattern (text : List Nat) : List PatternPart := patternFrom false false text

/-- The length of a pattern in units. -/
def patternUnits : List PatternPart → Nat
  | [] => 0
  | p :: rest => p.units + patternUnits rest

/-- One unit is 8·U samples (R130). -/
def Params.unitSamples (p : Params) : Nat := 8 * p.idUnit

/-- The pattern's samples, its last fall of 32 samples included (R133). -/
def Params.patternSamples (p : Params) : Nat := p.unitSamples * patternUnits (pattern p.idText) + 32

/-- The element or gap that sample `k` falls in, by its number, and the sample within it (R123's pattern position). -/
def patternPart (unit : Nat) : List PatternPart → Nat → Option (Nat × Nat)
  | [], _ => none
  | p :: rest, k =>
    if k < p.units * unit then some (0, k)
    else (patternPart unit rest (k - p.units * unit)).map fun q => (q.1 + 1, q.2)

/-- The envelope's extra attenuation at sample `k` of a pattern (R132): a rise of 16 steps of 2 samples at the start of an
element, 0 in its body, a fall of 16 steps of 2 samples after its end; none in the silence beyond. `tail` says that the
part before was an element. -/
def envelope (unit : Nat) (tail : Bool) : List PatternPart → Nat → Option Nat
  | [], k => if tail && decide (k < 32) then some (4 * (k / 2 + 1)) else none
  | p :: rest, k =>
    if k < p.units * unit then
      if p.tone then some (if k < 32 then 4 * (16 - k / 2) else 0)
      else if tail && decide (k < 32) then some (4 * (k / 2 + 1)) else none
    else envelope unit p.tone rest (k - p.units * unit)

/-- The phase step D: the ID tone times 8.192, rounded, halves up (R131). -/
def phaseStep (tone : Nat) : Nat := (tone * 8192 + 500) / 1000

/-- The triangle sample formed from the phase P (R131). -/
def triangle (phase : Word) : Int :=
  if phase.toNat < 32768 then 2 * phase.toNat - 32768 else 98303 - 2 * phase.toNat

/-- The DAC sample at position `k` of the pattern, with tone phase `phase` (R132). -/
def Params.patternSample (p : Params) (k : Nat) (phase : Word) : Int :=
  match envelope p.unitSamples false (pattern p.idText) k with
  | none => 0
  | some e => level (triangle phase) (p.idAttenuation + e)

/-! ## What the DAC is given (R101) -/

/-- The sample the DAC is given now: from the one source of the Key Controller's state, and 0 whenever PTT is not asserted. -/
def State.dac (s : State) : Int :=
  match s.key.ptt, s.key.grant with
  | true, some g =>
    match g.state with
    | .keyed | .drain | .tail => s.playout.dacBlock.headD 0
    | .idSending =>
      match s.ident.position with
      | none => 0
      | some k => s.params.patternSample k s.ident.phase
    | .changeover | .waitClear | .gap1 | .gap2 | .prebuffer => 0
  | _, _ => 0

/-! ## Owed, quiet and due (R124–R127) -/

/-- ID due becomes yes under `condition`, provided the ID text is not empty and ID due is not already yes (R127). -/
def State.makeDue (s : State) (condition : Bool) : State :=
  if condition && !s.params.idTextEmpty && !s.ident.due then s.withIdent { s.ident with due := true } else s

/-- A member key-up at the Identification Sender: owed, and due when the interval has been reached (R124, R127). The floor is
busy, so the arbitration this event would cause grants nothing (R46). -/
def State.identOwed (s : State) : State :=
  let t := s.withIdent { s.ident with owed := true }
  if s.ident.owed then t else t.makeDue t.ident.intervalReached

/-- The floor has stopped being quiet (R126). -/
def State.stopQuiet (s : State) : State := s.withIdent { s.ident with quiet := .stopped }

/-- The floor has become quiet: the quiet timer is started with the ID end delay (R126). -/
def State.startQuiet (s : State) : State :=
  s.withIdent { s.ident with quiet := .running (seconds s.params.idEndDelay) }

/-- A completed identification at the Identification Sender (R124). -/
def State.identDone (s : State) : State :=
  (s.withIdent { s.ident with owed := false, lastId := some s.clock, intervalReached := false, due := false }).raise .idSent

/-- The station-clock time at which the interval is reached (R125). -/
def State.intervalTime (s : State) : Clock := Clock.plus (s.ident.lastId.getD 0) (1000 * s.params.idInterval)

end Sys2Proof.Machine
end

