-- ==== Sys2Proof/Machine/Members.lean ====
section
/-! DEFINITION. The Member Table's and Channel Table's shared operations: the eligibility test (R12), the budget (R13, R14),
the timeout penalty (R15), the statistics (R16) and the key limit's two inputs (R75). -/

namespace Sys2Proof.Machine

/-- The eligibility test's outcome (R12). -/
inductive Eligibility where
  | pass | notPermitted | noBudget
deriving DecidableEq, Repr

/-- The privilege part of the eligibility test: the first four conditions of R12. -/
def privileged (m : Member) (c : Channel) (ch : ChannelIx) : Bool :=
  m.present && c.present && m.permitted.getLsbD ch.val && decide (c.minGrade ≤ m.grade)

/-- The eligibility test of a member for a channel (R12), on the records as they stand. -/
def State.eligibility (s : State) (m : MemberIx) (ch : ChannelIx) : Eligibility :=
  if privileged (s.member m) (s.channel ch) ch then
    if (s.member m).unmetered || 1 ≤ (s.member m).remaining then .pass else .noBudget
  else .notPermitted

/-- `k` accounting ticks charged to a member record (R13): a metered member's budget drops, floored at 0. -/
def Member.charge (r : Member) (k : Nat) : Member :=
  if r.present && !r.unmetered then { r with remaining := r.remaining - k } else r

/-- The answer to the last of `k` ticks is exhausted (R13). -/
def Member.exhaustedBy (r : Member) (k : Nat) : Bool :=
  r.present && !r.unmetered && decide (0 < k) && decide (r.remaining - k = 0)

/-- The penalty end after a TIMEOUT unkey (R15): one that is present is replaced; with a timeout penalty of 0, or for an absent
member, the penalty end is left absent (notes/assumptions/10.md). -/
def State.setPenalty (s : State) (m : MemberIx) : State :=
  s.withMember m { s.member m with
    penaltyEnd :=
      if (s.member m).present && s.params.timeoutPenalty != 0 then
        some (Clock.plus s.clock (1000 * s.params.timeoutPenalty))
      else none }

/-- The grant count at a MEMBER key-up (R16). DEDUCED (notes/assumptions/34.md): raised for an absent member's record too, whose
grant its revocation notice has not yet ended. -/
def State.countGrant (s : State) (m : MemberIx) : State :=
  s.withMember m { s.member m with grantCount := saturate 65535 (s.member m).grantCount 1 }

/-- The lost count at a surveillance expiry (R16). DEDUCED (notes/assumptions/34.md): raised for an absent member's record too,
whose session its revocation notice has not yet closed. -/
def State.countLost (s : State) (m : MemberIx) : State :=
  s.withMember m { s.member m with lostCount := saturate 255 (s.member m).lostCount 1 }

/-- The slot, OPEN or LOST, that a member is bound to (R19). -/
def State.slotOf (s : State) (m : MemberIx) : Option Slot :=
  allSlots.find? fun n => (s.session n).state != .free && (s.session n).member == some m

/-- The key limit in ms from the two records as they stand (R75). -/
def keyLimitMs (m : Member) (c : Channel) : Nat := 1000 * min m.maxKeyTime c.maxKeyTime

/-- The priority an entry takes as it is made: the record's, or 3 for a control operator (R35). -/
def Member.entryPriority (r : Member) : Nat := if r.controlOperator then 3 else r.priority

/-- The member of session n is a control operator (R24, R53, R55, R140). -/
def State.isOperator (s : State) (n : Slot) : Bool := (s.memberOf (s.session n).member).controlOperator

end Sys2Proof.Machine
end

