-- ==== Sys2Proof/Machine/Playout.lean ====
section
/-! DEFINITION. The Playout Engine's operations on the transmit places (R85–R92, R97, R98, R100) and the level of a block
(R103–R105). The block boundary itself stands in Boundary.lean, since it can end the grant. -/

namespace Sys2Proof.Machine

/-! ## Transmit places -/

/-- The state word of transmit place i. -/
def State.txState (s : State) (i : Nat) : Word := s.read (txBase i)
/-- The grant tag of transmit place i. -/
def State.txTag (s : State) (i : Nat) : Word := s.read (txBase i + 1)
/-- The sequence of transmit place i. -/
def State.txSequence (s : State) (i : Nat) : Word := s.read (txBase i + 2)
/-- The 160 samples of transmit place i, oldest first. -/
def State.txSamples (s : State) (i : Nat) : List Word := (List.range 160).map fun k => s.read (txBase i + 8 + k)

/-- Transmit place i is FILLED: any state word other than 1 is read as not filled (R85). -/
def State.filled (s : State) (i : Nat) : Bool := s.txState i == 1

/-- Frees a transmit place: 0 into its state word, no other word changed (R87). -/
def State.freePlace (s : State) (i : Nat) : State := s.write (txBase i) 0

/-- Frees several places. -/
def State.freePlaces (s : State) (places : List Nat) : State := places.foldl State.freePlace s

/-- The places a sweep frees: FILLED, with a tag the sweep does not keep. -/
def State.sweepSet (s : State) (drop : Word → Bool) : List Nat :=
  (List.range 64).filter fun i => s.filled i && drop (s.txTag i)

/-- A sweep: frees the places and raises the discarded count by their number (R89, R100). -/
def State.sweep (s : State) (drop : Word → Bool) : State :=
  let places := s.sweepSet drop
  let t := s.freePlaces places
  t.withPlayout { t.playout with discarded := saturate 65535 t.playout.discarded places.length }

/-- A new grant's tag taken by the Playout Engine: the start sweep (R89). -/
def State.startSweep (s : State) (tag : Word) : State :=
  (s.withPlayout { s.playout with currentTag := some tag }).sweep (· != tag)

/-- The grant end at the Playout Engine (R100): playout stops, the DAC is given 0, the end sweep, no current tag. -/
def State.endPlayout (s : State) : State :=
  (s.withPlayout { s.playout with boundary := none, dacBlock := [], currentTag := none }).sweep fun _ => true

/-- Block `i` of the grant is present in place i (R69). -/
def State.blockPresent (s : State) (tag : Word) (i : Nat) : Bool :=
  s.filled i && s.txTag i == tag && s.txSequence i == word i

/-- PREBUFFER is complete (R69, R90). -/
def State.prebufferComplete (s : State) (tag : Word) : Bool :=
  (List.range s.params.prebufferTarget).all (s.blockPresent tag)

/-- Some place holds a block of the grant below the max depth (R70, R90). -/
def State.anyAudio (s : State) (tag : Word) : Bool :=
  (List.range 64).any fun i => s.filled i && s.txTag i == tag && decide ((s.txSequence i).toNat < s.params.maxDepth)

/-- A MEMBER key-up at the Playout Engine (R91). -/
def State.startPlayout (s : State) : State :=
  s.withPlayout { s.playout with
    position := 0, missingRun := 0, drainCount := 0, lastPlayed := none, concealment := false, depth := 0,
    depthLow := false, depthHigh := false, boundary := some (ms s.params.txDelay), dacBlock := [] }

/-! ## The playout position (R92) -/

/-- The distance of a 16-bit sequence from the playout position: (s − p) mod 65536. -/
def distance (sequence : Word) (p : Nat) : Nat := (sequence - word p).toNat

/-- The final count n is at or behind p. -/
def atOrBehind (n : Word) (p : Nat) : Bool := distance n p = 0 || 32768 ≤ distance n p

/-- What the boundary finds in the place at the playout position (R93, cases 1 to 5). -/
inductive PlaceCase where
  | play | stale | late | overrun | empty
deriving DecidableEq, Repr

/-- R93's checks, in its order. -/
def State.classify (s : State) (tag : Word) (p : Nat) : PlaceCase :=
  let i := p % 64
  if !s.filled i then .empty
  else if s.txTag i != tag then .stale
  else if distance (s.txSequence i) p = 0 then .play
  else if 32768 ≤ distance (s.txSequence i) p then .late
  else .overrun

/-! ## Depth and re-centring (R97, R98) -/

/-- The places counted in the depth at playout position p: FILLED, the current tag, 0 to 63 positions ahead (R97). -/
def State.window (s : State) (tag : Word) (p : Nat) : List Nat :=
  (List.range 64).filter fun i => s.filled i && s.txTag i == tag && decide (distance (s.txSequence i) p ≤ 63)

/-- The depth at playout position p. -/
def State.depthAt (s : State) (tag : Word) (p : Nat) : Nat := (s.window tag p).length

/-- Of `places`, the one whose sequence is nearest ahead of p. -/
def State.nearest (s : State) (p : Nat) : List Nat → Option Nat
  | [] => none
  | i :: rest =>
    match s.nearest p rest with
    | none => some i
    | some j => if distance (s.txSequence j) p < distance (s.txSequence i) p then some j else some i

/-- Re-centring's steps 1 to 4 (R98): each frees the nearest place ahead and moves p past it, until the depth is the
prebuffer target. Each step frees one of the 64 places, so `fuel` 64 never runs out. DEDUCED (notes/assumptions/18.md): where
two places hold one sequence of the grant, a step takes both out of the depth and can bring it below the target, which R98 does
not foresee; the steps end once the depth is at or below the target. -/
def State.recentre (tag : Word) : Nat → State → State
  | 0, s => s
  | fuel + 1, s =>
    if s.depthAt tag s.playout.position ≤ s.params.prebufferTarget then s
    else
      match s.nearest s.playout.position (s.window tag s.playout.position) with
      | none => s
      | some i =>
        let p := s.playout.position
        let t := s.freePlace i
        State.recentre tag fuel
          (t.withPlayout { t.playout with
            released := saturate 65535 t.playout.released 1, position := p + distance (s.txSequence i) p + 1 })

/-- The depth count, the re-centring of a grant in KEYED, and the depth flags (R97, R98). -/
def State.countDepth (s : State) (tag : Word) (keyed : Bool) : State :=
  let t :=
    if keyed && decide (s.params.maxDepth < s.depthAt tag s.playout.position) then
      let u := State.recentre tag 64 s
      u.withPlayout { u.playout with slip := saturate 65535 u.playout.slip 1 }
    else s
  let d := t.depthAt tag t.playout.position
  t.withPlayout { t.playout with
    depth := d, depthLow := decide (d ≤ 1), depthHigh := decide (t.params.maxDepth ≤ d + 1) }

/-! ## The level of a block (R103, R105) -/

/-- The total attenuation A, absent when the holder's trim is MUTED (R103). -/
def totalAttenuation (m : Member) (c : Channel) : Option Int :=
  match m.trim with
  | .muted => none
  | .steps n => some (n + c.attenuation)

/-- A block through the level arithmetic at A plus `extra` steps; a MUTED block is all 0 (R103, R105). -/
def levelBlock (a : Option Int) (extra : Int) (block : List Word) : List Int :=
  match a with
  | none => block.map fun _ => 0
  | some a => block.map fun x => level x.toInt (a + extra)

/-- 160 samples of 0 (R95). -/
def silentBlock : List Int := List.replicate 160 0

end Sys2Proof.Machine
end

