-- ==== Sys2Proof/Machine/StationLog.lean ====
section
/-! DEFINITION. The Station Log's operations: judging the read mark (R153), the reservation (R154) and the append (R156). -/

namespace Sys2Proof.Machine

/-- Reads and judges the read mark (R153). -/
def State.judgeMark (s : State) : State :=
  let v := s.read markAddress
  if (s.log.next - v).toNat ≤ 64 then s.withLog { s.log with lastMark := v }
  else (s.withLog { s.log with markInvalid := saturate 65535 s.log.markInvalid 1 }).raise .abnormal

/-- The room for a reservation (R154). -/
def StationLog.room (l : StationLog) : Nat := 64 - l.unread - (if l.reserved then 1 else 0)

/-- A reservation request (R154): the state after it, and whether it was granted. -/
def State.reserve (s : State) : State × Bool :=
  let t := s.judgeMark
  if 1 ≤ t.log.room then (t.withLog { t.log with reserved := true }, true) else (t.raise .logFull, false)

/-- What the Key Controller hands the Station Log at an unkey (R83 part 3, R151). -/
structure LogEntry where
  kind : GrantKind
  member : Option MemberIx
  session : Option Slot
  channel : ChannelIx
  tag : Word
  keyUpTime : Clock
  duration : Nat
  reason : Option EndReason
  cutShort : Bool
  concealment : Bool
  forced : Bool
  budgetExhausted : Bool
deriving DecidableEq, Repr

def GrantKind.code : GrantKind → Nat
  | .member => 0
  | .ident => 1

/-- The 16 words of a log entry (11.4). -/
def LogEntry.words (e : LogEntry) (sequence : Word) : List Word :=
  let d : Clock := BitVec.ofNat 32 e.duration
  padTo 16 [sequence, word e.kind.code, memberWord e.member, slotWord e.session, channelWord (some e.channel), e.tag,
    lowWord e.keyUpTime, highWord e.keyUpTime, lowWord d, highWord d, reasonWord e.reason,
    flagsWord [e.cutShort, e.concealment, e.forced, e.budgetExhausted]]

/-- The append at unkey (R156). -/
def State.appendLog (s : State) (e : LogEntry) : State :=
  let t := s.writeAll (logBase (s.log.next.toNat % 64)) (e.words s.log.next)
  (t.withLog { t.log with next := t.log.next + 1, reserved := false }).raise .logAppended

end Sys2Proof.Machine
end

