-- ==== Sys2Proof/Machine/Grant.lean ====
section
/-! DEFINITION. The Key Controller: how a grant moves through its states and how it ends (R61–R84). Each operation takes the
grant record it works on and stores the record it leaves. -/

namespace Sys2Proof.Machine

/-! ## PTT and the detector's hold sources -/

/-- Replaces the Busy Detector's hold sources (R118). -/
def State.withHolds (s : State) (h : HoldSources) : State := s.withDetector { s.detector with holds := h }

/-- Releases PTT when it is asserted: EVENTS.PTT_CHANGE, the PTT hold source removed (R61, R118), a qualification abandoned
and qualified this keying returned to no (R143). -/
def State.dropPtt (s : State) : State :=
  if s.key.ptt then
    let t := s.withKey { s.key with ptt := false }
    let t := t.withHolds { t.detector.holds with ptt := false }
    let t := t.withSupervisor { t.supervisor with qualification := none, qualifiedThisKeying := false }
    t.raise .pttChange
  else s

/-- Asserts PTT at a successful key-up (R72): EVENTS.PTT_CHANGE, the PTT hold source added. No qualification can begin here,
since the key-up has just found TXFAULT inactive (R71, R143). -/
def State.assertPtt (s : State) : State :=
  let t := s.withKey { s.key with ptt := true }
  let t := t.withHolds { t.detector.holds with ptt := true }
  t.raise .pttChange

/-! ## Ends (R82, R83) -/

/-- The first end cause a grant takes becomes its end reason, and it does not change (R81). -/
def Grant.withReason (g : Grant) (r : EndReason) : Grant := { g with endReason := some (g.endReason.getD r) }

/-- A MEMBER grant's end at the Session Monitor: the end reason and tag (R31), and an OPEN session's deadline re-armed with
the surveillance period (R27). -/
def State.endForSession (s : State) (n : Slot) (reason : EndReason) (tag : Word) : State :=
  let r := s.session n
  s.withSession n { r with
    lastEndReason := some reason, lastEndTag := some tag,
    deadline := if r.state = .opened then some (Clock.plus s.clock s.params.surveillance) else r.deadline }

/-- The same, for the holder of a grant that may have none (IDENT). -/
def State.endForHolder (s : State) (g : Grant) (reason : EndReason) : State :=
  match g.session with
  | none => s
  | some n => s.endForSession n reason g.tag

/-- The pre-key end (R82) of grant `g` with `reason`. Discarding the record abandons every grant timer. -/
def preKeyEnd (g : Grant) (reason : EndReason) (s : State) : State :=
  let r := g.endReason.getD reason
  let t := s.withHolds { s.detector.holds with changeover := false }
  let t := t.endPlayout
  let t := t.endForHolder g r
  (t.notify (.ended g.kind g.tag g.session r)).withGrant none

/-- Accounting ticks sent to the Member Table (R13, R74): the holder's budget charged, and whether the last was answered
exhausted. An IDENT grant sends none. -/
def State.chargeTicks (s : State) (g : Grant) (k : Nat) : State × Bool :=
  match g.member with
  | none => (s, false)
  | some m => (s.withMember m ((s.member m).charge k), (s.member m).exhaustedBy k)

/-- Receiver recovery started at an unkey (R84); a recovery time of 0 expires in the unkey event. -/
def State.startRecovery (s : State) : State :=
  let t := s.withKey { s.key with recovery := startTimer (ms s.params.recovery) }
  t.withHolds { t.detector.holds with recovery := s.params.recovery != 0 }

/-- What an unkey tells the Identification Sender (R83 part 5, R124, R134). -/
def State.identEnd (s : State) (g : Grant) : State :=
  match g.kind with
  | .member => s
  | .ident =>
    let t := s.withIdent { s.ident with position := none }
    if g.endReason = some .idDone then t.identDone else t

/-- A session's grant that ended TIMEOUT, noted with the moment of its unkey (R76, notes/assumptions/37.md). -/
def State.noteTimeout (s : State) (g : Grant) : State :=
  match g.session with
  | none => s
  | some n => if g.endReason = some .timeout then s.withKey { s.key with timedOut := some (n, s.periods) } else s

/-- The log entry of grant `g` at its unkey (R83 part 3, R151). -/
def State.entryFor (s : State) (g : Grant) : LogEntry where
  kind := g.kind
  member := g.member
  session := g.session
  channel := g.channel
  tag := g.tag
  keyUpTime := g.keyUpTime.getD 0
  duration := g.keyTime
  reason := g.endReason
  cutShort := g.cutShort
  concealment := g.kind == .member && s.playout.concealment
  forced := g.forced
  budgetExhausted := g.budgetExhausted

/-- The unkey (R83) of grant `g`, whose end reason is set: the ten parts of one event. -/
def unkey (g : Grant) (s : State) : State :=
  let t := s.dropPtt
  let owed := g.keyTime / 100 - g.ticks
  let charged := t.chargeTicks g owed
  let g : Grant := { g with ticks := g.ticks + owed, budgetExhausted := g.budgetExhausted || charged.2 }
  let t := charged.1.appendLog (s.entryFor g)
  let t : State := match g.member with
    | some m => if g.endReason = some .timeout then t.setPenalty m else t
    | none => t
  let t := t.identEnd g
  let t := t.endPlayout
  let r := g.endReason.getD .released
  let t := t.endForHolder g r
  let t := t.startRecovery.noteTimeout g
  (t.notify (.ended g.kind g.tag g.session r)).withGrant none

/-! ## Drain and tail (R77–R79) -/

/-- The key time has reached the key limit (R75). -/
def Grant.limitReached (g : Grant) : Bool :=
  match g.keyLimit with
  | none => false
  | some l => decide (ms l ≤ g.keySamples)

/-- The grant enters TAIL (R79). `silence` says that the block being sent is cut off: after a limit end, and after a drain
ended on the key limit (R99). A tail time of 0, or a key limit already reached, ends TAIL in its entry event. -/
def enterTail (silence : Bool) (g : Grant) (s : State) : State :=
  let g := { g with state := .tail, tailLeft := startTimer (ms s.params.tail) }
  let t := s.withPlayout { s.playout with boundary := none, dacBlock := if silence then [] else s.playout.dacBlock }
  if g.tailLeft.isNone || g.limitReached then unkey g t else t.withGrant (some g)

/-- An orderly end in KEYED (R77): the grant enters DRAIN, or TAIL at once when the final count is at or behind the playout
position (R78, R99). -/
def beginDrain (final : Option Word) (g : Grant) (s : State) : State :=
  let g := { g.withReason .released with state := .drain, finalCount := final }
  let t := s.withPlayout { s.playout with drainCount := 0 }
  match final with
  | some n => if atOrBehind n t.playout.position then enterTail false g t else t.withGrant (some g)
  | none => t.withGrant (some g)

/-! ## End causes (R80, R81) -/

/-- The class of an end cause (R80). The three reasons of queue entries are no end causes of a grant. -/
inductive CauseClass where
  | orderly | limit | preKey | abrupt | completion | entryOnly
deriving DecidableEq, Repr

def causeClass : EndReason → CauseClass
  | .released | .cancelled => .orderly
  | .timeout | .budget => .limit
  | .channelBusy | .noAudio | .paNotReady | .logFull => .preKey
  | .linkLost | .closed | .ejected | .revoked | .audioLost | .preempted | .killed | .fault | .disabled | .stopped => .abrupt
  | .idDone => .completion
  | .notPermitted | .noBudget | .lockedOut => .entryOnly

/-- What an end cause does to grant `g` in its state: the table of R80, with R81. -/
def applyCause (g : Grant) (r : EndReason) (s : State) : State :=
  match causeClass r, g.state with
  | .abrupt, .keyed | .abrupt, .idSending => unkey (g.withReason r) s
  | .abrupt, .drain | .abrupt, .tail => unkey { g.withReason r with cutShort := true } s
  | .abrupt, _ => preKeyEnd g r s
  | .limit, .keyed => enterTail true (g.withReason r) s
  | .limit, _ => s
  | .completion, .idSending => unkey (g.withReason r) s
  | .completion, _ => s
  | .orderly, .keyed => beginDrain none g s
  | .orderly, .idSending | .orderly, .drain | .orderly, .tail => s
  | .orderly, _ => preKeyEnd g .cancelled s
  | .preKey, .keyed | .preKey, .idSending | .preKey, .drain | .preKey, .tail => s
  | .preKey, _ => preKeyEnd g r s
  | .entryOnly, _ => s

/-- An end cause taken at the Key Controller (R80): ignored in IDLE, and for a tag that is not the current grant's. -/
def takeCause (tag : Word) (r : EndReason) (s : State) : State :=
  match s.key.grant with
  | none => s
  | some g => if g.tag = tag then applyCause g r s else s

/-- An end cause sent to whatever grant exists (R80, R136): taken in this event, or left in flight with the grant's tag for
END_CAUSE. -/
def sendCause (r : EndReason) (now : Bool) (s : State) : State :=
  match s.key.grant with
  | none => s
  | some g => if now then takeCause g.tag r s else s.notify (.cause g.tag r)

/-! ## Key-up (R71, R72) -/

/-- The notices of a MEMBER key-up to the four blocks R72 names. -/
def State.memberKeyUp (s : State) (g : Grant) : State :=
  let t : State := match g.member with
    | some m => s.countGrant m
    | none => s
  let t := t.identOwed
  let t : State := match g.session with
    | some n =>
      let r := t.session n
      if r.state = .opened then
        t.withSession n { r with deadline := some (Clock.plus t.clock t.params.holderSurveillance) }
      else t
    | none => t
  t.startPlayout

/-- A successful key-up (R72). -/
def keyUpSucceeds (g : Grant) (s : State) : State :=
  let g := { g with
    reservationHeld := true, keyUpTime := some s.clock, keySamples := 0, ticks := 0, busyWait := .off,
    prebufferLeft := none, state := match g.kind with | .member => .keyed | .ident => .idSending }
  let t := (s.withGrant (some g)).assertPtt
  match g.kind with
  | .member => t.memberKeyUp g
  | .ident => t

/-- A key-up event (R71): where it is not made, no check is made and the grant is held in its state; otherwise the TXFAULT check,
then the log reservation. -/
def keyUp (g : Grant) (s : State) : State :=
  if s.barsKeyUp g then s.withGrant (some { g with keyUpHeld := true })
  else if s.supervisor.txfaultActive then preKeyEnd g .paNotReady s
  else
    let r := s.reserve
    if r.2 then keyUpSucceeds g r.1 else preKeyEnd g .logFull r.1

/-! ## Turnaround and prebuffer (R63–R70) -/

/-- The grant enters PREBUFFER (R69). -/
def enterPrebuffer (g : Grant) (s : State) : State :=
  let g := { g with state := .prebuffer, prebufferLeft := some (ms s.params.prebufferLimit) }
  if s.prebufferComplete g.tag then keyUp g s else s.withGrant (some g)

/-- The end of GAP2 (R68): the busy-wait timer stops; PREBUFFER, or an IDENT grant's key-up. -/
def leaveGap2 (g : Grant) (s : State) : State :=
  let g := { g with gap2Left := none, busyWait := .off }
  match g.kind with
  | .member => enterPrebuffer g s
  | .ident => keyUp g s

/-- The grant enters GAP2 (R68); a GAP2 time of 0 expires at once. -/
def enterGap2 (g : Grant) (s : State) : State :=
  let g := { g with state := .gap2, gap1Left := none, gap2Left := startTimer (ms s.params.gap2) }
  if g.gap2Left.isNone then leaveGap2 g s else s.withGrant (some g)

/-- The grant enters GAP1 (R67); a GAP1 time of 0 expires at once. -/
def enterGap1 (g : Grant) (s : State) : State :=
  let g := { g with state := .gap1, gap1Left := startTimer (ms s.params.gap1) }
  if g.gap1Left.isNone then enterGap2 g s else s.withGrant (some g)

/-- The clear condition (R64). -/
def State.clearCondition (s : State) : Bool := !s.detector.debounced && s.key.recovery.isNone

/-- An IDENT grant is forced (R66). -/
def forceIdent (g : Grant) (s : State) : State :=
  let t := s.withIdent { s.ident with forcedCount := saturate 65535 s.ident.forcedCount 1 }
  enterGap1 { g with forced := true } t

/-- The busy-wait limit of a grant's kind, in sample periods (R65). -/
def Params.busyWaitTime (p : Params) : GrantKind → Nat
  | .member => ms p.busyWait
  | .ident => seconds p.idBusyLimit

/-- The busy-wait timer at an entry into WAIT_CLEAR: started on the first; a limit of 0 has expired as it starts (R65). -/
def BusyWait.enter (limit : Nat) : BusyWait → BusyWait
  | .off => if limit = 0 then .expired else .running limit
  | .running left => .running left
  | .expired => .expired

/-- What a busy-wait expiry that finds the grant waiting does (R65): CHANNEL_BUSY, or the forcing of an IDENT grant. -/
def busyWaitOver (g : Grant) (s : State) : State :=
  match g.kind with
  | .member => preKeyEnd g .channelBusy s
  | .ident => forceIdent g s

/-- The grant enters WAIT_CLEAR (R64, R65): the entry test first, then an expired busy-wait timer. -/
def enterWaitClear (g : Grant) (s : State) : State :=
  let g := { g with state := .waitClear, gap1Left := none, busyWait := g.busyWait.enter (s.params.busyWaitTime g.kind) }
  if s.clearCondition then enterGap1 g s
  else if g.busyWait = .expired then busyWaitOver g s
  else s.withGrant (some g)

/-- The end of CHANGEOVER (R63): the detector hold it asked for is lifted; WAIT_CLEAR, or PREBUFFER with the busy check off. -/
def leaveChangeover (g : Grant) (s : State) : State :=
  let g := { g with changeoverLeft := none }
  let t := s.withHolds { s.detector.holds with changeover := false }
  if (t.channel g.channel).busyCheck then enterWaitClear g t else enterPrebuffer g t

/-- The grant enters CHANGEOVER (R63); a changeover time of 0 expires at once. -/
def enterChangeover (g : Grant) (s : State) : State :=
  let g := { g with state := .changeover, changeoverLeft := startTimer (ms s.params.changeover) }
  let t := s.withKey { s.key with chsel := (s.channel g.channel).radioMemory }
  let t := t.withHolds { t.detector.holds with changeover := true }
  if g.changeoverLeft.isNone then leaveChangeover g t else t.withGrant (some g)

/-- A change of debounced busy taken at the Key Controller (R64, R67, R68). -/
def busyChange (s : State) : State :=
  match s.key.grant with
  | none => s
  | some g =>
    match g.state with
    | .waitClear => if s.clearCondition then enterGap1 g s else s
    | .gap1 => if s.detector.debounced && !g.forced then enterWaitClear g s else s
    | .changeover | .gap2 | .prebuffer | .keyed | .idSending | .drain | .tail => s

/-! ## Taking a grant (R62) -/

/-- A new grant record (R62 step 1). -/
def Grant.fresh (tag : Word) (kind : GrantKind) (session : Option Slot) (member : Option MemberIx) (channel : ChannelIx) :
    Grant where
  tag := tag
  kind := kind
  session := session
  member := member
  channel := channel
  state := match kind with | .member => .prebuffer | .ident => .gap2
  keyUpTime := none
  keySamples := 0
  keyLimit := none
  finalCount := none
  endReason := none
  cutShort := false
  forced := false
  budgetExhausted := false
  reservationHeld := false
  keyUpHeld := false
  ticks := 0
  changeoverLeft := none
  busyWait := .off
  gap1Left := none
  gap2Left := none
  prebufferLeft := none
  tailLeft := none

/-- A MEMBER grant taken (R62): the CHSEL channel, the key limit, the start sweep, the first state. -/
def takeMemberGrant (tag : Word) (n : Slot) (m : MemberIx) (c : ChannelIx) (s : State) : State :=
  let g := { Grant.fresh tag .member (some n) (some m) c with keyLimit := some (keyLimitMs (s.member m) (s.channel c)) }
  let t := s.withKey { s.key with chselChannel := some c }
  let t := t.startSweep tag
  if (t.channel c).radioMemory ≠ t.key.chsel then enterChangeover g t
  else if (t.channel c).busyCheck then enterWaitClear g t
  else enterPrebuffer g t

/-- An IDENT grant taken on the CHSEL channel (R62, R129). -/
def takeIdentGrant (tag : Word) (c : ChannelIx) (s : State) : State :=
  let g := Grant.fresh tag .ident none none c
  let t := s.startSweep tag
  if (t.channel c).busyCheck then enterWaitClear g t else keyUp g t

end Sys2Proof.Machine
end

