-- ==== Sys2Proof/Machine/Floor.lean ====
section
/-! DEFINITION. The Floor Arbiter: the queue (R35–R39), the courtesy interval (R44), the arbitration (R45–R51), persistence
(R52), the end notice (R43) and the clearing of the queue (R58). -/

namespace Sys2Proof.Machine

/-! ## The queue -/

/-- An unmarked entry's place (R36): ahead of the first unmarked entry of lower priority, or at the back. -/
def insertUnmarked (e : Entry) : List Entry → List Entry
  | [] => [e]
  | x :: rest => if !x.marked && decide (x.priority < e.priority) then e :: x :: rest else x :: insertUnmarked e rest

/-- An entry's place as it joins (R36): a marked entry at the very front. -/
def insertEntry (e : Entry) (q : List Entry) : List Entry := if e.marked then e :: q else insertUnmarked e q

/-- A join of any kind (R36): the arrival counter advances and the entry takes its new value; the sessions it
moves back are notified (R41); the floor is quiet no longer (R126). The arbitration a join causes is made by the event it belongs to. -/
def joinQueue (e : Entry) (s : State) : State :=
  let a := s.floor.arrival + 1
  let t := s.withFloor { s.floor.withQueue (insertEntry { e with arrival := a } s.floor.queue) with arrival := a }
  t.stopQuiet

/-- The quiet notice after a departure or an end notice (R126). -/
def State.noteQuiet (s : State) : State := if s.floorQuiet then s.startQuiet else s

/-- Session n's entry leaves the queue; the last entry leaving while no grant exists makes the floor quiet (R39, R126). -/
def State.removeEntry (s : State) (n : Slot) : State :=
  match s.entryOf n with
  | none => s
  | some _ => (s.withFloor (s.floor.without n)).noteQuiet

/-- The reason of a departure, recorded with the tag absent (R31, R39). -/
def State.noteDeparture (s : State) (n : Slot) (r : EndReason) : State :=
  s.withSession n { s.session n with lastEndReason := some r, lastEndTag := none }

/-- Session n's entry, if it has one, leaves the queue for `r` (R39). -/
def departEntry (n : Slot) (r : EndReason) (s : State) : State :=
  match s.entryOf n with
  | none => s
  | some _ => (s.removeEntry n).noteDeparture n r

/-- Every entry of the queue leaves for `r` (R58). -/
def clearQueue (r : EndReason) (s : State) : State := s.floor.queue.foldl (fun t e => departEntry e.session r t) s

/-! ## Arbitration -/

/-- The next grant tag (R50): FFFFh is followed by 0001h. -/
def nextTag (t : Word) : Word := if t = 0xFFFF then 1 else t + 1

/-- What every grant does at the Floor Arbiter (R51): the floor is no longer idle, a running courtesy interval stops (R44),
the tag counter advances (R50), the floor is quiet no longer (R126). -/
def State.openGrant (s : State) : State :=
  (s.withFloor { s.floor with idle := false, courtesy := none, tagCounter := nextTag s.floor.tagCounter }).stopQuiet

/-- The grant of a queue entry (R51). -/
def grantEntry (e : Entry) (s : State) : State :=
  let t := s.openGrant
  let t := t.withFloor { t.floor.without e.session with
    granted := some { session := e.session, member := e.member, channel := e.channel, retries := e.retries } }
  takeMemberGrant t.floor.tagCounter e.session e.member e.channel t

/-- The identification claim's grant (R51, R129). The CHSEL channel is always present when identification is due (R129). -/
def grantIdent (s : State) : State × Bool :=
  match s.key.chselChannel with
  | none => (s, false)
  | some c =>
    let t := s.openGrant
    (takeIdentGrant t.floor.tagCounter c t, true)

/-- Entries considered from the front (R47 steps 1 and 3): an entry that is skipped keeps its place (R48); one that fails the
re-check leaves with its reason (R49); the first that passes is granted. The flag says whether a grant was made. -/
def tryEntries (skip : State → Entry → Bool) : List Entry → State → State × Bool
  | [], s => (s, false)
  | e :: rest, s =>
    if skip s e then tryEntries skip rest s
    else
      match s.eligibility e.member e.channel with
      | .pass => (grantEntry e s, true)
      | .notPermitted => tryEntries skip rest (departEntry e.session .notPermitted s)
      | .noBudget => tryEntries skip rest (departEntry e.session .noBudget s)

/-- The conditions under which an arbitration grants nothing (R46). -/
def State.grantsForbidden (s : State) : Bool :=
  !s.floor.idle || !s.supervisor.running || s.supervisor.lockout.isSome || s.supervisor.disable != .released || !s.ready

/-- Step 1 of R47: marked entries; none is skipped (R48). -/
def tryMarked (s : State) : State × Bool := tryEntries (fun _ _ => false) (s.floor.queue.filter (·.marked)) s

/-- Step 2 of R47: the identification claim. -/
def tryIdent (s : State) : State × Bool :=
  if s.floor.courtesy.isNone && s.ident.due then grantIdent s else (s, false)

/-- Step 3 of R47: unmarked entries; one whose member is in penalty at the moment of the arbitration is skipped (R48; at the very
moment of a penalty's end, notes/assumptions/33.md). -/
def tryUnmarked (s : State) : State × Bool :=
  if s.floor.courtesy.isNone && !s.floor.hold then
    tryEntries (fun t e => t.penaltyInForce e.member) (s.floor.queue.filter fun e => !e.marked) s
  else (s, false)

/-- An arbitration (R46, R47): at most one grant, the first claimant that survives its checks. -/
def arbitrate (s : State) : State :=
  if s.grantsForbidden then s
  else
    let a := tryMarked s
    if a.2 then a.1
    else
      let b := tryIdent a.1
      if b.2 then b.1 else (tryUnmarked b.1).1

/-! ## The end notice (R43, R44, R52) -/

/-- The entry a persistent claim is queued again with (R52), or none where the claim ends with its grant. -/
def State.requeueEntry (s : State) (kind : GrantKind) (reason : EndReason) : Option Entry :=
  match kind, reason, s.floor.granted with
  | .member, .channelBusy, some g =>
    match g.retries with
    | some (k + 1) =>
      if (s.session g.session).state = .opened ∧ (s.entryOf g.session).isNone then
        some { session := g.session, member := g.member, channel := g.channel,
               priority := (s.member g.member).entryPriority, arrival := 0, retries := some k, marked := false }
      else none
    | _ => none
  | _, _, _ => none

/-- The end notice taken at the Floor Arbiter (R43): persistence, courtesy, the memory emptied, the floor idle, and the
arbitration. A courtesy interval of 0 expires at once, within this event (R44). -/
def takeEnded (kind : GrantKind) (reason : EndReason) (s : State) : State :=
  let requeue := s.requeueEntry kind reason
  let t : State := match requeue with
    | some e => joinQueue e s
    | none => s.withFloor { s.floor with courtesy := startTimer (ms s.params.courtesy) }
  let t := t.withFloor { t.floor with granted := none, idle := true }
  arbitrate t.noteQuiet

end Sys2Proof.Machine
end

