-- ==== Sys2Proof/Machine/Sessions.lean ====
section
/-! DEFINITION. The Session Monitor: the deadline (R27), the gate of a session cell (R20), the close (R22), the surveillance
expiry (R28) and the counter notices (R30). -/

namespace Sys2Proof.Machine

/-- The surveillance period that applies to session n now (R26, R27). -/
def State.periodFor (s : State) (n : Slot) : Nat :=
  if s.holdsOnAir n then s.params.holderSurveillance else s.params.surveillance

/-- An OPEN session's deadline set to now plus `p` ms (R27). -/
def State.armDeadline (s : State) (n : Slot) (p : Nat) : State :=
  let r := s.session n
  if r.state = .opened then s.withSession n { r with deadline := some (Clock.plus s.clock p) } else s

/-- A counter notice (R30): the counters as `f` has them, and the notice itself counted, since each notice leads to a rewrite of
the session's status record whether or not the counter could still rise. -/
def State.countNotice (s : State) (n : Slot) (f : Session → Session) : State :=
  s.withSession n { f (s.session n) with counterNotices := (s.session n).counterNotices + 1 }

/-- A request taken from the cell of an OPEN session (R20): counted, and the deadline reset. -/
def State.noteRequest (s : State) (n : Slot) : State :=
  let t := s.countNotice n fun r => { r with requestsTaken := saturate 65535 r.requestsTaken 1 }
  t.armDeadline n (t.periodFor n)

/-- The grant of session n, if it holds one, receives an abrupt cause in this event (R22, R28). -/
def endGrantOf (n : Slot) (r : EndReason) (s : State) : State :=
  match s.grantOf n with
  | none => s
  | some g => takeCause g.tag r s

/-- The closing of an OPEN or LOST session (R22): one event. -/
def closeSession (n : Slot) (r : EndReason) (s : State) : State :=
  let t := s.withSession n { s.session n with state := .free, member := none, deadline := none }
  departEntry n r (endGrantOf n r t)

/-- The expiry of an OPEN session's deadline (R28): one event. -/
def expireSession (n : Slot) (s : State) : State :=
  let t := s.withSession n { s.session n with state := .lost, deadline := none }
  let t : State := match (s.session n).member with
    | some m => t.countLost m
    | none => t
  departEntry n .linkLost (endGrantOf n .linkLost t)

/-- Session n opened for member m (R21). The change count of its status record runs on. -/
def openSession (n : Slot) (m : MemberIx) (s : State) : State :=
  s.withSession n { Session.reset with
    state := .opened, member := some m, deadline := some (Clock.plus s.clock s.params.surveillance),
    changeCount := (s.session n).changeCount }

/-- A counter notice of the Playout Engine for the holder of a grant (R30). -/
def State.countFor (s : State) (holder : Option Slot) (f : Session → Session) : State :=
  match holder with
  | none => s
  | some n => s.countNotice n f

end Sys2Proof.Machine
end

