-- ==== Sys2Proof/Machine/Boundary.lean ====
section
/-! DEFINITION. The block boundary (R93–R99): one event of the Playout Engine in KEYED or DRAIN. -/

namespace Sys2Proof.Machine

/-- The total attenuation of grant `g` at this boundary (R103). -/
def State.attenuationOf (s : State) (g : Grant) : Option Int := totalAttenuation (s.memberOf g.member) (s.channel g.channel)

/-- A place freed at a boundary raises the released count (R93, R94). -/
def State.releasePlace (s : State) (i : Nat) : State :=
  let t := s.freePlace i
  t.withPlayout { t.playout with released := saturate 65535 t.playout.released 1 }

/-- Case 1: the block is played (R94). -/
def playBlock (g : Grant) (s : State) : State :=
  let i := s.playout.position % 64
  let block := s.txSamples i
  let t := s.releasePlace i
  let t := t.withPlayout { t.playout with
    dacBlock := levelBlock (s.attenuationOf g) 0 block, lastPlayed := some block, missingRun := 0 }
  let t := t.countFor g.session fun r => { r with blocksPlayed := saturate 65535 r.blocksPlayed 1 }
  match g.session with
  | some n => t.armDeadline n t.params.holderSurveillance
  | none => t

/-- Cases 2 to 5: the place freed and counted, as the case has it (R93). -/
def clearPlace (g : Grant) (c : PlaceCase) (s : State) : State :=
  let i := s.playout.position % 64
  match c with
  | .stale => (s.releasePlace i).countFor g.session fun r => { r with stale := saturate 65535 r.stale 1 }
  | .late => (s.releasePlace i).countFor g.session fun r => { r with late := saturate 65535 r.late 1 }
  | .overrun => (s.releasePlace i).countFor g.session fun r => { r with overrun := saturate 65535 r.overrun 1 }
  | .play | .empty => s

/-- p is raised by 1, in every case (R93). -/
def State.advance (s : State) : State := s.withPlayout { s.playout with position := s.playout.position + 1 }

/-- The substitute for a missing block (R95, R105): concealment after a played block, silence otherwise. -/
def substitute (g : Grant) (s : State) : State :=
  match s.playout.missingRun, s.playout.lastPlayed with
  | 0, some block =>
    let t := s.withPlayout { s.playout with
      dacBlock := levelBlock (s.attenuationOf g) 12 block, concealment := true, missingRun := 1 }
    t.countFor g.session fun r => { r with concealed := saturate 65535 r.concealed 1 }
  | run, _ => s.withPlayout { s.playout with dacBlock := silentBlock, missingRun := saturate 65535 run 1 }

/-- The drain has ended at this boundary (R99): final count, a missing block with no final count, or the drain limit. -/
def drainEnded (g : Grant) (missing : Bool) (s : State) : Bool :=
  (match g.finalCount with
   | some n => atOrBehind n s.playout.position
   | none => missing)
    || decide (s.params.drainLimit ≤ s.playout.drainCount)

/-- The rest of a boundary after its case (R93): the depth count and re-centring; in DRAIN, the drain count and its ends. -/
def finishBoundary (g : Grant) (missing : Bool) (s : State) : State :=
  if g.state = .drain then
    let t := s.countDepth g.tag false
    let t := t.withPlayout { t.playout with drainCount := t.playout.drainCount + 1 }
    if drainEnded g missing t then enterTail false g t else t
  else s.countDepth g.tag true

/-- A missing block in KEYED brings the missing run to the audio-loss limit (R96). -/
def losesAudio (g : Grant) (s : State) : Bool :=
  g.state == .keyed && decide (s.params.audioLoss ≤ saturate 65535 s.playout.missingRun 1)

/-- A boundary with a missing block (R95, R96, R99), its place already cleared and p raised. -/
def missBlock (g : Grant) (s : State) : State :=
  if g.state = .drain ∧ g.finalCount = none then finishBoundary g true s
  else if losesAudio g s then
    takeCause g.tag .audioLost (s.withPlayout { s.playout with missingRun := saturate 65535 s.playout.missingRun 1 })
  else finishBoundary g true (substitute g s)

/-- The block boundary of grant `g` (R93); the next falls 20 ms later (R91). -/
def boundaryOf (g : Grant) (s : State) : State :=
  let c := s.classify g.tag s.playout.position
  let t := s.withPlayout { s.playout with boundary := some (ms 20) }
  if c = .play then finishBoundary g false (playBlock g t).advance else missBlock g (clearPlace g c t).advance

/-- The block boundary, where a grant is in KEYED or DRAIN. -/
def boundaryEvent (s : State) : State :=
  match s.key.grant with
  | none => s
  | some g => if g.state = .keyed ∨ g.state = .drain then boundaryOf g s else s

/-- This boundary will end the grant AUDIO_LOST. -/
def boundaryLosesAudio (s : State) : Bool :=
  match s.key.grant with
  | none => false
  | some g => s.classify g.tag s.playout.position != .play && losesAudio g s

/-- This boundary brings the drain count to the drain limit. -/
def boundaryReachesDrainLimit (s : State) : Bool :=
  match s.key.grant with
  | none => false
  | some g => g.state == .drain && decide (s.params.drainLimit ≤ s.playout.drainCount + 1)

end Sys2Proof.Machine
end

