-- ==== Sys2Proof/Machine/Detector.lean ====
section
/-! DEFINITION. The Busy Detector, sample by sample (R111–R117), and DETECTOR HOLD's re-forming of it (R120). -/

namespace Sys2Proof.Machine

/-- Rectification: |x|, with |−32768| taken as 32767 (R112). -/
def rectify (x : Word) : Nat := min 32767 x.toInt.natAbs

/-- The filters' target T = 256·m (R112). -/
def target (x : Word) : Nat := 256 * rectify x

/-- One filter step toward `t`, by a shift of `up` in attack and `down` in decay (R112, R113). -/
def filterStep (up down f t : Nat) : Nat := if f < t then f + (t - f) / 2 ^ up else f - (f - t) / 2 ^ down

/-- kd from the decay code (R112). -/
def decayShift (code : Nat) : Nat := if code = 0 then 3 else 9 + code

/-- Both filters (R112, R113): the noise filter is frozen while auto-integrate is on and the previous S1 is 1. -/
def Detector.filter (d : Detector) (p : Params) (x : Word) : Detector :=
  { d with
    speech := filterStep 3 (decayShift p.decayCode) d.speech (target x)
    noise := if p.autoIntegrate && d.previousS1 then d.noise else filterStep 16 16 d.noise (target x) }

/-- S2 keeps its value between its two thresholds (R114). -/
def hysteresisStatus (p : Params) (ls ln : Nat) (kept : Bool) : Bool :=
  if ln + p.threshold + p.hysteresis < ls then true
  else if ls < max (ln + p.threshold - p.hysteresis) 1 then false
  else kept

/-- The levels and the statuses, and the previous S1 for the next evaluated sample (R114). -/
def Detector.formStatuses (d : Detector) (p : Params) : Detector :=
  let ls := d.speech / 2 ^ 15
  let ln := d.noise / 2 ^ 15
  let s1 := decide (ln + p.threshold < ls)
  { d with
    levelS := ls, levelN := ln, s0 := decide (ln < ls), s1 := s1, s2 := hysteresisStatus p ls ln d.s2, previousS1 := s1 }

/-- The status the busy source selects (R115). -/
def Detector.selected (d : Detector) : BusySource → Bool
  | .s0 => d.s0
  | .s1 => d.s1
  | .s2 => d.s2

/-- Raw busy (R115). -/
def Detector.formRaw (d : Detector) (p : Params) : Detector :=
  { d with rawBusy := d.selected p.busySource || (p.cosUse && d.cos) }

/-- The debounce (R116), with the run's count raised or not (R120 step 3). -/
def Detector.debounceBy (d : Detector) (p : Params) (raise : Bool) : Detector :=
  if d.rawBusy = d.debounced then { d with run := none }
  else
    let count := match d.run with
      | none => 0
      | some k => if raise then k + 1 else k
    if 8 * p.debounce ≤ count then { d with debounced := d.rawBusy, run := none } else { d with run := some count }

/-- COS judged at its programmed active level (R115). -/
def Params.cosJudged (p : Params) (high : Bool) : Bool := high != p.cosLowActive

/-- The evaluation of one sample: steps 1 to 6 of R111. -/
def Detector.evaluate (d : Detector) (p : Params) (x : Word) (cosHigh : Bool) : Detector :=
  let e := (d.filter p x).formStatuses p
  (({ e with cos := p.cosJudged cosHigh } : Detector).formRaw p).debounceBy p true

/-- The new detector figures, with the events and the notice of R117 for what has changed. -/
def reportDetector (d : Detector) (s : State) : State :=
  let old := s.detector
  let t := s.withDetector d
  let t := if d.s0 = old.s0 ∧ d.s1 = old.s1 ∧ d.s2 = old.s2 then t else t.raise .detectorChange
  if d.debounced = old.debounced then t else busyChange (t.raise .busyChange)

/-- A sample event at the Busy Detector: evaluated, unless the detector is held (R111, R118). -/
def detectSample (x : Word) (cosHigh : Bool) (s : State) : State :=
  if s.detector.held then s else reportDetector (s.detector.evaluate s.params x cosHigh) s

/-- DETECTOR HOLD's figures: the filters zeroed, the statuses, raw busy and debounce formed anew, the request source added
(R120). DEDUCED (notes/assumptions/24.md): they are formed with the parameters `p` that stand, also where a SET STATION has changed
COS use or D and no sample has been evaluated since. R122's first sentence lets a parameter take effect at the first evaluated
sample, its table at the next raw busy formation or debounce step: the model follows the table. -/
def Detector.restart (d : Detector) (p : Params) : Detector :=
  let e := ({ d with speech := 0, noise := 0 } : Detector).formStatuses p
  let e := (e.formRaw p).debounceBy p false
  { e with holds := { e.holds with request := true } }

end Sys2Proof.Machine
end

