-- ==== Sys2Proof/Machine/Receive.lean ====
section
/-! DEFINITION. The Receive Path (R106–R110) and the whole sample event (R111). -/

namespace Sys2Proof.Machine

/-- The 168 words of a receive place (R109, 11.4). -/
def State.receiveWords (s : State) (block : List Word) (keyed : Bool) : List Word :=
  let d := s.detector
  [1, s.receive.captureSequence, flagsWord [keyed, d.debounced, d.s0, d.s1, d.s2], word d.levelS, word d.levelN, 0, 0, 0]
    ++ block

/-- A capture boundary (R109): the collected block written into its place, or dropped. -/
def captureBlock (block : List Word) (keyed : Bool) (s : State) : State :=
  let base := rxBase (s.receive.captureSequence.toNat % 32)
  let t : State :=
    if s.read base = 0 then (s.writeAll base (s.receiveWords block keyed)).raise .rxReady
    else (s.withReceive { s.receive with overflow := saturate 65535 s.receive.overflow 1 }).raise .rxOverflow
  t.withReceive { t.receive with
    captureSequence := t.receive.captureSequence + 1, collection := [], keyedMark := false }

/-- A sample at the Receive Path (R108): silence and the KEYED mark while PTT is asserted; the 160th makes the boundary. -/
def receiveSample (x : Word) (s : State) : State :=
  let block := s.receive.collection ++ [if s.key.ptt then 0 else x]
  let keyed := s.receive.keyedMark || s.key.ptt
  if 160 ≤ block.length then captureBlock block keyed s
  else s.withReceive { s.receive with collection := block, keyedMark := keyed }

/-- One ADC sample: the Busy Detector first, then the Receive Path (R111). -/
def sampleEvent (x : Word) (cosHigh : Bool) (s : State) : State :=
  let t := receiveSample x (detectSample x cosHigh s)
  { t with samplesOwed := t.samplesOwed - 1 }

/-- This sample brings the debounce run to 8·D, so that debounced busy changes in its event (R116). -/
def completesDebounce (x : Word) (cosHigh : Bool) (s : State) : Bool :=
  !s.detector.held && (s.detector.evaluate s.params x cosHigh).debounced != s.detector.debounced

/-- The next sample is the 160th of its block (R107). -/
def completesBlock (s : State) : Bool := decide (159 ≤ s.receive.collection.length)

end Sys2Proof.Machine
end

