-- ==== Sys2Proof/Machine/Time.lean ====
section
/-! DEFINITION. Time: the time left of everything that happens at a moment, and the passing of time
(notes/assumptions/2.md and 3.md). -/

namespace Sys2Proof.Machine

/-! ## Time left, in sample periods; none where the event cannot come -/

/-- A timer of the current grant. -/
def State.grantLeft (s : State) (f : Grant → Option Nat) : Option Nat := s.key.grant.bind f

/-- The busy-wait timer's time left (R65). -/
def BusyWait.left : BusyWait → Option Nat
  | .running n => some n
  | .off | .expired => none

/-- The next accounting tick: each completed 100 ms of key time (R74). -/
def Grant.tickLeft (g : Grant) : Option Nat :=
  if g.state.memberOnAir then some (ms 100 * (g.ticks + 1) - g.keySamples) else none

/-- Key time reaching the key limit (R75). -/
def Grant.limitLeft (g : Grant) : Option Nat :=
  if g.state.memberOnAir then g.keyLimit.map fun l => ms l - g.keySamples else none

/-- The next block boundary, in KEYED or DRAIN (R91). -/
def State.boundaryLeft (s : State) : Option Nat :=
  s.key.grant.bind fun g => if g.state = .keyed ∨ g.state = .drain then s.playout.boundary else none

/-- A surveillance deadline (R28). -/
def State.deadlineLeft (s : State) (n : Slot) : Option Nat :=
  if (s.session n).state = .opened then (s.session n).deadline.map s.leftTo else none

/-- A penalty end (R15). -/
def State.penaltyLeft (s : State) (m : MemberIx) : Option Nat := (s.member m).penaltyEnd.map s.leftTo

/-- The ID interval (R125). -/
def State.intervalLeft (s : State) : Option Nat :=
  if s.ident.intervalReached then none else some (s.leftTo s.intervalTime)

/-- The quiet timer's time left (R126). -/
def QuietTimer.left : QuietTimer → Option Nat
  | .running n => some n
  | .stopped | .expired => none

/-- The pattern's first sample: the TX delay after an IDENT key-up (R130). -/
def State.patternStartLeft (s : State) : Option Nat :=
  s.key.grant.bind fun g =>
    if g.state = .idSending ∧ s.ident.position.isNone then some (ms s.params.txDelay - g.keySamples) else none

/-- The pattern's completion (R133). -/
def State.patternEndLeft (s : State) : Option Nat :=
  s.key.grant.bind fun g =>
    if g.state = .idSending ∧ s.ident.position.isSome then
      some (ms s.params.txDelay + s.params.patternSamples - g.keySamples)
    else none

/-- The next receive sample: 125 µs after the last, or at once when one is owed (R107). -/
def State.sampleLeft (s : State) : Nat := if s.samplesOwed = 0 then 1 else 0

/-- The next status page rewrite, every 20 ms from READY, or at once when one is owed (R171). -/
def State.pageLeft (s : State) : Nat := if s.pagesOwed = 0 then 160 - s.periods % 160 else 0

/-- The time left of everything that happens at a moment: the sampling of RXAUD (R107), the page rewrites (R171) and every
running timer. -/
def State.timersLeft (s : State) : List Nat :=
  s.sampleLeft :: s.pageLeft :: ([s.floor.courtesy, s.grantLeft (·.changeoverLeft), s.grantLeft (·.busyWait.left),
    s.grantLeft (·.gap1Left), s.grantLeft (·.gap2Left), s.grantLeft (·.prebufferLeft), s.boundaryLeft, s.grantLeft (·.tailLeft),
    s.grantLeft (·.tickLeft), s.grantLeft (·.limitLeft), s.key.recovery, s.intervalLeft, s.ident.quiet.left,
    s.patternStartLeft, s.patternEndLeft, s.supervisor.qualification.map (·.left), s.supervisor.releaseTimer]
    ++ allSlots.map s.deadlineLeft ++ allMembers.map s.penaltyLeft).filterMap id

/-- An end cause sent to the Key Controller, which may take it at once or later (R136). -/
def Notice.isCause : Notice → Bool
  | .cause _ _ => true
  | .ended _ _ _ _ | .revocation _ | .privilege _ | .keyLimit _ | .clear _ => false

/-- An event that takes no time is outstanding: a pending cell (R164: served "without waiting"), or a notice not yet taken other
than an end cause. While an end cause alone is in flight time can pass, and the grant runs on (R134, R136). -/
def State.outstanding (s : State) : Bool := s.notices.any (!·.isCause) || s.nextCell.isSome

/-- `n` sample periods may pass before the next event: no timer ends, no receive sample or page rewrite falls due, and nothing
outstanding is overtaken. -/
def State.mayPass (s : State) (n : Nat) : Bool := n == 0 || (!s.outstanding && s.timersLeft.all (n ≤ ·))

/-! ## The passing of time -/

/-- A timer after `n` sample periods. -/
def countDown (n : Nat) (t : Option Nat) : Option Nat := t.map (· - n)

/-- A grant after `n` sample periods: its timers, and its key time while it is on the air. -/
def Grant.passTime (g : Grant) (n : Nat) : Grant :=
  { g with
    keySamples := if g.state.onAir then g.keySamples + n else g.keySamples
    changeoverLeft := countDown n g.changeoverLeft
    busyWait := match g.busyWait with | .running k => .running (k - n) | .off => .off | .expired => .expired
    gap1Left := countDown n g.gap1Left
    gap2Left := countDown n g.gap2Left
    prebufferLeft := countDown n g.prebufferLeft
    tailLeft := countDown n g.tailLeft }

/-- The Identification Sender after `n` sample periods: the quiet timer, the pattern position and the tone phase (R131). -/
def Ident.passTime (i : Ident) (p : Params) (n : Nat) : Ident :=
  { i with
    quiet := match i.quiet with | .running k => .running (k - n) | .stopped => .stopped | .expired => .expired
    position := i.position.map (· + n)
    phase := if i.position.isSome then i.phase + word (n * phaseStep p.idTone) else i.phase }

/-- The Supervisor after `n` sample periods. -/
def Supervisor.passTime (v : Supervisor) (n : Nat) : Supervisor :=
  { v with
    qualification := v.qualification.map fun q => { q with left := q.left - n }
    releaseTimer := countDown n v.releaseTimer }

/-- `n` sample periods pass: the clock, every timer, the samples given to the DAC, and the samples and page rewrites owed. -/
def State.passTime (s : State) (n : Nat) : State :=
  { s with
    periods := s.periods + n
    samplesOwed := s.samplesOwed + n
    pagesOwed := s.pagesOwed + (s.periods % 160 + n) / 160
    floor := { s.floor with courtesy := countDown n s.floor.courtesy }
    key := { s.key with grant := s.key.grant.map (·.passTime n), recovery := countDown n s.key.recovery }
    playout := { s.playout with boundary := countDown n s.playout.boundary, dacBlock := s.playout.dacBlock.drop n }
    ident := s.ident.passTime s.params n
    supervisor := s.supervisor.passTime n }

/-- An event that comes at a moment: the time to it passes, unless another event comes first, and then it is taken. Where
the event cannot come, or cannot come next, the command is none of the part's and nothing happens
(notes/assumptions/2.md). -/
def timed (left : State → Option Nat) (effect : State → State) (s : State) : State :=
  match left s with
  | none => s
  | some n => if s.ready && s.mayPass n then event effect (s.passTime n) else s

/-- An event of the part that takes no time, taken while STATUS.READY is 1. -/
def whenReady (effect : State → State) (s : State) : State := if s.ready then event effect s else s

/-- A notice in flight taken (its first occurrence); a notice that is not in flight cannot be taken. -/
def takeNotice (n : Notice) (effect : State → State) (s : State) : State :=
  if s.ready && s.notices.contains n then event effect (s.withNotices (s.notices.erase n)) else s

end Sys2Proof.Machine
end

