-- ==== Sys2Proof/Machine/Registers.lean ====
section
/-! DEFINITION. The Host Bus Interface: host writes and reads by address (R160, R168–R170), attention (R163), and the resets
(R172, R173). -/

namespace Sys2Proof.Machine

/-! ## Resets -/

/-- Every block at its reset values (R172), with TXFAULT active judged from the input at the default polarity (R142). The
inputs, the commands waiting and the free-choice counter are not the part's to reset; the exchange memory is cleared later. -/
def State.resetBlocks (s : State) (p : Phase) : State :=
  { State.reset with
    supervisor := { Supervisor.reset with txfaultActive := s.txfaultPin }
    mem := s.mem
    phase := p
    txfaultPin := s.txfaultPin
    disablePin := s.disablePin
    choices := s.choices
    pending := s.pending }

/-- RESET# released (R172): TXFAULT judged from the input as it stands, and the start-up clearing begins. -/
def State.releaseReset (s : State) : State :=
  { s with phase := .clearing, supervisor := { s.supervisor with txfaultActive := s.txfaultPin } }

/-- The end of the start-up (R173): the memory cleared (R172), the 16 session status records (R34) and the page written with
the reset contents, the DISABLE state set from the input (R148), the station clock at 0, STATUS.READY 1. -/
def State.finishStartUp (s : State) : State :=
  let t := { s with mem := [], periods := 0, samplesOwed := 0, pagesOwed := 0 }
  let t := allSlots.foldl State.rewriteRecord t
  let t := t.rewritePage
  let t := t.withSupervisor { t.supervisor with disable := if t.disablePin then .asserted else .released }
  { t with phase := .ready }

/-! ## Attention (R163) -/

/-- A call of attention to one cell. -/
def callCell (c : Cell) (s : State) : State :=
  if s.cells.waiting[c] then
    (s.withCells { s.cells with attentionHeld := saturate 65535 s.cells.attentionHeld 1 }).raise .abnormal
  else (s.withCells { s.cells with waiting := s.cells.waiting.set c true }).write (cellBase c) 1

/-- A write to ATTENTION: bit n−1 calls cell n. -/
def callSessions (v : Word) (s : State) : State :=
  allSlots.foldl (fun t n => if v.getLsbD n.val then callCell n.cell t else t) s

/-! ## Registers (R168–R170) -/

/-- A write to CONTROL without bit 15: both enable bits replaced, and bit 0 calls the station cell. -/
def writeControl (v : Word) (s : State) : State :=
  let t := s.withBus { s.bus with answerEnable := v.getLsbD 1, newsEnable := v.getLsbD 2 }
  if v.getLsbD 0 then callCell 0 t else t

/-- A write to IDENT, STATUS, ANSWERED or NEWS. -/
def writeReadOnly (s : State) : State :=
  (s.withBus { s.bus with writeToReadOnly := saturate 65535 s.bus.writeToReadOnly 1 }).raise .abnormal

/-- A write to EVENTS: each bit written 1 is cleared (R170). -/
def clearEvents (v : Word) (s : State) : State := s.withBus { s.bus with events := s.bus.events &&& ~~~v }

/-- A write to EVENT_ENABLE: bits 0–12 stored. -/
def writeEventEnable (v : Word) (s : State) : State := s.withBus { s.bus with eventEnable := v &&& 0x1FFF }

/-- The address is the state word of a transmit place. -/
def isTxState (a : Nat) : Bool := decide (0x1000 ≤ a) && decide (a < 0x3A00) && (a - 0x1000) % 168 == 0

/-- The prebuffer examination after a host write of a state word while PREBUFFER lasts (R69, R90). -/
def examinePrebuffer (s : State) : State :=
  match s.key.grant with
  | none => s
  | some g => if g.state = .prebuffer ∧ s.prebufferComplete g.tag then keyUp g s else s

/-- A host write into the exchange memory (R160). -/
def writeMemory (a : Nat) (v : Word) (s : State) : State :=
  let t := s.write a v
  if isTxState a then examinePrebuffer t else t

/-- A host write, by its address (R160, R168). While STATUS.READY is 0 every write is ignored (R172). -/
def hostWrite (address value : Word) (s : State) : State :=
  if !s.ready then s
  else
    match address.toNat with
    | 0x8000 | 0x8001 | 0x8004 | 0x8005 => event writeReadOnly s
    | 0x8002 => if value.getLsbD 15 then s.resetBlocks .clearing else event (writeControl value) s
    | 0x8003 => event (callSessions value) s
    | 0x8006 => event (clearEvents value) s
    | 0x8007 => event (writeEventEnable value) s
    | a => if a < memorySize then event (writeMemory a value) s else s

/-- What a host read returns (R160, R168, R172). While RESET# is asserted every read returns 0; during the clearing only
IDENT and STATUS can be read. -/
def State.readWord (s : State) (address : Word) : Word :=
  match s.phase, address.toNat with
  | .held, _ => 0
  | _, 0x8000 => Config.identValue
  | _, 0x8001 => s.status
  | .clearing, _ => 0
  | .ready, 0x8002 => flagsWord [false, s.bus.answerEnable, s.bus.newsEnable]
  | .ready, 0x8003 => 0
  | .ready, 0x8004 => s.bus.answered
  | .ready, 0x8005 => s.bus.news
  | .ready, 0x8006 => s.bus.events
  | .ready, 0x8007 => s.bus.eventEnable
  | .ready, a => if a < memorySize then s.read a else 0

/-- A host read: the word driven on D[15:0], and the bits of ANSWERED or NEWS that it returned cleared (R169). -/
def hostRead (address : Word) (s : State) : State :=
  let w := s.readWord address
  let t := s.withBus { s.bus with data := w }
  if !s.ready then t
  else
    match address.toNat with
    | 0x8004 => t.withBus { t.bus with answered := t.bus.answered &&& ~~~w }
    | 0x8005 => t.withBus { t.bus with news := t.bus.news &&& ~~~w }
    | _ => t

end Sys2Proof.Machine
end

