-- ==== Sys2Proof/Machine/Supervisor.lean ====
section
/-! DEFINITION. The Transmitter Supervisor: stop (R138), lockout (R139), TXFAULT and its qualification (R142–R145), DISABLE
(R146, R147). -/

namespace Sys2Proof.Machine

/-- STOP taken while RUNNING (R138). -/
def stopStation (now : Bool) (s : State) : State :=
  let t := s.withSupervisor { s.supervisor with running := false }
  let t := sendCause .stopped now t.dropPtt
  t.notify (.clear .stopped)

/-- The lockout flag set, or its reason changed, or a KILL repeated (R139, R140). -/
def enterLockout (r : LockoutReason) (s : State) : State :=
  let t := s.withSupervisor { s.supervisor with lockout := some r }
  let t := (t.raise .lockout).dropPtt
  t.notify (.clear .lockedOut)

/-- KILL (R140). -/
def kill (now : Bool) (s : State) : State := enterLockout .killed (sendCause .killed now s)

/-- CLEAR LOCKOUT with the flag set (R141). -/
def clearLockout (s : State) : State :=
  arbitrate (s.withSupervisor { s.supervisor with lockout := none, history := [] })

/-- The fault history after pruning and appending (R145). It holds no duplicates (R135): a second qualified fault of one
millisecond leaves that time in the list once, at the back (notes/assumptions/26.md). -/
def Supervisor.noteFault (v : Supervisor) (now : Clock) (windowMs : Nat) : List Clock :=
  (v.history.filter fun t => decide ((now - t).toNat < windowMs) && t != now) ++ [now]

/-- A qualified fault (R144). -/
def qualifiedFault (now : Bool) (s : State) : State :=
  let t := s.withSupervisor { s.supervisor with qualification := none, qualifiedThisKeying := true }
  let t := sendCause .fault now t
  let history := t.supervisor.noteFault t.clock (1000 * t.params.faultWindow)
  let t := t.withSupervisor { t.supervisor with
    faultCount := saturate 65535 t.supervisor.faultCount 1, history := history }
  let t := t.raise .fault
  if t.params.lockoutCount ≤ history.length then enterLockout .faults t else t

/-- TXFAULT active judged anew from the input (R142), with what follows for a qualification (R143): begun when TXFAULT goes
active while PTT is asserted and no fault has been qualified this keying, abandoned when it goes inactive. A qualify time
of 0 qualifies at once. -/
def judgeTxfault (now : Bool) (s : State) : State :=
  let active := s.txfaultJudged
  let t := s.withSupervisor { s.supervisor with txfaultActive := active }
  if !active then t.withSupervisor { t.supervisor with qualification := none }
  else if t.key.ptt && !t.supervisor.qualifiedThisKeying && t.supervisor.qualification.isNone then
    if t.params.faultQualify = 0 then qualifiedFault now t
    else t.withSupervisor { t.supervisor with qualification := some { since := t.clock, left := ms t.params.faultQualify } }
  else t

/-- DISABLE going active (R146). -/
def assertDisable (now : Bool) (s : State) : State :=
  match s.supervisor.disable with
  | .released =>
    let t := s.withSupervisor { s.supervisor with disable := .asserted }
    let t := (t.raise .disableChange).dropPtt
    sendCause .disabled now t
  | .releasing => s.withSupervisor { s.supervisor with disable := .asserted, releaseTimer := none }
  | .asserted => s

/-- DISABLE going inactive (R147). -/
def beginDisableRelease (s : State) : State :=
  match s.supervisor.disable with
  | .asserted =>
    s.withSupervisor { s.supervisor with disable := .releasing, releaseTimer := some (ms Config.disableReleaseMs) }
  | .released | .releasing => s

/-- The release timer's expiry (R147). -/
def completeDisableRelease (s : State) : State :=
  let t := s.withSupervisor { s.supervisor with disable := .released, releaseTimer := none }
  arbitrate (t.raise .disableChange)

end Sys2Proof.Machine
end

