-- ==== Sys2Proof/Machine/Cells.lean ====
section
/-! DEFINITION. The Request Cell Unit: the service of a cell (R164, R165), the session gate (R20) and the dispatch (R166). -/

namespace Sys2Proof.Machine

/-- The slot of a session cell. -/
def cellSlot (c : Cell) : Option Slot := if h : c = 0 then none else some (c.pred h)

/-- The answer code word: bits 0–7 the code, bit 8 CLAMPED (11.2). -/
def Answer.codeWord (a : Answer) : Word := word (a.code.code + if a.clamped then 256 else 0)

/-- The 16 answer words: an answer with a code other than DONE or QUEUED carries 0 in every one (R165). -/
def Answer.sixteen (a : Answer) : List Word := padTo 16 (if a.code.carriesWords then a.words else [])

/-- The answer to cell c: its code word, tag and words written, the holder word 0, the cell no longer pending, and the
summary bit set; a session cell becomes the round-robin pointer (R164, R165). -/
def writeAnswer (c : Cell) (tag : Word) (a : Answer) (s : State) : State :=
  let t := (s.writeAll (cellBase c + 43) (a.codeWord :: tag :: a.sixteen)).write (cellBase c) 0
  let t := t.withCells { t.cells with waiting := t.cells.waiting.set c false }
  match cellSlot c with
  | none => t.raise .stationAnswer
  | some n => (t.withCells { t.cells with pointer := n }).setAnswered n

/-- The service of a cell (R165): the request carried out, then answered with the host tag as it was read. -/
def serve (c : Cell) (body : State → State × Answer) (s : State) : State :=
  let r := body s
  writeAnswer c (s.read (cellBase c + 2)) r.2 r.1

/-- The session gate (R20): a FREE or LOST session's request goes no further; an OPEN session's is counted, and its deadline
reset, before its owner sees it. -/
def gate (n : Slot) (body : State → State × Answer) (s : State) : State × Answer :=
  match (s.session n).state with
  | .free => (s, .plain .sessionFree)
  | .lost => (s, .plain .sessionLost)
  | .opened => body (s.noteRequest n)

/-- The service of the station cell, where it is the next cell served and holds request `r`. -/
def stationService (r : Request) (body : State → State × Answer) (s : State) : State :=
  if s.ready ∧ s.nextCell = some 0 ∧ s.requestIn 0 = r then event (serve 0 body) s else s

/-- The service of a session cell, where one is the next cell served and holds request `r`. -/
def sessionService (r : Request) (body : Slot → State → State × Answer) (s : State) : State :=
  match s.nextCell.bind cellSlot with
  | none => s
  | some n => if s.ready ∧ s.requestIn n.cell = r then event (serve n.cell (gate n (body n))) s else s

/-- A request a control operator's session may place (R53, R54, R140, R141): NOT_PERMITTED for any other member. -/
def operatorOnly (n : Slot) (body : State → State × Answer) (s : State) : State × Answer :=
  if s.isOperator n then body s else (s, .plain .notPermitted)

/-- A request answered with no effect. -/
def refuse (c : AnswerCode) (s : State) : State × Answer := (s, .plain c)

/-- A request with an effect and no answer words, answered DONE. -/
def done (s : State) : State × Answer := (s, .plain .done)

end Sys2Proof.Machine
end

