-- ==== Sys2Proof/Machine/StationRequests.lean ====
section
/-! DEFINITION. The requests of the station cell, one meaning per row of the table: NOP to DETECTOR_RELEASE. -/

namespace Sys2Proof.Machine

/-- The outcome of a command: every one has an effect, or none, and goes on. -/
abbrev Result := Host.Outcome State Fault Refusal

/-! ## Run state, lockout and hold -/

/-- START (R137). -/
def startRequest (s : State) : State × Answer :=
  if s.supervisor.running then refuse .already s
  else done (arbitrate (s.withSupervisor { s.supervisor with running := true }))

/-- STOP (R138). -/
def stopRequest (now : Bool) (s : State) : State × Answer :=
  if s.supervisor.running then done (stopStation now s) else refuse .already s

/-- HOLD FLOOR (R53). -/
def holdRequest (s : State) : State × Answer :=
  if s.floor.hold then refuse .already s else done (s.withFloor { s.floor with hold := true })

/-- RESUME FLOOR (R54). -/
def resumeRequest (s : State) : State × Answer :=
  if s.floor.hold then done (arbitrate (s.withFloor { s.floor with hold := false })) else refuse .already s

/-- KILL (R140). -/
def killRequest (now : Bool) (s : State) : State × Answer := done (kill now s)

/-- CLEAR LOCKOUT (R141). -/
def clearLockoutRequest (s : State) : State × Answer :=
  if s.supervisor.lockout.isSome then done (clearLockout s) else refuse .already s

/-! ## SET STATION (R167) -/

/-- The parameters that act in the SET STATION event itself: the ID interval (R125), the ID text (R127), the TXFAULT polarity
(R142). Identification becoming due is an arbitration event. -/
def stationActs (s : State) : State :=
  let t := judgeTxfault false s
  let t : State := if t.params.idTextEmpty then t.withIdent { t.ident with due := false } else t
  let now := !t.ident.intervalReached && reached t.clock t.intervalTime
  let t : State := if now then t.withIdent { t.ident with intervalReached := true } else t
  let u := t.makeDue (t.ident.owed && (t.ident.intervalReached || t.ident.quiet == .expired))
  if u.ident.due && !t.ident.due then arbitrate u else u

def setStationRequest (s : State) : State × Answer :=
  if s.key.grant.isSome then refuse .busy s
  else
    match s.stationCodes 0 with
    | none => refuse .badValue s
    | some k =>
      let p := s.stationParams 0 k
      (stationActs (s.withParams p), { code := .done, clamped := s.stationClamped 0 p, words := [] })

/-! ## The member table (R3–R7, R14) -/

/-- The member record a SET MEMBER with present yes writes (R3 step 2, R4), and whether an argument was clamped. -/
def State.memberArgs (s : State) (old : Member) (operator unmetered : Bool) : Member × Bool :=
  let a := fun i => (s.argument 0 i).toNat
  let grade := clamp 1 3 (a 2)
  let priority := clamp 0 3 (a 5)
  let maxKey := clamp 10 600 (a 6)
  let allowance := clamp 0 36000 (a 8)
  let trim := match trimArg (s.argument 0 9) with
    | .muted => Trim.muted
    | .steps n => .steps (clampInt (-12) 36 n)
  let clamped := grade != a 2 || priority != a 5 || maxKey != a 6 || (!unmetered && allowance != a 8)
    || trim != trimArg (s.argument 0 9)
  let remaining :=
    if unmetered then 0
    else if old.present && !old.unmetered then min old.remaining allowance
    else allowance
  ({ present := true, grade := grade, controlOperator := operator, permitted := s.argument 0 4, priority := priority,
     maxKeyTime := maxKey, unmetered := unmetered, allowance := if unmetered then none else some allowance,
     remaining := remaining, trim := trim, penaltyEnd := old.penaltyEnd, grantCount := old.grantCount,
     lostCount := old.lostCount }, clamped)

/-- A SET MEMBER narrows a member's privileges (R6). -/
def narrows (old new : Member) : Bool := old.permitted &&& ~~~new.permitted != 0 || decide (new.grade < old.grade)

/-- Member m holds the current grant (R17). -/
def State.memberHolds (s : State) (m : MemberIx) : Bool :=
  match s.key.grant with
  | none => false
  | some g => g.member == some m

/-- The notice of a changed max key time: sent where a SET MEMBER changes the holder's, with either present argument (R17). -/
def noteKeyTime (m : MemberIx) (old new : Member) (s : State) : State :=
  if s.memberHolds m && new.maxKeyTime != old.maxKeyTime then s.notify (.keyLimit m) else s

/-- SET MEMBER with present yes (R4, R6, R17): the record, and the notices its change requires. -/
def writeMember (m : MemberIx) (new : Member) (s : State) : State :=
  let old := s.member m
  let t := s.withMember m new
  let t := if narrows old new then t.notify (.privilege m) else t
  noteKeyTime m old new t

/-- SET MEMBER with present no (R5, R17): the reset record, and the notices its change requires. Which of the two is taken first
is open (notes/assumptions/11.md). -/
def removeMember (m : MemberIx) (s : State) : State :=
  let t := s.withMember m Member.reset
  let t := if (s.member m).present && (s.slotOf m).isSome then t.notify (.revocation m) else t
  noteKeyTime m (s.member m) Member.reset t

def setMemberRequest (s : State) : State × Answer :=
  match memberArg (s.argument 0 0), yesNo (s.argument 0 1) with
  | some m, some false => done (removeMember m s)
  | some m, some true =>
    match yesNo (s.argument 0 3), yesNo (s.argument 0 7) with
    | some operator, some unmetered =>
      let r := s.memberArgs (s.member m) operator unmetered
      (writeMember m r.1 s, { code := .done, clamped := r.2, words := [] })
    | _, _ => refuse .badValue s
  | _, _ => refuse .badValue s

/-- READ MEMBER's answer words (R7, 11.2). -/
def State.memberWords (s : State) (m : MemberIx) : List Word :=
  let r := s.member m
  let t := r.penaltyEnd.getD 0
  [word m.val, flagsWord [r.present, r.controlOperator, r.unmetered, s.penaltyInForce m, r.penaltyEnd.isSome],
   word r.grade, word r.priority, r.permitted, word r.maxKeyTime, (r.allowance.map word).getD 0xFFFF, word r.remaining,
   r.trim.word, lowWord t, highWord t, word r.grantCount, word r.lostCount]

def readMemberRequest (s : State) : State × Answer :=
  match memberArg (s.argument 0 0) with
  | none => refuse .badValue s
  | some m => (s, { code := .done, clamped := false, words := s.memberWords m })

/-- A record REFILL counts: present and metered (R14). -/
def Member.refillable (r : Member) : Bool := r.present && !r.unmetered

/-- REFILL of one record (R14). -/
def refillOne (s : State) (m : MemberIx) : State :=
  let r := s.member m
  if r.refillable then s.withMember m { r with remaining := r.allowance.getD 0 } else s

/-- The members REFILL's argument names: one, or all for FFFFh (11.2). -/
def refillArg (w : Word) : Option (List MemberIx) :=
  if w = 0xFFFF then some allMembers else (memberArg w).map fun m => [m]

def refillRequest (s : State) : State × Answer :=
  match refillArg (s.argument 0 0) with
  | none => refuse .badValue s
  | some ms =>
    (ms.foldl refillOne s,
     { code := .done, clamped := false, words := [word (ms.filter fun m => (s.member m).refillable).length] })

/-! ## The channel table (R9, R11) -/

/-- The current grant's channel field names channel c (R9). -/
def State.channelInUse (s : State) (c : ChannelIx) : Bool :=
  match s.key.grant with
  | none => false
  | some g => g.channel == c

/-- The channel record a SET CHANNEL with present yes writes, and whether an argument was clamped (R9 step 4). -/
def State.channelArgs (s : State) (busyCheck : Bool) : Channel × Bool :=
  let a := fun i => (s.argument 0 i).toNat
  let radio := clamp 0 63 (a 2)
  let grade := clamp 1 3 (a 3)
  let maxKey := clamp 10 600 (a 4)
  let attenuation := clamp 0 60 (a 5)
  ({ present := true, radioMemory := radio, minGrade := grade, maxKeyTime := maxKey, attenuation := attenuation,
     busyCheck := busyCheck },
   radio != a 2 || grade != a 3 || maxKey != a 4 || attenuation != a 5)

def setChannelRequest (s : State) : State × Answer :=
  match channelArg (s.argument 0 0) with
  | none => refuse .badValue s
  | some c =>
    if s.channelInUse c then refuse .busy s
    else
      match yesNo (s.argument 0 1) with
      | none => refuse .badValue s
      | some false => done (s.withChannel c Channel.reset)
      | some true =>
        match yesNo (s.argument 0 6) with
        | none => refuse .badValue s
        | some busyCheck =>
          let r := s.channelArgs busyCheck
          (s.withChannel c r.1, { code := .done, clamped := r.2, words := [] })

/-- READ CHANNEL's answer words (R11, 11.2). -/
def State.channelWords (s : State) (c : ChannelIx) : List Word :=
  let r := s.channel c
  [word c.val, flagsWord [r.present, r.busyCheck, s.channelInUse c], word r.radioMemory, word r.minGrade,
   word r.maxKeyTime, word r.attenuation]

def readChannelRequest (s : State) : State × Answer :=
  match channelArg (s.argument 0 0) with
  | none => refuse .badValue s
  | some c => (s, { code := .done, clamped := false, words := s.channelWords c })

/-! ## Sessions (R21, R23) -/

def openSessionRequest (s : State) : State × Answer :=
  match slotArg (s.argument 0 0), memberArg (s.argument 0 1) with
  | some n, some m =>
    if (s.session n).state ≠ .free then refuse .inUse s
    else if !(s.member m).present then refuse .notPermitted s
    else if (s.slotOf m).isSome then refuse .duplicate s
    else done (openSession n m s)
  | _, _ => refuse .badValue s

def closeSessionRequest (s : State) : State × Answer :=
  match slotArg (s.argument 0 0) with
  | none => refuse .badValue s
  | some n => if (s.session n).state = .free then refuse .already s else done (closeSession n .closed s)

/-! ## The Busy Detector (R120, R121) -/

def detectorHoldRequest (s : State) : State × Answer :=
  if s.detector.holds.request then refuse .already s
  else done (reportDetector (s.detector.restart s.params) s)

def detectorReleaseRequest (s : State) : State × Answer :=
  if s.detector.holds.request then done (s.withHolds { s.detector.holds with request := false }) else refuse .already s

/-! ## The meanings of the rows -/

/-- NOP: answered DONE with no effect, in every state (R166). -/
def execNop (s : State) : Result := .next (stationService .nop done s)
/-- START (R137). -/
def execStart (s : State) : Result := .next (stationService .start startRequest s)
/-- STOP (R138). -/
def execStop (causeNow : Bool) (s : State) : Result := .next (stationService .stop (stopRequest causeNow) s)
/-- HOLD FLOOR in the station cell (R53). -/
def execHoldFloor (s : State) : Result := .next (stationService .holdFloor holdRequest s)
/-- RESUME FLOOR in the station cell (R54). -/
def execResumeFloor (s : State) : Result := .next (stationService .resumeFloor resumeRequest s)
/-- SET STATION (R167). -/
def execSetStation (s : State) : Result := .next (stationService .setStation setStationRequest s)
/-- SET MEMBER (R3). -/
def execSetMember (s : State) : Result := .next (stationService .setMember setMemberRequest s)
/-- READ MEMBER (R7). -/
def execReadMember (s : State) : Result := .next (stationService .readMember readMemberRequest s)
/-- SET CHANNEL (R9). -/
def execSetChannel (s : State) : Result := .next (stationService .setChannel setChannelRequest s)
/-- READ CHANNEL (R11). -/
def execReadChannel (s : State) : Result := .next (stationService .readChannel readChannelRequest s)
/-- REFILL (R14). -/
def execRefill (s : State) : Result := .next (stationService .refill refillRequest s)
/-- OPEN SESSION (R21). -/
def execOpenSession (s : State) : Result := .next (stationService .openSession openSessionRequest s)
/-- CLOSE SESSION (R23). -/
def execCloseSession (s : State) : Result := .next (stationService .closeSession closeSessionRequest s)
/-- CLEAR LOCKOUT in the station cell (R141). -/
def execClearLockout (s : State) : Result := .next (stationService .clearLockout clearLockoutRequest s)
/-- KILL in the station cell (R140). -/
def execKill (causeNow : Bool) (s : State) : Result := .next (stationService .kill (killRequest causeNow) s)
/-- DETECTOR HOLD (R120). -/
def execDetectorHold (s : State) : Result := .next (stationService .detectorHold detectorHoldRequest s)
/-- DETECTOR RELEASE (R121). -/
def execDetectorRelease (s : State) : Result := .next (stationService .detectorRelease detectorReleaseRequest s)

end Sys2Proof.Machine
end

