-- ==== Sys2Proof/Machine/HostAccess.lean ====
section
/-! DEFINITION. The host's accesses, one meaning per row of the table: ATTENTION_WRITE to HOST_MEMORY_WRITE. Each is the bus
access the row names, decided by its address and word (R160, R168). -/

namespace Sys2Proof.Machine

/-- A write to ATTENTION, 8003h (R163). -/
def execAttentionWrite (value : Word) (s : State) : Result := .next (hostWrite 0x8003 value s)
/-- A write to CONTROL, 8002h, with bit 0 set: the enable bits are replaced as by every CONTROL write (R163, R168). -/
def execStationCellCall (value : Word) (s : State) : Result := .next (hostWrite 0x8002 value s)
/-- A write to CONTROL, 8002h, for its enable bits (R168). -/
def execInterruptEnableWrite (value : Word) (s : State) : Result := .next (hostWrite 0x8002 value s)
/-- A write to CONTROL, 8002h, with bit 15 set: a soft reset (R172). -/
def execSoftReset (value : Word) (s : State) : Result := .next (hostWrite 0x8002 value s)
/-- A write to EVENT_ENABLE, 8007h (R168). -/
def execEventEnableWrite (value : Word) (s : State) : Result := .next (hostWrite 0x8007 value s)
/-- A write to EVENTS, 8006h (R170). -/
def execEventsClear (value : Word) (s : State) : Result := .next (hostWrite 0x8006 value s)
/-- A read of ANSWERED, 8004h (R169). -/
def execAnsweredRead (s : State) : Result := .next (hostRead 0x8004 s)
/-- A read of NEWS, 8005h (R169). -/
def execNewsRead (s : State) : Result := .next (hostRead 0x8005 s)
/-- A write to a read-only register, or above 8007h (R160, R168). -/
def execReadOnlyRegisterWrite (address value : Word) (s : State) : Result := .next (hostWrite address value s)
/-- A write of one word of the exchange memory (R160). -/
def execHostMemoryWrite (address value : Word) (s : State) : Result := .next (hostWrite address value s)

end Sys2Proof.Machine
end

