-- ==== Sys2Proof/Machine/TimedEvents.lean ====
section
/-! DEFINITION. The events that come at a moment, one meaning per row of the table: COURTESY_EXPIRY to
QUALIFICATION_EXPIRY. -/

namespace Sys2Proof.Machine

/-- An effect on the current grant, where there is one. -/
def onGrant (effect : Grant → State → State) (s : State) : State :=
  match s.key.grant with
  | none => s
  | some g => effect g s

/-! ## The floor and the turnaround -/

/-- Expiry of the courtesy interval (R44, R45). -/
def expireCourtesy (s : State) : State := arbitrate (s.withFloor { s.floor with courtesy := none })

def execCourtesyExpiry (s : State) : Result := .next (timed (fun t => t.floor.courtesy) expireCourtesy s)

/-- Expiry of the changeover timer (R63). -/
def execChangeoverExpiry (s : State) : Result :=
  .next (timed (fun t => t.grantLeft (·.changeoverLeft)) (onGrant leaveChangeover) s)

/-- Expiry of the busy-wait timer (R65): in WAIT_CLEAR the wait is over; in GAP1 or GAP2 the expiry is recorded. -/
def expireBusyWait (g : Grant) (s : State) : State :=
  let g := { g with busyWait := .expired }
  match g.state with
  | .waitClear => busyWaitOver g s
  | .changeover | .gap1 | .gap2 | .prebuffer | .keyed | .idSending | .drain | .tail => s.withGrant (some g)

def execBusyWaitExpiry (s : State) : Result :=
  .next (timed (fun t => t.grantLeft (·.busyWait.left)) (onGrant expireBusyWait) s)

/-- Expiry of the GAP1 timer (R67). -/
def execGap1Expiry (s : State) : Result := .next (timed (fun t => t.grantLeft (·.gap1Left)) (onGrant enterGap2) s)

/-- Expiry of the GAP2 timer (R68). -/
def execGap2Expiry (s : State) : Result := .next (timed (fun t => t.grantLeft (·.gap2Left)) (onGrant leaveGap2) s)

/-- Expiry of the prebuffer limit (R70). DEDUCED (notes/assumptions/39.md): a grant held after a key-up event that was not made
stays in PREBUFFER whatever its places hold (R71). -/
def expirePrebuffer (g : Grant) (s : State) : State :=
  let g := { g with prebufferLeft := none }
  if g.keyUpHeld then s.withGrant (some g)
  else if s.anyAudio g.tag then keyUp g s else preKeyEnd g .noAudio s

def execPrebufferLimitExpiry (s : State) : Result :=
  .next (timed (fun t => t.grantLeft (·.prebufferLeft)) (onGrant expirePrebuffer) s)

/-! ## Playout -/

/-- A block boundary (R93). -/
def execBlockBoundary (s : State) : Result := .next (timed State.boundaryLeft boundaryEvent s)

/-- The block boundary at which the missing run reaches the audio-loss limit (R96). -/
def execAudioLost (s : State) : Result :=
  .next (if boundaryLosesAudio s then timed State.boundaryLeft boundaryEvent s else s)

/-- The block boundary at which the drain count reaches the drain limit (R99). -/
def execDrainLimit (s : State) : Result :=
  .next (if boundaryReachesDrainLimit s then timed State.boundaryLeft boundaryEvent s else s)

/-! ## Key time -/

/-- Expiry of the tail timer: the end of TAIL is the unkey (R79). -/
def execTailExpiry (s : State) : Result := .next (timed (fun t => t.grantLeft (·.tailLeft)) (onGrant unkey) s)

/-- One accounting tick (R74): charged, and its exhausted answer the end cause BUDGET, a limit end in KEYED. -/
def accountTick (g : Grant) (s : State) : State :=
  let charged := s.chargeTicks g 1
  let g : Grant := { g with ticks := g.ticks + 1, budgetExhausted := g.budgetExhausted || charged.2 }
  let t := charged.1.withGrant (some g)
  if charged.2 then applyCause g .budget t else t

def execAccountingTick (s : State) : Result := .next (timed (fun t => t.grantLeft (·.tickLeft)) (onGrant accountTick) s)

/-- Key time at the key limit (R75): TIMEOUT in KEYED, where TAIL ends in its entry event; the end of a drain or a tail. -/
def endAtKeyLimit (g : Grant) (s : State) : State :=
  match g.state with
  | .keyed => enterTail true (g.withReason .timeout) s
  | .drain => enterTail true g s
  | .tail => unkey g s
  | .changeover | .waitClear | .gap1 | .gap2 | .prebuffer | .idSending => s

def execKeyLimitReached (s : State) : Result :=
  .next (timed (fun t => t.grantLeft (·.limitLeft)) (onGrant endAtKeyLimit) s)

/-- Expiry of the receiver recovery timer (R84). -/
def expireRecovery (s : State) : State :=
  let t := s.withKey { s.key with recovery := none }
  let t := t.withHolds { t.detector.holds with recovery := false }
  match t.key.grant with
  | none => t
  | some g => if g.state = .waitClear ∧ t.clearCondition then enterGap1 g t else t

def execReceiverRecoveryExpiry (s : State) : Result := .next (timed (fun t => t.key.recovery) expireRecovery s)

/-! ## Sessions, members and identification -/

/-- Expiry of session n's surveillance deadline (R28). -/
def execSurveillanceExpiry (session : Slot) (s : State) : Result :=
  .next (timed (fun t => t.deadlineLeft session) (expireSession session) s)

/-- A penalty's end (R15). -/
def endPenalty (m : MemberIx) (s : State) : State := arbitrate (s.withMember m { s.member m with penaltyEnd := none })

def execPenaltyEnd (member : MemberIx) (s : State) : Result :=
  .next (timed (fun t => t.penaltyLeft member) (endPenalty member) s)

/-- ID due becomes yes under `condition`, and its arbitration is made (R127). -/
def dueThenArbitrate (condition : Bool) (s : State) : State :=
  let t := s.makeDue condition
  if t.ident.due && !s.ident.due then arbitrate t else t

/-- The ID interval reached (R125, R127). -/
def reachInterval (s : State) : State :=
  let t := s.withIdent { s.ident with intervalReached := true }
  dueThenArbitrate t.ident.owed t

def execIntervalReached (s : State) : Result := .next (timed State.intervalLeft reachInterval s)

/-- Expiry of the quiet timer (R126, R127). -/
def expireQuiet (s : State) : State :=
  let t := s.withIdent { s.ident with quiet := .expired }
  dueThenArbitrate t.ident.owed t

def execQuietTimerExpiry (s : State) : Result := .next (timed (fun t => t.ident.quiet.left) expireQuiet s)

/-- The pattern's first sample: the tone phase is 0 at it (R130, R131). -/
def startPattern (s : State) : State := s.withIdent { s.ident with position := some 0, phase := 0 }

def execIdPatternStart (s : State) : Result := .next (timed State.patternStartLeft startPattern s)

/-- The pattern complete: the IDENT grant ends ID_DONE and unkeys (R73, R133). -/
def execIdPatternComplete (s : State) : Result :=
  .next (timed State.patternEndLeft (onGrant fun g => applyCause g .idDone) s)

/-- A qualification at the fault qualify time (R143, R144). -/
def execQualificationExpiry (causeNow : Bool) (s : State) : Result :=
  .next (timed (fun t => t.supervisor.qualification.map (·.left)) (qualifiedFault causeNow) s)

end Sys2Proof.Machine
end

