-- ==== Sys2Proof/Machine/NoticeEvents.lean ====
section
/-! DEFINITION. The notices between blocks, each taken in an event of its own: KEY_LIMIT_NOTICE, END_NOTICE,
REVOCATION_NOTICE, PRIVILEGE_NOTICE, CLEAR_NOTICE and END_CAUSE, one meaning per row of the table. -/

namespace Sys2Proof.Machine

/-- A changed max key time of member m at the Key Controller (R75): a new limit at or below the key time already counted
becomes that key time, and the keyed grant unkeys, TIMEOUT in KEYED. -/
def takeKeyLimit (m : MemberIx) (s : State) : State :=
  match s.key.grant with
  | none => s
  | some g =>
    if g.kind = .member ∧ g.member = some m then
      let limit := keyLimitMs (s.member m) (s.channel g.channel)
      if g.state.memberOnAir && decide (limit ≤ g.keyTime) then
        let g := { g with keyLimit := some g.keyTime }
        if g.state = .keyed then unkey (g.withReason .timeout) s else unkey g s
      else s.withGrant (some { g with keyLimit := some limit })
    else s

/-- KEY_LIMIT_NOTICE (R17, R75). -/
def execKeyLimitNotice (member : MemberIx) (s : State) : Result :=
  .next (takeNotice (.keyLimit member) (takeKeyLimit member) s)

/-- The first end notice in flight. -/
def firstEnded : List Notice → Option Notice
  | [] => none
  | .ended k t n r :: _ => some (.ended k t n r)
  | .cause _ _ :: rest => firstEnded rest
  | .revocation _ :: rest => firstEnded rest
  | .privilege _ :: rest => firstEnded rest
  | .keyLimit _ :: rest => firstEnded rest
  | .clear _ :: rest => firstEnded rest

/-- END_NOTICE (R43). -/
def takeEndNotice (s : State) : State :=
  match firstEnded s.notices with
  | some (.ended k t n r) => takeNotice (.ended k t n r) (takeEnded k r) s
  | _ => s

def execEndNotice (s : State) : Result := .next (takeEndNotice s)

/-- A revocation notice at the Session Monitor (R25). -/
def takeRevocation (m : MemberIx) (s : State) : State :=
  match s.slotOf m with
  | none => s
  | some n => closeSession n .revoked s

def execRevocationNotice (member : MemberIx) (s : State) : Result :=
  .next (takeNotice (.revocation member) (takeRevocation member) s)

/-- A privilege notice at the Key Controller (R6): a MEMBER grant of the member that fails the privilege part ends REVOKED. -/
def revokeGrant (m : MemberIx) (s : State) : State :=
  match s.key.grant with
  | none => s
  | some g =>
    if g.kind = .member ∧ g.member = some m ∧ !privileged (s.member m) (s.channel g.channel) g.channel then
      takeCause g.tag .revoked s
    else s

/-- A privilege notice at the Floor Arbiter (R6): the member's session's entry, if it fails the same test, leaves REVOKED. -/
def revokeEntry (m : MemberIx) (s : State) : State :=
  match (s.slotOf m).bind s.entryOf with
  | none => s
  | some e =>
    if privileged (s.member m) (s.channel e.channel) e.channel then s else departEntry e.session .revoked s

def execPrivilegeNotice (member : MemberIx) (s : State) : Result :=
  .next (takeNotice (.privilege member) (fun t => revokeEntry member (revokeGrant member t)) s)

/-- A clear notice at the Floor Arbiter (R58). -/
def execClearNotice (reason : ClearReason) (s : State) : Result :=
  .next (takeNotice (.clear reason) (clearQueue (clearEndReason reason)) s)

/-- An end cause at the Key Controller (R80). -/
def execEndCause (tag : Word) (reason : EndReason) (s : State) : Result :=
  .next (takeNotice (.cause tag reason) (takeCause tag reason) s)

end Sys2Proof.Machine
end

