-- ==== Sys2Proof/Machine/PinEvents.lean ====
section
/-! DEFINITION. Reset and start-up, the TXFAULT and DISABLE inputs, and the receive samples: HARDWARE_RESET to
STATUS_PAGE_REWRITE, one meaning per row of the table. -/

namespace Sys2Proof.Machine

/-- Assertion of RESET# (R172). -/
def execHardwareReset (s : State) : Result := .next (s.resetBlocks .held)

/-- Release of RESET# (R172). -/
def execResetRelease (s : State) : Result := .next (if s.phase = .held then s.releaseReset else s)

/-- Completion of the start-up clearing (R173). -/
def execStartUpClearingDone (s : State) : Result := .next (if s.phase = .clearing then s.finishStartUp else s)

/-- The TXFAULT input at a new level (R142): while RESET# is asserted the blocks take no event (R172). -/
def changeTxfault (high now : Bool) (s : State) : State :=
  let t := { s with txfaultPin := high }
  match s.phase with
  | .held => t
  | .clearing => judgeTxfault now t
  | .ready => event (judgeTxfault now) t

/-- A change of the TXFAULT input (R142). -/
def execTxfaultChange (high causeNow : Bool) (s : State) : Result := .next (changeTxfault high causeNow s)

/-- DISABLE going active (R146); before READY only the input changes (R148). -/
def execDisableAssert (causeNow : Bool) (s : State) : Result :=
  .next (whenReady (assertDisable causeNow) { s with disablePin := true })

/-- DISABLE going inactive (R147). -/
def execDisableReleaseBegin (s : State) : Result := .next (whenReady beginDisableRelease { s with disablePin := false })

/-- Expiry of the DISABLE release timer (R147). -/
def execReleaseTimerExpiry (s : State) : Result :=
  .next (timed (fun t => t.supervisor.releaseTimer) completeDisableRelease s)

/-- A receive sample (R111). -/
def execAdcSample (sample : Word) (cosHigh : Bool) (s : State) : Result :=
  .next (timed (fun t => some t.sampleLeft) (sampleEvent sample cosHigh) s)

/-- The receive sample that completes a debounce (R116). -/
def execDebounceComplete (sample : Word) (cosHigh : Bool) (s : State) : Result :=
  .next (if completesDebounce sample cosHigh s then timed (fun t => some t.sampleLeft) (sampleEvent sample cosHigh) s else s)

/-- The receive sample that completes a block, with the capture boundary it makes (R107, R109). -/
def execCaptureBoundary (sample : Word) (cosHigh : Bool) (s : State) : Result :=
  .next (if completesBlock s then timed (fun t => some t.sampleLeft) (sampleEvent sample cosHigh) s else s)

/-- The station status page's rewrite at a capture boundary (R171). -/
def rewritePageOnce (s : State) : State :=
  let t := s.rewritePage
  { t with pagesOwed := t.pagesOwed - 1 }

/-- The rewrite of the station status page (R171). -/
def execStatusPageRewrite (s : State) : Result := .next (timed (fun t => some t.pageLeft) rewritePageOnce s)

end Sys2Proof.Machine
end

