-- ==== Sys2Proof/Machine/SessionRequests.lean ====
section
/-! DEFINITION. The requests of the session cells, one meaning per row of the table: KEEPALIVE to UNDEFINED_REQUEST. Each
body is what the owner does after the session gate (R20) has passed the request. -/

namespace Sys2Proof.Machine

/-- KEEPALIVE (R26): the answer word is the surveillance period the gate applied. -/
def keepaliveRequest (n : Slot) (s : State) : State × Answer :=
  (s, { code := .done, clamped := false, words := [word (s.periodFor n)] })

/-! ## KEY and PREEMPT -/

/-- KEY's persist arguments (R40 step 1): the retries of the entry, absent for a request that is not persistent; refused for
an undefined persist flag or a retry count above 7. -/
def persistArg (flag retries : Word) : Option (Option Nat) :=
  match yesNo flag with
  | none => none
  | some false => some none
  | some true => if retries.toNat ≤ 7 then some (some retries.toNat) else none

/-- The eligibility test of the member of session n for a channel argument (R12): a number above 15 is an absent channel. -/
def State.keyEligibility (s : State) (n : Slot) (channel : Word) : Eligibility :=
  match (s.session n).member, channelArg channel with
  | some m, some c => s.eligibility m c
  | _, _ => .notPermitted

/-- An entry for session n as KEY or PREEMPT makes it (R41, R56); the arrival number is given at the join. -/
def State.newEntry (s : State) (n : Slot) (m : MemberIx) (c : ChannelIx) (retries : Option Nat) (marked : Bool) : Entry where
  session := n
  member := m
  channel := c
  priority := if marked then 3 else (s.member m).entryPriority
  arrival := 0
  retries := retries
  marked := marked

/-- The answer to an admitted KEY or PREEMPT: the position at the join, and the arrival number (R41, R56). -/
def State.queuedAnswer (s : State) (n : Slot) : Answer where
  code := .queued
  clamped := false
  words := [word ((s.positionOf n).getD 0), s.floor.arrival]

/-- An entry joins, the request is answered QUEUED, and the join's arbitration is made (R41, R56). -/
def admitEntry (n : Slot) (e : Entry) (s : State) : State × Answer :=
  let t := joinQueue e s
  (arbitrate t, t.queuedAnswer n)

/-- KEY (R40, R41). -/
def keyRequest (n : Slot) (s : State) : State × Answer :=
  match persistArg (s.argument n.cell 1) (s.argument n.cell 2) with
  | none => refuse .badValue s
  | some retries =>
    if !s.supervisor.running then refuse .stopped s
    else if s.supervisor.lockout.isSome then refuse .lockedOut s
    else if (s.entryOf n).isSome || s.holds n then refuse .already s
    else
      match s.keyEligibility n (s.argument n.cell 0) with
      | .notPermitted => refuse .notPermitted s
      | .noBudget => refuse .noBudget s
      | .pass =>
        match (s.session n).member, channelArg (s.argument n.cell 0) with
        | some m, some c => admitEntry n (s.newEntry n m c retries false) s
        | _, _ => refuse .notPermitted s

/-- PREEMPT (R55, R56). -/
def preemptRequest (now : Bool) (n : Slot) (s : State) : State × Answer :=
  if !s.isOperator n then refuse .notPermitted s
  else if s.holds n then refuse .already s
  else if !s.supervisor.running then refuse .stopped s
  else if s.supervisor.lockout.isSome then refuse .lockedOut s
  else
    match s.keyEligibility n (s.argument n.cell 0) with
    | .notPermitted => refuse .notPermitted s
    | .noBudget => refuse .noBudget s
    | .pass =>
      match (s.session n).member, channelArg (s.argument n.cell 0) with
      | some m, some c => admitEntry n (s.newEntry n m c none true) ((sendCause .preempted now s).removeEntry n)
      | _, _ => refuse .notPermitted s

/-! ## RELEASE and EJECT -/

/-- The final count argument: present when its word is 1, absent for any other value (R174). -/
def finalArg (flag count : Word) : Option Word := if flag = 1 then some count else none

/-- RELEASE from the session that holds grant `g` (R77). -/
def releaseGrant (g : Grant) (final : Option Word) (s : State) : State × Answer :=
  match g.state with
  | .changeover | .waitClear | .gap1 | .gap2 | .prebuffer => done (preKeyEnd g .cancelled s)
  | .keyed => done (beginDrain final g s)
  | .drain | .tail | .idSending => refuse .already s

/-- Session n's grant ended TIMEOUT at this very moment (R76), and that is still the last claim it has made: its last end reason is
TIMEOUT. A reopening of the slot makes the reason absent (R21), and a later claim's end replaces it (R31), so that such a session
has neither an entry nor the grant of the timeout, and R42 answers it (notes/assumptions/37.md). -/
def State.timedOutNow (s : State) (n : Slot) : Bool :=
  s.key.timedOut == some (n, s.periods) && (s.session n).lastEndReason == some .timeout

/-- RELEASE (R42, R77), and the RELEASE that meets the timeout expiry and is taken after it (R76): ALREADY, while the claim that
timed out is the session's last. -/
def releaseRequest (n : Slot) (s : State) : State × Answer :=
  match s.grantOf n with
  | some g => releaseGrant g (finalArg (s.argument n.cell 0) (s.argument n.cell 1)) s
  | none =>
    if (s.entryOf n).isSome then done (departEntry n .cancelled s)
    else if s.timedOutNow n then refuse .already s
    else refuse .notHolding s

/-- EJECT (R24). -/
def ejectRequest (n : Slot) (s : State) : State × Answer :=
  if !s.isOperator n then refuse .notPermitted s
  else
    match slotArg (s.argument n.cell 0) with
    | none => refuse .badValue s
    | some k => if (s.session k).state = .free then refuse .already s else done (closeSession k .ejected s)

/-! ## The meanings of the rows -/

/-- KEEPALIVE (R26). -/
def execKeepalive (s : State) : Result := .next (sessionService .keepalive keepaliveRequest s)
/-- KEY (R40). -/
def execKey (s : State) : Result := .next (sessionService .key keyRequest s)
/-- RELEASE (R77, R42). -/
def execRelease (s : State) : Result := .next (sessionService .release releaseRequest s)
/-- PREEMPT (R55). -/
def execPreempt (causeNow : Bool) (s : State) : Result := .next (sessionService .preempt (preemptRequest causeNow) s)
/-- EJECT (R24). -/
def execEject (s : State) : Result := .next (sessionService .eject ejectRequest s)
/-- KILL in a session cell (R140). -/
def execKillFromSession (causeNow : Bool) (s : State) : Result :=
  .next (sessionService .killFromSession (fun n => operatorOnly n (killRequest causeNow)) s)
/-- CLEAR LOCKOUT in a session cell (R141). -/
def execClearLockoutFromSession (s : State) : Result :=
  .next (sessionService .clearLockoutFromSession (fun n => operatorOnly n clearLockoutRequest) s)
/-- HOLD FLOOR in a session cell (R53). -/
def execHoldFloorFromSession (s : State) : Result :=
  .next (sessionService .holdFloorFromSession (fun n => operatorOnly n holdRequest) s)
/-- RESUME FLOOR in a session cell (R54). -/
def execResumeFloorFromSession (s : State) : Result :=
  .next (sessionService .resumeFloorFromSession (fun n => operatorOnly n resumeRequest) s)
/-- A kind that is undefined, or of the other type of cell, in either type of cell: BAD_REQUEST, after the gate in a session
cell (R166). -/
def execUndefinedRequest (s : State) : Result :=
  if s.nextCell = some 0 then .next (stationService .undefinedRequest (refuse .badRequest) s)
  else .next (sessionService .undefinedRequest (fun _ => refuse .badRequest) s)

end Sys2Proof.Machine
end

