-- ==== Sys2Proof/Machine/Dispatch.lean ====
section
/-! DEFINITION. One arm per command: the direct call of its meaning. -/

namespace Sys2Proof.Machine

def exec (i : Instr) (s : State) : Host.Outcome State Fault Refusal :=
  match i with
  | .nop => Sys2Proof.Machine.execNop s
  | .start => Sys2Proof.Machine.execStart s
  | .stop causeNow => Sys2Proof.Machine.execStop causeNow s
  | .holdFloor => Sys2Proof.Machine.execHoldFloor s
  | .resumeFloor => Sys2Proof.Machine.execResumeFloor s
  | .setStation => Sys2Proof.Machine.execSetStation s
  | .setMember => Sys2Proof.Machine.execSetMember s
  | .readMember => Sys2Proof.Machine.execReadMember s
  | .setChannel => Sys2Proof.Machine.execSetChannel s
  | .readChannel => Sys2Proof.Machine.execReadChannel s
  | .refill => Sys2Proof.Machine.execRefill s
  | .openSession => Sys2Proof.Machine.execOpenSession s
  | .closeSession => Sys2Proof.Machine.execCloseSession s
  | .clearLockout => Sys2Proof.Machine.execClearLockout s
  | .kill causeNow => Sys2Proof.Machine.execKill causeNow s
  | .detectorHold => Sys2Proof.Machine.execDetectorHold s
  | .detectorRelease => Sys2Proof.Machine.execDetectorRelease s
  | .keepalive => Sys2Proof.Machine.execKeepalive s
  | .key => Sys2Proof.Machine.execKey s
  | .release => Sys2Proof.Machine.execRelease s
  | .preempt causeNow => Sys2Proof.Machine.execPreempt causeNow s
  | .eject => Sys2Proof.Machine.execEject s
  | .killFromSession causeNow => Sys2Proof.Machine.execKillFromSession causeNow s
  | .clearLockoutFromSession => Sys2Proof.Machine.execClearLockoutFromSession s
  | .holdFloorFromSession => Sys2Proof.Machine.execHoldFloorFromSession s
  | .resumeFloorFromSession => Sys2Proof.Machine.execResumeFloorFromSession s
  | .undefinedRequest => Sys2Proof.Machine.execUndefinedRequest s
  | .attentionWrite value => Sys2Proof.Machine.execAttentionWrite value s
  | .stationCellCall value => Sys2Proof.Machine.execStationCellCall value s
  | .interruptEnableWrite value => Sys2Proof.Machine.execInterruptEnableWrite value s
  | .softReset value => Sys2Proof.Machine.execSoftReset value s
  | .eventEnableWrite value => Sys2Proof.Machine.execEventEnableWrite value s
  | .eventsClear value => Sys2Proof.Machine.execEventsClear value s
  | .answeredRead => Sys2Proof.Machine.execAnsweredRead s
  | .newsRead => Sys2Proof.Machine.execNewsRead s
  | .readOnlyRegisterWrite address value => Sys2Proof.Machine.execReadOnlyRegisterWrite address value s
  | .hostMemoryWrite address value => Sys2Proof.Machine.execHostMemoryWrite address value s
  | .hardwareReset => Sys2Proof.Machine.execHardwareReset s
  | .resetRelease => Sys2Proof.Machine.execResetRelease s
  | .startUpClearingDone => Sys2Proof.Machine.execStartUpClearingDone s
  | .txfaultChange high causeNow => Sys2Proof.Machine.execTxfaultChange high causeNow s
  | .disableAssert causeNow => Sys2Proof.Machine.execDisableAssert causeNow s
  | .disableReleaseBegin => Sys2Proof.Machine.execDisableReleaseBegin s
  | .releaseTimerExpiry => Sys2Proof.Machine.execReleaseTimerExpiry s
  | .adcSample sample cosHigh => Sys2Proof.Machine.execAdcSample sample cosHigh s
  | .debounceComplete sample cosHigh => Sys2Proof.Machine.execDebounceComplete sample cosHigh s
  | .captureBoundary sample cosHigh => Sys2Proof.Machine.execCaptureBoundary sample cosHigh s
  | .statusPageRewrite => Sys2Proof.Machine.execStatusPageRewrite s
  | .courtesyExpiry => Sys2Proof.Machine.execCourtesyExpiry s
  | .changeoverExpiry => Sys2Proof.Machine.execChangeoverExpiry s
  | .busyWaitExpiry => Sys2Proof.Machine.execBusyWaitExpiry s
  | .gap1Expiry => Sys2Proof.Machine.execGap1Expiry s
  | .gap2Expiry => Sys2Proof.Machine.execGap2Expiry s
  | .prebufferLimitExpiry => Sys2Proof.Machine.execPrebufferLimitExpiry s
  | .blockBoundary => Sys2Proof.Machine.execBlockBoundary s
  | .audioLost => Sys2Proof.Machine.execAudioLost s
  | .drainLimit => Sys2Proof.Machine.execDrainLimit s
  | .tailExpiry => Sys2Proof.Machine.execTailExpiry s
  | .accountingTick => Sys2Proof.Machine.execAccountingTick s
  | .keyLimitReached => Sys2Proof.Machine.execKeyLimitReached s
  | .keyLimitNotice member => Sys2Proof.Machine.execKeyLimitNotice member s
  | .receiverRecoveryExpiry => Sys2Proof.Machine.execReceiverRecoveryExpiry s
  | .surveillanceExpiry session => Sys2Proof.Machine.execSurveillanceExpiry session s
  | .penaltyEnd member => Sys2Proof.Machine.execPenaltyEnd member s
  | .intervalReached => Sys2Proof.Machine.execIntervalReached s
  | .quietTimerExpiry => Sys2Proof.Machine.execQuietTimerExpiry s
  | .idPatternStart => Sys2Proof.Machine.execIdPatternStart s
  | .idPatternComplete => Sys2Proof.Machine.execIdPatternComplete s
  | .qualificationExpiry causeNow => Sys2Proof.Machine.execQualificationExpiry causeNow s
  | .endNotice => Sys2Proof.Machine.execEndNotice s
  | .revocationNotice member => Sys2Proof.Machine.execRevocationNotice member s
  | .privilegeNotice member => Sys2Proof.Machine.execPrivilegeNotice member s
  | .clearNotice reason => Sys2Proof.Machine.execClearNotice reason s
  | .endCause tag reason => Sys2Proof.Machine.execEndCause tag reason s

end Sys2Proof.Machine
end

