-- ==== Sys2Proof/Machine/Idle.lean ====
section
/-! DEFINITION. What the part does of its own accord while no command waits (notes/assumptions/2.md, 4.md and 6.md): the
commands that stand for its own events that are due now, the choice among them, and the passing of one sample period. -/

namespace Sys2Proof.Machine

/-- The row of the table that serves a request. `now` says whether a Supervisor's end cause is taken at the same moment as
its report (R136). -/
def Request.command (now : Bool) : Request → Instr
  | .nop => .nop
  | .start => .start
  | .stop => .stop now
  | .holdFloor => .holdFloor
  | .resumeFloor => .resumeFloor
  | .setStation => .setStation
  | .setMember => .setMember
  | .readMember => .readMember
  | .setChannel => .setChannel
  | .readChannel => .readChannel
  | .refill => .refill
  | .openSession => .openSession
  | .closeSession => .closeSession
  | .clearLockout => .clearLockout
  | .kill => .kill now
  | .detectorHold => .detectorHold
  | .detectorRelease => .detectorRelease
  | .keepalive => .keepalive
  | .key => .key
  | .release => .release
  | .preempt => .preempt now
  | .killFromSession => .killFromSession now
  | .clearLockoutFromSession => .clearLockoutFromSession
  | .eject => .eject
  | .holdFloorFromSession => .holdFloorFromSession
  | .resumeFloorFromSession => .resumeFloorFromSession
  | .undefinedRequest => .undefinedRequest

/-- The row of the table that takes a notice. -/
def Notice.command : Notice → Instr
  | .ended _ _ _ _ => .endNotice
  | .cause t r => .endCause t r
  | .revocation m => .revocationNotice m
  | .privilege m => .privilegeNotice m
  | .keyLimit m => .keyLimitNotice m
  | .clear r => .clearNotice r

/-- The command, where the time to it has run out. -/
def dueIf (left : Option Nat) (c : Instr) : List Instr := if left = some 0 then [c] else []

/-- The service of the next pending cell (R164). -/
def State.dueService (s : State) (now : Bool) : List Instr :=
  match s.nextCell with
  | none => []
  | some c => [(s.requestIn c).command now]

/-- The timers that have run out. -/
def State.dueTimers (s : State) (now : Bool) : List Instr :=
  dueIf s.floor.courtesy .courtesyExpiry
    ++ dueIf (s.grantLeft (·.changeoverLeft)) .changeoverExpiry
    ++ dueIf (s.grantLeft (·.busyWait.left)) .busyWaitExpiry
    ++ dueIf (s.grantLeft (·.gap1Left)) .gap1Expiry
    ++ dueIf (s.grantLeft (·.gap2Left)) .gap2Expiry
    ++ dueIf (s.grantLeft (·.prebufferLeft)) .prebufferLimitExpiry
    ++ dueIf s.boundaryLeft .blockBoundary
    ++ dueIf (s.grantLeft (·.tailLeft)) .tailExpiry
    ++ dueIf (s.grantLeft (·.tickLeft)) .accountingTick
    ++ dueIf (s.grantLeft (·.limitLeft)) .keyLimitReached
    ++ dueIf s.key.recovery .receiverRecoveryExpiry
    ++ allSlots.flatMap (fun n => dueIf (s.deadlineLeft n) (.surveillanceExpiry n))
    ++ allMembers.flatMap (fun m => dueIf (s.penaltyLeft m) (.penaltyEnd m))
    ++ dueIf s.intervalLeft .intervalReached
    ++ dueIf s.ident.quiet.left .quietTimerExpiry
    ++ dueIf s.patternStartLeft .idPatternStart
    ++ dueIf s.patternEndLeft .idPatternComplete
    ++ dueIf (s.supervisor.qualification.map (·.left)) (.qualificationExpiry now)
    ++ dueIf s.supervisor.releaseTimer .releaseTimerExpiry

/-- The receive sample and the page rewrite whose time has come. -/
def State.dueSampling (s : State) : List Instr :=
  (if s.samplesOwed = 0 then [] else [.adcSample (Config.rxSample s.choices) (Config.cosLevel s.choices)])
    ++ (if s.pagesOwed = 0 then [] else [.statusPageRewrite])

/-- Every event of the part that is due now, as its command. Before STATUS.READY the one event is the end of the start-up
clearing, and while RESET# is asserted there is none (R172, R173). -/
def State.dueCommands (s : State) : List Instr :=
  match s.phase with
  | .held => []
  | .clearing => [.startUpClearingDone]
  | .ready =>
    s.dueService (Config.causeAtOnce s.choices) ++ s.notices.map Notice.command
      ++ s.dueTimers (Config.causeAtOnce s.choices) ++ s.dueSampling

/-- The one of `due` that is taken: of several, a free choice. -/
def chooseDue {α : Type} (choice : Nat) (due : List α) : Option α := due[choice % due.length]?

/-- The state after a free choice has been drawn. -/
def State.drawn (s : State) : State := { s with choices := s.choices + 1 }

/-- What the part may do of its own accord: take an event that is due, or, where no event that takes no time stands in the way,
let one sample period pass. While an end cause is in flight and nothing else is due, both are there (R134, R136). -/
def State.idleChoices (s : State) : List (Option Instr) :=
  s.dueCommands.map some ++ if s.ready && s.mayPass 1 then [none] else []

end Sys2Proof.Machine
end

