-- ==== Sys2Proof/Machine/Step.lean ====
section
/-! DEFINITION. One step of the block: the command at the front of the queue; or, while none waits, one of the part's own
events that is due, or the passing of one sample period (notes/assumptions/2.md, 4.md). -/

namespace Sys2Proof.Machine

/-- The step while no command waits. While RESET# is asserted nothing happens. -/
def idleStep (s : State) : Host.Outcome State Fault Refusal :=
  match chooseDue (Config.eventChoice s.choices) s.idleChoices with
  | none => .next s
  | some none => .next (s.drawn.passTime 1)
  | some (some c) => exec c s.drawn

def step (s : State) : Host.Outcome State Fault Refusal :=
  match s.pending with
  | c :: rest => exec c { s with pending := rest }
  | [] => idleStep s

/-- The state with the command that a word spells put at the front of its queue; unchanged where the word spells none. -/
def State.withFetchWord (s : State) (nbits w : Nat) : State :=
  match decodeTableWord nbits w with
  | none => s
  | some c => { s with pending := c :: s.pending }

end Sys2Proof.Machine
end

