-- ==== Sys2Proof/Safety.lean ====
section
/-! DEFINITION. The terms the statements use: the parts of the state and what a command leaves unchanged (its frame), the
areas of the exchange memory, the shape of a served request, and the laws the manual says the part keeps. -/

namespace Sys2Proof.Machine

/-! ## Frames -/

/-- The parts of the state a frame speaks of. A session's change count stands apart from its record, and the summary
registers apart from the other registers, since a status record rewrite reaches them (R32, R33). -/
inductive Part where
  | members | channels | sessions | changeCounts | floor | key | playout | receive | detector | ident | supervisor | log
  | cells | answered | news | events | bus | params | mem | phase | periods | txfaultPin | disablePin | notices
  | samplesOwed | pagesOwed | choices | pending
deriving DecidableEq, Repr

/-- A session's record but for its change count. -/
def Session.uncounted (r : Session) : Session := { r with changeCount := 0 }

/-- The registers but for the three summary registers. -/
def Bus.plain (b : Bus) : Bus := { b with answered := 0, news := 0, events := 0 }

/-- Part `p` is the same in two states. -/
def State.same (s t : State) : Part → Prop
  | .members => t.members = s.members
  | .channels => t.channels = s.channels
  | .sessions => ∀ n, (t.session n).uncounted = (s.session n).uncounted
  | .changeCounts => ∀ n, (t.session n).changeCount = (s.session n).changeCount
  | .floor => t.floor = s.floor
  | .key => t.key = s.key
  | .playout => t.playout = s.playout
  | .receive => t.receive = s.receive
  | .detector => t.detector = s.detector
  | .ident => t.ident = s.ident
  | .supervisor => t.supervisor = s.supervisor
  | .log => t.log = s.log
  | .cells => t.cells = s.cells
  | .answered => t.bus.answered = s.bus.answered
  | .news => t.bus.news = s.bus.news
  | .events => t.bus.events = s.bus.events
  | .bus => t.bus.plain = s.bus.plain
  | .params => t.params = s.params
  | .mem => t.mem = s.mem
  | .phase => t.phase = s.phase
  | .periods => t.periods = s.periods
  | .txfaultPin => t.txfaultPin = s.txfaultPin
  | .disablePin => t.disablePin = s.disablePin
  | .notices => t.notices = s.notices
  | .samplesOwed => t.samplesOwed = s.samplesOwed
  | .pagesOwed => t.pagesOwed = s.pagesOwed
  | .choices => t.choices = s.choices
  | .pending => t.pending = s.pending

/-- Nothing but the listed parts differs between `s` and `t`. -/
def OnlyChanges (ps : List Part) (s t : State) : Prop := ∀ p, p ∉ ps → s.same t p

/-- The parts that the publication of status records can reach (R32, R33). -/
def recordParts : List Part := [.changeCounts, .mem, .news]

/-- The parts a grant's end can reach. -/
def endParts : List Part :=
  [.members, .sessions, .key, .playout, .detector, .ident, .supervisor, .log, .events, .mem, .notices]

/-- The parts a grant's progress up to its key-up or its pre-key end can reach. -/
def courseParts : List Part := [.members, .sessions, .key, .playout, .detector, .ident, .log, .events, .mem, .notices]

/-- The parts an arbitration can reach. -/
def arbitrationParts : List Part := .floor :: courseParts

/-- The parts the end of a session can reach: those of a grant's end, and the queue. -/
def closeParts : List Part := .floor :: endParts

/-- Every word of the exchange memory outside `stored` reads as before. -/
def MemoryKept (stored : Nat → Prop) (s t : State) : Prop := ∀ a, ¬ stored a → t.read a = s.read a

/-! ## Areas of the exchange memory (R161) -/

/-- `size` words from `base`. -/
def inArea (base size a : Nat) : Prop := base ≤ a ∧ a < base + size

/-- The status record of session n. -/
def inRecord (n : Slot) (a : Nat) : Prop := inArea (recordBase n) 32 a

/-- The words of a status record that an event has rewritten: those of a session one of whose fields has changed (R32), or that has
been sent a notice (R30, R39). -/
def inChangedRecord (s t : State) (a : Nat) : Prop := ∃ n, t.recordState n ≠ s.recordState n ∧ inRecord n a

/-- The words an answer writes: the holder word, the answer code word, the answer tag and the 16 answer words (R165). -/
def inAnswer (c : Cell) (a : Nat) : Prop := a = cellBase c ∨ inArea (cellBase c + 43) 18 a

/-- The state words of the transmit places that are FILLED: the only words that freeing places changes (R85, R87). -/
def inFilled (s : State) (a : Nat) : Prop := isTxState a = true ∧ s.read a = 1

/-- The log place that the next entry takes (R156). -/
def logPlace (l : StationLog) (a : Nat) : Prop := inArea (logBase (l.next.toNat % 64)) 16 a

/-- The receive place that the next block takes (R109). -/
def rxPlace (r : Receive) (a : Nat) : Prop := inArea (rxBase (r.captureSequence.toNat % 32)) 168 a

/-- Plain storage, which the part does not touch (R161). -/
def plainStorage (a : Nat) : Prop :=
  inArea 0x41 0xBF a ∨ inArea 0x540 0xC0 a ∨ inArea 0xC00 0x400 a ∨ inArea 0x3A00 0x600 a ∨ inArea 0x5500 0x2B00 a

/-- The host's words of a request cell: the kind, the host tag, the arguments, and the cell's plain storage (R162, 11.2). -/
def hostCellWord (a : Nat) : Prop :=
  ∃ c : Cell, inArea (cellBase c + 1) 42 a ∨ inArea (cellBase c + 61) 3 a

/-- A word of a transmit place other than its state word (R87). -/
def txBodyWord (a : Nat) : Prop := inArea 0x1000 0x2A00 a ∧ isTxState a = false

/-- The words that only the host and the start-up clearing write: plain storage, the log read mark (R153), the host's words
of the cells and the bodies of the transmit places. -/
def hostWord (a : Nat) : Prop := plainStorage a ∨ a = markAddress ∨ hostCellWord a ∨ txBodyWord a

/-! ## Publication (R30, R32, R33) -/

/-- What an event that took `s` to `t` does to session n's status record. Where no field of the record has changed and no notice of a
counter (R30) or of its floor state or queue position (R39) has come, its change count and its NEWS bit are as they were. Otherwise
the change count rises by 2 and stands in word 0, words 1 to 31 hold the fields as they stand, and the NEWS bit is set where one of
R33's fields has changed or a notice of the latter kind has come, and as it was otherwise. -/
def PublishedFor (s t : State) (n : Slot) : Prop :=
  if t.recordState n = s.recordState n then
    (t.session n).changeCount = (s.session n).changeCount ∧ t.bus.news.getLsbD n.val = s.bus.news.getLsbD n.val
  else
    (t.session n).changeCount = (s.session n).changeCount + 2 ∧
    t.read (recordBase n) = (s.session n).changeCount + 2 ∧
    (∀ i, i < 31 → t.read (recordBase n + 1 + i) = (t.recordFields n).getD i 0) ∧
    t.bus.news.getLsbD n.val = (s.bus.news.getLsbD n.val || decide (t.newsState n ≠ s.newsState n))

/-- Every session's record is published as the event has it. -/
def Published (s t : State) : Prop := ∀ n, PublishedFor s t n

/-- A change of the queue from the one of `f` to the one of `g` has been notified to each session whose position it changed (R39, R41,
R51): that session has at least one notice more, and no session has fewer. -/
def Floor.Notifies (f g : Floor) : Prop :=
  ∀ k : Slot, f.positionNotices[k] ≤ g.positionNotices[k] ∧
    (g.positionOf k ≠ f.positionOf k → f.positionNotices[k] < g.positionNotices[k])

/-- An event that took `s` to `t`, and that on its way changed the queue from the one of `f` to the one of `g`, has rewritten with NEWS
the status record of each session whose position that changed (R33). -/
def NewsOfMoved (f g : Floor) (s t : State) : Prop :=
  ∀ k : Slot, g.positionOf k ≠ f.positionOf k →
    (t.session k).changeCount = (s.session k).changeCount + 2 ∧ t.bus.news.getLsbD k.val = true

/-! ## Requests -/

/-- Cell c is the one served next, the part is ready, and the cell holds request r (R164, R165). -/
def State.serves (s : State) (c : Cell) (r : Request) : Prop := s.ready = true ∧ s.nextCell = some c ∧ s.requestIn c = r

/-- Session n's cell is the one served next, it holds request r, and the session is OPEN (R20). -/
def State.servesOpen (s : State) (n : Slot) (r : Request) : Prop :=
  s.serves n.cell r ∧ (s.session n).state = .opened

/-- The answer in cell c (R165): the code word, the host tag as it was, the 16 answer words (0 in each for a code that
carries none), and the holder word 0. -/
def AnsweredWith (s t : State) (c : Cell) (a : Answer) : Prop :=
  t.read (cellBase c + 43) = a.codeWord ∧ t.read (cellBase c + 44) = s.read (cellBase c + 2) ∧
  (∀ i, i < 16 → t.read (cellBase c + 45 + i) = if a.code.carriesWords then a.words.getD i 0 else 0) ∧
  t.read (cellBase c) = 0

/-- The Request Cell Unit after the service of cell c (R164): the cell waits no more, and a session cell is the round-robin
pointer. -/
def Cells.served (x : Cells) (c : Cell) : Cells :=
  { x with waiting := x.waiting.set c false, pointer := (cellSlot c).getD x.pointer }

/-- The service of cell c with answer `a` (R164, R165): the answer in the cell, the Request Cell Unit, and the summary bit:
EVENTS.STATION_ANSWER for the station cell, ANSWERED bit n−1 for session n's. -/
def Served (s t : State) (c : Cell) (a : Answer) : Prop :=
  AnsweredWith s t c a ∧ t.cells = s.cells.served c ∧
  match cellSlot c with
  | none => t.bus.events.getLsbD 0 = true ∧ t.bus.answered = s.bus.answered
  | some n => t.bus.answered = s.bus.answered ||| bitWord n.val

/-- The parts that the service of a cell reaches beside those of the request it carries out. -/
def serviceParts : List Part := [.cells, .mem, .answered, .events, .changeCounts, .news]

/-- The frame of a served request whose own work reaches the parts `ps` and stores to the words `stored`: beside them, only
the answer in the cell, the Request Cell Unit, the summary registers and the changed status records. -/
def ServiceFrame (c : Cell) (ps : List Part) (stored : Nat → Prop) (s t : State) : Prop :=
  OnlyChanges (ps ++ serviceParts) s t ∧
  MemoryKept (fun a => stored a ∨ inAnswer c a ∨ inChangedRecord s t a) s t

/-- Nothing is stored to by the request's own work. -/
def noWord (_ : Nat) : Prop := False

/-- A service that has no effect but its answer: EVENTS changes in the STATION_ANSWER bit of the station cell alone. -/
def OnlyAnswers (c : Cell) (a : Answer) (s t : State) : Prop :=
  Served s t c a ∧ ServiceFrame c [] noWord s t ∧
  t.bus.events = (match cellSlot c with | none => s.bus.events ||| bitWord 0 | some _ => s.bus.events)

/-- The start of session n's gate (R20): the request counted and the deadline reset. -/
def State.gated (s : State) (n : Slot) : State := s.noteRequest n

/-- What the session gate does for an OPEN session (R20, R27): the request counted, and the deadline reset with the period that
applies; nothing else of any session record changes. -/
def Noted (s t : State) (n : Slot) : Prop :=
  (t.session n).uncounted =
    { (s.session n).uncounted with
      requestsTaken := min 65535 ((s.session n).requestsTaken + 1)
      counterNotices := (s.session n).counterNotices + 1
      deadline := some (Clock.plus s.clock (s.periodFor n)) } ∧
  ∀ k, k ≠ n → (t.session k).uncounted = (s.session k).uncounted

/-- A request of an OPEN session that has no effect but the gate's and its answer. -/
def OnlyNotedAndAnswers (n : Slot) (a : Answer) (s t : State) : Prop :=
  Served s t n.cell a ∧ Noted s t n ∧ ServiceFrame n.cell [.sessions] noWord s t ∧ t.bus.events = s.bus.events

/-- The kinds of request that a session cell can hold, a kind that is none of them included (R166). -/
def Request.ofSession : Request → Bool
  | .keepalive | .key | .release | .preempt | .killFromSession | .clearLockoutFromSession | .eject | .holdFloorFromSession
  | .resumeFloorFromSession | .undefinedRequest => true
  | .nop | .start | .stop | .holdFloor | .resumeFloor | .setStation | .setMember | .readMember | .setChannel | .readChannel
  | .refill | .openSession | .closeSession | .clearLockout | .kill | .detectorHold | .detectorRelease => false

/-- The kinds that only a control operator's session may place (R24, R53–R55, R140, R141). -/
def Request.ofOperator : Request → Bool
  | .preempt | .eject | .killFromSession | .clearLockoutFromSession | .holdFloorFromSession | .resumeFloorFromSession => true
  | .keepalive | .key | .release | .undefinedRequest
  | .nop | .start | .stop | .holdFloor | .resumeFloor | .setStation | .setMember | .readMember | .setChannel | .readChannel
  | .refill | .openSession | .closeSession | .clearLockout | .kill | .detectorHold | .detectorRelease => false

/-- The member of session n is a control operator, by its record as it stands (R24, R53–R55, R140, R141). -/
def State.operatorSession (s : State) (n : Slot) : Prop :=
  ∃ m, (s.session n).member = some m ∧ (s.member m).controlOperator = true

/-! ## Ends of a grant -/

/-- The end notice that grant `g` leaves in flight when the cause `r` ends it: with the end reason it already has, if it has
one (R43, R81). -/
def Grant.endNotice (g : Grant) (r : EndReason) : Notice := .ended g.kind g.tag g.session (g.endReason.getD r)

/-! ## Events at a moment -/

/-- An event at a moment comes next: `n` sample periods are left to it, the part is ready, and nothing comes before. -/
def State.comesNext (s : State) (left : State → Option Nat) (n : Nat) : Prop :=
  left s = some n ∧ s.ready = true ∧ s.mayPass n = true

/-- `k` sample periods are left to the part's own event that row `c` stands for: one rule for each row whose moment a timer, a
deadline or a count of samples fixes. `now` says whether a Supervisor's end cause is taken at the moment of its report (R136). -/
inductive TimedRow (s : State) (now : Bool) : Nat → Instr → Prop where
  /-- The courtesy interval (R44). -/
  | courtesy {k : Nat} : s.floor.courtesy = some k → TimedRow s now k .courtesyExpiry
  /-- CHANGEOVER (R63). -/
  | changeover {g : Grant} {k : Nat} : s.key.grant = some g → g.changeoverLeft = some k → TimedRow s now k .changeoverExpiry
  /-- The busy-wait timer (R65). -/
  | busyWait {g : Grant} {k : Nat} : s.key.grant = some g → g.busyWait = .running k → TimedRow s now k .busyWaitExpiry
  /-- GAP1 (R67). -/
  | gap1 {g : Grant} {k : Nat} : s.key.grant = some g → g.gap1Left = some k → TimedRow s now k .gap1Expiry
  /-- GAP2 (R68). -/
  | gap2 {g : Grant} {k : Nat} : s.key.grant = some g → g.gap2Left = some k → TimedRow s now k .gap2Expiry
  /-- The prebuffer limit (R69). -/
  | prebuffer {g : Grant} {k : Nat} : s.key.grant = some g → g.prebufferLeft = some k → TimedRow s now k .prebufferLimitExpiry
  /-- The block boundary (R91). -/
  | boundary {k : Nat} : s.boundaryLeft = some k → TimedRow s now k .blockBoundary
  /-- The tail (R79). -/
  | tail {g : Grant} {k : Nat} : s.key.grant = some g → g.tailLeft = some k → TimedRow s now k .tailExpiry
  /-- The next 100 ms of key time (R74). -/
  | tick {g : Grant} {k : Nat} : s.key.grant = some g → g.tickLeft = some k → TimedRow s now k .accountingTick
  /-- The key limit (R75). -/
  | limit {g : Grant} {k : Nat} : s.key.grant = some g → g.limitLeft = some k → TimedRow s now k .keyLimitReached
  /-- Receiver recovery (R84). -/
  | recovery {k : Nat} : s.key.recovery = some k → TimedRow s now k .receiverRecoveryExpiry
  /-- A surveillance deadline (R28). -/
  | deadline {n : Slot} {k : Nat} : s.deadlineLeft n = some k → TimedRow s now k (.surveillanceExpiry n)
  /-- A penalty end (R15). -/
  | penalty {m : MemberIx} {k : Nat} : s.penaltyLeft m = some k → TimedRow s now k (.penaltyEnd m)
  /-- The ID interval (R125). -/
  | interval {k : Nat} : s.intervalLeft = some k → TimedRow s now k .intervalReached
  /-- The quiet timer (R126). -/
  | quiet {k : Nat} : s.ident.quiet = .running k → TimedRow s now k .quietTimerExpiry
  /-- The first sample of the identification's pattern (R130). -/
  | patternStart {k : Nat} : s.patternStartLeft = some k → TimedRow s now k .idPatternStart
  /-- The pattern's completion (R133). -/
  | patternEnd {k : Nat} : s.patternEndLeft = some k → TimedRow s now k .idPatternComplete
  /-- A fault's qualification (R143). -/
  | qualification {q : Qualification} : s.supervisor.qualification = some q → TimedRow s now q.left (.qualificationExpiry now)
  /-- DISABLE's release (R147). -/
  | release {k : Nat} : s.supervisor.releaseTimer = some k → TimedRow s now k .releaseTimerExpiry

/-- The command `c` stands for an event of the part, ready, that is due now. Where a Supervisor's end cause may be taken at once or
later, and for what the inputs hold at a sample, the free values of the state's choice count stand (log entries 4, 5 and 22). -/
inductive IsDue (s : State) : Instr → Prop where
  /-- The service of the next pending cell (R164). -/
  | service {c : Cell} : s.nextCell = some c → IsDue s ((s.requestIn c).command (Config.causeAtOnce s.choices))
  /-- An end notice on its way (R43). -/
  | ended {k : GrantKind} {tag : Word} {n : Option Slot} {r : EndReason} : .ended k tag n r ∈ s.notices → IsDue s .endNotice
  /-- An end cause on its way (R80). -/
  | cause {tag : Word} {r : EndReason} : .cause tag r ∈ s.notices → IsDue s (.endCause tag r)
  /-- A revocation notice on its way (R5). -/
  | revocation {m : MemberIx} : .revocation m ∈ s.notices → IsDue s (.revocationNotice m)
  /-- A privilege notice on its way (R6). -/
  | privilege {m : MemberIx} : .privilege m ∈ s.notices → IsDue s (.privilegeNotice m)
  /-- A notice of a changed max key time on its way (R17). -/
  | keyLimit {m : MemberIx} : .keyLimit m ∈ s.notices → IsDue s (.keyLimitNotice m)
  /-- A clear notice on its way (R58). -/
  | clear {r : ClearReason} : .clear r ∈ s.notices → IsDue s (.clearNotice r)
  /-- An event whose moment has come. -/
  | timed {c : Instr} : TimedRow s (Config.causeAtOnce s.choices) 0 c → IsDue s c
  /-- A receive sample whose time has come (R107). -/
  | sample : s.samplesOwed ≠ 0 → IsDue s (.adcSample (Config.rxSample s.choices) (Config.cosLevel s.choices))
  /-- A page rewrite whose time has come (R171). -/
  | page : s.pagesOwed ≠ 0 → IsDue s .statusPageRewrite

/-- Sample periods left until the station clock reaches `t` (R15): 0 once it has, and otherwise the milliseconds between, less the
part of the current one that has passed. -/
def State.untilClock (s : State) (t : Clock) : Nat :=
  if (s.clock - t).toNat < 2 ^ 31 then 0 else 8 * (t - s.clock).toNat - s.periods % 8

/-- The close of an event whose own effect took `u` to `v`: in `t`, nothing but the status records of the sessions it has changed
differs from `v`, and those are published as R32 and R33 have it. -/
def Publishes (u v t : State) : Prop :=
  OnlyChanges recordParts v t ∧ MemoryKept (inChangedRecord u t) v t ∧ Published u t

/-- A whole event, with its frame: its own effect took `u` to `v`, reaching the parts `ps` and storing to the words `stored`; then
the status records were published. -/
def EventTo (ps : List Part) (stored : Nat → Prop) (u v t : State) : Prop :=
  OnlyChanges ps u v ∧ MemoryKept stored u v ∧ Publishes u v t

/-- A whole service of cell c, with its frame: the request's own work took `s` to `v`, reaching the parts `ps` and storing to the
words `stored`; then the answer `a` was written and the status records were published. -/
def ServesTo (c : Cell) (a : Answer) (ps : List Part) (stored : Nat → Prop) (s v t : State) : Prop :=
  OnlyChanges ps s v ∧ MemoryKept stored s v ∧ Served s t c a ∧ OnlyChanges serviceParts v t ∧
  MemoryKept (fun x => inAnswer c x ∨ inChangedRecord s t x) v t ∧ Published s t ∧
  t.bus.events = (match cellSlot c with | none => v.bus.events ||| bitWord 0 | some _ => v.bus.events)

/-- The words that the end of a grant can store to: the log place of the next entry, and the state words of FILLED places. -/
def endStores (s : State) (a : Nat) : Prop := logPlace s.log a ∨ inFilled s a

/-! ## The ends of a grant (R82, R83) -/

/-- The grant end at the Playout Engine (R100): playout stops, the DAC is given 0, there is no current tag, and every FILLED place
is freed and counted as discarded. -/
def StopsPlayout (u v : State) : Prop :=
  v.playout =
    { u.playout with
      boundary := none, dacBlock := [], currentTag := none
      discarded := min 65535 (u.playout.discarded + ((List.range 64).filter fun i => u.read (txBase i) == 1).length) } ∧
  ∀ i, i < 64 → v.read (txBase i) = if u.read (txBase i) = 1 then 0 else u.read (txBase i)

/-- The record of a grant's holder after the grant's end (R27, R31): its last end reason and tag, and an OPEN session's deadline
with the surveillance period. No other session's record changes. -/
def Grant.endsAt (g : Grant) (r : EndReason) (u v : State) : Prop :=
  ∀ k, v.session k =
    if g.session = some k then
      { u.session k with
        lastEndReason := some r, lastEndTag := some g.tag
        deadline := if (u.session k).state = .opened then some (Clock.plus u.clock u.params.surveillance)
          else (u.session k).deadline }
    else u.session k

/-- The pre-key end (R82) of grant `g`, which the cause `r` brings. -/
structure PreKeyEnds (g : Grant) (r : EndReason) (u v : State) : Prop where
  key : v.key = { u.key with grant := none }
  notices : v.notices = u.notices ++ [g.endNotice r]
  detector : v.detector = { u.detector with holds := { u.detector.holds with changeover := false } }
  playout : StopsPlayout u v
  session : g.endsAt (g.endReason.getD r) u v
  members : v.members = u.members
  ident : v.ident = u.ident
  supervisor : v.supervisor = u.supervisor

/-- The accounting ticks that an unkey still owes (R74): one for each completed 100 ms of key time. -/
def Grant.ticksOwed (g : Grant) : Nat := g.keySamples / 8 / 100 - g.ticks

/-- A metered member, present, whose budget those ticks leave at 0 (R13, R74). -/
def Grant.exhausts (g : Grant) (u : State) : Prop :=
  ∃ m, g.member = some m ∧ (u.member m).present = true ∧ (u.member m).unmetered = false ∧ 0 < g.ticksOwed ∧
    (u.member m).remaining ≤ g.ticksOwed

/-- The flags word of a log entry (11.4): bit 0 cut short, bit 1 concealment used, bit 2 forced, bit 3 budget exhausted. -/
def logFlags (cut conceal forced exhausted : Bool) : Word :=
  word (cut.toNat + 2 * conceal.toNat + 4 * forced.toNat + 8 * exhausted.toNat)

/-- The log entry of grant `g` (R83 part 3, R151, 11.4), with the sequence `u.log.next`; `exhausted` is its budget-exhausted
flag. -/
def Grant.logged (g : Grant) (u : State) (exhausted : Bool) : List Word :=
  let d : Clock := BitVec.ofNat 32 (g.keySamples / 8)
  [u.log.next, (match g.kind with | .member => 0 | .ident => 1), memberWord g.member, slotWord g.session, word g.channel.val,
   g.tag, lowWord (g.keyUpTime.getD 0), highWord (g.keyUpTime.getD 0), lowWord d, highWord d, reasonWord g.endReason,
   logFlags g.cutShort (g.kind == .member && u.playout.concealment) g.forced exhausted, 0, 0, 0, 0]

/-- The unkey (R83) of grant `g`, its parts in their order. -/
structure Unkeys (g : Grant) (u v : State) : Prop where
  key : v.key =
    { u.key with
      grant := none, ptt := false, recovery := if u.params.recovery = 0 then none else some (8 * u.params.recovery)
      timedOut := match g.session with
        | none => u.key.timedOut
        | some n => if g.endReason = some .timeout then some (n, u.periods) else u.key.timedOut }
  detector : v.detector =
    { u.detector with
      holds := { u.detector.holds with
        ptt := !u.key.ptt && u.detector.holds.ptt, recovery := decide (u.params.recovery ≠ 0) } }
  supervisor : v.supervisor =
    if u.key.ptt then { u.supervisor with qualification := none, qualifiedThisKeying := false } else u.supervisor
  member : ∀ m, v.member m =
    if g.member = some m then
      { u.member m with
        remaining := if (u.member m).present ∧ (u.member m).unmetered = false then (u.member m).remaining - g.ticksOwed
          else (u.member m).remaining
        penaltyEnd :=
          if g.endReason = some .timeout then
            if (u.member m).present ∧ u.params.timeoutPenalty ≠ 0 then
              some (Clock.plus u.clock (1000 * u.params.timeoutPenalty))
            else none
          else (u.member m).penaltyEnd }
    else u.member m
  log : v.log = { u.log with next := u.log.next + 1, reserved := false }
  entry : ∃ x : Bool, (x = true ↔ g.budgetExhausted = true ∨ g.exhausts u) ∧
    ∀ i, i < 16 → v.read (logBase (u.log.next.toNat % 64) + i) = (g.logged u x).getD i 0
  ident : v.ident =
    if g.kind = .member then u.ident
    else if g.endReason = some .idDone then
      { u.ident with position := none, owed := false, lastId := some u.clock, intervalReached := false, due := false }
    else { u.ident with position := none }
  playout : StopsPlayout u v
  session : g.endsAt (g.endReason.getD .released) u v
  notices : v.notices = u.notices ++ [.ended g.kind g.tag g.session (g.endReason.getD .released)]
  events : v.bus.events =
    u.bus.events ||| (if u.key.ptt then bitWord 11 else 0) ||| bitWord 1 |||
      (if g.kind = .ident ∧ g.endReason = some .idDone then bitWord 12 else 0)

/-- The key time has come to the key limit (R75). -/
def Grant.atLimit (g : Grant) : Prop := ∃ l, g.keyLimit = some l ∧ 8 * l ≤ g.keySamples

/-- The entry of grant `g` into TAIL (R79): the tail timer runs and playout stops, the block being sent cut off where `silence` says
so; with a tail time of 0, or the key limit reached, the grant unkeys in this event. -/
def EntersTail (silence : Bool) (g : Grant) (u v : State) : Prop :=
  (u.params.tail = 0 ∨ g.atLimit → Unkeys g u v) ∧
  (u.params.tail ≠ 0 → ¬ g.atLimit →
    v.key = { u.key with grant := some { g with state := .tail, tailLeft := some (8 * u.params.tail) } } ∧
    v.playout = { u.playout with boundary := none, dacBlock := if silence then [] else u.playout.dacBlock } ∧
    OnlyChanges [.key, .playout] u v)

/-! ## The course of a grant (R63–R72) -/

/-- The last valid mark after the read mark has been read and judged (R153). -/
def State.markAfter (s : State) : Word :=
  if (s.log.next - s.read 0x40).toNat ≤ 64 then s.read 0x40 else s.log.lastMark

/-- The Station Log after a reservation request has judged the read mark (R153, R154). -/
def State.logAfter (s : State) (reserved : Bool) : StationLog :=
  { s.log with
    lastMark := s.markAfter, reserved := reserved
    markInvalid := if (s.log.next - s.read 0x40).toNat ≤ 64 then s.log.markInvalid else min 65535 (s.log.markInvalid + 1) }

/-- The EVENTS bit of an invalid mark (R153). -/
def State.markEvent (s : State) : Word := if (s.log.next - s.read 0x40).toNat ≤ 64 then 0 else bitWord 10

/-- A successful key-up (R72) of grant `g`. -/
structure Keyed (g : Grant) (u v : State) : Prop where
  key : v.key =
    { u.key with
      ptt := true
      grant := some { g with
        reservationHeld := true, keyUpTime := some u.clock, keySamples := 0, ticks := 0, busyWait := .off,
        prebufferLeft := none, state := if g.kind = .member then .keyed else .idSending } }
  log : v.log = u.logAfter true
  events : v.bus.events = u.bus.events ||| u.markEvent ||| bitWord 11
  detector : v.detector = { u.detector with holds := { u.detector.holds with ptt := true } }
  member : ∀ m, v.member m =
    if g.kind = .member ∧ g.member = some m then
      { u.member m with grantCount := min 65535 ((u.member m).grantCount + 1) }
    else u.member m
  session : ∀ k, v.session k =
    if g.kind = .member ∧ g.session = some k ∧ (u.session k).state = .opened then
      { u.session k with deadline := some (Clock.plus u.clock u.params.holderSurveillance) }
    else u.session k
  playout : v.playout =
    if g.kind = .member then
      { u.playout with
        position := 0, missingRun := 0, drainCount := 0, lastPlayed := none, concealment := false, depth := 0,
        depthLow := false, depthHigh := false, boundary := some (8 * u.params.txDelay), dacBlock := [] }
    else u.playout
  ident : v.ident =
    if g.kind = .member then
      { u.ident with
        owed := true
        due := u.ident.due || (!u.ident.owed && u.ident.intervalReached && !u.params.idTextEmpty) }
    else u.ident
  notices : v.notices = u.notices
  mem : v.mem = u.mem

/-- The grant record is `g` and nothing else has changed. -/
def BecomesGrant (g : Grant) (u v : State) : Prop := v.key = { u.key with grant := some g } ∧ OnlyChanges [.key] u v

/-- A key-up event of grant `g` is not made: PTT is forbidden, or an earlier key-up event of the grant was not made (R71); or an end
cause of the Supervisor is on its way to it (R61, R136), though PTT may be allowed again (log entry 39). -/
abbrev KeyUpBarred (g : Grant) (u : State) : Prop :=
  u.pttForbidden = true ∨ g.keyUpHeld = true ∨
    ∃ r ∈ [EndReason.killed, .fault, .disabled, .stopped], .cause g.tag r ∈ u.notices

/-- A key-up event (R71, R72): where it is not made the grant is held as it stands; otherwise the TXFAULT check, then the log
reservation, then the key-up. -/
def KeyUpEvent (g : Grant) (u v : State) : Prop :=
  if KeyUpBarred g u then BecomesGrant { g with keyUpHeld := true } u v
  else if u.supervisor.txfaultActive then PreKeyEnds g .paNotReady u v ∧ v.log = u.log ∧ v.bus.events = u.bus.events
  else if 64 ≤ (u.log.next - u.markAfter).toNat + u.log.reserved.toNat then
    PreKeyEnds g .logFull u v ∧ v.log = u.logAfter u.log.reserved ∧ v.bus.events = u.bus.events ||| u.markEvent ||| bitWord 2
  else Keyed g u v

/-- The first blocks of grant `tag`, as many as the prebuffer target, are present in their places (R69). -/
def State.prebuffered (s : State) (tag : Word) : Prop :=
  ∀ i, i < s.params.prebufferTarget →
    s.read (txBase i) = 1 ∧ s.read (txBase i + 1) = tag ∧ s.read (txBase i + 2) = word i

/-- The prebuffer limit of grant `g` runs out (R70): a held grant stays as it is (R71); a block of the grant below the max depth makes
it a key-up event, and none the end NO_AUDIO. -/
def ExpiresPrebuffer (g : Grant) (u v : State) : Prop :=
  let audio := ∃ i, i < 64 ∧ u.read (txBase i) = 1 ∧ u.read (txBase i + 1) = g.tag ∧
    (u.read (txBase i + 2)).toNat < u.params.maxDepth
  if g.keyUpHeld = true then BecomesGrant g u v
  else (audio → KeyUpEvent g u v) ∧ (¬ audio → PreKeyEnds g .noAudio u v ∧ v.log = u.log ∧ v.bus.events = u.bus.events)

/-- The entry into PREBUFFER (R69): the limit starts; a prebuffer that is complete keys up at once. -/
def EntersPrebuffer (g : Grant) (u v : State) : Prop :=
  let g' : Grant := { g with state := .prebuffer, prebufferLeft := some (8 * u.params.prebufferLimit) }
  (u.prebuffered g.tag → KeyUpEvent g' u v) ∧ (¬ u.prebuffered g.tag → BecomesGrant g' u v)

/-- The end of GAP2 (R68). -/
def LeavesGap2 (g : Grant) (u v : State) : Prop :=
  let g' : Grant := { g with gap2Left := none, busyWait := .off }
  if g.kind = .member then EntersPrebuffer g' u v else KeyUpEvent g' u v

/-- The entry into GAP2 (R68); a GAP2 time of 0 expires at once. -/
def EntersGap2 (g : Grant) (u v : State) : Prop :=
  if u.params.gap2 = 0 then LeavesGap2 { g with state := .gap2, gap1Left := none, gap2Left := none } u v
  else BecomesGrant { g with state := .gap2, gap1Left := none, gap2Left := some (8 * u.params.gap2) } u v

/-- The entry into GAP1 (R67); a GAP1 time of 0 expires at once. -/
def EntersGap1 (g : Grant) (u v : State) : Prop :=
  if u.params.gap1 = 0 then EntersGap2 { g with state := .gap1, gap1Left := none } u v
  else BecomesGrant { g with state := .gap1, gap1Left := some (8 * u.params.gap1) } u v

/-- The busy-wait timer runs out on a grant that waits (R65, R66): CHANNEL_BUSY, or an IDENT grant forced. -/
def WaitIsOver (g : Grant) (u v : State) : Prop :=
  if g.kind = .member then PreKeyEnds g .channelBusy u v ∧ v.log = u.log ∧ v.bus.events = u.bus.events
  else EntersGap1 { g with forced := true }
    (u.withIdent { u.ident with forcedCount := min 65535 (u.ident.forcedCount + 1) }) v

/-- The busy-wait limit of a grant, in sample periods (R65). -/
def Grant.waitLimit (g : Grant) (p : Params) : Nat := if g.kind = .member then 8 * p.busyWait else 8000 * p.idBusyLimit

/-- The busy-wait timer at an entry into WAIT_CLEAR (R65): started on the first, where a limit of 0 has expired as it starts. -/
def Grant.waitAtEntry (g : Grant) (p : Params) : BusyWait :=
  if g.busyWait = .off then (if g.waitLimit p = 0 then .expired else .running (g.waitLimit p)) else g.busyWait

/-- The entry into WAIT_CLEAR (R64, R65): the clear condition is tested first, then an expired busy-wait timer. -/
def EntersWaitClear (g : Grant) (u v : State) : Prop :=
  let g' : Grant := { g with state := .waitClear, gap1Left := none, busyWait := g.waitAtEntry u.params }
  if u.detector.debounced = false ∧ u.key.recovery = none then EntersGap1 g' u v
  else if g.waitAtEntry u.params = .expired then WaitIsOver g' u v
  else BecomesGrant g' u v

/-- A change of debounced busy at the Key Controller (R64, R67): the clear condition takes a waiting grant on, and a busy channel
takes an unforced grant in GAP1 back. -/
def MeetsBusyChange (u v : State) : Prop :=
  match u.key.grant with
  | none => v = u
  | some g =>
    if g.state = .waitClear ∧ u.detector.debounced = false ∧ u.key.recovery = none then EntersGap1 g u v
    else if g.state = .gap1 ∧ u.detector.debounced = true ∧ g.forced = false then EntersWaitClear g u v
    else v = u

/-- The figures of the Busy Detector after an evaluated sample `x`, with COS at the level `high`: the filters move toward 256·|x|
(R112, R113), the levels and statuses are formed (R114), raw busy from the selected status and COS (R115), and debounced busy changes
when the run of differing samples has reached 8·D (R116). -/
def Detector.sampled (d : Detector) (p : Params) (x : Word) (high : Bool) : Detector :=
  let target := 256 * min 32767 x.toInt.natAbs
  let toward := fun up down f => if f < target then f + (target - f) / 2 ^ up else f - (f - target) / 2 ^ down
  let speech := toward 3 (if p.decayCode = 0 then 3 else 9 + p.decayCode) d.speech
  let noise := if p.autoIntegrate = true ∧ d.previousS1 = true then d.noise else toward 16 16 d.noise
  let ls := speech / 2 ^ 15
  let ln := noise / 2 ^ 15
  let s0 := decide (ln < ls)
  let s1 := decide (ln + p.threshold < ls)
  let s2 := decide (ln + p.threshold + p.hysteresis < ls) ||
    (!decide (ls < max (ln + p.threshold - p.hysteresis) 1) && d.s2)
  let cos := high != p.cosLowActive
  let raw := (match p.busySource with | .s0 => s0 | .s1 => s1 | .s2 => s2) || (p.cosUse && cos)
  let count := match d.run with | none => 0 | some k => k + 1
  let flips := raw != d.debounced && decide (8 * p.debounce ≤ count)
  { speech := speech, noise := noise, levelS := ls, levelN := ln, s0 := s0, s1 := s1, s2 := s2, previousS1 := s1,
    cos := cos, rawBusy := raw, debounced := if flips then raw else d.debounced,
    run := if raw = d.debounced ∨ flips then none else some count, holds := d.holds }

/-- The ADC sample `x`, with COS at the level `high`, taken at the Busy Detector. A held detector keeps every figure (R111, R118).
Otherwise its figures become those of the sample, EVENTS.DETECTOR_CHANGE and EVENTS.BUSY_CHANGE say what has changed (R117), and a
change of debounced busy meets a waiting grant (R64, R67). -/
def TakesSample (x : Word) (high : Bool) (u v : State) : Prop :=
  let d := u.detector
  let e := d.sampled u.params x high
  if d.holds.ptt ∨ d.holds.recovery ∨ d.holds.changeover ∨ d.holds.request then v = u
  else ∃ w, w.detector = e ∧ OnlyChanges [.detector, .events] u w ∧
    w.bus.events = u.bus.events ||| (if e.s0 ≠ d.s0 ∨ e.s1 ≠ d.s1 ∨ e.s2 ≠ d.s2 then bitWord 7 else 0) |||
      (if e.debounced ≠ d.debounced then bitWord 6 else 0) ∧
    if e.debounced ≠ d.debounced then MeetsBusyChange w v else v = w

/-! ## The floor -/

/-- The privilege part of the eligibility test (R12), with the budget part. -/
def State.mayKey (s : State) (m : MemberIx) (c : ChannelIx) : Prop :=
  (s.member m).present = true ∧ (s.channel c).present = true ∧ (s.member m).permitted.getLsbD c.val = true ∧
  (s.channel c).minGrade ≤ (s.member m).grade

/-- R12's last condition. -/
def State.hasBudget (s : State) (m : MemberIx) : Prop := (s.member m).unmetered = true ∨ 1 ≤ (s.member m).remaining

/-- The whole eligibility test (R12). -/
def State.mayBeGranted (s : State) (e : Entry) : Prop := s.mayKey e.member e.channel ∧ s.hasBudget e.member

/-- Entry `e` joins the queue (R36, R126): with the next arrival number, a marked entry at the very front, an unmarked one ahead of
the first unmarked entry of lower priority, or at the back where there is none; the quiet timer stops. -/
def Joins (e : Entry) (u v : State) : Prop :=
  (∃ front back, u.floor.queue = front ++ back ∧
    v.floor =
      { u.floor.withQueue (front ++ { e with arrival := u.floor.arrival + 1 } :: back) with
        arrival := u.floor.arrival + 1 } ∧
    (e.marked = true → front = []) ∧
    (e.marked = false → (∀ x ∈ front, x.marked = true ∨ e.priority ≤ x.priority) ∧
      ∀ x rest, back = x :: rest → x.marked = false ∧ x.priority < e.priority)) ∧
  v.ident = { u.ident with quiet := .stopped } ∧ OnlyChanges [.floor, .ident] u v

/-- The quiet timer after a departure that left `queue` (R126): it starts when the floor has become quiet. -/
def quietAfter (u : State) (queue : List Entry) : QuietTimer :=
  if u.floor.idle = true ∧ queue = [] then .running (8000 * u.params.idEndDelay) else u.ident.quiet

/-- The queue without session n's entry. -/
def State.queueWithout (s : State) (n : Slot) : List Entry := s.floor.queue.filter fun e => e.session != n

/-- The end of CHANGEOVER (R63): the detector hold it asked for is lifted; WAIT_CLEAR, or PREBUFFER with the busy check off. -/
def LeavesChangeover (g : Grant) (u v : State) : Prop :=
  let w := u.withDetector { u.detector with holds := { u.detector.holds with changeover := false } }
  let g' : Grant := { g with changeoverLeft := none }
  if (u.channel g.channel).busyCheck then EntersWaitClear g' w v else EntersPrebuffer g' w v

/-- The entry into CHANGEOVER (R63): CHSEL takes the channel's radio memory and the Busy Detector is held; a changeover time of 0
expires at once. -/
def EntersChangeover (g : Grant) (u v : State) : Prop :=
  let w := (u.withKey { u.key with chsel := (u.channel g.channel).radioMemory }).withDetector
    { u.detector with holds := { u.detector.holds with changeover := true } }
  if u.params.changeover = 0 then LeavesChangeover { g with state := .changeover, changeoverLeft := none } w v
  else BecomesGrant { g with state := .changeover, changeoverLeft := some (8 * u.params.changeover) } w v

/-- The start sweep (R89): `tag` is the current tag, and every FILLED place with another tag is freed and counted as discarded. -/
def SweepsFor (tag : Word) (u v : State) : Prop :=
  v.playout =
    { u.playout with
      currentTag := some tag
      discarded := min 65535 (u.playout.discarded +
        ((List.range 64).filter fun i => u.read (txBase i) == 1 && u.read (txBase i + 1) != tag).length) } ∧
  ∀ i, i < 64 → v.read (txBase i) =
    if u.read (txBase i) = 1 ∧ u.read (txBase i + 1) ≠ tag then 0 else u.read (txBase i)

/-- The next grant tag (R50): FFFFh is followed by 0001h. -/
def tagAfter (t : Word) : Word := if t = 0xFFFF then 1 else t + 1

/-- A grant of queue entry `e` (R51, R62): the floor is busy, a courtesy interval stops, the entry leaves the queue and is remembered
with its retries; the Key Controller takes the grant under the next tag, with the CHSEL channel and the key limit set and the places of
other tags swept; and the grant enters its first state. -/
def GrantsEntry (e : Entry) (u v : State) : Prop :=
  let tag := tagAfter u.floor.tagCounter
  let g : Grant :=
    { Grant.fresh tag .member (some e.session) (some e.member) e.channel with
      keyLimit := some (1000 * min (u.member e.member).maxKeyTime (u.channel e.channel).maxKeyTime) }
  ∃ w,
    w.floor =
      { u.floor.without e.session with
        idle := false, courtesy := none, tagCounter := tag
        granted := some { session := e.session, member := e.member, channel := e.channel, retries := e.retries } } ∧
    w.ident = { u.ident with quiet := .stopped } ∧ w.key = { u.key with chselChannel := some e.channel } ∧
    SweepsFor tag u w ∧ OnlyChanges [.floor, .ident, .key, .playout, .mem] u w ∧
    if (u.channel e.channel).radioMemory ≠ u.key.chsel then EntersChangeover g w v
    else if (u.channel e.channel).busyCheck then EntersWaitClear g w v
    else EntersPrebuffer g w v

/-- The grant of the identification claim on the CHSEL channel `c` (R51, R62, R129). -/
def GrantsIdent (c : ChannelIx) (u v : State) : Prop :=
  let tag := tagAfter u.floor.tagCounter
  ∃ w,
    w.floor = { u.floor with idle := false, courtesy := none, tagCounter := tag } ∧
    w.ident = { u.ident with quiet := .stopped } ∧ SweepsFor tag u w ∧ OnlyChanges [.floor, .ident, .playout, .mem] u w ∧
    if (u.channel c).busyCheck then EntersWaitClear (Grant.fresh tag .ident none none c) w v
    else KeyUpEvent (Grant.fresh tag .ident none none c) w v

/-- The entries of `es` leave the queue of `u` for their failed re-check (R39, R49): NOT_PERMITTED, or NO_BUDGET for one that fails on
its budget alone; and the quiet timer starts where the last entry of the idle floor has left so (R126). -/
def FailsOut (es : List Entry) (u v : State) : Prop :=
  v.floor = es.foldl (fun f e => f.without e.session) u.floor ∧
  OnlyChanges [.floor, .ident, .sessions] u v ∧
  v.ident = { u.ident with quiet := if es = [] then u.ident.quiet else quietAfter u v.floor.queue } ∧
  (∀ n, (∀ e ∈ es, e.session ≠ n) → v.session n = u.session n) ∧
  (∀ e ∈ es, (v.session e.session).lastEndTag = none) ∧
  ((es.map (·.session)).Nodup → ∀ e ∈ es,
    (¬ u.mayKey e.member e.channel → (v.session e.session).lastEndReason = some .notPermitted) ∧
    (u.mayKey e.member e.channel → (v.session e.session).lastEndReason = some .noBudget)) ∧
  v.floor.queue = u.floor.queue.filter fun x => es.all fun e => x.session != e.session

/-- The entries `es` considered in their order (R47 steps 1 and 3): one that is skipped keeps its place (R48), one that fails the
re-check leaves (R49), and the first that passes is granted; where none passes, `next` says what comes after the last. -/
def TriesInOrder (skipped : Entry → Bool) (es : List Entry) (u v : State) (next : State → Prop) : Prop :=
  (∀ front e back, es = front ++ e :: back → skipped e = false → u.mayBeGranted e →
    (∀ x ∈ front, skipped x = true ∨ ¬ u.mayBeGranted x) →
    ∃ w, FailsOut (front.filter fun x => !skipped x) u w ∧ GrantsEntry e w v) ∧
  ((∀ e ∈ es, skipped e = true ∨ ¬ u.mayBeGranted e) →
    ∃ w, FailsOut (es.filter fun x => !skipped x) u w ∧ next w)

/-- An arbitration (R46–R51): nothing while it is forbidden; otherwise the marked entries, then the identification claim, then the
unmarked entries whose members are in no penalty, and at most one grant. -/
def Arbitrates (u v : State) : Prop :=
  let allowed := u.floor.idle = true ∧ u.supervisor.running = true ∧ u.supervisor.lockout = none ∧
    u.supervisor.disable = .released ∧ u.ready = true
  (¬ allowed → v = u) ∧
  (allowed →
    TriesInOrder (fun _ => false) (u.floor.queue.filter (·.marked)) u v fun w =>
      if u.floor.courtesy = none ∧ u.ident.due = true then ∀ c, u.key.chselChannel = some c → GrantsIdent c w v
      else if u.floor.courtesy = none ∧ u.floor.hold = false then
        TriesInOrder (fun e => u.penaltyInForce e.member) (w.floor.queue.filter fun e => !e.marked) w v fun x => v = x
      else v = w)

/-! ## The block boundary (R91–R99) -/

/-- The distance of the sequence in transmit place `i` from the playout position `p` (R92). -/
def State.ahead (s : State) (i p : Nat) : Nat := (s.read (txBase i + 2) - word p).toNat

/-- Transmit place `i` counts in the depth at playout position `p` (R97). -/
def State.counts (s : State) (tag : Word) (p i : Nat) : Bool :=
  s.read (txBase i) == 1 && s.read (txBase i + 1) == tag && decide (s.ahead i p ≤ 63)

/-- The depth at playout position `p` (R97). -/
def State.depthOf (s : State) (tag : Word) (p : Nat) : Nat := ((List.range 64).filter (s.counts tag p)).length

/-- The place at the playout position holds the block to play: R93's case 1. -/
def State.holdsBlock (s : State) (tag : Word) : Prop :=
  let i := s.playout.position % 64
  s.read (txBase i) = 1 ∧ s.read (txBase i + 1) = tag ∧ s.ahead i s.playout.position = 0

/-- One round of re-centring (R98 steps 1 and 2): the counted place that is nearest ahead is freed, and the playout position moves
past it. -/
def FreesNearest (tag : Word) (u v : State) : Prop :=
  let p := u.playout.position
  ∃ i, i < 64 ∧ u.counts tag p i = true ∧ (∀ j, j < 64 → u.counts tag p j = true → u.ahead i p ≤ u.ahead j p) ∧
    v = (u.write (txBase i) 0).withPlayout { u.playout with
      released := min 65535 (u.playout.released + 1), position := p + u.ahead i p + 1 }

/-- Re-centring's rounds (R98 steps 1 to 4): while the depth is above the prebuffer target. -/
inductive Recentres (tag : Word) : State → State → Prop where
  | done (u : State) (h : u.depthOf tag u.playout.position ≤ u.params.prebufferTarget) : Recentres tag u u
  | round (u w v : State) (h : u.params.prebufferTarget < u.depthOf tag u.playout.position) (first : FreesNearest tag u w)
      (rest : Recentres tag w v) : Recentres tag u v

/-- The depth count of a boundary (R97), after re-centring where the grant is in KEYED and the depth exceeds the max depth
(R98). -/
def CountsDepth (tag : Word) (keyed : Bool) (u v : State) : Prop :=
  ∃ w, (if keyed = true ∧ u.params.maxDepth < u.depthOf tag u.playout.position then
      ∃ x, Recentres tag u x ∧ w = x.withPlayout { x.playout with slip := min 65535 (x.playout.slip + 1) }
    else w = u) ∧
    let d := w.depthOf tag w.playout.position
    v = w.withPlayout { w.playout with
      depth := d, depthLow := decide (d ≤ 1), depthHigh := decide (w.params.maxDepth - 1 ≤ d) }

/-- The total attenuation of grant `g` and `extra` steps, through the level arithmetic (R103, R104); a MUTED member's block is all 0. -/
def State.leveled (s : State) (g : Grant) (extra : Int) (block : List Word) : List Int :=
  block.map fun x =>
    match (s.memberOf g.member).trim with
    | .muted => 0
    | .steps n => level x.toInt (n + (s.channel g.channel).attenuation + extra)

/-- The block at the playout position is played (R93 case 1, R94): it is handed to the DAC and copied, its place freed, the holder's
count raised and deadline re-armed, and the playout position raised. -/
def PlaysBlock (g : Grant) (u w : State) : Prop :=
  let i := u.playout.position % 64
  let block := (List.range 160).map fun k => u.read (txBase i + 8 + k)
  w.playout =
    { u.playout with
      boundary := some 160, position := u.playout.position + 1, released := min 65535 (u.playout.released + 1), missingRun := 0
      lastPlayed := some block, dacBlock := u.leveled g 0 block } ∧
  w.mem = u.mem.write (txBase i) 0 ∧
  (∀ k, w.session k =
    if g.session = some k then
      { u.session k with
        blocksPlayed := min 65535 ((u.session k).blocksPlayed + 1)
        counterNotices := (u.session k).counterNotices + 1
        deadline := if (u.session k).state = .opened then some (Clock.plus u.clock u.params.holderSurveillance)
          else (u.session k).deadline }
    else u.session k) ∧
  OnlyChanges [.playout, .mem, .sessions] u w

/-- A missing block (R93 cases 2 to 5): a FILLED place is freed and counted as released, and as stale, late or overrun of the holder;
the playout position is raised. -/
def ClearsPlace (g : Grant) (u w : State) : Prop :=
  let p := u.playout.position
  let i := p % 64
  let filled := u.read (txBase i) = 1
  let tagged := u.read (txBase i + 1) = g.tag
  w.playout =
    { u.playout with
      boundary := some 160, position := p + 1
      released := if filled then min 65535 (u.playout.released + 1) else u.playout.released } ∧
  w.mem = (if filled then u.mem.write (txBase i) 0 else u.mem) ∧
  (∀ k, w.session k =
    let r := u.session k
    if g.session = some k ∧ filled then
      { (if ¬ tagged then { r with stale := min 65535 (r.stale + 1) }
        else if 32768 ≤ u.ahead i p then { r with late := min 65535 (r.late + 1) }
        else { r with overrun := min 65535 (r.overrun + 1) } : Session) with counterNotices := r.counterNotices + 1 }
    else r) ∧
  OnlyChanges [.playout, .mem, .sessions] u w

/-- The substitute for a missing block (R95): concealment where the block before it was played, silence otherwise. -/
def Substitutes (g : Grant) (u v : State) : Prop :=
  let run := min 65535 (u.playout.missingRun + 1)
  if u.playout.missingRun = 0 ∧ u.playout.lastPlayed ≠ none then
    v.playout =
      { u.playout with
        missingRun := run, dacBlock := u.leveled g 12 (u.playout.lastPlayed.getD []), concealment := true } ∧
    (∀ k, v.session k =
      if g.session = some k then
        { u.session k with
          concealed := min 65535 ((u.session k).concealed + 1), counterNotices := (u.session k).counterNotices + 1 }
      else u.session k) ∧
    OnlyChanges [.playout, .sessions] u v
  else
    v.playout = { u.playout with missingRun := run, dacBlock := List.replicate 160 0 } ∧ OnlyChanges [.playout] u v

/-- The drain has ended (R99): the final count is at or behind the playout position (R92), or a block is missing with no final count, or
the drain count has reached the drain limit. -/
def Grant.drainIsOver (g : Grant) (missing : Bool) (w : State) : Prop :=
  (∃ n, g.finalCount = some n ∧ ((n - word w.playout.position).toNat = 0 ∨ 32768 ≤ (n - word w.playout.position).toNat)) ∨
  (g.finalCount = none ∧ missing = true) ∨ w.params.drainLimit ≤ w.playout.drainCount

/-- The rest of a boundary in DRAIN (R97, R99): the depth count and the drain count, and TAIL where the drain has ended. -/
def DrainsOn (g : Grant) (missing : Bool) (u v : State) : Prop :=
  ∃ x, CountsDepth g.tag false u x ∧
    let w := x.withPlayout { x.playout with drainCount := x.playout.drainCount + 1 }
    (g.drainIsOver missing w → EntersTail false g w v) ∧ (¬ g.drainIsOver missing w → v = w)

/-! ## Abrupt causes and the end notice -/

/-- An abrupt cause `r` taken by grant `g` (R80, R81): a pre-key end before key-up; an unkey in KEYED and ID_SENDING; in DRAIN and TAIL an
unkey with the reason it has, cut short. -/
def EndsAbruptly (g : Grant) (r : EndReason) (u v : State) : Prop :=
  let ended : Grant := { g with endReason := some (g.endReason.getD r) }
  match g.state with
  | .keyed | .idSending => Unkeys ended u v
  | .drain | .tail => Unkeys { ended with cutShort := true } u v
  | .changeover | .waitClear | .gap1 | .gap2 | .prebuffer =>
    PreKeyEnds g r u v ∧ v.log = u.log ∧ v.bus.events = u.bus.events

/-- What the Supervisor's or the Floor Arbiter's end cause does to whatever grant exists (R80, R136), in the event of its own that sends
it: taken at once, it ends the grant; otherwise it is in flight with the grant's tag, and nothing else has changed. -/
def EndsGrantBy (r : EndReason) (now : Bool) (u v : State) : Prop :=
  match u.key.grant, now with
  | none, _ => v = u
  | some g, true => EndsAbruptly g r u v ∧ OnlyChanges endParts u v
  | some g, false => v = u.withNotices (u.notices ++ [.cause g.tag r])

/-- The claim of an ended grant lives on (R52): a MEMBER grant ended CHANNEL_BUSY, with a retry left, whose session is OPEN and has no
entry. -/
def State.claimLivesOn (s : State) (kind : GrantKind) (r : EndReason) (x : GrantedEntry) (left : Nat) : Prop :=
  kind = .member ∧ r = .channelBusy ∧ s.floor.granted = some x ∧ x.retries = some (left + 1) ∧
  (s.session x.session).state = .opened ∧ s.entryOf x.session = none

/-- The claim of an ended grant is queued again (R52, R36): a new unmarked entry of the same session, member and channel, with the
member's priority as it stands (3 for a control operator) and `left` retries. -/
def GrantedEntry.joinsAgain (x : GrantedEntry) (left : Nat) (u v : State) : Prop :=
  Joins { session := x.session, member := x.member, channel := x.channel
          priority := if (u.member x.member).controlOperator then 3 else (u.member x.member).priority
          arrival := 0, retries := some left, marked := false } u v

/-- Session n's entry leaves the queue with `r` (R31, R39), and the quiet timer starts where the floor has become quiet (R126). -/
def Departs (n : Slot) (r : EndReason) (u v : State) : Prop :=
  v.floor = u.floor.without n ∧
  v.ident = { u.ident with quiet := quietAfter u (u.queueWithout n) } ∧
  (∀ k, v.session k =
    if k = n then { u.session k with lastEndReason := some r, lastEndTag := none } else u.session k) ∧
  OnlyChanges [.floor, .ident, .sessions] u v

/-- What the end of session n's service does (R22, R28), its own record already saying FREE or LOST in `u`: the grant it holds, if
any, takes the abrupt cause `r`; then its entry, if it has one, leaves with `r`. -/
structure EndsService (n : Slot) (r : EndReason) (u v : State) : Prop where
  course : ∃ w,
    (match u.grantOf n with
      | none => w = u
      | some g => EndsAbruptly g r u w ∧ OnlyChanges endParts u w) ∧
    if (u.entryOf n).isSome then Departs n r w v else v = w
  queue : v.floor = u.floor.without n
  grant : match u.grantOf n with
    | none => v.key = u.key ∧ v.notices = u.notices
    | some g => v.key.grant = none ∧ v.key.ptt = false ∧ v.notices = u.notices ++ [g.endNotice r]
  reason : (v.session n).lastEndReason =
    if (u.entryOf n).isSome then some r
    else match u.grantOf n with
      | none => (u.session n).lastEndReason
      | some g => some (g.endReason.getD r)
  tag : (v.session n).lastEndTag =
    if (u.entryOf n).isSome then none
    else match u.grantOf n with
      | none => (u.session n).lastEndTag
      | some g => some g.tag
  others : ∀ k, k ≠ n → v.session k = u.session k

/-- An event in which identification may fall due (R127): where it is owed, the text is not empty and it is not due already, it becomes
due and an arbitration is made; otherwise nothing more happens. -/
def ReconsidersIdent (u v : State) : Prop :=
  let becomes := u.ident.owed = true ∧ u.params.idTextEmpty = false ∧ u.ident.due = false
  (becomes → Arbitrates (u.withIdent { u.ident with due := true }) v) ∧ (¬ becomes → v = u)

/-! ## The Supervisor -/

/-- The PTT report of the Supervisor at the Key Controller (R61, R136): PTT, where it is asserted, is released in this event, with
EVENTS.PTT_CHANGE; the Busy Detector's hold for it is lifted (R118), a qualification is abandoned and qualified this keying is no
(R143). -/
def State.pttReleased (s : State) : State :=
  if s.key.ptt then
    { s with
      key := { s.key with ptt := false }
      detector := { s.detector with holds := { s.detector.holds with ptt := false } }
      supervisor := { s.supervisor with qualification := none, qualifiedThisKeying := false }
      bus := { s.bus with events := s.bus.events ||| bitWord 11 } }
  else s

/-- The lockout flag set, its reason changed, or a KILL repeated (R139, R140): EVENTS.LOCKOUT, the PTT report, and the clear notice
LOCKED_OUT. -/
def State.lockedOut (s : State) (r : LockoutReason) : State :=
  let x := { s with
    supervisor := { s.supervisor with lockout := some r }
    bus := { s.bus with events := s.bus.events ||| bitWord 3 } }.pttReleased
  x.withNotices (x.notices ++ [.clear .lockedOut])

/-- The fault history that a fault at `now` leaves (R145), with no duplicates (R135): the entries younger than the fault window, and
then the present time, which is not listed twice. -/
def Supervisor.historyAfter (v : Supervisor) (now : Clock) (window : Nat) : List Clock :=
  (v.history.filter fun x => decide ((now - x).toNat < 1000 * window) && x != now) ++ [now]

/-- A qualified fault (R143–R145): the qualification is over and qualified this keying is yes, until PTT is released; whatever grant
exists is sent FAULT; the fault is counted and noted in the pruned history; and a history of the lockout count sets the lockout
flag. -/
structure QualifiesFault (now : Bool) (u v : State) : Prop where
  history : v.supervisor.history = u.supervisor.historyAfter u.clock u.params.faultWindow
  count : v.supervisor.faultCount = min 65535 (u.supervisor.faultCount + 1)
  qualification : v.supervisor.qualification = none
  qualifiedThisKeying : v.supervisor.qualifiedThisKeying = (v.key.ptt || !u.key.ptt)
  events : v.bus.events.getLsbD 4 = true
  course : ∃ w,
    EndsGrantBy .fault now
      (u.withSupervisor { u.supervisor with qualification := none, qualifiedThisKeying := true }) w ∧
    let x : State := { w with
      supervisor := { w.supervisor with
        faultCount := min 65535 (u.supervisor.faultCount + 1)
        history := u.supervisor.historyAfter u.clock u.params.faultWindow }
      bus := { w.bus with events := w.bus.events ||| bitWord 4 } }
    v = if u.params.lockoutCount ≤ v.supervisor.history.length then x.lockedOut .faults else x

/-! ## Resets -/

/-- Every block holds the values its chapter gives for after a reset (R2, R8, R18, R38, R60, R88, R107, R111, R123, R135, R150,
R164, R167, R168, R171), and nothing of the model's own is in flight. TXFAULT active is judged from the input at the default
polarity, high active (R142). -/
structure HoldsResetValues (t : State) : Prop where
  members : ∀ m, t.member m =
    { present := false, grade := 1, controlOperator := false, permitted := 0, priority := 0, maxKeyTime := 10,
      unmetered := false, allowance := some 0, remaining := 0, trim := .steps 0, penaltyEnd := none, grantCount := 0,
      lostCount := 0 }
  channels : ∀ c, t.channel c =
    { present := false, radioMemory := 0, minGrade := 1, maxKeyTime := 10, attenuation := 0, busyCheck := true }
  sessions : ∀ n, t.session n =
    { state := .free, member := none, deadline := none, lastEndReason := none, lastEndTag := none, requestsTaken := 0,
      blocksPlayed := 0, stale := 0, late := 0, overrun := 0, concealed := 0, counterNotices := 0, changeCount := 0 }
  floor : t.floor =
    { queue := [], arrival := 0, tagCounter := 0, hold := false, courtesy := none, idle := true, granted := none,
      positionNotices := Vector.replicate 16 0 }
  key : t.key = { grant := none, ptt := false, chsel := 0, chselChannel := none, recovery := none, timedOut := none }
  playout : t.playout =
    { currentTag := none, position := 0, boundary := none, missingRun := 0, lastPlayed := none, concealment := false,
      depth := 0, depthLow := false, depthHigh := false, drainCount := 0, released := 0, discarded := 0, slip := 0,
      dacBlock := [] }
  receive : t.receive = { captureSequence := 0, collection := [], keyedMark := false, overflow := 0 }
  detector : t.detector =
    { speech := 0, noise := 0, levelS := 0, levelN := 0, s0 := false, s1 := false, s2 := false, previousS1 := false,
      cos := false, rawBusy := false, debounced := false, run := none,
      holds := { ptt := false, recovery := false, changeover := false, request := false } }
  ident : t.ident =
    { owed := false, lastId := none, intervalReached := false, quiet := .stopped, due := false, position := none, phase := 0,
      forcedCount := 0 }
  supervisor : t.supervisor =
    { running := false, lockout := none, history := [], faultCount := 0, txfaultActive := t.txfaultPin,
      qualification := none, qualifiedThisKeying := false, disable := .released, releaseTimer := none }
  log : t.log = { next := 0, lastMark := 0, reserved := false, markInvalid := 0 }
  waiting : ∀ c : Cell, t.cells.waiting[c] = false
  pointer : t.cells.pointer.number = 16
  attentionHeld : t.cells.attentionHeld = 0
  bus : t.bus =
    { answerEnable := false, newsEnable := false, answered := 0, news := 0, events := 0, eventEnable := 0,
      writeToReadOnly := 0, pageCount := 0, data := 0 }
  params : t.params =
    { surveillance := 3000, holderSurveillance := 1000, courtesy := 1000, changeover := 150, busyWait := 5000, gap1 := 400,
      gap2 := 100, prebufferTarget := 4, prebufferLimit := 500, maxDepth := 12, audioLoss := 25, drainLimit := 20,
      txDelay := 40, tail := 200, recovery := 100, timeoutPenalty := 30, faultQualify := 10, faultWindow := 120,
      lockoutCount := 3, idInterval := 600, idEndDelay := 30, idBusyLimit := 10, idUnit := 60, idTone := 800,
      idAttenuation := 12, decayCode := 2, threshold := 8, hysteresis := 3, debounce := 14, busySource := .s2,
      autoIntegrate := true, cosUse := false, cosLowActive := false, txfaultLowActive := false, idText := [] }
  periods : t.periods = 0
  notices : t.notices = []
  owed : t.samplesOwed = 0 ∧ t.pagesOwed = 0

/-- What a reset leaves alone: the exchange memory (cleared later, R172), the inputs, and the model's own queue of commands and
count of free choices. -/
def ResetKeeps (s t : State) : Prop :=
  t.mem = s.mem ∧ t.txfaultPin = s.txfaultPin ∧ t.disablePin = s.disablePin ∧ t.pending = s.pending ∧ t.choices = s.choices

/-- The words the start-up leaves in the exchange memory (R34, R172, R173): the page with its change count 2, page revision 1
and the member and channel fields absent; the 16 status records with change count 2 and the channel field absent; 0 in every
other word. -/
def startUpWord (a : Nat) : Word :=
  if a = 0 then 2
  else if a = 1 then 1
  else if a = 9 ∨ a = 10 then 0xFFFF
  else if 0x600 ≤ a ∧ a < 0x800 then (if a % 32 = 0 then 2 else if a % 32 = 5 then 0xFFFF else 0)
  else 0

/-! ## Attention -/

/-- What a call of the cells in `called` does (R163): each that was not pending joins the pending set with 1 in its holder word;
each that was pending is counted and sets EVENTS.ABNORMAL; nothing else of the Request Cell Unit changes. -/
def CallsCells (called : Cell → Bool) (s t : State) : Prop :=
  (∀ c, t.cells.waiting[c] = (s.cells.waiting[c] || called c)) ∧ t.cells.pointer = s.cells.pointer ∧
  (∀ held, held = (allCells.filter fun c => called c && s.cells.waiting[c]).length →
    t.cells.attentionHeld = if held = 0 then s.cells.attentionHeld else min 65535 (s.cells.attentionHeld + held)) ∧
  (∀ c, called c = true → s.cells.waiting[c] = false → t.read (cellBase c) = 1) ∧
  t.bus.events = (if allCells.any fun c => called c && s.cells.waiting[c] then s.bus.events ||| bitWord 10 else s.bus.events) ∧
  MemoryKept (fun a => ∃ c, called c = true ∧ s.cells.waiting[c] = false ∧ a = cellBase c) s t

/-! ## Laws the part keeps -/

/-- The exchange memory keeps its canonical form. -/
def State.memoryLaw (s : State) : Prop := s.mem.wf = true

/-- R114: "S and N stay within 0..8,388,352, and Ls and Ln within 0..255." -/
def State.detectorLaw (s : State) : Prop :=
  s.detector.speech ≤ 8388352 ∧ s.detector.noise ≤ 8388352 ∧ s.detector.levelS ≤ 255 ∧ s.detector.levelN ≤ 255

/-- R107: the collection holds fewer than the 160 samples of a block. -/
def State.collectionLaw (s : State) : Prop := s.receive.collection.length ≤ 159

/-- R1: a metered member's remaining budget lies between 0 and its allowance; an unmetered member has no allowance and a
remaining budget of 0. -/
def Member.budgetLaw (r : Member) : Prop :=
  if r.unmetered then r.allowance = none ∧ r.remaining = 0 else ∃ a, r.allowance = some a ∧ r.remaining ≤ a

def State.budgetLaw (s : State) : Prop := ∀ m, (s.member m).budgetLaw

/-- R18, R19: a slot serves a member exactly while it is not FREE, its deadline is present only while OPEN, and no two slots
that are OPEN or LOST serve the same member. -/
def State.bindingLaw (s : State) : Prop :=
  (∀ n, (s.session n).member = none ↔ (s.session n).state = .free) ∧
  (∀ n, (s.session n).deadline ≠ none → (s.session n).state = .opened) ∧
  (∀ n k, n ≠ k → (s.session n).state ≠ .free → (s.session k).state ≠ .free → (s.session n).member ≠ (s.session k).member)

/-- An end notice (R43). -/
def isEnded : Notice → Bool
  | .ended _ _ _ _ => true
  | .cause _ _ | .revocation _ | .privilege _ | .keyLimit _ | .clear _ => false

/-- The floor-idle indication is set only while no grant exists (R43), and only with no end notice on its way: that second clause is
the MODEL'S CHOICE of notes/assumptions/9.md, since R43 sets the indication when the end notice is sent, and the model when it is
taken. A grant and an end notice are never both present, and at most one end notice is on its way. -/
def State.floorLaw (s : State) : Prop :=
  (s.floor.idle = true → s.key.grant = none ∧ s.notices.any isEnded = false) ∧
  (s.key.grant ≠ none → s.notices.any isEnded = false) ∧ s.notices.countP isEnded ≤ 1

/-- R59, R63–R69, R79: each grant timer runs only in the states that use it; the holder, the key-up time, the reservation and
the end reason are present as the grant's kind and state have them. R71: a grant whose key-up was not made stands in PREBUFFER, or,
of kind IDENT, in GAP2 (log entry 19). -/
def Grant.lawful (g : Grant) : Prop :=
  (g.changeoverLeft ≠ none → g.state = .changeover) ∧ (g.gap1Left ≠ none → g.state = .gap1) ∧
  (g.gap2Left ≠ none → g.state = .gap2) ∧ (g.prebufferLeft ≠ none → g.state = .prebuffer) ∧
  (g.tailLeft ≠ none → g.state = .tail) ∧
  (g.busyWait.left ≠ none → g.state = .waitClear ∨ g.state = .gap1 ∨ g.state = .gap2) ∧
  (g.kind = .member ↔ g.session ≠ none) ∧ (g.kind = .member ↔ g.member ≠ none) ∧
  (g.kind = .ident → g.state = .waitClear ∨ g.state = .gap1 ∨ g.state = .gap2 ∨ g.state = .idSending) ∧
  (g.state = .idSending → g.kind = .ident) ∧
  (g.keyUpTime ≠ none ↔ g.state.onAir = true) ∧ (g.reservationHeld = true ↔ g.state.onAir = true) ∧
  (g.endReason ≠ none ↔ g.state = .drain ∨ g.state = .tail) ∧
  (g.keyUpHeld = true → g.state = if g.kind = .member then .prebuffer else .gap2)

def State.grantLaw (s : State) : Prop := ∀ g, s.key.grant = some g → g.lawful

/-- R61: PTT is asserted only in KEYED, DRAIN, TAIL or ID_SENDING, and never while the run state is STOPPED, the lockout flag
is set, DISABLE is asserted (or being released, R136), or STATUS.READY is 0. -/
def State.pttLaw (s : State) : Prop :=
  s.key.ptt = true → (∃ g, s.key.grant = some g ∧ g.state.onAir = true) ∧ s.pttForbidden = false

/-- R35, R37: at most one entry per session, no entry for the holder of the grant, and none for a session that is not OPEN. -/
def State.queueLaw (s : State) : Prop :=
  (s.floor.queue.map (·.session)).Nodup ∧
  (∀ e ∈ s.floor.queue, (s.session e.session).state = .opened ∧ s.holds e.session = false)

/-- R22, R28: the session that holds a grant is OPEN. -/
def State.holderLaw (s : State) : Prop := ∀ n, s.holds n = true → (s.session n).state = .opened

/-- R154, R155: the unread entries plus one for a held reservation never exceed 64, and a reservation is held exactly while
a grant is keyed. -/
def State.logLaw (s : State) : Prop :=
  s.log.unread + (if s.log.reserved then 1 else 0) ≤ 64 ∧
  (s.log.reserved = true ↔ ∃ g, s.key.grant = some g ∧ g.state.onAir = true)

/-- R75: a member grant's key time, which it has from its key-up, never exceeds its key limit. -/
def State.keyLimitLaw (s : State) : Prop :=
  ∀ g l, s.key.grant = some g → g.state.memberOnAir = true → g.keyLimit = some l → g.keyTime ≤ l

/-- R71: a grant whose key-up was not made is still current and held, in its state, or has ended: it is never keyed. -/
def HeldGrantStays (s t : State) : Prop :=
  ∀ g, s.key.grant = some g → g.keyUpHeld = true →
    t.key.grant = none ∨ ∃ h, t.key.grant = some h ∧ h.tag = g.tag ∧ h.state = g.state ∧ h.keyUpHeld = true

/-- R50: no grant has tag 0. -/
def State.tagLaw (s : State) : Prop := ∀ g, s.key.grant = some g → g.tag ≠ 0

/-- A value a sample can have (R101). -/
def isSample (y : Int) : Prop := -32768 ≤ y ∧ y ≤ 32767

/-- What the Playout Engine holds for the DAC are samples (R101). -/
def State.dacLaw (s : State) : Prop := ∀ y ∈ s.playout.dacBlock, isSample y

/-- The laws of the floor, the grant, PTT, the queue and the log together, which every step keeps. -/
structure State.Lawful (s : State) : Prop where
  floorLaw : s.floorLaw
  grantLaw : s.grantLaw
  pttLaw : s.pttLaw
  queueLaw : s.queueLaw
  holderLaw : s.holderLaw
  logLaw : s.logLaw

/-- The laws of the memory, the detector, the collection, the budgets, the bindings, the DAC and the tags together. -/
structure State.Sound (s : State) : Prop where
  memoryLaw : s.memoryLaw
  detectorLaw : s.detectorLaw
  collectionLaw : s.collectionLaw
  budgetLaw : s.budgetLaw
  bindingLaw : s.bindingLaw
  dacLaw : s.dacLaw
  tagLaw : s.tagLaw

end Sys2Proof.Machine
end

