-- ==== Sys2Proof/WellFormed.lean ====
section
/-! DEFINITION. When a command is well formed: its operands are ones its row of the table can carry. `exec` gives a meaning
to every command, well formed or not. -/

namespace Sys2Proof

/-- The addresses a write of READ_ONLY_REGISTER_WRITE can have (R160, R168): IDENT, STATUS, ANSWERED, NEWS, or above
8007h. -/
def readOnlyAddress (a : Word) : Bool :=
  a == 0x8000 || a == 0x8001 || a == 0x8004 || a == 0x8005 || decide (0x8007 < a.toNat)

/-- The end causes that reach the Key Controller by the END_CAUSE row: those sent by the Transmitter Supervisor and by the
Floor Arbiter (R80, R136). A release, a close, an expiry, a revocation and lost audio reach it inside their own events. -/
def EndReason.sentAsNotice : EndReason → Bool
  | .preempted | .killed | .fault | .disabled | .stopped => true
  | .released | .cancelled | .timeout | .budget | .channelBusy | .noAudio | .paNotReady | .logFull | .linkLost | .closed
  | .ejected | .revoked | .audioLost | .idDone | .notPermitted | .noBudget | .lockedOut => false

/-- The operands each row can carry. -/
def Instr.wellFormed : Instr → Bool
  | .nop => true
  | .start => true
  | .stop _ => true
  | .holdFloor => true
  | .resumeFloor => true
  | .setStation => true
  | .setMember => true
  | .readMember => true
  | .setChannel => true
  | .readChannel => true
  | .refill => true
  | .openSession => true
  | .closeSession => true
  | .clearLockout => true
  | .kill _ => true
  | .detectorHold => true
  | .detectorRelease => true
  | .keepalive => true
  | .key => true
  | .release => true
  | .preempt _ => true
  | .eject => true
  | .killFromSession _ => true
  | .clearLockoutFromSession => true
  | .holdFloorFromSession => true
  | .resumeFloorFromSession => true
  | .undefinedRequest => true
  | .attentionWrite _ => true
  -- a CONTROL write is a soft reset with bit 15 set, otherwise a station-cell call with bit 0 set (R168)
  | .stationCellCall value => value.getLsbD 0 && !value.getLsbD 15
  | .interruptEnableWrite value => !value.getLsbD 0 && !value.getLsbD 15
  | .softReset value => value.getLsbD 15
  | .eventEnableWrite _ => true
  | .eventsClear _ => true
  | .answeredRead => true
  | .newsRead => true
  | .readOnlyRegisterWrite address _ => readOnlyAddress address
  -- the exchange memory is 0000h–7FFFh (R160)
  | .hostMemoryWrite address _ => decide (address.toNat < 0x8000)
  | .hardwareReset => true
  | .resetRelease => true
  | .startUpClearingDone => true
  | .txfaultChange _ _ => true
  | .disableAssert _ => true
  | .disableReleaseBegin => true
  | .releaseTimerExpiry => true
  | .adcSample _ _ => true
  | .debounceComplete _ _ => true
  | .captureBoundary _ _ => true
  | .statusPageRewrite => true
  | .courtesyExpiry => true
  | .changeoverExpiry => true
  | .busyWaitExpiry => true
  | .gap1Expiry => true
  | .gap2Expiry => true
  | .prebufferLimitExpiry => true
  | .blockBoundary => true
  | .audioLost => true
  | .drainLimit => true
  | .tailExpiry => true
  | .accountingTick => true
  | .keyLimitReached => true
  | .keyLimitNotice _ => true
  | .receiverRecoveryExpiry => true
  | .surveillanceExpiry _ => true
  | .penaltyEnd _ => true
  | .intervalReached => true
  | .quietTimerExpiry => true
  | .idPatternStart => true
  | .idPatternComplete => true
  | .qualificationExpiry _ => true
  | .endNotice => true
  | .revocationNotice _ => true
  | .privilegeNotice _ => true
  | .clearNotice _ => true
  -- every grant's tag is a grant tag, 1 to FFFFh (R50)
  | .endCause tag reason => tag != 0 && reason.sentAsNotice

end Sys2Proof
end

