-- ==== Sys2Proof/Certificates/Slice0/Obligations.lean ====
section
/-! DEFINITION. The statements for the provers, in the order of the machine: the step, reset and the registers; the requests;
the inputs and the samples; the timers of a grant; the notices; and what every step keeps. A statement of what a command does
concludes that `exec` answers a next state, and says what that state holds and what it leaves unchanged. -/

open Sys2Proof Sys2Proof.Machine

/-! ## The step, reset and the registers -/

/-- The step runs the command at the front of the queue on the state with the queue's rest. With no command waiting, it runs
one of the part's own events that are due, or lets one sample period pass where the part is ready and nothing that takes no
time, or whose time has come, stands in the way, as is always so where nothing is due; and while RESET# is asserted nothing
happens. Due are, before READY, the end of the start-up clearing alone, and then the service of the next pending cell, the
notices on their way, the timers, deadlines and counts that have run out, and the samples and page rewrites owed; time may
pass, while no cell waits and no notice but an end cause is on its way, to the earliest moment of any of these. The passing of
n sample periods moves the clock, which counts a millisecond every 8 of them, takes n from every running timer, adds n to a
grant's key time on the air, to the pattern's position and to the samples owed, moves the tone's phase, takes n samples from
the block at the DAC, owes a page rewrite for every 160, and changes nothing else (the model's choice, log entries 2, 3, 4, 5
and 20). -/
def Obligations.StepRunsTheFrontCommand : Prop :=
  (∀ (s : State) (c : Instr) (rest : List Instr),
    s.pending = c :: rest → step s = exec c { s with pending := rest }) ∧
  (∀ s : State, s.pending = [] → s.dueCommands ≠ [] → s.ready = false ∨ s.mayPass 1 = false →
    ∃ c ∈ s.dueCommands, step s = exec c s.drawn) ∧
  (∀ s : State, s.pending = [] → s.dueCommands ≠ [] → s.ready = true → s.mayPass 1 = true →
    (∃ c ∈ s.dueCommands, step s = exec c s.drawn) ∨ step s = .next (s.drawn.passTime 1)) ∧
  (∀ s : State, s.pending = [] → s.dueCommands = [] → s.ready = true → step s = .next (s.drawn.passTime 1)) ∧
  (∀ s : State, s.pending = [] → s.phase = .held → step s = .next s) ∧
  (∀ s : State, s.drawn = { s with choices := s.choices + 1 }) ∧
  (∀ s : State, (s.phase = .held → s.dueCommands = []) ∧ (s.phase = .clearing → s.dueCommands = [.startUpClearingDone]) ∧
    (s.phase = .ready → ∀ c, c ∈ s.dueCommands ↔ IsDue s c)) ∧
  (∀ (s : State) (n : Nat), s.mayPass n = true ↔ n = 0 ∨
    (s.nextCell = none ∧ (∀ x ∈ s.notices, ∃ tag r, x = .cause tag r) ∧ n ≤ s.sampleLeft ∧ n ≤ s.pageLeft ∧
      ∀ now k c, TimedRow s now k c → n ≤ k)) ∧
  (∀ s : State, s.clock = BitVec.ofNat 32 (s.periods / 8)) ∧
  (∀ (s : State) (n : Nat), s.passTime n =
    { s with
      periods := s.periods + n
      samplesOwed := s.samplesOwed + n
      pagesOwed := s.pagesOwed + (s.periods % 160 + n) / 160
      floor := { s.floor with courtesy := s.floor.courtesy.map (· - n) }
      key := { s.key with
        recovery := s.key.recovery.map (· - n)
        grant := s.key.grant.map fun g =>
          { g with
            keySamples := if g.state ∈ [.keyed, .drain, .tail, .idSending] then g.keySamples + n else g.keySamples
            changeoverLeft := g.changeoverLeft.map (· - n), gap1Left := g.gap1Left.map (· - n)
            gap2Left := g.gap2Left.map (· - n), prebufferLeft := g.prebufferLeft.map (· - n)
            tailLeft := g.tailLeft.map (· - n)
            busyWait := match g.busyWait with | .running k => .running (k - n) | .off => .off | .expired => .expired } }
      playout := { s.playout with boundary := s.playout.boundary.map (· - n), dacBlock := s.playout.dacBlock.drop n }
      ident := { s.ident with
        quiet := match s.ident.quiet with | .running k => .running (k - n) | .stopped => .stopped | .expired => .expired
        position := s.ident.position.map (· + n)
        phase := if s.ident.position = none then s.ident.phase
          else s.ident.phase + BitVec.ofNat 16 (n * ((8192 * s.params.idTone + 500) / 1000)) }
      supervisor := { s.supervisor with
        qualification := s.supervisor.qualification.map fun q => { q with left := q.left - n }
        releaseTimer := s.supervisor.releaseTimer.map (· - n) } })

/-- A reset, by RESET# or by a CONTROL write with bit 15 set, gives every block its reset values; PTT is released and CHSEL 0
with them. READY is 0, and for a soft reset the start-up clearing has begun (R172). The samples and pages owed, the word last
driven, the counts of notices and the moment of the last timeout are the model's own fields (log entries 7, 35, 36 and 37). -/
def Obligations.ResetGivesEveryBlockItsResetValues : Prop :=
  (∀ s : State, ∃ t, exec .hardwareReset s = .next t ∧ HoldsResetValues t ∧ t.phase = .held ∧ ResetKeeps s t) ∧
  (∀ (s : State) (v : Word), s.ready = true → v.getLsbD 15 = true →
    ∃ t, exec (.softReset v) s = .next t ∧ HoldsResetValues t ∧ t.phase = .clearing ∧ ResetKeeps s t)

/-- The release of RESET# begins the start-up clearing; the clearing's end makes the part ready, with the DISABLE state taken
from the input, the station clock at 0, and the whole exchange memory as R34, R172 and R173 have it. That the clearing is done
in the event that ends it, and that the first page shows DISABLE RELEASED, are the model's choices (log entries 17 and 15). -/
def Obligations.StartUpMakesThePartReady : Prop :=
  (∀ s : State, s.phase = .held → exec .resetRelease s =
    .next { s with phase := .clearing, supervisor := { s.supervisor with txfaultActive := s.txfaultPin } }) ∧
  (∀ s : State, s.phase = .clearing → HoldsResetValues s →
    ∃ t, exec .startUpClearingDone s = .next t ∧ t.phase = .ready ∧ t.periods = 0 ∧ t.memoryLaw ∧
      (∀ a, t.read a = startUpWord a) ∧ (∀ n, (t.session n).changeCount = 2) ∧ t.bus = { s.bus with pageCount := 2 } ∧
      t.supervisor = { s.supervisor with disable := if s.disablePin then .asserted else .released } ∧
      OnlyChanges [.phase, .supervisor, .mem, .changeCounts, .bus] s t)

/-- While STATUS.READY is 0, host writes to the registers and the exchange memory are ignored and not counted, a soft reset
and attention calls included, and reads of ANSWERED and NEWS return 0 (R172). -/
def Obligations.AccessesBeforeReadyAreIgnored : Prop :=
  ∀ s : State, s.ready = false →
    (∀ c : Instr, (∃ v, c = .attentionWrite v ∨ c = .stationCellCall v ∨ c = .interruptEnableWrite v ∨ c = .softReset v ∨
        c = .eventEnableWrite v ∨ c = .eventsClear v ∨ ∃ a, c = .readOnlyRegisterWrite a v ∨ c = .hostMemoryWrite a v) →
      exec c s = .next s) ∧
    exec .answeredRead s = .next (s.withBus { s.bus with data := 0 }) ∧
    exec .newsRead s = .next (s.withBus { s.bus with data := 0 })

/-- A write to ATTENTION calls the session cells its bits name, and a write to CONTROL with bit 0 set (and bit 15 clear) calls
the station cell; the CONTROL write also replaces both enable bits (R163, R168). The cell served next is cell 0 where it
waits, and otherwise the first waiting session cell after the pointer, round again from 1 (R164). -/
def Obligations.AttentionCallsTheNamedCells : Prop :=
  (∀ (s : State) (v : Word), s.ready = true → s.memoryLaw →
    ∃ t, exec (.attentionWrite v) s = .next t ∧
      CallsCells (fun c => match cellSlot c with | none => false | some n => v.getLsbD n.val) s t ∧
      OnlyChanges [.cells, .events, .mem] s t) ∧
  (∀ (s : State) (v : Word), s.ready = true → s.memoryLaw → v.getLsbD 0 = true → v.getLsbD 15 = false →
    ∃ t, exec (.stationCellCall v) s = .next t ∧ CallsCells (fun c => c == 0) s t ∧
      t.bus.plain = { s.bus.plain with answerEnable := v.getLsbD 1, newsEnable := v.getLsbD 2 } ∧
      OnlyChanges [.cells, .events, .bus, .mem] s t) ∧
  (∀ s : State,
    let ahead := fun n : Slot => (n.val + 15 - s.cells.pointer.val) % 16
    (s.nextCell = none ↔ ∀ c : Cell, s.cells.waiting[c] = false) ∧
    (s.nextCell = some 0 ↔ s.cells.waiting[(0 : Cell)] = true) ∧
    (∀ n : Slot, s.nextCell = some n.cell ↔ s.cells.waiting[(0 : Cell)] = false ∧ s.cells.waiting[n.cell] = true ∧
      ∀ k : Slot, s.cells.waiting[k.cell] = true → ahead n ≤ ahead k))

/-- The other register accesses (R168–R170): a write to CONTROL stores its two enable bits, EVENT_ENABLE its bits 0–12, EVENTS
clears the bits written 1, a read-only register counts the write and sets EVENTS.ABNORMAL, and above 8007h a write is ignored.
A read of ANSWERED or NEWS returns its bits and clears every bit it returned, in the read's event. What a host read of any
address returns (R160, R168, R172): once READY the registers of the table, the words of the exchange memory, and 0 above
8007h; during the start-up clearing IDENT and STATUS alone, and while RESET# is asserted 0 at every address. The word a read
drives is kept in State (log entry 22), and the reads that have no effect have no row and are described by what they return
alone (log entry 32). -/
def Obligations.RegistersActAsTheRegisterTableSays : Prop :=
  (∀ (s : State) (v : Word), s.ready = true →
    (v.getLsbD 0 = false → v.getLsbD 15 = false → exec (.interruptEnableWrite v) s =
      .next (s.withBus { s.bus with answerEnable := v.getLsbD 1, newsEnable := v.getLsbD 2 })) ∧
    exec (.eventEnableWrite v) s = .next (s.withBus { s.bus with eventEnable := v &&& 0x1FFF }) ∧
    exec (.eventsClear v) s = .next (s.withBus { s.bus with events := s.bus.events &&& ~~~v }) ∧
    (∀ a ∈ [(0x8000 : Word), 0x8001, 0x8004, 0x8005], exec (.readOnlyRegisterWrite a v) s =
      .next (s.withBus { s.bus with
        writeToReadOnly := min 65535 (s.bus.writeToReadOnly + 1), events := s.bus.events ||| bitWord 10 })) ∧
    (∀ a : Word, 0x8007 < a.toNat → exec (.readOnlyRegisterWrite a v) s = .next s) ∧
    exec .answeredRead s = .next (s.withBus { s.bus with data := s.bus.answered, answered := 0 }) ∧
    exec .newsRead s = .next (s.withBus { s.bus with data := s.bus.news, news := 0 })) ∧
  (∀ s : State,
    (s.phase = .held → ∀ a, s.readWord a = 0) ∧
    (s.phase ≠ .held → s.readWord 0x8000 = 0x5A24 ∧ s.readWord 0x8001 = s.status) ∧
    (s.phase = .clearing → ∀ a, a ≠ 0x8000 → a ≠ 0x8001 → s.readWord a = 0) ∧
    (s.phase = .ready →
      s.readWord 0x8002 = word (2 * s.bus.answerEnable.toNat + 4 * s.bus.newsEnable.toNat) ∧ s.readWord 0x8003 = 0 ∧
      s.readWord 0x8004 = s.bus.answered ∧ s.readWord 0x8005 = s.bus.news ∧ s.readWord 0x8006 = s.bus.events ∧
      s.readWord 0x8007 = s.bus.eventEnable ∧ (∀ a : Word, a.toNat < 0x8000 → s.readWord a = s.read a.toNat) ∧
      ∀ a : Word, 0x8007 < a.toNat → s.readWord a = 0))

/-- INT# (R170), and the STATUS bits (R168), follow the registers and the owners' state. PTT is forbidden while the run state
is STOPPED, the lockout flag is set, DISABLE is not RELEASED, or READY is 0 (R61). -/
def Obligations.InterruptAndStatusFollowTheirOwners : Prop :=
  ∀ s : State,
    (s.interrupt = true ↔ (∃ i, i < 16 ∧ s.bus.events.getLsbD i = true ∧ s.bus.eventEnable.getLsbD i = true) ∨
      (s.bus.answered ≠ 0 ∧ s.bus.answerEnable = true) ∨ (s.bus.news ≠ 0 ∧ s.bus.newsEnable = true)) ∧
    (s.status.getLsbD 0 = true ↔ s.phase = .ready) ∧ s.status.getLsbD 1 = s.supervisor.running ∧
    (s.status.getLsbD 2 = true ↔ s.supervisor.lockout ≠ none) ∧
    (s.status.getLsbD 3 = true ↔ s.supervisor.disable = .asserted ∨ s.supervisor.disable = .releasing) ∧
    s.status.getLsbD 4 = s.key.ptt ∧ s.status.getLsbD 5 = s.floor.hold ∧
    s.status.getLsbD 6 = s.supervisor.txfaultActive ∧ s.status.getLsbD 7 = s.interrupt ∧
    (∀ i, 8 ≤ i → s.status.getLsbD i = false) ∧
    (s.pttForbidden = true ↔ s.supervisor.running = false ∨ s.supervisor.lockout ≠ none ∨ s.supervisor.disable ≠ .released ∨
      s.phase ≠ .ready)

/-- A host write of an exchange-memory word stores it, and does nothing else (R160), unless it completes PREBUFFER (R69),
which `Obligations.PrebufferEndsInKeyUpOrNoAudio` is about. A word stored is read back, and every other word and every other
part stands as it was. The state words that a write may complete it with are those of the 64 transmit places (R85). -/
def Obligations.HostMemoryWritesStoreOneWord : Prop :=
  (∀ (s : State) (a v : Word), s.ready = true → a.toNat < 0x8000 →
    (isTxState a.toNat = true → ∀ g, s.key.grant = some g → g.state = .prebuffer →
      ¬ (s.write a.toNat v).prebuffered g.tag) →
    exec (.hostMemoryWrite a v) s = .next (s.write a.toNat v)) ∧
  (∀ (s : State) (a b : Nat) (v : Word), s.memoryLaw → (s.write a v).memoryLaw ∧
    (s.write a v).read b = (if b = a then v else s.read b) ∧ OnlyChanges [.mem] s (s.write a v)) ∧
  (∀ a : Nat, isTxState a = true ↔ ∃ i, i < 64 ∧ a = 0x1000 + 168 * i)

/-! ## The requests -/

/-- In the station cell, NOP is answered DONE, and a kind that is no station kind BAD_REQUEST, with no other effect; in the
cell of an OPEN session, KEEPALIVE is answered DONE with the period the gate applied, and a kind that is no session kind
BAD_REQUEST, after the gate (R20, R26, R166). Which request each kind code names in a cell of either type, the command that
serves each request, and the code of each answer are those of the tables of 11.2; an answer other than DONE and QUEUED carries
no answer words (R165, R166). -/
def Obligations.NopKeepaliveAndUndefinedRequestsAreAnswered : Prop :=
  (∀ s : State, s.memoryLaw → s.serves 0 .nop →
    ∃ t, exec .nop s = .next t ∧ OnlyAnswers 0 (.plain .done) s t) ∧
  (∀ s : State, s.memoryLaw → s.serves 0 .undefinedRequest →
    ∃ t, exec .undefinedRequest s = .next t ∧ OnlyAnswers 0 (.plain .badRequest) s t) ∧
  (∀ (s : State) (n : Slot), s.memoryLaw → s.servesOpen n .undefinedRequest →
    ∃ t, exec .undefinedRequest s = .next t ∧ OnlyNotedAndAnswers n (.plain .badRequest) s t) ∧
  (∀ (s : State) (n : Slot), s.memoryLaw → s.servesOpen n .keepalive →
    ∃ t, exec .keepalive s = .next t ∧
      OnlyNotedAndAnswers n { code := .done, clamped := false, words := [word (s.periodFor n)] } s t) ∧
  (∀ s : State, s.requestIn 0 =
    [.undefinedRequest, .nop, .start, .stop, .holdFloor, .resumeFloor, .setStation, .setMember, .readMember, .setChannel,
      .readChannel, .refill, .openSession, .closeSession, .clearLockout, .kill, .detectorHold, .detectorRelease].getD
      (s.read 0x101).toNat .undefinedRequest) ∧
  (∀ (s : State) (n : Slot),
    let kind := (s.read (0x101 + 64 * n.number)).toNat
    s.requestIn n.cell = if kind < 0x20 then .undefinedRequest else
      [.keepalive, .key, .release, .preempt, .killFromSession, .clearLockoutFromSession, .eject, .holdFloorFromSession,
        .resumeFloorFromSession].getD (kind - 0x20) .undefinedRequest) ∧
  (∀ now : Bool,
    [Request.nop, .start, .stop, .holdFloor, .resumeFloor, .setStation, .setMember, .readMember, .setChannel, .readChannel,
      .refill, .openSession, .closeSession, .clearLockout, .kill, .detectorHold, .detectorRelease, .keepalive, .key, .release,
      .preempt, .killFromSession, .clearLockoutFromSession, .eject, .holdFloorFromSession, .resumeFloorFromSession,
      .undefinedRequest].map (·.command now) =
    [Instr.nop, .start, .stop now, .holdFloor, .resumeFloor, .setStation, .setMember, .readMember, .setChannel, .readChannel,
      .refill, .openSession, .closeSession, .clearLockout, .kill now, .detectorHold, .detectorRelease, .keepalive, .key,
      .release, .preempt now, .killFromSession now, .clearLockoutFromSession, .eject, .holdFloorFromSession,
      .resumeFloorFromSession, .undefinedRequest]) ∧
  ([AnswerCode.done, .queued, .badRequest, .badValue, .notPermitted, .stopped, .lockedOut, .noBudget, .already, .notHolding,
      .sessionLost, .sessionFree, .inUse, .duplicate, .busy].map (·.code) = List.range 15 ∧
    ∀ a : Answer, a.codeWord = word (a.code.code + 256 * a.clamped.toNat) ∧
      (a.code.carriesWords = true ↔ a.code = .done ∨ a.code = .queued))

/-- The session gate (R20): any request from the cell of a FREE or LOST session is answered SESSION_FREE or SESSION_LOST with
no other effect. For an OPEN session the gate counts the request and resets the deadline, and does nothing else, with the
holder's surveillance period for a session whose grant is in KEYED, DRAIN or TAIL, and the surveillance period for any other
(R27). -/
def Obligations.TheGateTurnsAwayFreeAndLostSessions : Prop :=
  (∀ (s : State) (n : Slot) (r : Request) (now : Bool), r.ofSession = true → s.memoryLaw → s.serves n.cell r →
    ((s.session n).state = .free →
      ∃ t, exec (r.command now) s = .next t ∧ OnlyAnswers n.cell (.plain .sessionFree) s t) ∧
    ((s.session n).state = .lost →
      ∃ t, exec (r.command now) s = .next t ∧ OnlyAnswers n.cell (.plain .sessionLost) s t)) ∧
  (∀ (s : State) (n : Slot), (s.session n).state = .opened →
    Noted s (s.gated n) n ∧ (∀ k, ((s.gated n).session k).changeCount = (s.session k).changeCount) ∧
      OnlyChanges [.sessions] s (s.gated n)) ∧
  (∀ (s : State) (n : Slot), s.periodFor n =
    if ∃ g, s.key.grant = some g ∧ g.session = some n ∧ g.state ∈ [.keyed, .drain, .tail] then s.params.holderSurveillance
    else s.params.surveillance)

/-- A control operator's request from the session of any other member is answered NOT_PERMITTED, after the gate (R24, R53,
R54, R55, R140, R141). -/
def Obligations.OperatorRequestsAreRefusedToOtherMembers : Prop :=
  ∀ (s : State) (n : Slot) (r : Request) (now : Bool), r.ofOperator = true → s.memoryLaw → s.servesOpen n r →
    ¬ s.operatorSession n →
    ∃ t, exec (r.command now) s = .next t ∧ OnlyNotedAndAnswers n (.plain .notPermitted) s t

/-- HOLD FLOOR sets the hold flag and is answered DONE, or ALREADY where it is set, from the station cell and from a control
operator's session cell (R53). -/
def Obligations.HoldFloorSetsTheHoldFlag : Prop :=
  (∀ s : State, s.memoryLaw → s.serves 0 .holdFloor →
    ∃ t, exec .holdFloor s = .next t ∧
      if s.floor.hold then OnlyAnswers 0 (.plain .already) s t
      else Served s t 0 (.plain .done) ∧ t.floor = { s.floor with hold := true } ∧ ServiceFrame 0 [.floor] noWord s t ∧
        t.bus.events = s.bus.events ||| bitWord 0) ∧
  (∀ (s : State) (n : Slot), s.memoryLaw → s.servesOpen n .holdFloorFromSession → s.operatorSession n →
    ∃ t, exec .holdFloorFromSession s = .next t ∧
      if s.floor.hold then OnlyNotedAndAnswers n (.plain .already) s t
      else Served s t n.cell (.plain .done) ∧ Noted s t n ∧ t.floor = { s.floor with hold := true } ∧
        ServiceFrame n.cell [.sessions, .floor] noWord s t ∧ t.bus.events = s.bus.events)

/-- RESUME FLOOR clears the hold flag, is answered DONE and makes an arbitration, or is answered ALREADY where the flag is
clear, from the station cell and from a control operator's session cell (R54). -/
def Obligations.ResumeFloorClearsTheHoldFlagAndArbitrates : Prop :=
  (∀ s : State, s.memoryLaw → s.serves 0 .resumeFloor →
    ∃ t, exec .resumeFloor s = .next t ∧
      if s.floor.hold then
        t.floor.hold = false ∧
        ServesTo 0 (.plain .done) arbitrationParts (inFilled s) s (arbitrate (s.withFloor { s.floor with hold := false })) t
      else OnlyAnswers 0 (.plain .already) s t) ∧
  (∀ (s : State) (n : Slot), s.memoryLaw → s.servesOpen n .resumeFloorFromSession → s.operatorSession n →
    ∃ t, exec .resumeFloorFromSession s = .next t ∧
      if s.floor.hold then
        t.floor.hold = false ∧
        ServesTo n.cell (.plain .done) arbitrationParts (inFilled s) s
          (arbitrate ((s.gated n).withFloor { s.floor with hold := false })) t
      else OnlyNotedAndAnswers n (.plain .already) s t)

/-- START makes a STOPPED station RUNNING, is answered DONE and makes an arbitration; a RUNNING station answers ALREADY
(R137). -/
def Obligations.StartRunsTheStationAndArbitrates : Prop :=
  ∀ s : State, s.memoryLaw → s.serves 0 .start →
    ∃ t, exec .start s = .next t ∧
      if s.supervisor.running then OnlyAnswers 0 (.plain .already) s t
      else t.supervisor = { s.supervisor with running := true } ∧
        ServesTo 0 (.plain .done) (.supervisor :: arbitrationParts) (inFilled s) s
          (arbitrate (s.withSupervisor { s.supervisor with running := true })) t

/-- STOP stops a RUNNING station: PTT drops with EVENTS.PTT_CHANGE where it was asserted, whatever grant exists is sent
STOPPED and, where it takes the cause at once, ends as R82 or R83 has it; a clear notice STOPPED is sent, and the answer is
DONE; a STOPPED station answers ALREADY (R138). The hold flag, the queue, lockout, the fault history and count and DISABLE are
kept. The operand now says whether the end cause is taken at once or stands in flight, which the manual leaves open (log entry
5). -/
def Obligations.StopStopsTheStation : Prop :=
  ∀ (s : State) (now : Bool), s.memoryLaw → s.serves 0 .stop →
    ∃ t, exec (.stop now) s = .next t ∧
      if s.supervisor.running then
        (∃ v, EndsGrantBy .stopped now (s.withSupervisor { s.supervisor with running := false }).pttReleased v ∧
          ServesTo 0 (.plain .done) endParts (endStores s) s (v.withNotices (v.notices ++ [.clear .stopped])) t) ∧
        Served s t 0 (.plain .done) ∧ t.supervisor.running = false ∧ t.key.ptt = false ∧
        t.supervisor.lockout = s.supervisor.lockout ∧ t.supervisor.history = s.supervisor.history ∧
        t.supervisor.faultCount = s.supervisor.faultCount ∧ t.supervisor.disable = s.supervisor.disable ∧
        t.supervisor.releaseTimer = s.supervisor.releaseTimer ∧ t.supervisor.txfaultActive = s.supervisor.txfaultActive ∧
        ServiceFrame 0 endParts (fun a => logPlace s.log a ∨ inFilled s a) s t
      else OnlyAnswers 0 (.plain .already) s t

/-- KILL, from the station cell or a control operator's session cell, in every state: whatever grant exists is sent KILLED
and, where it takes the cause at once, ends as R82 or R83 has it; the lockout flag is set with reason KILLED, EVENTS.LOCKOUT
is set, PTT drops, a clear notice LOCKED_OUT is sent, and the answer is DONE (R139, R140). The operand now says whether the
end cause is taken at once or stands in flight, which the manual leaves open (log entry 5). -/
def Obligations.KillLocksTheStationOut : Prop :=
  (∀ (s : State) (now : Bool), s.memoryLaw → s.serves 0 .kill →
    ∃ t v, exec (.kill now) s = .next t ∧ EndsGrantBy .killed now s v ∧
      ServesTo 0 (.plain .done) endParts (endStores s) s (v.lockedOut .killed) t ∧ Served s t 0 (.plain .done) ∧
      t.supervisor.lockout = some .killed ∧ t.bus.events.getLsbD 3 = true ∧ t.key.ptt = false ∧
      t.supervisor.running = s.supervisor.running ∧
      t.supervisor.history = s.supervisor.history ∧ t.supervisor.faultCount = s.supervisor.faultCount ∧
      ServiceFrame 0 endParts (fun a => logPlace s.log a ∨ inFilled s a) s t) ∧
  (∀ (s : State) (n : Slot) (now : Bool), s.memoryLaw → s.servesOpen n .killFromSession → s.operatorSession n →
    ∃ t v, exec (.killFromSession now) s = .next t ∧ EndsGrantBy .killed now (s.gated n) v ∧
      ServesTo n.cell (.plain .done) endParts (endStores s) s (v.lockedOut .killed) t ∧ Served s t n.cell (.plain .done) ∧
      t.supervisor.lockout = some .killed ∧ t.bus.events.getLsbD 3 = true ∧ t.key.ptt = false ∧
      t.supervisor.running = s.supervisor.running ∧
      t.supervisor.history = s.supervisor.history ∧ t.supervisor.faultCount = s.supervisor.faultCount ∧
      ServiceFrame n.cell endParts (fun a => logPlace s.log a ∨ inFilled s a) s t)

/-- CLEAR LOCKOUT, from the station cell or a control operator's session cell: the flag cleared, the reason absent, the fault
history emptied, the answer DONE, and an arbitration; ALREADY where the flag is clear (R141). -/
def Obligations.ClearLockoutLiftsTheLockout : Prop :=
  (∀ s : State, s.memoryLaw → s.serves 0 .clearLockout →
    ∃ t, exec .clearLockout s = .next t ∧
      if s.supervisor.lockout = none then OnlyAnswers 0 (.plain .already) s t
      else t.supervisor = { s.supervisor with lockout := none, history := [] } ∧
        ServesTo 0 (.plain .done) (.supervisor :: arbitrationParts) (inFilled s) s
          (arbitrate (s.withSupervisor { s.supervisor with lockout := none, history := [] })) t) ∧
  (∀ (s : State) (n : Slot), s.memoryLaw → s.servesOpen n .clearLockoutFromSession → s.operatorSession n →
    ∃ t, exec .clearLockoutFromSession s = .next t ∧
      if s.supervisor.lockout = none then OnlyNotedAndAnswers n (.plain .already) s t
      else t.supervisor = { s.supervisor with lockout := none, history := [] } ∧
        ServesTo n.cell (.plain .done) (.supervisor :: arbitrationParts) (inFilled s) s
          (arbitrate ((s.gated n).withSupervisor { s.supervisor with lockout := none, history := [] })) t)

/-- SET STATION (R167, R175): BUSY while a grant exists; BAD_VALUE for an undefined code of the option word or of the ID text;
otherwise every parameter is written, clamped to its range, and the answer is DONE, with CLAMPED where a number was clamped or
rounded. That the decay code is clamped, and that bits the option word does not name are ignored, are the model's readings
(log entries 28 and 29). -/
def Obligations.SetStationWritesEveryParameter : Prop :=
  ∀ s : State, s.memoryLaw → s.serves 0 .setStation →
    let a := fun i => (s.argument 0 i).toNat
    let within := fun lo hi i => max lo (min hi (a i))
    let o := s.argument 0 29
    let character := fun i => (s.argument 0 (31 + i / 2)).toNat / 256 ^ (i % 2) % 256
    let defined := o.toNat % 4 ≤ 2 ∧ o.getLsbD 3 = false ∧ o.getLsbD 5 = false ∧ o.getLsbD 7 = false ∧ o.getLsbD 9 = false ∧
      a 30 ≤ 16 ∧ ∀ i, i < a 30 → character i ≤ 37
    ∃ t, exec .setStation s = .next t ∧
      (s.key.grant ≠ none → OnlyAnswers 0 (.plain .busy) s t) ∧
      (s.key.grant = none → ¬ defined → OnlyAnswers 0 (.plain .badValue) s t) ∧
      (s.key.grant = none → defined →
        t.params.numbers =
          [within 500 10000 0 / 100 * 100, within 200 3000 1 / 100 * 100, within 0 5000 2, within 0 1000 3, within 0 30000 4,
           within 0 2000 5, within 0 1000 6, within 1 16 7, within 100 2000 8, within (within 1 16 7 + 1) 60 9,
           within 5 250 10, within 1 60 11, within 0 200 12, within 0 1000 13, within 0 500 14, within 0 120 15,
           within 0 100 16, within 10 600 17, within 1 3 18, within 60 900 19, within 5 300 20, within 0 60 21,
           within 40 240 22, within 300 1200 23, within 0 60 24, within 0 3 25, within 0 63 26, within 0 31 27,
           within 0 50 28] ∧
        t.params.busySource = (if o.toNat % 4 = 0 then .s0 else if o.toNat % 4 = 1 then .s1 else .s2) ∧
        t.params.autoIntegrate = o.getLsbD 2 ∧ t.params.cosUse = o.getLsbD 4 ∧ t.params.cosLowActive = o.getLsbD 6 ∧
        t.params.txfaultLowActive = o.getLsbD 8 ∧ t.params.idText = (List.range (a 30)).map character ∧
        Served s t 0
          { code := .done, clamped := decide (t.params.numbers ≠ (List.range 29).map a), words := [] })

/-- What a SET STATION that is answered DONE brings about in its own event: TXFAULT judged anew at the new polarity (R142),
the ID interval compared anew (R125), ID due set or cleared with the ID interval and text (R127), an arbitration where it
becomes due (R45), and nothing else. -/
def Obligations.SetStationActsOnFaultAndIdentification : Prop :=
  ∀ (s : State) (k : StationCodes), s.memoryLaw → s.pttLaw → s.serves 0 .setStation → s.key.grant = none →
    s.stationCodes 0 = some k →
    let p := s.stationParams 0 k
    let active := s.txfaultPin != p.txfaultLowActive
    let reached := s.ident.intervalReached ||
      decide ((s.clock - Clock.plus (s.ident.lastId.getD 0) (1000 * p.idInterval)).toNat < 2 ^ 31)
    let due := !p.idTextEmpty && (s.ident.due || (s.ident.owed && (reached || s.ident.quiet == .expired)))
    let u : State := { s with
      params := p
      supervisor := { s.supervisor with
        txfaultActive := active, qualification := if active then s.supervisor.qualification else none }
      ident := { s.ident with intervalReached := reached, due := due } }
    ∃ t, exec .setStation s = .next t ∧
      ServesTo 0
        { code := .done, clamped := decide (p.numbers ≠ (List.range 29).map fun i => (s.argument 0 i).toNat), words := [] }
        ([.params, .supervisor] ++ arbitrationParts) (inFilled s) s (if due && !s.ident.due then arbitrate u else u) t

/-- SET MEMBER with present yes (R3, R4, R6, R17): the record from the clamped arguments, keeping the penalty end and the two
counts; the remaining budget by R4's table; a privilege notice where the privileges have narrowed; a notice of a changed max
key time of the current holder; DONE, with CLAMPED where an argument was clamped. The two notices stand in flight until their
own rows take them (log entry 1). -/
def Obligations.SetMemberWritesTheRecord : Prop :=
  ∀ (s : State) (m : MemberIx), s.memoryLaw → s.serves 0 .setMember →
    let a := fun i => (s.argument 0 i).toNat
    let trim := s.argument 0 9
    let old := s.member m
    let allowance := min 36000 (a 8)
    a 0 = m.val → a 1 = 1 → a 3 ≤ 1 → a 7 ≤ 1 →
    ∃ t, exec .setMember s = .next t ∧
      t.member m =
        { present := true, grade := max 1 (min 3 (a 2)), controlOperator := decide (a 3 = 1), permitted := s.argument 0 4,
          priority := min 3 (a 5), maxKeyTime := max 10 (min 600 (a 6)), unmetered := decide (a 7 = 1),
          allowance := if a 7 = 1 then none else some allowance,
          remaining := if a 7 = 1 then 0 else if old.present ∧ old.unmetered = false then min old.remaining allowance
            else allowance,
          trim := if trim = 0x8000 then .muted else .steps (max (-12) (min 36 trim.toInt)),
          penaltyEnd := old.penaltyEnd, grantCount := old.grantCount, lostCount := old.lostCount } ∧
      (∀ k, k ≠ m → t.member k = s.member k) ∧
      t.notices = s.notices ++
        (if ((List.range 16).any fun i => old.permitted.getLsbD i && !(s.argument 0 4).getLsbD i) ∨
            max 1 (min 3 (a 2)) < old.grade then [Notice.privilege m] else []) ++
        (if (s.key.grant.any fun g => g.member == some m) ∧ max 10 (min 600 (a 6)) ≠ old.maxKeyTime then [Notice.keyLimit m]
          else []) ∧
      Served s t 0
        { code := .done
          clamped := decide (a 2 = 0 ∨ 3 < a 2 ∨ 3 < a 5 ∨ a 6 < 10 ∨ 600 < a 6 ∨ (a 7 = 0 ∧ 36000 < a 8) ∨
            (trim ≠ 0x8000 ∧ (trim.toInt < -12 ∨ 36 < trim.toInt)))
          words := [] } ∧
      ServiceFrame 0 [.members, .notices] noWord s t ∧ t.bus.events = s.bus.events ||| bitWord 0

/-- SET MEMBER with present no returns the record to its reset values (R2, R5), with a revocation notice where the member was
present and bound to a session, and a notice of a changed max key time where the member holds the grant and the reset value of
10 s is a change (R17), and answers DONE; an index above 63 or an undefined code is answered BAD_VALUE (R3 step 1). That a
removal sends both notices is the model's reading (log entry 11). -/
def Obligations.SetMemberRemovesOrRefuses : Prop :=
  ∀ s : State, s.memoryLaw → s.serves 0 .setMember →
    let a := fun i => (s.argument 0 i).toNat
    (∀ m : MemberIx, a 0 = m.val → a 1 = 0 →
      ∃ t, exec .setMember s = .next t ∧
        t.member m =
          { present := false, grade := 1, controlOperator := false, permitted := 0, priority := 0, maxKeyTime := 10,
            unmetered := false, allowance := some 0, remaining := 0, trim := .steps 0, penaltyEnd := none, grantCount := 0,
            lostCount := 0 } ∧
        (∀ k, k ≠ m → t.member k = s.member k) ∧
        t.notices = s.notices ++
          (if (s.member m).present ∧ ∃ n, (s.session n).state ≠ .free ∧ (s.session n).member = some m then [Notice.revocation m]
            else []) ++
          (if (s.key.grant.any fun g => g.member == some m) ∧ (s.member m).maxKeyTime ≠ 10 then [Notice.keyLimit m] else []) ∧
        Served s t 0 (.plain .done) ∧ ServiceFrame 0 [.members, .notices] noWord s t ∧
        t.bus.events = s.bus.events ||| bitWord 0) ∧
    (64 ≤ a 0 ∨ 2 ≤ a 1 ∨ (a 1 = 1 ∧ (2 ≤ a 3 ∨ 2 ≤ a 7)) →
      ∃ t, exec .setMember s = .next t ∧ OnlyAnswers 0 (.plain .badValue) s t)

/-- READ MEMBER answers DONE with the record as it stands, in the answer words of 11.2 (absent markers FFFFh for the allowance
and a flag bit for the penalty end, R174), BAD_VALUE for an index above 63, and changes nothing (R7). -/
def Obligations.ReadMemberAnswersTheRecord : Prop :=
  ∀ s : State, s.memoryLaw → s.serves 0 .readMember →
    (∀ m : MemberIx, (s.argument 0 0).toNat = m.val →
      let r := s.member m
      let e := r.penaltyEnd.getD 0
      let inForce := r.penaltyEnd.isSome && !decide ((s.clock - e).toNat < 2 ^ 31)
      ∃ t, exec .readMember s = .next t ∧
        OnlyAnswers 0
          { code := .done, clamped := false
            words := [word m.val, word (r.present.toNat + 2 * r.controlOperator.toNat + 4 * r.unmetered.toNat +
                8 * inForce.toNat + 16 * r.penaltyEnd.isSome.toNat), word r.grade, word r.priority, r.permitted,
              word r.maxKeyTime, (match r.allowance with | none => 0xFFFF | some x => word x), word r.remaining,
              (match r.trim with | .muted => 0x8000 | .steps x => BitVec.ofInt 16 x), e.extractLsb' 0 16, e.extractLsb' 16 16,
              word r.grantCount, word r.lostCount] } s t) ∧
    (64 ≤ (s.argument 0 0).toNat → ∃ t, exec .readMember s = .next t ∧ OnlyAnswers 0 (.plain .badValue) s t)

/-- READ CHANNEL answers DONE with the record as it stands and the flag of a channel in use, in the answer words of 11.2,
BAD_VALUE for an index above 15, and changes nothing (R11). -/
def Obligations.ReadChannelAnswersTheRecord : Prop :=
  ∀ s : State, s.memoryLaw → s.serves 0 .readChannel →
    (∀ c : ChannelIx, (s.argument 0 0).toNat = c.val →
      let r := s.channel c
      let inUse := match s.key.grant with | none => false | some g => decide (g.channel = c)
      ∃ t, exec .readChannel s = .next t ∧
        OnlyAnswers 0
          { code := .done, clamped := false
            words := [word c.val, word (r.present.toNat + 2 * r.busyCheck.toNat + 4 * inUse.toNat), word r.radioMemory,
              word r.minGrade, word r.maxKeyTime, word r.attenuation] } s t) ∧
    (16 ≤ (s.argument 0 0).toNat → ∃ t, exec .readChannel s = .next t ∧ OnlyAnswers 0 (.plain .badValue) s t)

/-- SET CHANNEL (R9): BAD_VALUE for an index above 15; BUSY for the current grant's channel; BAD_VALUE for an undefined
present or busy check word; otherwise the record is written from the clamped arguments, or returned to its reset values (R8),
and the answer is DONE, with CLAMPED where an argument was clamped. -/
def Obligations.SetChannelWritesTheRecord : Prop :=
  ∀ s : State, s.memoryLaw → s.serves 0 .setChannel →
    let a := fun i => (s.argument 0 i).toNat
    (16 ≤ a 0 → ∃ t, exec .setChannel s = .next t ∧ OnlyAnswers 0 (.plain .badValue) s t) ∧
    (∀ c : ChannelIx, a 0 = c.val →
      let inUse := ∃ g, s.key.grant = some g ∧ g.channel = c
      let refused := 2 ≤ a 1 ∨ (a 1 = 1 ∧ 2 ≤ a 6)
      ∃ t, exec .setChannel s = .next t ∧
        (inUse → OnlyAnswers 0 (.plain .busy) s t) ∧
        (¬ inUse → refused → OnlyAnswers 0 (.plain .badValue) s t) ∧
        (¬ inUse → ¬ refused →
          t.channel c =
            (if a 1 = 0 then
              { present := false, radioMemory := 0, minGrade := 1, maxKeyTime := 10, attenuation := 0, busyCheck := true }
            else
              { present := true, radioMemory := min 63 (a 2), minGrade := max 1 (min 3 (a 3)),
                maxKeyTime := max 10 (min 600 (a 4)), attenuation := min 60 (a 5), busyCheck := decide (a 6 = 1) }) ∧
          (∀ k, k ≠ c → t.channel k = s.channel k) ∧
          Served s t 0
            { code := .done
              clamped := decide (a 1 = 1 ∧ (63 < a 2 ∨ a 3 = 0 ∨ 3 < a 3 ∨ a 4 < 10 ∨ 600 < a 4 ∨ 60 < a 5)), words := [] } ∧
          ServiceFrame 0 [.channels] noWord s t ∧ t.bus.events = s.bus.events ||| bitWord 0))

/-- REFILL (R14): the named member, or every member for FFFFh, when present and metered, has its remaining budget set to its
allowance; the answer word counts those records; any other argument is answered BAD_VALUE. -/
def Obligations.RefillRestoresBudgets : Prop :=
  ∀ s : State, s.memoryLaw → s.serves 0 .refill →
    let x := s.argument 0 0
    let refilled := fun m : MemberIx =>
      (x == 0xFFFF || x.toNat == m.val) && (s.member m).present && !(s.member m).unmetered
    (x = 0xFFFF ∨ x.toNat < 64 →
      ∃ t, exec .refill s = .next t ∧
        (∀ m, t.member m =
          if refilled m then { s.member m with remaining := (s.member m).allowance.getD 0 } else s.member m) ∧
        Served s t 0 { code := .done, clamped := false, words := [word (allMembers.filter refilled).length] } ∧
        ServiceFrame 0 [.members] noWord s t ∧ t.bus.events = s.bus.events ||| bitWord 0) ∧
    (x ≠ 0xFFFF → 64 ≤ x.toNat → ∃ t, exec .refill s = .next t ∧ OnlyAnswers 0 (.plain .badValue) s t)

/-- OPEN SESSION (R21): BAD_VALUE, IN_USE, NOT_PERMITTED and DUPLICATE in that order; otherwise the slot is OPEN for the
member, with its counters 0, nothing recorded and its deadline one surveillance period ahead, and the answer is DONE. -/
def Obligations.OpenSessionOpensTheSlot : Prop :=
  ∀ s : State, s.memoryLaw → s.serves 0 .openSession →
    let a := fun i => (s.argument 0 i).toNat
    (a 0 = 0 ∨ 16 < a 0 ∨ 64 ≤ a 1 → ∃ t, exec .openSession s = .next t ∧ OnlyAnswers 0 (.plain .badValue) s t) ∧
    (∀ (n : Slot) (m : MemberIx), a 0 = n.number → a 1 = m.val →
      ∃ t, exec .openSession s = .next t ∧
        if (s.session n).state ≠ .free then OnlyAnswers 0 (.plain .inUse) s t
        else if (s.member m).present = false then OnlyAnswers 0 (.plain .notPermitted) s t
        else if ∃ k, (s.session k).state ≠ .free ∧ (s.session k).member = some m then OnlyAnswers 0 (.plain .duplicate) s t
        else
          (t.session n).uncounted =
            { state := .opened, member := some m, deadline := some (Clock.plus s.clock s.params.surveillance),
              lastEndReason := none, lastEndTag := none, requestsTaken := 0, blocksPlayed := 0, stale := 0, late := 0,
              overrun := 0, concealed := 0, counterNotices := 0, changeCount := 0 } ∧
          (∀ k, k ≠ n → (t.session k).uncounted = (s.session k).uncounted) ∧ t.bus.news.getLsbD n.val = true ∧
          Served s t 0 (.plain .done) ∧ ServiceFrame 0 [.sessions] noWord s t ∧ t.bus.events = s.bus.events ||| bitWord 0)

/-- CLOSE SESSION from the station cell (R23) and EJECT from a control operator's session cell (R24): BAD_VALUE for a slot
outside 1–16, ALREADY for a FREE slot; otherwise the slot is closed with CLOSED or EJECTED (R22), which ends its grant as R82
or R83 has it and removes its queue entry, and the answer is DONE. -/
def Obligations.CloseSessionAndEjectCloseTheSlot : Prop :=
  let closed := fun (r : EndReason) (k : Slot) (u v : State) =>
    EndsService k r (u.withSession k { u.session k with state := .free, member := none, deadline := none }) v ∧
    (v.session k).state = .free ∧ (v.session k).member = none ∧ (v.session k).deadline = none
  (∀ s : State, s.memoryLaw → s.pttLaw → s.serves 0 .closeSession →
    let x := (s.argument 0 0).toNat
    (x = 0 ∨ 16 < x → ∃ t, exec .closeSession s = .next t ∧ OnlyAnswers 0 (.plain .badValue) s t) ∧
    (∀ k : Slot, x = k.number →
      ∃ t, exec .closeSession s = .next t ∧
        if (s.session k).state = .free then OnlyAnswers 0 (.plain .already) s t
        else ∃ v, closed .closed k s v ∧ ServesTo 0 (.plain .done) closeParts (endStores s) s v t)) ∧
  (∀ (s : State) (n : Slot), s.memoryLaw → s.pttLaw → s.servesOpen n .eject → s.operatorSession n →
    let x := (s.argument n.cell 0).toNat
    (x = 0 ∨ 16 < x → ∃ t, exec .eject s = .next t ∧ OnlyNotedAndAnswers n (.plain .badValue) s t) ∧
    (∀ k : Slot, x = k.number →
      ∃ t, exec .eject s = .next t ∧
        if (s.session k).state = .free then OnlyNotedAndAnswers n (.plain .already) s t
        else ∃ v, closed .ejected k (s.gated n) v ∧ ServesTo n.cell (.plain .done) closeParts (endStores s) s v t))

/-- KEY's checks in their order (R40): BAD_VALUE for the persist arguments, STOPPED, LOCKED_OUT, ALREADY, NOT_PERMITTED and
NO_BUDGET; a refused KEY changes nothing but what the gate does. -/
def Obligations.KeyIsRefusedInItsOrder : Prop :=
  ∀ (s : State) (n : Slot), s.memoryLaw → s.servesOpen n .key →
    let persist := (s.argument n.cell 1).toNat
    let mayKey := ∃ m c, (s.session n).member = some m ∧ (s.argument n.cell 0).toNat = c.val ∧ s.mayKey m c
    let budget := ∃ m, (s.session n).member = some m ∧ s.hasBudget m
    ∃ t, exec .key s = .next t ∧
      (2 ≤ persist ∨ (persist = 1 ∧ 7 < (s.argument n.cell 2).toNat) → OnlyNotedAndAnswers n (.plain .badValue) s t) ∧
      (persist = 0 ∨ (persist = 1 ∧ (s.argument n.cell 2).toNat ≤ 7) →
        (s.supervisor.running = false → OnlyNotedAndAnswers n (.plain .stopped) s t) ∧
        (s.supervisor.running = true →
          (s.supervisor.lockout ≠ none → OnlyNotedAndAnswers n (.plain .lockedOut) s t) ∧
          (s.supervisor.lockout = none →
            ((s.entryOf n).isSome ∨ s.holds n → OnlyNotedAndAnswers n (.plain .already) s t) ∧
            (s.entryOf n = none → s.holds n = false →
              (¬ mayKey → OnlyNotedAndAnswers n (.plain .notPermitted) s t) ∧
              (mayKey → ¬ budget → OnlyNotedAndAnswers n (.plain .noBudget) s t)))))

/-- A KEY that passes its checks (R40 step 7, R41): an unmarked entry with the member's priority, or 3 for a control operator,
joins the queue; the answer is QUEUED with the place the entry took and its arrival number; and the join is an arbitration
event. The record of each session that the join, or the arbitration after it, has moved is rewritten with NEWS (R33, R39, R41,
R51), one that is moved back and forward again in this event included; the field that counts the notices, and the position
that a skipped entry keeps as the new entry is granted, are the model's own (log entries 35 and 38). -/
def Obligations.KeyJoinsTheQueueAndArbitrates : Prop :=
  ∀ (s : State) (n : Slot) (m : MemberIx) (c : ChannelIx), s.memoryLaw → s.servesOpen n .key →
    (s.argument n.cell 1 = 0 ∨ (s.argument n.cell 1 = 1 ∧ (s.argument n.cell 2).toNat ≤ 7)) →
    s.supervisor.running = true → s.supervisor.lockout = none → s.entryOf n = none → s.holds n = false →
    (s.session n).member = some m → (s.argument n.cell 0).toNat = c.val → s.mayKey m c → s.hasBudget m →
    let e : Entry :=
      { session := n, member := m, channel := c,
        priority := if (s.member m).controlOperator then 3 else (s.member m).priority, arrival := s.floor.arrival + 1,
        retries := if s.argument n.cell 1 = 1 then some (s.argument n.cell 2).toNat else none, marked := false }
    ∃ t j front back, exec .key s = .next t ∧ Joins e (s.gated n) j ∧ j.floor.queue = front ++ e :: back ∧
      ServesTo n.cell { code := .queued, clamped := false, words := [word (front.length + 1), s.floor.arrival + 1] }
        (.sessions :: arbitrationParts) (inFilled s) s (arbitrate j) t ∧
      NewsOfMoved s.floor j.floor s t ∧ NewsOfMoved j.floor t.floor s t

/-- RELEASE (R42, R76, R77): before key-up the grant ends CANCELLED without keying; in KEYED it begins its drain, which is
over at once where the final count is at or behind the playout position; in DRAIN and TAIL the answer is ALREADY; a queued
session's entry leaves CANCELLED; otherwise the answer is NOT_HOLDING, but ALREADY where the session's grant has ended TIMEOUT
at this very moment (R76) and TIMEOUT is still its last end reason: a slot reopened since then, or a claim made and ended since
then, is answered NOT_HOLDING (R42). That a RELEASE and a timeout meet where their moments are the same, and until the slot is
opened again or another claim ends, is the model's reading (log entry 37). -/
def Obligations.ReleaseEndsTheClaimInEveryState : Prop :=
  ∀ (s : State) (n : Slot), s.memoryLaw → s.servesOpen n .release →
    let final := if s.argument n.cell 0 = 1 then some (s.argument n.cell 1) else none
    let timedOutNow := s.key.timedOut = some (n, s.periods) ∧ (s.session n).lastEndReason = some .timeout
    ∃ t, exec .release s = .next t ∧
      (s.grantOf n = none → s.entryOf n = none → ¬ timedOutNow → OnlyNotedAndAnswers n (.plain .notHolding) s t) ∧
      (s.grantOf n = none → s.entryOf n = none → timedOutNow → OnlyNotedAndAnswers n (.plain .already) s t) ∧
      (s.grantOf n = none → (s.entryOf n).isSome →
        ∃ v, Departs n .cancelled (s.gated n) v ∧ v.floor = s.floor.without n ∧ v.floor.queue = s.queueWithout n ∧
          v.ident = { s.ident with quiet := quietAfter s (s.queueWithout n) } ∧
          ServesTo n.cell (.plain .done) [.sessions, .floor, .ident] noWord s v t) ∧
      (∀ g, s.grantOf n = some g →
        (g.state.onAir = false → ∃ v, PreKeyEnds g .cancelled (s.gated n) v ∧ v.log = s.log ∧
          v.bus.events = s.bus.events ∧ ServesTo n.cell (.plain .done) (.sessions :: endParts) (endStores s) s v t) ∧
        (g.state = .keyed →
          let d : Grant :=
            { g with state := .drain, finalCount := final, endReason := some (g.endReason.getD .released) }
          let u := (s.gated n).withPlayout { s.playout with drainCount := 0 }
          ∃ v, ServesTo n.cell (.plain .done) (.sessions :: endParts) (endStores s) s v t ∧
            if ∃ f, final = some f ∧ atOrBehind f s.playout.position = true then EntersTail false d u v
            else v = u.withGrant (some d)) ∧
        (g.state = .drain ∨ g.state = .tail → OnlyNotedAndAnswers n (.plain .already) s t))

/-- PREEMPT of a control operator's session (R55, R56): ALREADY, STOPPED, LOCKED_OUT, NOT_PERMITTED and NO_BUDGET in that
order; otherwise whatever grant exists is sent PREEMPTED and, where it takes the cause at once, ends as R82 or R83 has it; the
session's own entry is replaced by a marked entry at the very front, the answer is QUEUED with position 1 and the arrival
number, and the join is an arbitration event. The record of each session that the replacement, the join or the arbitration has
moved is rewritten with NEWS (R33, R39, R51), one that is moved back and forward again in this event included; the field that
counts the notices is the model's own (log entry 35). The operand now says whether the end cause is taken at once or stands in
flight, which the manual leaves open (log entry 5). -/
def Obligations.PreemptEndsTheGrantAndTakesTheFront : Prop :=
  ∀ (s : State) (n : Slot) (now : Bool), s.memoryLaw → s.servesOpen n (.preempt) → s.operatorSession n →
    let mayKey := ∃ m c, (s.session n).member = some m ∧ (s.argument n.cell 0).toNat = c.val ∧ s.mayKey m c
    let budget := ∃ m, (s.session n).member = some m ∧ s.hasBudget m
    ∃ t, exec (.preempt now) s = .next t ∧
      (s.holds n = true → OnlyNotedAndAnswers n (.plain .already) s t) ∧
      (s.holds n = false → s.supervisor.running = false → OnlyNotedAndAnswers n (.plain .stopped) s t) ∧
      (s.holds n = false → s.supervisor.running = true → s.supervisor.lockout ≠ none →
        OnlyNotedAndAnswers n (.plain .lockedOut) s t) ∧
      (s.holds n = false → s.supervisor.running = true → s.supervisor.lockout = none →
        (¬ mayKey → OnlyNotedAndAnswers n (.plain .notPermitted) s t) ∧
        (mayKey → ¬ budget → OnlyNotedAndAnswers n (.plain .noBudget) s t) ∧
        (∀ m c, (s.session n).member = some m → (s.argument n.cell 0).toNat = c.val → s.mayKey m c → s.hasBudget m →
          let e : Entry :=
            { session := n, member := m, channel := c, priority := 3, arrival := s.floor.arrival + 1, retries := none,
              marked := true }
          ∃ i j, EndsGrantBy .preempted now (s.gated n) i ∧ OnlyChanges [.floor, .ident] i j ∧
            j.ident = { i.ident with quiet := .stopped } ∧
            j.floor = { (s.floor.without n).withQueue (e :: s.queueWithout n) with arrival := s.floor.arrival + 1 } ∧
            ServesTo n.cell { code := .queued, clamped := false, words := [1, s.floor.arrival + 1] } closeParts (endStores s) s
              (arbitrate j) t ∧
            NewsOfMoved s.floor (s.floor.without n) s t ∧ NewsOfMoved (s.floor.without n) j.floor s t ∧
            NewsOfMoved j.floor t.floor s t))

/-- DETECTOR HOLD (R120) zeroes both filters, forms the levels, the statuses, raw busy and the debounce anew, and adds the
request source; DETECTOR RELEASE (R121) removes it; each is answered DONE, or ALREADY where the source is, or is not, there.
That a run's count already at 8·D takes raw busy in the HOLD's own event, and that raw busy is formed in it with the COS use
and the D that stand, also after a SET STATION and before any evaluated sample, where R122 speaks of the first evaluated
sample in its text and of the next raw busy formation in its table, are the model's readings (log entry 24).
That a first key-up event is not made where PTT has been allowed again but a Supervisor's end cause waits is the model's
reading of R136 (log entry 39). -/
def Obligations.DetectorHoldAndReleaseMoveTheRequestSource : Prop :=
  (∀ s : State, s.memoryLaw → s.serves 0 .detectorHold →
    let d := s.detector
    let raw := s.params.cosUse && d.cos
    let count := d.run.getD 0
    let flips := raw != d.debounced && decide (8 * s.params.debounce ≤ count)
    let d' : Detector :=
      { speech := 0, noise := 0, levelS := 0, levelN := 0, s0 := false, s1 := false, s2 := false, previousS1 := false,
        cos := d.cos, rawBusy := raw, debounced := if flips then raw else d.debounced,
        run := if raw = d.debounced ∨ flips then none else some count, holds := { d.holds with request := true } }
    ∃ t, exec .detectorHold s = .next t ∧
      if d.holds.request then OnlyAnswers 0 (.plain .already) s t
      else ∃ w v, w.detector = d' ∧ OnlyChanges [.detector, .events] s w ∧
        w.bus.events = s.bus.events ||| (if d.s0 ∨ d.s1 ∨ d.s2 then bitWord 7 else 0) ||| (if flips then bitWord 6 else 0) ∧
        (if flips then MeetsBusyChange w v else v = w) ∧
        ServesTo 0 (.plain .done) courseParts (inFilled s) s v t) ∧
  (∀ s : State, s.memoryLaw → s.serves 0 .detectorRelease →
    ∃ t, exec .detectorRelease s = .next t ∧
      if s.detector.holds.request then
        t.detector = { s.detector with holds := { s.detector.holds with request := false } } ∧
        Served s t 0 (.plain .done) ∧ ServiceFrame 0 [.detector] noWord s t ∧ t.bus.events = s.bus.events ||| bitWord 0
      else OnlyAnswers 0 (.plain .already) s t)

/-! ## The inputs, the samples and the page -/

/-- A change of the TXFAULT input (R142–R144). While the part is ready: TXFAULT active is judged at the programmed level;
going inactive abandons a qualification; going active while PTT is asserted begins one, or with a qualify time of 0 is a
qualified fault; and nothing else changes. During the start-up clearing it is judged, and while RESET# is asserted only the
input changes. The time a qualification has still to run is the model's own field (log entry 25). With a qualify time of 0,
two faults of one millisecond stand in the history once, as R135 has it, where R145 appends each (log entry 26). The operand
now is of log entry 5. -/
def Obligations.TxfaultChangeIsJudgedAndQualifies : Prop :=
  ∀ (s : State) (high now : Bool), s.memoryLaw →
    let active := high != s.params.txfaultLowActive
    let begins := active && s.key.ptt && !s.supervisor.qualifiedThisKeying && s.supervisor.qualification.isNone
    let judged : State := { s with txfaultPin := high, supervisor := { s.supervisor with txfaultActive := active } }
    (s.phase = .held → exec (.txfaultChange high now) s = .next { s with txfaultPin := high }) ∧
    (s.phase = .clearing → s.key.ptt = false → s.supervisor.qualification = none →
      exec (.txfaultChange high now) s = .next judged) ∧
    (s.ready = true → begins = false → exec (.txfaultChange high now) s = .next
      (if active then judged
        else judged.withSupervisor { s.supervisor with txfaultActive := false, qualification := none })) ∧
    (s.ready = true → begins = true → s.params.faultQualify ≠ 0 → exec (.txfaultChange high now) s = .next
      (judged.withSupervisor { s.supervisor with
        txfaultActive := true, qualification := some { since := s.clock, left := 8 * s.params.faultQualify } })) ∧
    (s.ready = true → begins = true → s.params.faultQualify = 0 →
      ∃ t v, exec (.txfaultChange high now) s = .next t ∧ QualifiesFault now judged v ∧
        v.supervisor.txfaultActive = true ∧ EventTo endParts (endStores s) judged v t)

/-- A qualification that comes to the fault qualify time is a qualified fault (R143–R145). The time the event takes to come is
the model's (log entry 2), two faults of one millisecond stand in the history once, as R135 has it (log entry 26), and the
operand now is of log entry 5. -/
def Obligations.QualificationExpiryIsAQualifiedFault : Prop :=
  ∀ (s : State) (n : Nat) (now : Bool), s.memoryLaw →
    s.comesNext (fun x => x.supervisor.qualification.map (·.left)) n →
    ∃ t v, exec (.qualificationExpiry now) s = .next t ∧ QualifiesFault now (s.passTime n) v ∧
      v.supervisor.running = s.supervisor.running ∧ v.supervisor.disable = s.supervisor.disable ∧
      EventTo endParts (endStores s) (s.passTime n) v t

/-- DISABLE (R146–R148). Going active in RELEASED: the state is ASSERTED, EVENTS.DISABLE_CHANGE is set, PTT drops with
EVENTS.PTT_CHANGE where it was asserted, and whatever grant exists is sent DISABLED and, where it takes the cause at once,
ends as R82 or R83 has it; in RELEASING the release timer is abandoned; otherwise only the input changes. Going inactive in
ASSERTED starts the 100 ms release, and the release timer's expiry completes it: EVENTS.DISABLE_CHANGE and an arbitration. The
time the expiry takes to come is the model's (log entry 2), and the operand now is of log entry 5. -/
def Obligations.DisableStopsAndReleasesTheTransmitter : Prop :=
  (∀ (s : State) (now : Bool), s.memoryLaw →
    let u : State := { s with disablePin := true }
    (s.ready = false ∨ s.supervisor.disable = .asserted → exec (.disableAssert now) s = .next u) ∧
    (s.ready = true → s.supervisor.disable = .releasing → exec (.disableAssert now) s = .next
      (u.withSupervisor { s.supervisor with disable := .asserted, releaseTimer := none })) ∧
    (s.ready = true → s.supervisor.disable = .released →
      ∃ t v, exec (.disableAssert now) s = .next t ∧ v.supervisor.disable = .asserted ∧ v.key.ptt = false ∧
        v.bus.events.getLsbD 5 = true ∧
        EndsGrantBy .disabled now
          ((u.withSupervisor { s.supervisor with disable := .asserted }).raise .disableChange).pttReleased v ∧
        v.supervisor.running = s.supervisor.running ∧
        v.supervisor.lockout = s.supervisor.lockout ∧ v.supervisor.history = s.supervisor.history ∧
        EventTo endParts (endStores s) u v t)) ∧
  (∀ s : State,
    let u : State := { s with disablePin := false }
    (s.ready = false ∨ s.supervisor.disable ≠ .asserted → exec .disableReleaseBegin s = .next u) ∧
    (s.ready = true → s.supervisor.disable = .asserted → exec .disableReleaseBegin s = .next
      (u.withSupervisor { s.supervisor with disable := .releasing, releaseTimer := some 800 }))) ∧
  (∀ (s : State) (n : Nat), s.memoryLaw → s.comesNext (fun x => x.supervisor.releaseTimer) n →
    let u := s.passTime n
    let w := (u.withSupervisor { u.supervisor with disable := .released, releaseTimer := none }).raise .disableChange
    ∃ t, exec .releaseTimerExpiry s = .next t ∧ t.supervisor = w.supervisor ∧ t.bus.events.getLsbD 5 = true ∧
      EventTo (.supervisor :: arbitrationParts) (inFilled s) u (arbitrate w) t)

/-- What a receive sample does at the Busy Detector (R111–R118). A held detector keeps every figure. Otherwise the filters
move toward 256·|x|, the levels and statuses are formed, raw busy from the selected status and COS, and debounced busy changes
when the run of differing samples reaches 8·D; a change meets a waiting grant. EVENTS.DETECTOR_CHANGE and EVENTS.BUSY_CHANGE
are set as they change, and a capture boundary sets EVENTS.RX_READY or EVENTS.RX_OVERFLOW (R109). The three rows of a sample
are the same event, DEBOUNCE_COMPLETE where the sample changes debounced busy. The next sample comes 125 µs after the last, or
at once where one is owed (R107). That the three rows are one event, that COS comes with the sample and the time it takes to
come are the model's choices (log entries 14, 22 and 2).
That a first key-up event is not made where PTT has been allowed again but a Supervisor's end cause waits is the model's
reading of R136 (log entry 39). -/
def Obligations.AReceiveSampleIsDetected : Prop :=
  (∀ s : State, s.sampleLeft = if s.samplesOwed = 0 then 1 else 0) ∧
  (∀ (s : State) (x : Word) (high : Bool), completesDebounce x high s = true ↔
    ¬ (s.detector.holds.ptt ∨ s.detector.holds.recovery ∨ s.detector.holds.changeover ∨ s.detector.holds.request) ∧
      (s.detector.sampled s.params x high).debounced ≠ s.detector.debounced) ∧
  (∀ (s : State) (x : Word) (high : Bool) (n : Nat) (c : Instr), s.memoryLaw → s.collectionLaw →
    s.comesNext (fun y => some y.sampleLeft) n →
    (c = .adcSample x high ∨ (c = .debounceComplete x high ∧ completesDebounce x high s = true) ∨
      (c = .captureBoundary x high ∧ 159 ≤ s.receive.collection.length)) →
    let u := s.passTime n
    let r := s.receive
    ∃ t v, exec c s = .next t ∧ TakesSample x high u v ∧ t.samplesOwed = u.samplesOwed - 1 ∧
      OnlyChanges [.receive, .mem, .events, .samplesOwed, .changeCounts, .news] v t ∧
      t.bus.events = v.bus.events |||
        (if r.collection.length < 159 then 0
          else if s.read (rxBase (r.captureSequence.toNat % 32)) = 0 then bitWord 8 else bitWord 9) ∧
      MemoryKept (fun a => rxPlace r a ∨ inChangedRecord u t a) v t ∧ Published u t ∧
      OnlyChanges (courseParts ++ [.receive, .samplesOwed, .changeCounts, .news]) u t ∧
      MemoryKept (fun a => rxPlace r a ∨ inFilled s a ∨ inChangedRecord u t a) u t)

/-- What a receive sample does at the Receive Path (R108–R110): it joins the collection, as 0 and with the KEYED mark while
PTT is asserted; the 160th makes a capture boundary, at which the block is written into its place with its sequence, flags and
levels where the place is FREE, with EVENTS.RX_READY, and is dropped and counted otherwise, with EVENTS.RX_OVERFLOW, and the
capture sequence advances. What the detector has done before it in the event stands (R111). That the three rows are one event,
that COS comes with the sample and the time it takes to come are the model's choices (log entries 14, 22 and 2).
That a first key-up event is not made where PTT has been allowed again but a Supervisor's end cause waits is the model's
reading of R136 (log entry 39). -/
def Obligations.AReceiveSampleIsCaptured : Prop :=
  ∀ (s : State) (x : Word) (high : Bool) (n : Nat) (c : Instr), s.memoryLaw → s.collectionLaw →
    s.comesNext (fun y => some y.sampleLeft) n →
    (c = .adcSample x high ∨ (c = .debounceComplete x high ∧ completesDebounce x high s = true) ∨
      (c = .captureBoundary x high ∧ 159 ≤ s.receive.collection.length)) →
    let u := s.passTime n
    ∃ t v, exec c s = .next t ∧ TakesSample x high u v ∧
      let r := s.receive
      let block := r.collection ++ [if t.key.ptt then 0 else x]
      let keyed := r.keyedMark || t.key.ptt
      let d := t.detector
      let base := rxBase (r.captureSequence.toNat % 32)
      (r.collection.length < 159 → t.receive = { r with collection := block, keyedMark := keyed } ∧
        t.bus.events = v.bus.events ∧ MemoryKept (inChangedRecord u t) v t ∧
        MemoryKept (fun a => inFilled s a ∨ inChangedRecord u t a) s t) ∧
      (r.collection.length = 159 → s.read base = 0 →
        t.receive = { r with captureSequence := r.captureSequence + 1, collection := [], keyedMark := false } ∧
        t.bus.events = v.bus.events ||| bitWord 8 ∧ MemoryKept (fun a => rxPlace r a ∨ inChangedRecord u t a) v t ∧
        (∀ i, i < 168 → t.read (base + i) =
          ([1, r.captureSequence, word (keyed.toNat + 2 * d.debounced.toNat + 4 * d.s0.toNat + 8 * d.s1.toNat +
            16 * d.s2.toNat), word d.levelS, word d.levelN, 0, 0, 0] ++ block).getD i 0)) ∧
      (r.collection.length = 159 → s.read base ≠ 0 →
        t.receive = { captureSequence := r.captureSequence + 1, collection := [], keyedMark := false,
                      overflow := min 65535 (r.overflow + 1) } ∧
        t.bus.events = v.bus.events ||| bitWord 9 ∧ MemoryKept (inChangedRecord u t) v t ∧
        MemoryKept (fun a => inFilled s a ∨ inChangedRecord u t a) s t)

/-- The station status page is rewritten every 20 ms (R171): its change count rises by 2, and its words hold what the owning
blocks hold, in the layout of 11.4, with the state codes of 11.5. It comes at the next multiple of 20 ms since READY, or at
once where one is owed. The time the event takes to come, and that the odd change count is never seen, are the model's (log
entries 2 and 31). -/
def Obligations.StatusPageRewriteShowsTheBlocks : Prop :=
  (∀ s : State, s.pageLeft = if s.pagesOwed = 0 then 160 - s.periods % 160 else 0) ∧
  [GrantState.changeover, .waitClear, .gap1, .gap2, .prebuffer, .keyed, .idSending, .drain, .tail].map (·.code) =
    [1, 2, 3, 4, 5, 6, 7, 8, 9] ∧
  (∀ (s : State) (n : Nat), s.memoryLaw → s.comesNext (fun x => some x.pageLeft) n →
    let u := s.passTime n
    let g := s.key.grant
    let d := s.detector
    ∃ t, exec .statusPageRewrite s = .next t ∧
      t.read 0 = s.bus.pageCount + 2 ∧ t.bus = { s.bus with pageCount := s.bus.pageCount + 2 } ∧
      (∀ i, i < 63 → t.read (1 + i) =
        ([1, word s.supervisor.running.toNat,
          (match s.supervisor.lockout with | none => 0 | some .faults => 1 | some .killed => 2),
          (match s.supervisor.disable with | .released => 0 | .asserted => 1 | .releasing => 2),
          word s.floor.hold.toNat, (match g with | none => 0 | some g => word g.state.code),
          (match g with | none => 0 | some g => g.tag), slotWord (g.bind (·.session)), memberWord (g.bind (·.member)),
          (match g with | none => 0xFFFF | some g => word g.channel.val), word s.floor.queue.length,
          word (s.ident.owed.toNat + 2 * s.ident.due.toNat), word d.levelS, word d.levelN,
          word (d.s0.toNat + 2 * d.s1.toNat + 4 * d.s2.toNat + 8 * d.rawBusy.toNat + 16 * d.debounced.toNat +
            32 * d.cos.toNat),
          word s.playout.released, word s.playout.discarded, word s.playout.slip, word s.receive.overflow,
          word s.ident.forcedCount, word s.supervisor.faultCount, word s.cells.attentionHeld, word s.log.markInvalid,
          word s.bus.writeToReadOnly, s.log.next, word s.log.reserved.toNat, s.log.next - s.log.lastMark, s.log.lastMark,
          u.clock.extractLsb' 0 16, u.clock.extractLsb' 16 16] : List Word).getD i 0) ∧
      t.pagesOwed = u.pagesOwed - 1 ∧ OnlyChanges [.mem, .bus, .pagesOwed] u t ∧ MemoryKept (inArea 0 64) u t)

/-! ## The floor and the course of a grant -/

/-- An arbitration, in every state, grants the first claimant that survives its checks (R46–R51), and the courtesy interval's
expiry makes one, the interval being over (R44, R45). The time the expiry takes to come, the member and channel in the
granted-entry memory, what an IDENT grant does with no CHSEL channel or no key-up, and that an arbitration at the very moment
of a penalty's end, before the end is taken, considers the member's entry as R15's part 2 has it, where R15's "Check taken
first" skips it, and that a skipped entry keeps its position as an entry behind it is granted, where R48's last words have it
fall by one, are the model's (log entries 2, 12, 19, 33 and 38).
That a first key-up event is not made where PTT has been allowed again but a Supervisor's end cause waits is the model's
reading of R136 (log entry 39). -/
def Obligations.ArbitrationGrantsTheFirstClaimant : Prop :=
  (∀ u : State, u.memoryLaw → Arbitrates u (arbitrate u)) ∧
  (∀ (s : State) (n : Nat), s.memoryLaw → s.comesNext (fun x => x.floor.courtesy) n →
    let u := s.passTime n
    ∃ t v, exec .courtesyExpiry s = .next t ∧ Arbitrates (u.withFloor { u.floor with courtesy := none }) v ∧
      EventTo arbitrationParts (inFilled s) u v t)

/-- The turnaround timers of a grant (R63, R67, R68): the end of CHANGEOVER, of GAP1 and of GAP2. The time the event takes to
come is the model's (log entry 2).
That a first key-up event is not made where PTT has been allowed again but a Supervisor's end cause waits is the model's
reading of R136 (log entry 39). -/
def Obligations.TurnaroundTimersTakeTheGrantOn : Prop :=
  ∀ (s : State) (n : Nat) (g : Grant), s.memoryLaw → s.key.grant = some g →
    let u := s.passTime n
    let h := g.passTime n
    (s.comesNext (fun x => x.grantLeft (·.changeoverLeft)) n →
      ∃ t v, exec .changeoverExpiry s = .next t ∧ LeavesChangeover h u v ∧ EventTo courseParts (inFilled s) u v t) ∧
    (s.comesNext (fun x => x.grantLeft (·.gap1Left)) n →
      ∃ t v, exec .gap1Expiry s = .next t ∧ EntersGap2 h u v ∧ EventTo courseParts (inFilled s) u v t) ∧
    (s.comesNext (fun x => x.grantLeft (·.gap2Left)) n →
      ∃ t v, exec .gap2Expiry s = .next t ∧ LeavesGap2 h u v ∧ EventTo courseParts (inFilled s) u v t)

/-- The busy-wait timer's expiry (R65, R66): in WAIT_CLEAR the wait is over, with CHANNEL_BUSY for a MEMBER grant and the
forcing of an IDENT grant; in every other state the expiry is recorded and nothing else happens. The time the event takes to
come is the model's (log entry 2).
That a first key-up event is not made where PTT has been allowed again but a Supervisor's end cause waits is the model's
reading of R136 (log entry 39). -/
def Obligations.BusyWaitExpiryEndsTheWait : Prop :=
  ∀ (s : State) (n : Nat) (g : Grant), s.memoryLaw → s.key.grant = some g →
    s.comesNext (fun x => x.grantLeft (·.busyWait.left)) n →
    let u := s.passTime n
    let h : Grant := { g.passTime n with busyWait := .expired }
    ∃ t v, exec .busyWaitExpiry s = .next t ∧ (if g.state = .waitClear then WaitIsOver h u v else BecomesGrant h u v) ∧
      EventTo courseParts (inFilled s) u v t

/-- The end of PREBUFFER (R69, R70). A host write of a transmit place's state word that completes it is a key-up event. The
prebuffer limit's expiry is one too where some place holds a block of the grant below the max depth, and otherwise ends the
grant NO_AUDIO; a grant that an earlier key-up event has left held stays in PREBUFFER at the expiry (R71). A key-up event makes
no check and holds the grant where PTT is forbidden, where the grant is held already, and where an end cause of the Supervisor
is on its way to it, whether or not PTT has been allowed again since. The time the expiry takes to come is the model's (log
entry 2); that a first key-up event is not made where PTT has been allowed again but the Supervisor's end cause waits, and that
the hold outlasts the prebuffer limit, are its readings of R136 and R71 (log entry 39). -/
def Obligations.PrebufferEndsInKeyUpOrNoAudio : Prop :=
  (∀ (s : State) (a v : Word) (g : Grant), s.memoryLaw → s.ready = true → isTxState a.toNat = true → s.key.grant = some g →
    g.state = .prebuffer →
    let w := s.write a.toNat v
    w.prebuffered g.tag →
    ∃ t x, exec (.hostMemoryWrite a v) s = .next t ∧ KeyUpEvent g w x ∧ OnlyChanges courseParts w x ∧
      MemoryKept (inFilled w) w x ∧ Publishes s x t) ∧
  (∀ (s : State) (n : Nat) (g : Grant), s.memoryLaw → s.key.grant = some g →
    s.comesNext (fun x => x.grantLeft (·.prebufferLeft)) n →
    let u := s.passTime n
    ∃ t v, exec .prebufferLimitExpiry s = .next t ∧ EventTo courseParts (inFilled s) u v t ∧
      ExpiresPrebuffer { g.passTime n with prebufferLeft := none } u v)

/-- A block boundary that finds the block of the playout position in its place (R93 case 1, R94): it is played; then, in
KEYED, the depth is counted with re-centring (R97, R98), and in DRAIN the drain goes on or ends (R99). A boundary comes in
KEYED and DRAIN alone, when the boundary timer runs out (R91), and a final count is at or behind the playout position as R92
has it. A boundary that reaches the drain limit is the same event under its own row. The time the boundary takes to come, the
row drainLimit as a boundary, the depth count at a boundary that ends the drain, and which places count in the depth and where
re-centring ends, are the model's (log entries 2, 14, 27 and 18). -/
def Obligations.ABlockInItsPlaceIsPlayed : Prop :=
  (∀ s : State, s.boundaryLeft = match s.key.grant with
    | none => none
    | some g => if g.state = .keyed ∨ g.state = .drain then s.playout.boundary else none) ∧
  (∀ (f : Word) (p : Nat), atOrBehind f p = true ↔ f = word p ∨ 32768 ≤ (f - word p).toNat) ∧
  (∀ (s : State) (n : Nat) (g : Grant) (c : Instr), s.memoryLaw → s.key.grant = some g → s.comesNext State.boundaryLeft n →
    s.holdsBlock g.tag →
    (c = .blockBoundary ∨ (c = .drainLimit ∧ g.state = .drain ∧ s.params.drainLimit ≤ s.playout.drainCount + 1)) →
    let u := s.passTime n
    let h := g.passTime n
    ∃ t w v, exec c s = .next t ∧ PlaysBlock h u w ∧
      (if g.state = .drain then DrainsOn h false w v else CountsDepth g.tag true w v) ∧
      EventTo endParts (endStores s) u v t)

/-- A block boundary with a missing block (R93 cases 2 to 5). The place is cleared and counted. In KEYED a missing run at the
audio-loss limit ends the grant AUDIO_LOST (R96), and otherwise the substitute is given (R95) and the depth counted. In DRAIN
with no final count the drain ends; with one, the substitute is given and the drain goes on or ends (R99). Boundaries that
lose the audio or reach the drain limit are the same event under their own rows. The time the boundary takes to come, the rows
audioLost and drainLimit as boundaries, the position raised where the audio is lost, the depth count in DRAIN, and which
places count in the depth and where re-centring ends, are the model's (log entries 2, 14, 13, 27 and 18). -/
def Obligations.AMissingBlockIsReplacedOrEndsTheGrant : Prop :=
  ∀ (s : State) (n : Nat) (g : Grant) (c : Instr), s.memoryLaw → s.key.grant = some g → s.comesNext State.boundaryLeft n →
    ¬ s.holdsBlock g.tag →
    let lost := g.state = .keyed ∧ s.params.audioLoss ≤ min 65535 (s.playout.missingRun + 1)
    (c = .blockBoundary ∨ (c = .audioLost ∧ lost) ∨
      (c = .drainLimit ∧ g.state = .drain ∧ s.params.drainLimit ≤ s.playout.drainCount + 1)) →
    let u := s.passTime n
    let h := g.passTime n
    ∃ t w v, exec c s = .next t ∧ ClearsPlace h u w ∧ EventTo endParts (endStores s) u v t ∧
      (lost → Unkeys { h with endReason := some (g.endReason.getD .audioLost) }
        (w.withPlayout { w.playout with missingRun := min 65535 (w.playout.missingRun + 1) }) v) ∧
      (g.state = .keyed → ¬ lost → ∃ x, Substitutes h w x ∧ CountsDepth g.tag true x v) ∧
      (g.state = .drain → g.finalCount = none → DrainsOn h true w v) ∧
      (g.state = .drain → g.finalCount ≠ none → ∃ x, Substitutes h w x ∧ DrainsOn h true x v)

/-- Re-centring (R98). In KEYED, at a boundary that does not lose the audio, where the depth counted at the raised playout
position exceeds the max depth, and no two blocks of the grant stand with one sequence: the boundary leaves the depth at the
prebuffer target, and raises the slip count by 1. The time the boundary takes to come, and which places count in the depth,
are the model's readings (log entries 2 and 18). -/
def Obligations.RecentringLeavesTheTargetDepth : Prop :=
  ∀ (s : State) (n : Nat) (g : Grant), s.memoryLaw → s.key.grant = some g → g.state = .keyed →
    s.comesNext State.boundaryLeft n →
    s.holdsBlock g.tag ∨ min 65535 (s.playout.missingRun + 1) < s.params.audioLoss →
    s.params.prebufferTarget < s.params.maxDepth →
    (∀ i j, i < 64 → j < 64 → s.read (txBase i) = 1 → s.read (txBase j) = 1 → s.read (txBase i + 1) = g.tag →
      s.read (txBase j + 1) = g.tag → s.read (txBase i + 2) = s.read (txBase j + 2) → i = j) →
    s.params.maxDepth < ((List.range 64).filter fun i =>
      i != s.playout.position % 64 && s.counts g.tag (s.playout.position + 1) i).length →
    ∃ t, exec .blockBoundary s = .next t ∧ t.playout.depth = s.params.prebufferTarget ∧
      t.playout.slip = min 65535 (s.playout.slip + 1)

/-- Key time (R74, R79). An accounting tick comes each time the key time of a grant in KEYED, DRAIN or TAIL completes a
further 100 ms, and charges the holder 100 ms of budget and counts in the grant; exhausted, it is noted, and in KEYED it is a
limit end with BUDGET. The tail timer's expiry is the unkey. The time the event takes to come, and that a penalty end made
absent at a timeout penalty of 0 sends no notice, are the model's (log entries 2 and 10). -/
def Obligations.TicksChargeTheHolderAndTheTailUnkeys : Prop :=
  (∀ g : Grant, g.tickLeft =
    if g.state ∈ [.keyed, .drain, .tail] then some (800 * (g.ticks + 1) - g.keySamples) else none) ∧
  (∀ (s : State) (n : Nat) (g : Grant), s.memoryLaw → s.key.grant = some g → s.comesNext (fun x => x.grantLeft (·.tickLeft)) n →
    let u := s.passTime n
    ∃ t w v x, exec .accountingTick s = .next t ∧
      (x = true ↔ ∃ m, g.member = some m ∧ (s.member m).present = true ∧ (s.member m).unmetered = false ∧
        (s.member m).remaining ≤ 1) ∧
      (∀ m, w.member m =
        if g.member = some m ∧ (s.member m).present = true ∧ (s.member m).unmetered = false then
          { s.member m with remaining := (s.member m).remaining - 1 }
        else s.member m) ∧
      let h : Grant := { g.passTime n with ticks := g.ticks + 1, budgetExhausted := g.budgetExhausted || x }
      w.key = { u.key with grant := some h } ∧ OnlyChanges [.members, .key] u w ∧
      (if x = true ∧ g.state = .keyed then EntersTail true { h with endReason := some (g.endReason.getD .budget) } w v
        else v = w) ∧
      EventTo endParts (endStores s) u v t) ∧
  (∀ (s : State) (n : Nat) (g : Grant), s.memoryLaw → s.key.grant = some g → s.comesNext (fun x => x.grantLeft (·.tailLeft)) n →
    let u := s.passTime n
    ∃ t v, exec .tailExpiry s = .next t ∧ Unkeys (g.passTime n) u v ∧ EventTo endParts (endStores s) u v t)

/-- The key limit (R75). Key time that reaches it, in KEYED, DRAIN or TAIL, unkeys the grant in the same event, TIMEOUT where
it was in KEYED. A notice of a changed max key time recomputes the limit of that member's grant: one at or below the key time
already counted becomes that key time and unkeys; any other is the new limit; and the notice changes nothing where the member
holds no grant. The time the event takes to come, and that a penalty end made absent at a timeout penalty of 0 sends no
notice, are the model's (log entries 2 and 10). -/
def Obligations.TheKeyLimitUnkeysTheGrant : Prop :=
  (∀ g : Grant, g.limitLeft =
    if g.state ∈ [.keyed, .drain, .tail] then g.keyLimit.map (8 * · - g.keySamples) else none) ∧
  (∀ (s : State) (n : Nat) (g : Grant), s.memoryLaw → s.key.grant = some g →
    s.comesNext (fun x => x.grantLeft (·.limitLeft)) n →
    let u := s.passTime n
    let h := g.passTime n
    ∃ t v, exec .keyLimitReached s = .next t ∧
      Unkeys (if g.state = .keyed then { h with endReason := some (g.endReason.getD .timeout) } else h) u v ∧
      EventTo endParts (endStores s) u v t) ∧
  (∀ (s : State) (m : MemberIx), s.memoryLaw → s.ready = true → .keyLimit m ∈ s.notices →
    let u := s.withNotices (s.notices.erase (.keyLimit m))
    ((∀ g, s.key.grant = some g → g.kind = .ident ∨ g.member ≠ some m) → exec (.keyLimitNotice m) s = .next u) ∧
    (∀ g, s.key.grant = some g → g.kind = .member → g.member = some m →
      let limit := 1000 * min (s.member m).maxKeyTime (s.channel g.channel).maxKeyTime
      let h : Grant := { g with keyLimit := some g.keyTime }
      (g.state.memberOnAir = true → limit ≤ g.keyTime →
        ∃ t v, exec (.keyLimitNotice m) s = .next t ∧
          Unkeys (if g.state = .keyed then { h with endReason := some (g.endReason.getD .timeout) } else h) u v ∧
          EventTo endParts (endStores s) u v t) ∧
      (g.state.memberOnAir = false ∨ g.keyTime < limit →
        ∃ t, exec (.keyLimitNotice m) s = .next t ∧
          EventTo [.key] noWord u (u.withGrant (some { g with keyLimit := some limit })) t)))

/-- The end of receiver recovery (R84): the detector's hold for it is lifted, and a grant in WAIT_CLEAR on a channel that is
not busy goes on to GAP1. The time the event takes to come is the model's (log entry 2).
That a first key-up event is not made where PTT has been allowed again but a Supervisor's end cause waits is the model's
reading of R136 (log entry 39). -/
def Obligations.RecoveryExpiryLiftsTheHold : Prop :=
  ∀ (s : State) (n : Nat), s.memoryLaw → s.comesNext (fun x => x.key.recovery) n →
    let u := s.passTime n
    let w := (u.withKey { u.key with recovery := none }).withDetector
      { u.detector with holds := { u.detector.holds with recovery := false } }
    ∃ t v, exec .receiverRecoveryExpiry s = .next t ∧
      (match w.key.grant with
        | none => v = w
        | some h => if h.state = .waitClear ∧ w.detector.debounced = false then EntersGap1 h w v else v = w) ∧
      EventTo courseParts (inFilled s) u v t

/-! ## Deadlines, penalties and identification -/

/-- The expiry of session k's surveillance deadline, which comes when the station clock reaches the deadline of an OPEN
session, as R15 defines reaching (R28): the slot becomes LOST and stays bound to its member, with no deadline; the member's
lost count rises (R16); a grant of the session ends LINK_LOST as R82 or R83 has it, and an entry of it leaves LINK_LOST. That
the lost count of a member made absent rises too is the model's reading (log entry 34). The time the event takes to come is
the model's (log entry 2). -/
def Obligations.SurveillanceExpiryLosesTheSession : Prop :=
  (∀ (s : State) (k : Slot), s.deadlineLeft k =
    if (s.session k).state = .opened then (s.session k).deadline.map s.untilClock else none) ∧
  (∀ (s : State) (n : Nat) (k : Slot), s.memoryLaw → s.pttLaw → s.comesNext (fun x => x.deadlineLeft k) n →
    let u := s.passTime n
    let x := u.withSession k { u.session k with state := .lost, deadline := none }
    let y := match (s.session k).member with
      | none => x
      | some m => x.withMember m { s.member m with lostCount := min 255 ((s.member m).lostCount + 1) }
    ∃ t v, exec (.surveillanceExpiry k) s = .next t ∧ EndsService k .linkLost y v ∧ (v.session k).state = .lost ∧
      (v.session k).member = (s.session k).member ∧ (v.session k).deadline = none ∧
      (∀ m, (v.member m).lostCount =
        if (s.session k).member = some m then min 255 ((s.member m).lostCount + 1) else (s.member m).lostCount) ∧
      EventTo closeParts (endStores s) u v t)

/-- The end of a penalty is an arbitration with the penalty end absent (R15). The ID interval reached, and the quiet timer
expired, are recorded, and identification falls due where it is owed, with an arbitration (R125–R127). A penalty ends when the
station clock reaches its end, and is in force until then; the interval is reached when the clock reaches the last-ID time, or
0 while there is none, plus the ID interval. The time the event takes to come, that a penalty whose end the clock has reached
is in force no more, what an arbitration makes of another penalty that ends at its very moment, and the position that a
skipped entry keeps, are the model's (log entries 2, 33 and 38).
That a first key-up event is not made where PTT has been allowed again but a Supervisor's end cause waits is the model's
reading of R136 (log entry 39). -/
def Obligations.PenaltyEndsAndIdentificationFallsDue : Prop :=
  (∀ (s : State) (m : MemberIx), s.penaltyLeft m = (s.member m).penaltyEnd.map s.untilClock) ∧
  (∀ s : State, s.intervalLeft = if s.ident.intervalReached then none else
    some (s.untilClock (s.ident.lastId.getD 0 + BitVec.ofNat 32 (1000 * s.params.idInterval)))) ∧
  (∀ (s : State) (m : MemberIx), s.penaltyInForce m = true ↔
    ∃ e, (s.member m).penaltyEnd = some e ∧ 2 ^ 31 ≤ (s.clock - e).toNat) ∧
  (∀ (s : State) (n : Nat) (m : MemberIx), s.memoryLaw → s.comesNext (fun x => x.penaltyLeft m) n →
    let u := s.passTime n
    ∃ t v, exec (.penaltyEnd m) s = .next t ∧ Arbitrates (u.withMember m { u.member m with penaltyEnd := none }) v ∧
      EventTo arbitrationParts (inFilled s) u v t) ∧
  (∀ (s : State) (n : Nat), s.memoryLaw → s.comesNext State.intervalLeft n →
    let u := s.passTime n
    ∃ t v, exec .intervalReached s = .next t ∧
      ReconsidersIdent (u.withIdent { u.ident with intervalReached := true }) v ∧
      EventTo arbitrationParts (inFilled s) u v t) ∧
  (∀ (s : State) (n : Nat), s.memoryLaw → s.comesNext (fun x => x.ident.quiet.left) n →
    let u := s.passTime n
    ∃ t v, exec .quietTimerExpiry s = .next t ∧ ReconsidersIdent (u.withIdent { u.ident with quiet := .expired }) v ∧
      EventTo arbitrationParts (inFilled s) u v t)

/-- What the DAC is given. In KEYED, DRAIN and TAIL, with PTT asserted, it is given the block handed over, one sample in each
sample period, and 0 once the block is at its end and before the first block (R101). The identification's pattern starts the
TX delay after the key-up, at its first sample with tone phase 0 (R130, R131), advances one sample and one phase step in each
sample period (R131), gives each of its samples as its element's envelope has it, the last element's fall included (R131,
R132), and its completion, the TX delay, the pattern's units and 4 ms after the key-up, unkeys the grant ID_DONE (R133). The
DAC is given 0 from the key-up to the first sample (R130), whenever PTT is released, and outside KEYED, DRAIN, TAIL and
ID_SENDING (R101). The pattern is laid out as R130 has it: dots of 1 unit and dashes of 3 with gaps of 1 within a character, a
gap of 3 between characters and of 7 where spaces separate them, spaces at either end passed over, and no gap after the last
element, each character's elements being those of 11.3. The time the event takes to come is the model's (log entry 2). -/
def Obligations.TheIdentificationPatternIsSentToTheDac : Prop :=
  (∀ (s : State) (g : Grant), s.key.ptt = true → s.key.grant = some g → g.state ∈ [.keyed, .drain, .tail] →
    s.dac = s.playout.dacBlock.headD 0 ∧ ∀ n, (s.passTime n).dac = s.playout.dacBlock.getD n 0) ∧
  (∀ s : State, s.key.grant = none → s.patternStartLeft = none ∧ s.patternEndLeft = none) ∧
  (∀ (s : State) (g : Grant), s.key.grant = some g →
    s.patternStartLeft =
      (if g.state = .idSending ∧ s.ident.position = none then some (8 * s.params.txDelay - g.keySamples) else none) ∧
    s.patternEndLeft =
      (if g.state = .idSending ∧ s.ident.position ≠ none then
        some (8 * s.params.txDelay + patternUnits (pattern s.params.idText) * (8 * s.params.idUnit) + 32 - g.keySamples)
      else none)) ∧
  (∀ (s : State) (n : Nat), s.comesNext State.patternStartLeft n →
    let u := s.passTime n
    exec .idPatternStart s = .next (u.withIdent { u.ident with position := some 0, phase := 0 })) ∧
  (∀ (s : State) (n k : Nat), s.ident.position = some k →
    (s.passTime n).ident.position = some (k + n) ∧
    (s.passTime n).ident.phase = s.ident.phase + BitVec.ofNat 16 (n * ((8192 * s.params.idTone + 500) / 1000))) ∧
  (∀ (s : State) (g : Grant) (front back : List PatternPart) (x : PatternPart) (j : Nat), s.key.ptt = true →
    s.key.grant = some g → g.state = .idSending → pattern s.params.idText = front ++ x :: back →
    j < x.units * (8 * s.params.idUnit) → s.ident.position = some (patternUnits front * (8 * s.params.idUnit) + j) →
    let P := s.ident.phase.toNat
    let tone : Int := if P < 32768 then 2 * P - 32768 else 98303 - 2 * P
    (x.tone = true →
      s.dac = level tone (s.params.idAttenuation + (if j < 32 then 4 * (16 - j / 2) else 0 : Nat))) ∧
    (x.tone = false → j < 32 → (∃ f y, front = f ++ [y] ∧ y.tone = true) →
      s.dac = level tone (s.params.idAttenuation + (4 * (j / 2 + 1) : Nat))) ∧
    (x.tone = false → 32 ≤ j → s.dac = 0)) ∧
  (∀ (s : State) (g : Grant) (front : List PatternPart) (x : PatternPart) (j : Nat), s.key.ptt = true → s.key.grant = some g →
    g.state = .idSending → pattern s.params.idText = front ++ [x] → x.tone = true → j < 32 →
    s.ident.position = some (patternUnits (pattern s.params.idText) * (8 * s.params.idUnit) + j) →
    let P := s.ident.phase.toNat
    let tone : Int := if P < 32768 then 2 * P - 32768 else 98303 - 2 * P
    s.dac = level tone (s.params.idAttenuation + (4 * (j / 2 + 1) : Nat))) ∧
  (∀ (s : State) (g : Grant), s.key.grant = some g → g.state = .idSending → s.ident.position = none → s.dac = 0) ∧
  (∀ (text front back : List Nat) (k c d : Nat), c ≤ 36 → d ≤ 36 →
    pattern [c] = ((morse c).map fun dash => PatternPart.mk true (if dash then 3 else 1)).intersperse ⟨false, 1⟩ ∧
    pattern (front ++ c :: d :: back) = pattern (front ++ [c]) ++ ⟨false, 3⟩ :: pattern (d :: back) ∧
    pattern (front ++ c :: List.replicate (k + 1) 37 ++ d :: back) =
      pattern (front ++ [c]) ++ ⟨false, 7⟩ :: pattern (d :: back) ∧
    pattern (List.replicate k 37 ++ text) = pattern text ∧ pattern (text ++ List.replicate k 37) = pattern text) ∧
  (List.range 38).map morse =
    ["-----", ".----", "..---", "...--", "....-", ".....", "-....", "--...", "---..", "----.", ".-", "-...", "-.-.", "-..", ".",
      "..-.", "--.", "....", "..", ".---", "-.-", ".-..", "--", "-.", "---", ".--.", "--.-", ".-.", "...", "-", "..-", "...-",
      ".--", "-..-", "-.--", "--..", "-..-.", ""].map (fun e => e.toList.map (· == '-')) ∧
  (∀ p : List PatternPart, patternUnits p = (p.map (·.units)).sum) ∧
  (∀ (text : List Nat) (front : List PatternPart) (x : PatternPart), (∀ c ∈ text, c ≤ 37) → pattern text = front ++ [x] →
    x.tone = true) ∧
  (∀ (s : State) (n : Nat) (g : Grant), s.memoryLaw → s.key.grant = some g → s.comesNext State.patternEndLeft n →
    let u := s.passTime n
    let h : Grant := { g.passTime n with endReason := some (g.endReason.getD .idDone) }
    ∃ t v, exec .idPatternComplete s = .next t ∧ Unkeys h u v ∧ EventTo endParts (endStores s) u v t) ∧
  (∀ s : State, s.key.ptt = false ∨ (∀ g, s.key.grant = some g → g.state.onAir = false) → s.dac = 0)

/-! ## Notices -/

/-- The end notice (R43, R44, R52), the first in flight being taken: a claim ended CHANNEL_BUSY with a retry left is queued
again, and otherwise the courtesy interval starts (one of 0 has expired as it starts); the granted entry is forgotten, the
floor is idle, the quiet timer starts where the floor has become quiet (R126), and an arbitration is made. The record of each
session that the new entry moves back is rewritten with NEWS, one that the arbitration moves forward again included (R33,
R39). That the notice is taken in an event of its own, that a courtesy interval of 0 has expired as it starts, the field that
counts the notices of a position, what the arbitration makes of a penalty that ends at its very moment, and the position that
a skipped entry keeps, are the model's (log entries 9, 23, 35, 33 and 38).
That a first key-up event is not made where PTT has been allowed again but a Supervisor's end cause waits is the model's
reading of R136 (log entry 39). -/
def Obligations.TheEndNoticeFreesTheFloor : Prop :=
  ∀ (s : State) (k : GrantKind) (tag : Word) (n : Option Slot) (r : EndReason) (front rest : List Notice), s.memoryLaw →
    s.ready = true → s.notices = front ++ .ended k tag n r :: rest → front.any isEnded = false →
    let u := s.withNotices (front ++ rest)
    ∃ t v w, exec .endNotice s = .next t ∧
      (∀ x left, u.claimLivesOn k r x left → x.joinsAgain left u w) ∧
      ((∀ x left, ¬ u.claimLivesOn k r x left) →
        w = u.withFloor { u.floor with
          courtesy := if u.params.courtesy = 0 then none else some (8 * u.params.courtesy) }) ∧
      Arbitrates
        ((w.withFloor { w.floor with granted := none, idle := true }).withIdent { w.ident with
          quiet := if w.floor.queue = [] then .running (8000 * u.params.idEndDelay) else w.ident.quiet }) v ∧
      EventTo arbitrationParts (inFilled s) u v t ∧ NewsOfMoved u.floor w.floor u t ∧ NewsOfMoved w.floor t.floor u t

/-- A revocation notice (R25) closes the slot its member is bound to, OPEN or LOST, with REVOKED, and changes nothing where
there is none. A privilege notice (R6): a MEMBER grant of the member on a channel that fails the privilege part of R12 takes
the abrupt cause REVOKED, and the queue entry of the member's session on such a channel leaves with REVOKED; a grant or entry
that passes is left as it is. That both blocks take a privilege notice in one event, the Key Controller first, is the model's
reading (log entry 30). -/
def Obligations.RevocationAndPrivilegeNoticesAreTaken : Prop :=
  (∀ (s : State) (m : MemberIx), s.memoryLaw → s.pttLaw → s.bindingLaw → s.ready = true → .revocation m ∈ s.notices →
    let u := s.withNotices (s.notices.erase (.revocation m))
    (∀ k, (s.session k).state ≠ .free → (s.session k).member = some m →
      ∃ t v, exec (.revocationNotice m) s = .next t ∧
        EndsService k .revoked (u.withSession k { u.session k with state := .free, member := none, deadline := none }) v ∧
        (v.session k).state = .free ∧
        (v.session k).member = none ∧ (v.session k).deadline = none ∧ EventTo closeParts (endStores s) u v t) ∧
    ((∀ k, (s.session k).state ≠ .free → (s.session k).member ≠ some m) → exec (.revocationNotice m) s = .next u)) ∧
  (∀ (s : State) (m : MemberIx), s.memoryLaw → s.bindingLaw → s.ready = true → .privilege m ∈ s.notices →
    let u := s.withNotices (s.notices.erase (.privilege m))
    let bound := fun k => (s.session k).state ≠ .free ∧ (s.session k).member = some m
    let held := fun g : Grant => s.key.grant = some g ∧ g.kind = .member ∧ g.member = some m
    ∃ t w v, exec (.privilegeNotice m) s = .next t ∧
      (∀ g, held g → ¬ s.mayKey m g.channel → EndsAbruptly g .revoked u w ∧ OnlyChanges endParts u w) ∧
      ((∀ g, held g → s.mayKey m g.channel) → w = u) ∧
      (∀ k e, bound k → s.entryOf k = some e → ¬ s.mayKey m e.channel → Departs k .revoked w v) ∧
      ((∀ k e, bound k → s.entryOf k = some e → s.mayKey m e.channel) → v = w) ∧
      EventTo closeParts (endStores s) u v t)

/-- A clear notice empties the queue: every entry leaves with the notice's reason, the tag absent (R58, R31), and the quiet
timer starts where the floor has become quiet (R126). An end cause in flight is taken by the grant it names (R80, R81), and
changes nothing where that grant has gone. That a cause can stand in flight is log entry 5. -/
def Obligations.ClearNoticesAndEndCausesAreTaken : Prop :=
  (∀ (s : State) (r : ClearReason), s.memoryLaw → s.ready = true → .clear r ∈ s.notices →
    let u := s.withNotices (s.notices.erase (.clear r))
    let reason := match r with | .stopped => EndReason.stopped | .lockedOut => .lockedOut
    ∃ t v, exec (.clearNotice r) s = .next t ∧ v.floor.queue = [] ∧
      v.floor = s.floor.queue.foldl (fun f e => f.without e.session) s.floor ∧
      (∀ k, v.session k =
        if (s.entryOf k).isSome then { s.session k with lastEndReason := some reason, lastEndTag := none } else s.session k) ∧
      v.ident = (if s.floor.idle = true ∧ s.floor.queue ≠ [] then
        { s.ident with quiet := .running (8000 * s.params.idEndDelay) } else s.ident) ∧
      EventTo [.floor, .ident, .sessions] noWord u v t) ∧
  (∀ (s : State) (tag : Word) (r : EndReason), s.memoryLaw → s.ready = true → r.sentAsNotice = true →
    .cause tag r ∈ s.notices →
    let u := s.withNotices (s.notices.erase (.cause tag r))
    (∀ g, s.key.grant = some g → g.tag = tag →
      ∃ t v, exec (.endCause tag r) s = .next t ∧ EndsAbruptly g r u v ∧ EventTo endParts (endStores s) u v t) ∧
    ((∀ g, s.key.grant = some g → g.tag ≠ tag) → exec (.endCause tag r) s = .next u))

/-! ## Arithmetic, and what every command keeps -/

/-- The level arithmetic, with its table and the consequences the rule draws from it (R104). `>>>` on Int is the shift that
rounds toward minus infinity, and `Int.fdiv` the division that does. -/
def Obligations.TheLevelArithmetic : Prop :=
  let F : List Int := [32768, 30935, 29205, 27571, 26029, 24573, 23198, 21900, 20675, 19519, 18427, 17396]
  (∀ x A : Int, isSample x → 96 ≤ A → level x A = 0) ∧
  (∀ x A : Int, isSample x → -12 ≤ A → A < 96 →
    let c := Int.fdiv A 12
    let f := A - 12 * c
    let product := x * F.getD f.toNat 0
    let fine := product >>> (15 : Nat)
    let y := if c = -1 then 2 * fine else fine >>> c.toNat
    (-1 ≤ c ∧ c ≤ 7) ∧ (0 ≤ f ∧ f ≤ 11) ∧ (-(2 ^ 30) ≤ product ∧ product ≤ 2 ^ 30) ∧
    (32767 < y → level x A = 32767) ∧ (y < -32768 → level x A = -32768) ∧ (isSample y → level x A = y) ∧
    (0 ≤ A → isSample y ∧ y.natAbs ≤ x.natAbs)) ∧
  (∀ f : Nat, f ≤ 11 →
    let twice := (2 * F.getD f 0).toNat
    (twice - 1) ^ 40 * 10 ^ f ≤ 65536 ^ 40 ∧ 65536 ^ 40 ≤ (twice + 1) ^ 40 * 10 ^ f) ∧
  (∀ x A : Int, isSample x → x < 0 → -12 ≤ A → A < 96 → level x A ≤ -1) ∧
  (∃ x A : Int, isSample x ∧ 0 < x ∧ A < 96 ∧ level x A = 0) ∧
  (∀ A : Int, (0 ≤ A → A ≤ 95 → level (-1) A = -1) ∧ (-12 ≤ A → A ≤ -1 → level (-1) A = -2))

/-- Every well-formed command that is taken while the part is ready, a reset and a read of NEWS apart, publishes the status
records as R32 and R33 have it: a session none of whose fields has changed, and that has had no notice of a counter (R30) or
of its floor state or queue position (R39), keeps its change count and its NEWS bit; any other has its record rewritten, and
its NEWS bit set where one of R33's fields has changed or a notice of the latter kind has come. What each word of a record
shows is said in the layout of 11.4, with the end reason codes of 11.5 (R31). The fields that count the notices are the
model's own (log entries 36 and 35). That the records are written once, after the event, is the model's reading (log entry 8).
-/
def Obligations.EveryCommandPublishesTheRecords : Prop :=
  (∀ (s t : State) (c : Instr), s.memoryLaw → s.ready = true → c.wellFormed = true → c ≠ .hardwareReset → c ≠ .newsRead →
    (∀ v, c ≠ .softReset v) → exec c s = .next t → Published s t) ∧
  (∀ (s : State) (n : Slot),
    let r := s.session n
    let e := s.floor.queue.find? (·.session == n)
    let g := s.key.grant.filter (·.session == some n)
    let k := g.filter fun g => g.state ∈ [.keyed, .drain, .tail]
    let shown := fun x : Nat => if k.isSome then word x else 0
    s.recordFields n =
      [(match r.state with | .free => 0 | .opened => 1 | .lost => 2),
       (match e, g with
        | some _, _ => 1
        | none, some g => if g.state ∈ [.keyed, .idSending] then 3 else if g.state ∈ [.drain, .tail] then 4 else 2
        | none, none => 0),
       (match s.floor.queue.findIdx? (·.session == n) with | none => 0 | some i => word (i + 1)),
       (g.map (·.tag)).getD 0,
       (match e, g with | some e, _ => word e.channel.val | none, some g => word g.channel.val | none, none => 0xFFFF),
       shown s.playout.position, shown s.playout.depth, shown (s.playout.depthLow.toNat + 2 * s.playout.depthHigh.toNat),
       word ((k.map (·.ticks)).getD 0),
       (match r.member with
        | none => 0
        | some m => if r.state = .free ∨ (s.member m).unmetered = true then 0 else word (s.member m).remaining),
       (match r.lastEndReason with | none => 0 | some x => word (endReasonCode x)), r.lastEndTag.getD 0, word r.requestsTaken,
       word r.blocksPlayed, word r.stale, word r.late, word r.overrun, word r.concealed] ∧
    s.newsFields n = [0, 1, 2, 10, 11].map (fun i => (s.recordFields n).getD i 0) ∧
    s.recordState n = (s.recordFields n, r.counterNotices, s.floor.positionNotices[n]) ∧
    s.newsState n = (s.newsFields n, s.floor.positionNotices[n])) ∧
  [EndReason.released, .cancelled, .timeout, .budget, .channelBusy, .noAudio, .paNotReady, .logFull, .linkLost, .closed, .ejected,
    .revoked, .audioLost, .preempted, .killed, .fault, .disabled, .stopped, .idDone, .notPermitted, .noBudget, .lockedOut].map
    endReasonCode = List.range' 1 22

/-- The host's own words of the exchange memory (R87, R153, R161, R162): while the part is ready, and the collection is short
of a block as every step keeps it (R107), no command but a host write of the word itself changes it. -/
def Obligations.TheHostsWordsAreTheHosts : Prop :=
  ∀ (s t : State) (c : Instr) (a : Nat), s.memoryLaw → s.collectionLaw → s.ready = true → c.wellFormed = true → hostWord a →
    (∀ b v, c = .hostMemoryWrite b v → b.toNat ≠ a) → exec c s = .next t → t.read a = s.read a

/-- Every step keeps the exchange memory canonical, the detector within R114's ranges, the collection short of a block (R107),
each member's budget within its allowance (R1), the bindings of the slots (R18, R19), the DAC's samples in range (R101) and
grant tags other than 0 (R50). The canonical form of the exchange memory is the model's (log entry 17). -/
def Obligations.EveryStepKeepsTheStateSound : Prop :=
  ∀ s t : State, s.Sound → step s = .next t → t.Sound

/-- Every step keeps the laws of the floor and the grant: the floor is idle only with no grant (R43); it is idle only with no
end notice in flight, which is the model's choice of log entry 9, since R43 sets the indication when the end notice is sent
and the model when it is taken; the grant record is lawful in its state (R59), PTT is asserted only on the air and while
nothing forbids it (R61), the queue holds no session twice and no holder (R35, R37), a holder is OPEN (R22, R28), the log
never overfills (R154, R155), and key time never exceeds the key limit (R75). A grant whose key-up was not made stands in
PREBUFFER, or, an identification's, in GAP2, and no step keys it or takes it to another state: it stays as it is or ends (R71).
That a cause that is not the Supervisor's can end it is the model's reading (log entry 39), and so is the GAP2 of an
identification granted with busy check off (log entry 19). -/
def Obligations.EveryStepKeepsTheFloorAndTheGrantLawful : Prop :=
  ∀ s t : State, s.Sound → s.Lawful → s.keyLimitLaw → step s = .next t → t.Lawful ∧ t.keyLimitLaw ∧ HeldGrantStays s t

/-- The state after reset has every one of these laws. State.reset is the model's (log entry 7). -/
def Obligations.ResetIsSoundAndLawful : Prop :=
  State.reset.Sound ∧ State.reset.Lawful ∧ State.reset.keyLimitLaw
end

