-- ==== Sys2Proof/Laws/State.lean ====
section
/-! SUPPORT. One lemma per field per update of the state, each true by rfl, so that no proof unfolds a record update; and what
the indexed reads give after the indexed updates. -/

set_option Elab.async false

namespace Sys2Proof.Machine

/-! ### withMember -/

@[simp] theorem State.withMember_members (s : State) (m : MemberIx) (r : Member) : (s.withMember m r).members = s.members.set m r := rfl
@[simp] theorem State.withMember_channels (s : State) (m : MemberIx) (r : Member) : (s.withMember m r).channels = s.channels := rfl
@[simp] theorem State.withMember_sessions (s : State) (m : MemberIx) (r : Member) : (s.withMember m r).sessions = s.sessions := rfl
@[simp] theorem State.withMember_floor (s : State) (m : MemberIx) (r : Member) : (s.withMember m r).floor = s.floor := rfl
@[simp] theorem State.withMember_key (s : State) (m : MemberIx) (r : Member) : (s.withMember m r).key = s.key := rfl
@[simp] theorem State.withMember_playout (s : State) (m : MemberIx) (r : Member) : (s.withMember m r).playout = s.playout := rfl
@[simp] theorem State.withMember_receive (s : State) (m : MemberIx) (r : Member) : (s.withMember m r).receive = s.receive := rfl
@[simp] theorem State.withMember_detector (s : State) (m : MemberIx) (r : Member) : (s.withMember m r).detector = s.detector := rfl
@[simp] theorem State.withMember_ident (s : State) (m : MemberIx) (r : Member) : (s.withMember m r).ident = s.ident := rfl
@[simp] theorem State.withMember_supervisor (s : State) (m : MemberIx) (r : Member) : (s.withMember m r).supervisor = s.supervisor := rfl
@[simp] theorem State.withMember_log (s : State) (m : MemberIx) (r : Member) : (s.withMember m r).log = s.log := rfl
@[simp] theorem State.withMember_cells (s : State) (m : MemberIx) (r : Member) : (s.withMember m r).cells = s.cells := rfl
@[simp] theorem State.withMember_bus (s : State) (m : MemberIx) (r : Member) : (s.withMember m r).bus = s.bus := rfl
@[simp] theorem State.withMember_params (s : State) (m : MemberIx) (r : Member) : (s.withMember m r).params = s.params := rfl
@[simp] theorem State.withMember_mem (s : State) (m : MemberIx) (r : Member) : (s.withMember m r).mem = s.mem := rfl
@[simp] theorem State.withMember_phase (s : State) (m : MemberIx) (r : Member) : (s.withMember m r).phase = s.phase := rfl
@[simp] theorem State.withMember_periods (s : State) (m : MemberIx) (r : Member) : (s.withMember m r).periods = s.periods := rfl
@[simp] theorem State.withMember_txfaultPin (s : State) (m : MemberIx) (r : Member) : (s.withMember m r).txfaultPin = s.txfaultPin := rfl
@[simp] theorem State.withMember_disablePin (s : State) (m : MemberIx) (r : Member) : (s.withMember m r).disablePin = s.disablePin := rfl
@[simp] theorem State.withMember_notices (s : State) (m : MemberIx) (r : Member) : (s.withMember m r).notices = s.notices := rfl
@[simp] theorem State.withMember_samplesOwed (s : State) (m : MemberIx) (r : Member) : (s.withMember m r).samplesOwed = s.samplesOwed := rfl
@[simp] theorem State.withMember_pagesOwed (s : State) (m : MemberIx) (r : Member) : (s.withMember m r).pagesOwed = s.pagesOwed := rfl
@[simp] theorem State.withMember_choices (s : State) (m : MemberIx) (r : Member) : (s.withMember m r).choices = s.choices := rfl
@[simp] theorem State.withMember_pending (s : State) (m : MemberIx) (r : Member) : (s.withMember m r).pending = s.pending := rfl
@[simp] theorem State.withMember_channel (s : State) (m : MemberIx) (r : Member) (k : ChannelIx) : (s.withMember m r).channel k = s.channel k := rfl
@[simp] theorem State.withMember_session (s : State) (m : MemberIx) (r : Member) (k : Slot) : (s.withMember m r).session k = s.session k := rfl
@[simp] theorem State.withMember_read (s : State) (m : MemberIx) (r : Member) (k : Nat) : (s.withMember m r).read k = s.read k := rfl
@[simp] theorem State.withMember_clock (s : State) (m : MemberIx) (r : Member) : (s.withMember m r).clock = s.clock := rfl
@[simp] theorem State.withMember_ready (s : State) (m : MemberIx) (r : Member) : (s.withMember m r).ready = s.ready := rfl

/-! ### withChannel -/

@[simp] theorem State.withChannel_members (s : State) (c : ChannelIx) (r : Channel) : (s.withChannel c r).members = s.members := rfl
@[simp] theorem State.withChannel_channels (s : State) (c : ChannelIx) (r : Channel) : (s.withChannel c r).channels = s.channels.set c r := rfl
@[simp] theorem State.withChannel_sessions (s : State) (c : ChannelIx) (r : Channel) : (s.withChannel c r).sessions = s.sessions := rfl
@[simp] theorem State.withChannel_floor (s : State) (c : ChannelIx) (r : Channel) : (s.withChannel c r).floor = s.floor := rfl
@[simp] theorem State.withChannel_key (s : State) (c : ChannelIx) (r : Channel) : (s.withChannel c r).key = s.key := rfl
@[simp] theorem State.withChannel_playout (s : State) (c : ChannelIx) (r : Channel) : (s.withChannel c r).playout = s.playout := rfl
@[simp] theorem State.withChannel_receive (s : State) (c : ChannelIx) (r : Channel) : (s.withChannel c r).receive = s.receive := rfl
@[simp] theorem State.withChannel_detector (s : State) (c : ChannelIx) (r : Channel) : (s.withChannel c r).detector = s.detector := rfl
@[simp] theorem State.withChannel_ident (s : State) (c : ChannelIx) (r : Channel) : (s.withChannel c r).ident = s.ident := rfl
@[simp] theorem State.withChannel_supervisor (s : State) (c : ChannelIx) (r : Channel) : (s.withChannel c r).supervisor = s.supervisor := rfl
@[simp] theorem State.withChannel_log (s : State) (c : ChannelIx) (r : Channel) : (s.withChannel c r).log = s.log := rfl
@[simp] theorem State.withChannel_cells (s : State) (c : ChannelIx) (r : Channel) : (s.withChannel c r).cells = s.cells := rfl
@[simp] theorem State.withChannel_bus (s : State) (c : ChannelIx) (r : Channel) : (s.withChannel c r).bus = s.bus := rfl
@[simp] theorem State.withChannel_params (s : State) (c : ChannelIx) (r : Channel) : (s.withChannel c r).params = s.params := rfl
@[simp] theorem State.withChannel_mem (s : State) (c : ChannelIx) (r : Channel) : (s.withChannel c r).mem = s.mem := rfl
@[simp] theorem State.withChannel_phase (s : State) (c : ChannelIx) (r : Channel) : (s.withChannel c r).phase = s.phase := rfl
@[simp] theorem State.withChannel_periods (s : State) (c : ChannelIx) (r : Channel) : (s.withChannel c r).periods = s.periods := rfl
@[simp] theorem State.withChannel_txfaultPin (s : State) (c : ChannelIx) (r : Channel) : (s.withChannel c r).txfaultPin = s.txfaultPin := rfl
@[simp] theorem State.withChannel_disablePin (s : State) (c : ChannelIx) (r : Channel) : (s.withChannel c r).disablePin = s.disablePin := rfl
@[simp] theorem State.withChannel_notices (s : State) (c : ChannelIx) (r : Channel) : (s.withChannel c r).notices = s.notices := rfl
@[simp] theorem State.withChannel_samplesOwed (s : State) (c : ChannelIx) (r : Channel) : (s.withChannel c r).samplesOwed = s.samplesOwed := rfl
@[simp] theorem State.withChannel_pagesOwed (s : State) (c : ChannelIx) (r : Channel) : (s.withChannel c r).pagesOwed = s.pagesOwed := rfl
@[simp] theorem State.withChannel_choices (s : State) (c : ChannelIx) (r : Channel) : (s.withChannel c r).choices = s.choices := rfl
@[simp] theorem State.withChannel_pending (s : State) (c : ChannelIx) (r : Channel) : (s.withChannel c r).pending = s.pending := rfl
@[simp] theorem State.withChannel_member (s : State) (c : ChannelIx) (r : Channel) (k : MemberIx) : (s.withChannel c r).member k = s.member k := rfl
@[simp] theorem State.withChannel_session (s : State) (c : ChannelIx) (r : Channel) (k : Slot) : (s.withChannel c r).session k = s.session k := rfl
@[simp] theorem State.withChannel_read (s : State) (c : ChannelIx) (r : Channel) (k : Nat) : (s.withChannel c r).read k = s.read k := rfl
@[simp] theorem State.withChannel_clock (s : State) (c : ChannelIx) (r : Channel) : (s.withChannel c r).clock = s.clock := rfl
@[simp] theorem State.withChannel_ready (s : State) (c : ChannelIx) (r : Channel) : (s.withChannel c r).ready = s.ready := rfl

/-! ### withSession -/

@[simp] theorem State.withSession_members (s : State) (n : Slot) (r : Session) : (s.withSession n r).members = s.members := rfl
@[simp] theorem State.withSession_channels (s : State) (n : Slot) (r : Session) : (s.withSession n r).channels = s.channels := rfl
@[simp] theorem State.withSession_sessions (s : State) (n : Slot) (r : Session) : (s.withSession n r).sessions = s.sessions.set n r := rfl
@[simp] theorem State.withSession_floor (s : State) (n : Slot) (r : Session) : (s.withSession n r).floor = s.floor := rfl
@[simp] theorem State.withSession_key (s : State) (n : Slot) (r : Session) : (s.withSession n r).key = s.key := rfl
@[simp] theorem State.withSession_playout (s : State) (n : Slot) (r : Session) : (s.withSession n r).playout = s.playout := rfl
@[simp] theorem State.withSession_receive (s : State) (n : Slot) (r : Session) : (s.withSession n r).receive = s.receive := rfl
@[simp] theorem State.withSession_detector (s : State) (n : Slot) (r : Session) : (s.withSession n r).detector = s.detector := rfl
@[simp] theorem State.withSession_ident (s : State) (n : Slot) (r : Session) : (s.withSession n r).ident = s.ident := rfl
@[simp] theorem State.withSession_supervisor (s : State) (n : Slot) (r : Session) : (s.withSession n r).supervisor = s.supervisor := rfl
@[simp] theorem State.withSession_log (s : State) (n : Slot) (r : Session) : (s.withSession n r).log = s.log := rfl
@[simp] theorem State.withSession_cells (s : State) (n : Slot) (r : Session) : (s.withSession n r).cells = s.cells := rfl
@[simp] theorem State.withSession_bus (s : State) (n : Slot) (r : Session) : (s.withSession n r).bus = s.bus := rfl
@[simp] theorem State.withSession_params (s : State) (n : Slot) (r : Session) : (s.withSession n r).params = s.params := rfl
@[simp] theorem State.withSession_mem (s : State) (n : Slot) (r : Session) : (s.withSession n r).mem = s.mem := rfl
@[simp] theorem State.withSession_phase (s : State) (n : Slot) (r : Session) : (s.withSession n r).phase = s.phase := rfl
@[simp] theorem State.withSession_periods (s : State) (n : Slot) (r : Session) : (s.withSession n r).periods = s.periods := rfl
@[simp] theorem State.withSession_txfaultPin (s : State) (n : Slot) (r : Session) : (s.withSession n r).txfaultPin = s.txfaultPin := rfl
@[simp] theorem State.withSession_disablePin (s : State) (n : Slot) (r : Session) : (s.withSession n r).disablePin = s.disablePin := rfl
@[simp] theorem State.withSession_notices (s : State) (n : Slot) (r : Session) : (s.withSession n r).notices = s.notices := rfl
@[simp] theorem State.withSession_samplesOwed (s : State) (n : Slot) (r : Session) : (s.withSession n r).samplesOwed = s.samplesOwed := rfl
@[simp] theorem State.withSession_pagesOwed (s : State) (n : Slot) (r : Session) : (s.withSession n r).pagesOwed = s.pagesOwed := rfl
@[simp] theorem State.withSession_choices (s : State) (n : Slot) (r : Session) : (s.withSession n r).choices = s.choices := rfl
@[simp] theorem State.withSession_pending (s : State) (n : Slot) (r : Session) : (s.withSession n r).pending = s.pending := rfl
@[simp] theorem State.withSession_member (s : State) (n : Slot) (r : Session) (k : MemberIx) : (s.withSession n r).member k = s.member k := rfl
@[simp] theorem State.withSession_channel (s : State) (n : Slot) (r : Session) (k : ChannelIx) : (s.withSession n r).channel k = s.channel k := rfl
@[simp] theorem State.withSession_read (s : State) (n : Slot) (r : Session) (k : Nat) : (s.withSession n r).read k = s.read k := rfl
@[simp] theorem State.withSession_clock (s : State) (n : Slot) (r : Session) : (s.withSession n r).clock = s.clock := rfl
@[simp] theorem State.withSession_ready (s : State) (n : Slot) (r : Session) : (s.withSession n r).ready = s.ready := rfl

/-! ### withFloor -/

@[simp] theorem State.withFloor_members (s : State) (x : Floor) : (s.withFloor x).members = s.members := rfl
@[simp] theorem State.withFloor_channels (s : State) (x : Floor) : (s.withFloor x).channels = s.channels := rfl
@[simp] theorem State.withFloor_sessions (s : State) (x : Floor) : (s.withFloor x).sessions = s.sessions := rfl
@[simp] theorem State.withFloor_floor (s : State) (x : Floor) : (s.withFloor x).floor = x := rfl
@[simp] theorem State.withFloor_key (s : State) (x : Floor) : (s.withFloor x).key = s.key := rfl
@[simp] theorem State.withFloor_playout (s : State) (x : Floor) : (s.withFloor x).playout = s.playout := rfl
@[simp] theorem State.withFloor_receive (s : State) (x : Floor) : (s.withFloor x).receive = s.receive := rfl
@[simp] theorem State.withFloor_detector (s : State) (x : Floor) : (s.withFloor x).detector = s.detector := rfl
@[simp] theorem State.withFloor_ident (s : State) (x : Floor) : (s.withFloor x).ident = s.ident := rfl
@[simp] theorem State.withFloor_supervisor (s : State) (x : Floor) : (s.withFloor x).supervisor = s.supervisor := rfl
@[simp] theorem State.withFloor_log (s : State) (x : Floor) : (s.withFloor x).log = s.log := rfl
@[simp] theorem State.withFloor_cells (s : State) (x : Floor) : (s.withFloor x).cells = s.cells := rfl
@[simp] theorem State.withFloor_bus (s : State) (x : Floor) : (s.withFloor x).bus = s.bus := rfl
@[simp] theorem State.withFloor_params (s : State) (x : Floor) : (s.withFloor x).params = s.params := rfl
@[simp] theorem State.withFloor_mem (s : State) (x : Floor) : (s.withFloor x).mem = s.mem := rfl
@[simp] theorem State.withFloor_phase (s : State) (x : Floor) : (s.withFloor x).phase = s.phase := rfl
@[simp] theorem State.withFloor_periods (s : State) (x : Floor) : (s.withFloor x).periods = s.periods := rfl
@[simp] theorem State.withFloor_txfaultPin (s : State) (x : Floor) : (s.withFloor x).txfaultPin = s.txfaultPin := rfl
@[simp] theorem State.withFloor_disablePin (s : State) (x : Floor) : (s.withFloor x).disablePin = s.disablePin := rfl
@[simp] theorem State.withFloor_notices (s : State) (x : Floor) : (s.withFloor x).notices = s.notices := rfl
@[simp] theorem State.withFloor_samplesOwed (s : State) (x : Floor) : (s.withFloor x).samplesOwed = s.samplesOwed := rfl
@[simp] theorem State.withFloor_pagesOwed (s : State) (x : Floor) : (s.withFloor x).pagesOwed = s.pagesOwed := rfl
@[simp] theorem State.withFloor_choices (s : State) (x : Floor) : (s.withFloor x).choices = s.choices := rfl
@[simp] theorem State.withFloor_pending (s : State) (x : Floor) : (s.withFloor x).pending = s.pending := rfl
@[simp] theorem State.withFloor_member (s : State) (x : Floor) (k : MemberIx) : (s.withFloor x).member k = s.member k := rfl
@[simp] theorem State.withFloor_channel (s : State) (x : Floor) (k : ChannelIx) : (s.withFloor x).channel k = s.channel k := rfl
@[simp] theorem State.withFloor_session (s : State) (x : Floor) (k : Slot) : (s.withFloor x).session k = s.session k := rfl
@[simp] theorem State.withFloor_read (s : State) (x : Floor) (k : Nat) : (s.withFloor x).read k = s.read k := rfl
@[simp] theorem State.withFloor_clock (s : State) (x : Floor) : (s.withFloor x).clock = s.clock := rfl
@[simp] theorem State.withFloor_ready (s : State) (x : Floor) : (s.withFloor x).ready = s.ready := rfl

/-! ### withKey -/

@[simp] theorem State.withKey_members (s : State) (x : KeyController) : (s.withKey x).members = s.members := rfl
@[simp] theorem State.withKey_channels (s : State) (x : KeyController) : (s.withKey x).channels = s.channels := rfl
@[simp] theorem State.withKey_sessions (s : State) (x : KeyController) : (s.withKey x).sessions = s.sessions := rfl
@[simp] theorem State.withKey_floor (s : State) (x : KeyController) : (s.withKey x).floor = s.floor := rfl
@[simp] theorem State.withKey_key (s : State) (x : KeyController) : (s.withKey x).key = x := rfl
@[simp] theorem State.withKey_playout (s : State) (x : KeyController) : (s.withKey x).playout = s.playout := rfl
@[simp] theorem State.withKey_receive (s : State) (x : KeyController) : (s.withKey x).receive = s.receive := rfl
@[simp] theorem State.withKey_detector (s : State) (x : KeyController) : (s.withKey x).detector = s.detector := rfl
@[simp] theorem State.withKey_ident (s : State) (x : KeyController) : (s.withKey x).ident = s.ident := rfl
@[simp] theorem State.withKey_supervisor (s : State) (x : KeyController) : (s.withKey x).supervisor = s.supervisor := rfl
@[simp] theorem State.withKey_log (s : State) (x : KeyController) : (s.withKey x).log = s.log := rfl
@[simp] theorem State.withKey_cells (s : State) (x : KeyController) : (s.withKey x).cells = s.cells := rfl
@[simp] theorem State.withKey_bus (s : State) (x : KeyController) : (s.withKey x).bus = s.bus := rfl
@[simp] theorem State.withKey_params (s : State) (x : KeyController) : (s.withKey x).params = s.params := rfl
@[simp] theorem State.withKey_mem (s : State) (x : KeyController) : (s.withKey x).mem = s.mem := rfl
@[simp] theorem State.withKey_phase (s : State) (x : KeyController) : (s.withKey x).phase = s.phase := rfl
@[simp] theorem State.withKey_periods (s : State) (x : KeyController) : (s.withKey x).periods = s.periods := rfl
@[simp] theorem State.withKey_txfaultPin (s : State) (x : KeyController) : (s.withKey x).txfaultPin = s.txfaultPin := rfl
@[simp] theorem State.withKey_disablePin (s : State) (x : KeyController) : (s.withKey x).disablePin = s.disablePin := rfl
@[simp] theorem State.withKey_notices (s : State) (x : KeyController) : (s.withKey x).notices = s.notices := rfl
@[simp] theorem State.withKey_samplesOwed (s : State) (x : KeyController) : (s.withKey x).samplesOwed = s.samplesOwed := rfl
@[simp] theorem State.withKey_pagesOwed (s : State) (x : KeyController) : (s.withKey x).pagesOwed = s.pagesOwed := rfl
@[simp] theorem State.withKey_choices (s : State) (x : KeyController) : (s.withKey x).choices = s.choices := rfl
@[simp] theorem State.withKey_pending (s : State) (x : KeyController) : (s.withKey x).pending = s.pending := rfl
@[simp] theorem State.withKey_member (s : State) (x : KeyController) (k : MemberIx) : (s.withKey x).member k = s.member k := rfl
@[simp] theorem State.withKey_channel (s : State) (x : KeyController) (k : ChannelIx) : (s.withKey x).channel k = s.channel k := rfl
@[simp] theorem State.withKey_session (s : State) (x : KeyController) (k : Slot) : (s.withKey x).session k = s.session k := rfl
@[simp] theorem State.withKey_read (s : State) (x : KeyController) (k : Nat) : (s.withKey x).read k = s.read k := rfl
@[simp] theorem State.withKey_clock (s : State) (x : KeyController) : (s.withKey x).clock = s.clock := rfl
@[simp] theorem State.withKey_ready (s : State) (x : KeyController) : (s.withKey x).ready = s.ready := rfl

/-! ### withPlayout -/

@[simp] theorem State.withPlayout_members (s : State) (x : Playout) : (s.withPlayout x).members = s.members := rfl
@[simp] theorem State.withPlayout_channels (s : State) (x : Playout) : (s.withPlayout x).channels = s.channels := rfl
@[simp] theorem State.withPlayout_sessions (s : State) (x : Playout) : (s.withPlayout x).sessions = s.sessions := rfl
@[simp] theorem State.withPlayout_floor (s : State) (x : Playout) : (s.withPlayout x).floor = s.floor := rfl
@[simp] theorem State.withPlayout_key (s : State) (x : Playout) : (s.withPlayout x).key = s.key := rfl
@[simp] theorem State.withPlayout_playout (s : State) (x : Playout) : (s.withPlayout x).playout = x := rfl
@[simp] theorem State.withPlayout_receive (s : State) (x : Playout) : (s.withPlayout x).receive = s.receive := rfl
@[simp] theorem State.withPlayout_detector (s : State) (x : Playout) : (s.withPlayout x).detector = s.detector := rfl
@[simp] theorem State.withPlayout_ident (s : State) (x : Playout) : (s.withPlayout x).ident = s.ident := rfl
@[simp] theorem State.withPlayout_supervisor (s : State) (x : Playout) : (s.withPlayout x).supervisor = s.supervisor := rfl
@[simp] theorem State.withPlayout_log (s : State) (x : Playout) : (s.withPlayout x).log = s.log := rfl
@[simp] theorem State.withPlayout_cells (s : State) (x : Playout) : (s.withPlayout x).cells = s.cells := rfl
@[simp] theorem State.withPlayout_bus (s : State) (x : Playout) : (s.withPlayout x).bus = s.bus := rfl
@[simp] theorem State.withPlayout_params (s : State) (x : Playout) : (s.withPlayout x).params = s.params := rfl
@[simp] theorem State.withPlayout_mem (s : State) (x : Playout) : (s.withPlayout x).mem = s.mem := rfl
@[simp] theorem State.withPlayout_phase (s : State) (x : Playout) : (s.withPlayout x).phase = s.phase := rfl
@[simp] theorem State.withPlayout_periods (s : State) (x : Playout) : (s.withPlayout x).periods = s.periods := rfl
@[simp] theorem State.withPlayout_txfaultPin (s : State) (x : Playout) : (s.withPlayout x).txfaultPin = s.txfaultPin := rfl
@[simp] theorem State.withPlayout_disablePin (s : State) (x : Playout) : (s.withPlayout x).disablePin = s.disablePin := rfl
@[simp] theorem State.withPlayout_notices (s : State) (x : Playout) : (s.withPlayout x).notices = s.notices := rfl
@[simp] theorem State.withPlayout_samplesOwed (s : State) (x : Playout) : (s.withPlayout x).samplesOwed = s.samplesOwed := rfl
@[simp] theorem State.withPlayout_pagesOwed (s : State) (x : Playout) : (s.withPlayout x).pagesOwed = s.pagesOwed := rfl
@[simp] theorem State.withPlayout_choices (s : State) (x : Playout) : (s.withPlayout x).choices = s.choices := rfl
@[simp] theorem State.withPlayout_pending (s : State) (x : Playout) : (s.withPlayout x).pending = s.pending := rfl
@[simp] theorem State.withPlayout_member (s : State) (x : Playout) (k : MemberIx) : (s.withPlayout x).member k = s.member k := rfl
@[simp] theorem State.withPlayout_channel (s : State) (x : Playout) (k : ChannelIx) : (s.withPlayout x).channel k = s.channel k := rfl
@[simp] theorem State.withPlayout_session (s : State) (x : Playout) (k : Slot) : (s.withPlayout x).session k = s.session k := rfl
@[simp] theorem State.withPlayout_read (s : State) (x : Playout) (k : Nat) : (s.withPlayout x).read k = s.read k := rfl
@[simp] theorem State.withPlayout_clock (s : State) (x : Playout) : (s.withPlayout x).clock = s.clock := rfl
@[simp] theorem State.withPlayout_ready (s : State) (x : Playout) : (s.withPlayout x).ready = s.ready := rfl

/-! ### withReceive -/

@[simp] theorem State.withReceive_members (s : State) (x : Receive) : (s.withReceive x).members = s.members := rfl
@[simp] theorem State.withReceive_channels (s : State) (x : Receive) : (s.withReceive x).channels = s.channels := rfl
@[simp] theorem State.withReceive_sessions (s : State) (x : Receive) : (s.withReceive x).sessions = s.sessions := rfl
@[simp] theorem State.withReceive_floor (s : State) (x : Receive) : (s.withReceive x).floor = s.floor := rfl
@[simp] theorem State.withReceive_key (s : State) (x : Receive) : (s.withReceive x).key = s.key := rfl
@[simp] theorem State.withReceive_playout (s : State) (x : Receive) : (s.withReceive x).playout = s.playout := rfl
@[simp] theorem State.withReceive_receive (s : State) (x : Receive) : (s.withReceive x).receive = x := rfl
@[simp] theorem State.withReceive_detector (s : State) (x : Receive) : (s.withReceive x).detector = s.detector := rfl
@[simp] theorem State.withReceive_ident (s : State) (x : Receive) : (s.withReceive x).ident = s.ident := rfl
@[simp] theorem State.withReceive_supervisor (s : State) (x : Receive) : (s.withReceive x).supervisor = s.supervisor := rfl
@[simp] theorem State.withReceive_log (s : State) (x : Receive) : (s.withReceive x).log = s.log := rfl
@[simp] theorem State.withReceive_cells (s : State) (x : Receive) : (s.withReceive x).cells = s.cells := rfl
@[simp] theorem State.withReceive_bus (s : State) (x : Receive) : (s.withReceive x).bus = s.bus := rfl
@[simp] theorem State.withReceive_params (s : State) (x : Receive) : (s.withReceive x).params = s.params := rfl
@[simp] theorem State.withReceive_mem (s : State) (x : Receive) : (s.withReceive x).mem = s.mem := rfl
@[simp] theorem State.withReceive_phase (s : State) (x : Receive) : (s.withReceive x).phase = s.phase := rfl
@[simp] theorem State.withReceive_periods (s : State) (x : Receive) : (s.withReceive x).periods = s.periods := rfl
@[simp] theorem State.withReceive_txfaultPin (s : State) (x : Receive) : (s.withReceive x).txfaultPin = s.txfaultPin := rfl
@[simp] theorem State.withReceive_disablePin (s : State) (x : Receive) : (s.withReceive x).disablePin = s.disablePin := rfl
@[simp] theorem State.withReceive_notices (s : State) (x : Receive) : (s.withReceive x).notices = s.notices := rfl
@[simp] theorem State.withReceive_samplesOwed (s : State) (x : Receive) : (s.withReceive x).samplesOwed = s.samplesOwed := rfl
@[simp] theorem State.withReceive_pagesOwed (s : State) (x : Receive) : (s.withReceive x).pagesOwed = s.pagesOwed := rfl
@[simp] theorem State.withReceive_choices (s : State) (x : Receive) : (s.withReceive x).choices = s.choices := rfl
@[simp] theorem State.withReceive_pending (s : State) (x : Receive) : (s.withReceive x).pending = s.pending := rfl
@[simp] theorem State.withReceive_member (s : State) (x : Receive) (k : MemberIx) : (s.withReceive x).member k = s.member k := rfl
@[simp] theorem State.withReceive_channel (s : State) (x : Receive) (k : ChannelIx) : (s.withReceive x).channel k = s.channel k := rfl
@[simp] theorem State.withReceive_session (s : State) (x : Receive) (k : Slot) : (s.withReceive x).session k = s.session k := rfl
@[simp] theorem State.withReceive_read (s : State) (x : Receive) (k : Nat) : (s.withReceive x).read k = s.read k := rfl
@[simp] theorem State.withReceive_clock (s : State) (x : Receive) : (s.withReceive x).clock = s.clock := rfl
@[simp] theorem State.withReceive_ready (s : State) (x : Receive) : (s.withReceive x).ready = s.ready := rfl

/-! ### withDetector -/

@[simp] theorem State.withDetector_members (s : State) (x : Detector) : (s.withDetector x).members = s.members := rfl
@[simp] theorem State.withDetector_channels (s : State) (x : Detector) : (s.withDetector x).channels = s.channels := rfl
@[simp] theorem State.withDetector_sessions (s : State) (x : Detector) : (s.withDetector x).sessions = s.sessions := rfl
@[simp] theorem State.withDetector_floor (s : State) (x : Detector) : (s.withDetector x).floor = s.floor := rfl
@[simp] theorem State.withDetector_key (s : State) (x : Detector) : (s.withDetector x).key = s.key := rfl
@[simp] theorem State.withDetector_playout (s : State) (x : Detector) : (s.withDetector x).playout = s.playout := rfl
@[simp] theorem State.withDetector_receive (s : State) (x : Detector) : (s.withDetector x).receive = s.receive := rfl
@[simp] theorem State.withDetector_detector (s : State) (x : Detector) : (s.withDetector x).detector = x := rfl
@[simp] theorem State.withDetector_ident (s : State) (x : Detector) : (s.withDetector x).ident = s.ident := rfl
@[simp] theorem State.withDetector_supervisor (s : State) (x : Detector) : (s.withDetector x).supervisor = s.supervisor := rfl
@[simp] theorem State.withDetector_log (s : State) (x : Detector) : (s.withDetector x).log = s.log := rfl
@[simp] theorem State.withDetector_cells (s : State) (x : Detector) : (s.withDetector x).cells = s.cells := rfl
@[simp] theorem State.withDetector_bus (s : State) (x : Detector) : (s.withDetector x).bus = s.bus := rfl
@[simp] theorem State.withDetector_params (s : State) (x : Detector) : (s.withDetector x).params = s.params := rfl
@[simp] theorem State.withDetector_mem (s : State) (x : Detector) : (s.withDetector x).mem = s.mem := rfl
@[simp] theorem State.withDetector_phase (s : State) (x : Detector) : (s.withDetector x).phase = s.phase := rfl
@[simp] theorem State.withDetector_periods (s : State) (x : Detector) : (s.withDetector x).periods = s.periods := rfl
@[simp] theorem State.withDetector_txfaultPin (s : State) (x : Detector) : (s.withDetector x).txfaultPin = s.txfaultPin := rfl
@[simp] theorem State.withDetector_disablePin (s : State) (x : Detector) : (s.withDetector x).disablePin = s.disablePin := rfl
@[simp] theorem State.withDetector_notices (s : State) (x : Detector) : (s.withDetector x).notices = s.notices := rfl
@[simp] theorem State.withDetector_samplesOwed (s : State) (x : Detector) : (s.withDetector x).samplesOwed = s.samplesOwed := rfl
@[simp] theorem State.withDetector_pagesOwed (s : State) (x : Detector) : (s.withDetector x).pagesOwed = s.pagesOwed := rfl
@[simp] theorem State.withDetector_choices (s : State) (x : Detector) : (s.withDetector x).choices = s.choices := rfl
@[simp] theorem State.withDetector_pending (s : State) (x : Detector) : (s.withDetector x).pending = s.pending := rfl
@[simp] theorem State.withDetector_member (s : State) (x : Detector) (k : MemberIx) : (s.withDetector x).member k = s.member k := rfl
@[simp] theorem State.withDetector_channel (s : State) (x : Detector) (k : ChannelIx) : (s.withDetector x).channel k = s.channel k := rfl
@[simp] theorem State.withDetector_session (s : State) (x : Detector) (k : Slot) : (s.withDetector x).session k = s.session k := rfl
@[simp] theorem State.withDetector_read (s : State) (x : Detector) (k : Nat) : (s.withDetector x).read k = s.read k := rfl
@[simp] theorem State.withDetector_clock (s : State) (x : Detector) : (s.withDetector x).clock = s.clock := rfl
@[simp] theorem State.withDetector_ready (s : State) (x : Detector) : (s.withDetector x).ready = s.ready := rfl

/-! ### withIdent -/

@[simp] theorem State.withIdent_members (s : State) (x : Ident) : (s.withIdent x).members = s.members := rfl
@[simp] theorem State.withIdent_channels (s : State) (x : Ident) : (s.withIdent x).channels = s.channels := rfl
@[simp] theorem State.withIdent_sessions (s : State) (x : Ident) : (s.withIdent x).sessions = s.sessions := rfl
@[simp] theorem State.withIdent_floor (s : State) (x : Ident) : (s.withIdent x).floor = s.floor := rfl
@[simp] theorem State.withIdent_key (s : State) (x : Ident) : (s.withIdent x).key = s.key := rfl
@[simp] theorem State.withIdent_playout (s : State) (x : Ident) : (s.withIdent x).playout = s.playout := rfl
@[simp] theorem State.withIdent_receive (s : State) (x : Ident) : (s.withIdent x).receive = s.receive := rfl
@[simp] theorem State.withIdent_detector (s : State) (x : Ident) : (s.withIdent x).detector = s.detector := rfl
@[simp] theorem State.withIdent_ident (s : State) (x : Ident) : (s.withIdent x).ident = x := rfl
@[simp] theorem State.withIdent_supervisor (s : State) (x : Ident) : (s.withIdent x).supervisor = s.supervisor := rfl
@[simp] theorem State.withIdent_log (s : State) (x : Ident) : (s.withIdent x).log = s.log := rfl
@[simp] theorem State.withIdent_cells (s : State) (x : Ident) : (s.withIdent x).cells = s.cells := rfl
@[simp] theorem State.withIdent_bus (s : State) (x : Ident) : (s.withIdent x).bus = s.bus := rfl
@[simp] theorem State.withIdent_params (s : State) (x : Ident) : (s.withIdent x).params = s.params := rfl
@[simp] theorem State.withIdent_mem (s : State) (x : Ident) : (s.withIdent x).mem = s.mem := rfl
@[simp] theorem State.withIdent_phase (s : State) (x : Ident) : (s.withIdent x).phase = s.phase := rfl
@[simp] theorem State.withIdent_periods (s : State) (x : Ident) : (s.withIdent x).periods = s.periods := rfl
@[simp] theorem State.withIdent_txfaultPin (s : State) (x : Ident) : (s.withIdent x).txfaultPin = s.txfaultPin := rfl
@[simp] theorem State.withIdent_disablePin (s : State) (x : Ident) : (s.withIdent x).disablePin = s.disablePin := rfl
@[simp] theorem State.withIdent_notices (s : State) (x : Ident) : (s.withIdent x).notices = s.notices := rfl
@[simp] theorem State.withIdent_samplesOwed (s : State) (x : Ident) : (s.withIdent x).samplesOwed = s.samplesOwed := rfl
@[simp] theorem State.withIdent_pagesOwed (s : State) (x : Ident) : (s.withIdent x).pagesOwed = s.pagesOwed := rfl
@[simp] theorem State.withIdent_choices (s : State) (x : Ident) : (s.withIdent x).choices = s.choices := rfl
@[simp] theorem State.withIdent_pending (s : State) (x : Ident) : (s.withIdent x).pending = s.pending := rfl
@[simp] theorem State.withIdent_member (s : State) (x : Ident) (k : MemberIx) : (s.withIdent x).member k = s.member k := rfl
@[simp] theorem State.withIdent_channel (s : State) (x : Ident) (k : ChannelIx) : (s.withIdent x).channel k = s.channel k := rfl
@[simp] theorem State.withIdent_session (s : State) (x : Ident) (k : Slot) : (s.withIdent x).session k = s.session k := rfl
@[simp] theorem State.withIdent_read (s : State) (x : Ident) (k : Nat) : (s.withIdent x).read k = s.read k := rfl
@[simp] theorem State.withIdent_clock (s : State) (x : Ident) : (s.withIdent x).clock = s.clock := rfl
@[simp] theorem State.withIdent_ready (s : State) (x : Ident) : (s.withIdent x).ready = s.ready := rfl

/-! ### withSupervisor -/

@[simp] theorem State.withSupervisor_members (s : State) (x : Supervisor) : (s.withSupervisor x).members = s.members := rfl
@[simp] theorem State.withSupervisor_channels (s : State) (x : Supervisor) : (s.withSupervisor x).channels = s.channels := rfl
@[simp] theorem State.withSupervisor_sessions (s : State) (x : Supervisor) : (s.withSupervisor x).sessions = s.sessions := rfl
@[simp] theorem State.withSupervisor_floor (s : State) (x : Supervisor) : (s.withSupervisor x).floor = s.floor := rfl
@[simp] theorem State.withSupervisor_key (s : State) (x : Supervisor) : (s.withSupervisor x).key = s.key := rfl
@[simp] theorem State.withSupervisor_playout (s : State) (x : Supervisor) : (s.withSupervisor x).playout = s.playout := rfl
@[simp] theorem State.withSupervisor_receive (s : State) (x : Supervisor) : (s.withSupervisor x).receive = s.receive := rfl
@[simp] theorem State.withSupervisor_detector (s : State) (x : Supervisor) : (s.withSupervisor x).detector = s.detector := rfl
@[simp] theorem State.withSupervisor_ident (s : State) (x : Supervisor) : (s.withSupervisor x).ident = s.ident := rfl
@[simp] theorem State.withSupervisor_supervisor (s : State) (x : Supervisor) : (s.withSupervisor x).supervisor = x := rfl
@[simp] theorem State.withSupervisor_log (s : State) (x : Supervisor) : (s.withSupervisor x).log = s.log := rfl
@[simp] theorem State.withSupervisor_cells (s : State) (x : Supervisor) : (s.withSupervisor x).cells = s.cells := rfl
@[simp] theorem State.withSupervisor_bus (s : State) (x : Supervisor) : (s.withSupervisor x).bus = s.bus := rfl
@[simp] theorem State.withSupervisor_params (s : State) (x : Supervisor) : (s.withSupervisor x).params = s.params := rfl
@[simp] theorem State.withSupervisor_mem (s : State) (x : Supervisor) : (s.withSupervisor x).mem = s.mem := rfl
@[simp] theorem State.withSupervisor_phase (s : State) (x : Supervisor) : (s.withSupervisor x).phase = s.phase := rfl
@[simp] theorem State.withSupervisor_periods (s : State) (x : Supervisor) : (s.withSupervisor x).periods = s.periods := rfl
@[simp] theorem State.withSupervisor_txfaultPin (s : State) (x : Supervisor) : (s.withSupervisor x).txfaultPin = s.txfaultPin := rfl
@[simp] theorem State.withSupervisor_disablePin (s : State) (x : Supervisor) : (s.withSupervisor x).disablePin = s.disablePin := rfl
@[simp] theorem State.withSupervisor_notices (s : State) (x : Supervisor) : (s.withSupervisor x).notices = s.notices := rfl
@[simp] theorem State.withSupervisor_samplesOwed (s : State) (x : Supervisor) : (s.withSupervisor x).samplesOwed = s.samplesOwed := rfl
@[simp] theorem State.withSupervisor_pagesOwed (s : State) (x : Supervisor) : (s.withSupervisor x).pagesOwed = s.pagesOwed := rfl
@[simp] theorem State.withSupervisor_choices (s : State) (x : Supervisor) : (s.withSupervisor x).choices = s.choices := rfl
@[simp] theorem State.withSupervisor_pending (s : State) (x : Supervisor) : (s.withSupervisor x).pending = s.pending := rfl
@[simp] theorem State.withSupervisor_member (s : State) (x : Supervisor) (k : MemberIx) : (s.withSupervisor x).member k = s.member k := rfl
@[simp] theorem State.withSupervisor_channel (s : State) (x : Supervisor) (k : ChannelIx) : (s.withSupervisor x).channel k = s.channel k := rfl
@[simp] theorem State.withSupervisor_session (s : State) (x : Supervisor) (k : Slot) : (s.withSupervisor x).session k = s.session k := rfl
@[simp] theorem State.withSupervisor_read (s : State) (x : Supervisor) (k : Nat) : (s.withSupervisor x).read k = s.read k := rfl
@[simp] theorem State.withSupervisor_clock (s : State) (x : Supervisor) : (s.withSupervisor x).clock = s.clock := rfl
@[simp] theorem State.withSupervisor_ready (s : State) (x : Supervisor) : (s.withSupervisor x).ready = s.ready := rfl

/-! ### withLog -/

@[simp] theorem State.withLog_members (s : State) (x : StationLog) : (s.withLog x).members = s.members := rfl
@[simp] theorem State.withLog_channels (s : State) (x : StationLog) : (s.withLog x).channels = s.channels := rfl
@[simp] theorem State.withLog_sessions (s : State) (x : StationLog) : (s.withLog x).sessions = s.sessions := rfl
@[simp] theorem State.withLog_floor (s : State) (x : StationLog) : (s.withLog x).floor = s.floor := rfl
@[simp] theorem State.withLog_key (s : State) (x : StationLog) : (s.withLog x).key = s.key := rfl
@[simp] theorem State.withLog_playout (s : State) (x : StationLog) : (s.withLog x).playout = s.playout := rfl
@[simp] theorem State.withLog_receive (s : State) (x : StationLog) : (s.withLog x).receive = s.receive := rfl
@[simp] theorem State.withLog_detector (s : State) (x : StationLog) : (s.withLog x).detector = s.detector := rfl
@[simp] theorem State.withLog_ident (s : State) (x : StationLog) : (s.withLog x).ident = s.ident := rfl
@[simp] theorem State.withLog_supervisor (s : State) (x : StationLog) : (s.withLog x).supervisor = s.supervisor := rfl
@[simp] theorem State.withLog_log (s : State) (x : StationLog) : (s.withLog x).log = x := rfl
@[simp] theorem State.withLog_cells (s : State) (x : StationLog) : (s.withLog x).cells = s.cells := rfl
@[simp] theorem State.withLog_bus (s : State) (x : StationLog) : (s.withLog x).bus = s.bus := rfl
@[simp] theorem State.withLog_params (s : State) (x : StationLog) : (s.withLog x).params = s.params := rfl
@[simp] theorem State.withLog_mem (s : State) (x : StationLog) : (s.withLog x).mem = s.mem := rfl
@[simp] theorem State.withLog_phase (s : State) (x : StationLog) : (s.withLog x).phase = s.phase := rfl
@[simp] theorem State.withLog_periods (s : State) (x : StationLog) : (s.withLog x).periods = s.periods := rfl
@[simp] theorem State.withLog_txfaultPin (s : State) (x : StationLog) : (s.withLog x).txfaultPin = s.txfaultPin := rfl
@[simp] theorem State.withLog_disablePin (s : State) (x : StationLog) : (s.withLog x).disablePin = s.disablePin := rfl
@[simp] theorem State.withLog_notices (s : State) (x : StationLog) : (s.withLog x).notices = s.notices := rfl
@[simp] theorem State.withLog_samplesOwed (s : State) (x : StationLog) : (s.withLog x).samplesOwed = s.samplesOwed := rfl
@[simp] theorem State.withLog_pagesOwed (s : State) (x : StationLog) : (s.withLog x).pagesOwed = s.pagesOwed := rfl
@[simp] theorem State.withLog_choices (s : State) (x : StationLog) : (s.withLog x).choices = s.choices := rfl
@[simp] theorem State.withLog_pending (s : State) (x : StationLog) : (s.withLog x).pending = s.pending := rfl
@[simp] theorem State.withLog_member (s : State) (x : StationLog) (k : MemberIx) : (s.withLog x).member k = s.member k := rfl
@[simp] theorem State.withLog_channel (s : State) (x : StationLog) (k : ChannelIx) : (s.withLog x).channel k = s.channel k := rfl
@[simp] theorem State.withLog_session (s : State) (x : StationLog) (k : Slot) : (s.withLog x).session k = s.session k := rfl
@[simp] theorem State.withLog_read (s : State) (x : StationLog) (k : Nat) : (s.withLog x).read k = s.read k := rfl
@[simp] theorem State.withLog_clock (s : State) (x : StationLog) : (s.withLog x).clock = s.clock := rfl
@[simp] theorem State.withLog_ready (s : State) (x : StationLog) : (s.withLog x).ready = s.ready := rfl

/-! ### withCells -/

@[simp] theorem State.withCells_members (s : State) (x : Cells) : (s.withCells x).members = s.members := rfl
@[simp] theorem State.withCells_channels (s : State) (x : Cells) : (s.withCells x).channels = s.channels := rfl
@[simp] theorem State.withCells_sessions (s : State) (x : Cells) : (s.withCells x).sessions = s.sessions := rfl
@[simp] theorem State.withCells_floor (s : State) (x : Cells) : (s.withCells x).floor = s.floor := rfl
@[simp] theorem State.withCells_key (s : State) (x : Cells) : (s.withCells x).key = s.key := rfl
@[simp] theorem State.withCells_playout (s : State) (x : Cells) : (s.withCells x).playout = s.playout := rfl
@[simp] theorem State.withCells_receive (s : State) (x : Cells) : (s.withCells x).receive = s.receive := rfl
@[simp] theorem State.withCells_detector (s : State) (x : Cells) : (s.withCells x).detector = s.detector := rfl
@[simp] theorem State.withCells_ident (s : State) (x : Cells) : (s.withCells x).ident = s.ident := rfl
@[simp] theorem State.withCells_supervisor (s : State) (x : Cells) : (s.withCells x).supervisor = s.supervisor := rfl
@[simp] theorem State.withCells_log (s : State) (x : Cells) : (s.withCells x).log = s.log := rfl
@[simp] theorem State.withCells_cells (s : State) (x : Cells) : (s.withCells x).cells = x := rfl
@[simp] theorem State.withCells_bus (s : State) (x : Cells) : (s.withCells x).bus = s.bus := rfl
@[simp] theorem State.withCells_params (s : State) (x : Cells) : (s.withCells x).params = s.params := rfl
@[simp] theorem State.withCells_mem (s : State) (x : Cells) : (s.withCells x).mem = s.mem := rfl
@[simp] theorem State.withCells_phase (s : State) (x : Cells) : (s.withCells x).phase = s.phase := rfl
@[simp] theorem State.withCells_periods (s : State) (x : Cells) : (s.withCells x).periods = s.periods := rfl
@[simp] theorem State.withCells_txfaultPin (s : State) (x : Cells) : (s.withCells x).txfaultPin = s.txfaultPin := rfl
@[simp] theorem State.withCells_disablePin (s : State) (x : Cells) : (s.withCells x).disablePin = s.disablePin := rfl
@[simp] theorem State.withCells_notices (s : State) (x : Cells) : (s.withCells x).notices = s.notices := rfl
@[simp] theorem State.withCells_samplesOwed (s : State) (x : Cells) : (s.withCells x).samplesOwed = s.samplesOwed := rfl
@[simp] theorem State.withCells_pagesOwed (s : State) (x : Cells) : (s.withCells x).pagesOwed = s.pagesOwed := rfl
@[simp] theorem State.withCells_choices (s : State) (x : Cells) : (s.withCells x).choices = s.choices := rfl
@[simp] theorem State.withCells_pending (s : State) (x : Cells) : (s.withCells x).pending = s.pending := rfl
@[simp] theorem State.withCells_member (s : State) (x : Cells) (k : MemberIx) : (s.withCells x).member k = s.member k := rfl
@[simp] theorem State.withCells_channel (s : State) (x : Cells) (k : ChannelIx) : (s.withCells x).channel k = s.channel k := rfl
@[simp] theorem State.withCells_session (s : State) (x : Cells) (k : Slot) : (s.withCells x).session k = s.session k := rfl
@[simp] theorem State.withCells_read (s : State) (x : Cells) (k : Nat) : (s.withCells x).read k = s.read k := rfl
@[simp] theorem State.withCells_clock (s : State) (x : Cells) : (s.withCells x).clock = s.clock := rfl
@[simp] theorem State.withCells_ready (s : State) (x : Cells) : (s.withCells x).ready = s.ready := rfl

/-! ### withBus -/

@[simp] theorem State.withBus_members (s : State) (x : Bus) : (s.withBus x).members = s.members := rfl
@[simp] theorem State.withBus_channels (s : State) (x : Bus) : (s.withBus x).channels = s.channels := rfl
@[simp] theorem State.withBus_sessions (s : State) (x : Bus) : (s.withBus x).sessions = s.sessions := rfl
@[simp] theorem State.withBus_floor (s : State) (x : Bus) : (s.withBus x).floor = s.floor := rfl
@[simp] theorem State.withBus_key (s : State) (x : Bus) : (s.withBus x).key = s.key := rfl
@[simp] theorem State.withBus_playout (s : State) (x : Bus) : (s.withBus x).playout = s.playout := rfl
@[simp] theorem State.withBus_receive (s : State) (x : Bus) : (s.withBus x).receive = s.receive := rfl
@[simp] theorem State.withBus_detector (s : State) (x : Bus) : (s.withBus x).detector = s.detector := rfl
@[simp] theorem State.withBus_ident (s : State) (x : Bus) : (s.withBus x).ident = s.ident := rfl
@[simp] theorem State.withBus_supervisor (s : State) (x : Bus) : (s.withBus x).supervisor = s.supervisor := rfl
@[simp] theorem State.withBus_log (s : State) (x : Bus) : (s.withBus x).log = s.log := rfl
@[simp] theorem State.withBus_cells (s : State) (x : Bus) : (s.withBus x).cells = s.cells := rfl
@[simp] theorem State.withBus_bus (s : State) (x : Bus) : (s.withBus x).bus = x := rfl
@[simp] theorem State.withBus_params (s : State) (x : Bus) : (s.withBus x).params = s.params := rfl
@[simp] theorem State.withBus_mem (s : State) (x : Bus) : (s.withBus x).mem = s.mem := rfl
@[simp] theorem State.withBus_phase (s : State) (x : Bus) : (s.withBus x).phase = s.phase := rfl
@[simp] theorem State.withBus_periods (s : State) (x : Bus) : (s.withBus x).periods = s.periods := rfl
@[simp] theorem State.withBus_txfaultPin (s : State) (x : Bus) : (s.withBus x).txfaultPin = s.txfaultPin := rfl
@[simp] theorem State.withBus_disablePin (s : State) (x : Bus) : (s.withBus x).disablePin = s.disablePin := rfl
@[simp] theorem State.withBus_notices (s : State) (x : Bus) : (s.withBus x).notices = s.notices := rfl
@[simp] theorem State.withBus_samplesOwed (s : State) (x : Bus) : (s.withBus x).samplesOwed = s.samplesOwed := rfl
@[simp] theorem State.withBus_pagesOwed (s : State) (x : Bus) : (s.withBus x).pagesOwed = s.pagesOwed := rfl
@[simp] theorem State.withBus_choices (s : State) (x : Bus) : (s.withBus x).choices = s.choices := rfl
@[simp] theorem State.withBus_pending (s : State) (x : Bus) : (s.withBus x).pending = s.pending := rfl
@[simp] theorem State.withBus_member (s : State) (x : Bus) (k : MemberIx) : (s.withBus x).member k = s.member k := rfl
@[simp] theorem State.withBus_channel (s : State) (x : Bus) (k : ChannelIx) : (s.withBus x).channel k = s.channel k := rfl
@[simp] theorem State.withBus_session (s : State) (x : Bus) (k : Slot) : (s.withBus x).session k = s.session k := rfl
@[simp] theorem State.withBus_read (s : State) (x : Bus) (k : Nat) : (s.withBus x).read k = s.read k := rfl
@[simp] theorem State.withBus_clock (s : State) (x : Bus) : (s.withBus x).clock = s.clock := rfl
@[simp] theorem State.withBus_ready (s : State) (x : Bus) : (s.withBus x).ready = s.ready := rfl

/-! ### withParams -/

@[simp] theorem State.withParams_members (s : State) (x : Params) : (s.withParams x).members = s.members := rfl
@[simp] theorem State.withParams_channels (s : State) (x : Params) : (s.withParams x).channels = s.channels := rfl
@[simp] theorem State.withParams_sessions (s : State) (x : Params) : (s.withParams x).sessions = s.sessions := rfl
@[simp] theorem State.withParams_floor (s : State) (x : Params) : (s.withParams x).floor = s.floor := rfl
@[simp] theorem State.withParams_key (s : State) (x : Params) : (s.withParams x).key = s.key := rfl
@[simp] theorem State.withParams_playout (s : State) (x : Params) : (s.withParams x).playout = s.playout := rfl
@[simp] theorem State.withParams_receive (s : State) (x : Params) : (s.withParams x).receive = s.receive := rfl
@[simp] theorem State.withParams_detector (s : State) (x : Params) : (s.withParams x).detector = s.detector := rfl
@[simp] theorem State.withParams_ident (s : State) (x : Params) : (s.withParams x).ident = s.ident := rfl
@[simp] theorem State.withParams_supervisor (s : State) (x : Params) : (s.withParams x).supervisor = s.supervisor := rfl
@[simp] theorem State.withParams_log (s : State) (x : Params) : (s.withParams x).log = s.log := rfl
@[simp] theorem State.withParams_cells (s : State) (x : Params) : (s.withParams x).cells = s.cells := rfl
@[simp] theorem State.withParams_bus (s : State) (x : Params) : (s.withParams x).bus = s.bus := rfl
@[simp] theorem State.withParams_params (s : State) (x : Params) : (s.withParams x).params = x := rfl
@[simp] theorem State.withParams_mem (s : State) (x : Params) : (s.withParams x).mem = s.mem := rfl
@[simp] theorem State.withParams_phase (s : State) (x : Params) : (s.withParams x).phase = s.phase := rfl
@[simp] theorem State.withParams_periods (s : State) (x : Params) : (s.withParams x).periods = s.periods := rfl
@[simp] theorem State.withParams_txfaultPin (s : State) (x : Params) : (s.withParams x).txfaultPin = s.txfaultPin := rfl
@[simp] theorem State.withParams_disablePin (s : State) (x : Params) : (s.withParams x).disablePin = s.disablePin := rfl
@[simp] theorem State.withParams_notices (s : State) (x : Params) : (s.withParams x).notices = s.notices := rfl
@[simp] theorem State.withParams_samplesOwed (s : State) (x : Params) : (s.withParams x).samplesOwed = s.samplesOwed := rfl
@[simp] theorem State.withParams_pagesOwed (s : State) (x : Params) : (s.withParams x).pagesOwed = s.pagesOwed := rfl
@[simp] theorem State.withParams_choices (s : State) (x : Params) : (s.withParams x).choices = s.choices := rfl
@[simp] theorem State.withParams_pending (s : State) (x : Params) : (s.withParams x).pending = s.pending := rfl
@[simp] theorem State.withParams_member (s : State) (x : Params) (k : MemberIx) : (s.withParams x).member k = s.member k := rfl
@[simp] theorem State.withParams_channel (s : State) (x : Params) (k : ChannelIx) : (s.withParams x).channel k = s.channel k := rfl
@[simp] theorem State.withParams_session (s : State) (x : Params) (k : Slot) : (s.withParams x).session k = s.session k := rfl
@[simp] theorem State.withParams_read (s : State) (x : Params) (k : Nat) : (s.withParams x).read k = s.read k := rfl
@[simp] theorem State.withParams_clock (s : State) (x : Params) : (s.withParams x).clock = s.clock := rfl
@[simp] theorem State.withParams_ready (s : State) (x : Params) : (s.withParams x).ready = s.ready := rfl

/-! ### withMem -/

@[simp] theorem State.withMem_members (s : State) (x : Memory) : (s.withMem x).members = s.members := rfl
@[simp] theorem State.withMem_channels (s : State) (x : Memory) : (s.withMem x).channels = s.channels := rfl
@[simp] theorem State.withMem_sessions (s : State) (x : Memory) : (s.withMem x).sessions = s.sessions := rfl
@[simp] theorem State.withMem_floor (s : State) (x : Memory) : (s.withMem x).floor = s.floor := rfl
@[simp] theorem State.withMem_key (s : State) (x : Memory) : (s.withMem x).key = s.key := rfl
@[simp] theorem State.withMem_playout (s : State) (x : Memory) : (s.withMem x).playout = s.playout := rfl
@[simp] theorem State.withMem_receive (s : State) (x : Memory) : (s.withMem x).receive = s.receive := rfl
@[simp] theorem State.withMem_detector (s : State) (x : Memory) : (s.withMem x).detector = s.detector := rfl
@[simp] theorem State.withMem_ident (s : State) (x : Memory) : (s.withMem x).ident = s.ident := rfl
@[simp] theorem State.withMem_supervisor (s : State) (x : Memory) : (s.withMem x).supervisor = s.supervisor := rfl
@[simp] theorem State.withMem_log (s : State) (x : Memory) : (s.withMem x).log = s.log := rfl
@[simp] theorem State.withMem_cells (s : State) (x : Memory) : (s.withMem x).cells = s.cells := rfl
@[simp] theorem State.withMem_bus (s : State) (x : Memory) : (s.withMem x).bus = s.bus := rfl
@[simp] theorem State.withMem_params (s : State) (x : Memory) : (s.withMem x).params = s.params := rfl
@[simp] theorem State.withMem_mem (s : State) (x : Memory) : (s.withMem x).mem = x := rfl
@[simp] theorem State.withMem_phase (s : State) (x : Memory) : (s.withMem x).phase = s.phase := rfl
@[simp] theorem State.withMem_periods (s : State) (x : Memory) : (s.withMem x).periods = s.periods := rfl
@[simp] theorem State.withMem_txfaultPin (s : State) (x : Memory) : (s.withMem x).txfaultPin = s.txfaultPin := rfl
@[simp] theorem State.withMem_disablePin (s : State) (x : Memory) : (s.withMem x).disablePin = s.disablePin := rfl
@[simp] theorem State.withMem_notices (s : State) (x : Memory) : (s.withMem x).notices = s.notices := rfl
@[simp] theorem State.withMem_samplesOwed (s : State) (x : Memory) : (s.withMem x).samplesOwed = s.samplesOwed := rfl
@[simp] theorem State.withMem_pagesOwed (s : State) (x : Memory) : (s.withMem x).pagesOwed = s.pagesOwed := rfl
@[simp] theorem State.withMem_choices (s : State) (x : Memory) : (s.withMem x).choices = s.choices := rfl
@[simp] theorem State.withMem_pending (s : State) (x : Memory) : (s.withMem x).pending = s.pending := rfl
@[simp] theorem State.withMem_member (s : State) (x : Memory) (k : MemberIx) : (s.withMem x).member k = s.member k := rfl
@[simp] theorem State.withMem_channel (s : State) (x : Memory) (k : ChannelIx) : (s.withMem x).channel k = s.channel k := rfl
@[simp] theorem State.withMem_session (s : State) (x : Memory) (k : Slot) : (s.withMem x).session k = s.session k := rfl
@[simp] theorem State.withMem_clock (s : State) (x : Memory) : (s.withMem x).clock = s.clock := rfl
@[simp] theorem State.withMem_ready (s : State) (x : Memory) : (s.withMem x).ready = s.ready := rfl

/-! ### withNotices -/

@[simp] theorem State.withNotices_members (s : State) (x : List Notice) : (s.withNotices x).members = s.members := rfl
@[simp] theorem State.withNotices_channels (s : State) (x : List Notice) : (s.withNotices x).channels = s.channels := rfl
@[simp] theorem State.withNotices_sessions (s : State) (x : List Notice) : (s.withNotices x).sessions = s.sessions := rfl
@[simp] theorem State.withNotices_floor (s : State) (x : List Notice) : (s.withNotices x).floor = s.floor := rfl
@[simp] theorem State.withNotices_key (s : State) (x : List Notice) : (s.withNotices x).key = s.key := rfl
@[simp] theorem State.withNotices_playout (s : State) (x : List Notice) : (s.withNotices x).playout = s.playout := rfl
@[simp] theorem State.withNotices_receive (s : State) (x : List Notice) : (s.withNotices x).receive = s.receive := rfl
@[simp] theorem State.withNotices_detector (s : State) (x : List Notice) : (s.withNotices x).detector = s.detector := rfl
@[simp] theorem State.withNotices_ident (s : State) (x : List Notice) : (s.withNotices x).ident = s.ident := rfl
@[simp] theorem State.withNotices_supervisor (s : State) (x : List Notice) : (s.withNotices x).supervisor = s.supervisor := rfl
@[simp] theorem State.withNotices_log (s : State) (x : List Notice) : (s.withNotices x).log = s.log := rfl
@[simp] theorem State.withNotices_cells (s : State) (x : List Notice) : (s.withNotices x).cells = s.cells := rfl
@[simp] theorem State.withNotices_bus (s : State) (x : List Notice) : (s.withNotices x).bus = s.bus := rfl
@[simp] theorem State.withNotices_params (s : State) (x : List Notice) : (s.withNotices x).params = s.params := rfl
@[simp] theorem State.withNotices_mem (s : State) (x : List Notice) : (s.withNotices x).mem = s.mem := rfl
@[simp] theorem State.withNotices_phase (s : State) (x : List Notice) : (s.withNotices x).phase = s.phase := rfl
@[simp] theorem State.withNotices_periods (s : State) (x : List Notice) : (s.withNotices x).periods = s.periods := rfl
@[simp] theorem State.withNotices_txfaultPin (s : State) (x : List Notice) : (s.withNotices x).txfaultPin = s.txfaultPin := rfl
@[simp] theorem State.withNotices_disablePin (s : State) (x : List Notice) : (s.withNotices x).disablePin = s.disablePin := rfl
@[simp] theorem State.withNotices_notices (s : State) (x : List Notice) : (s.withNotices x).notices = x := rfl
@[simp] theorem State.withNotices_samplesOwed (s : State) (x : List Notice) : (s.withNotices x).samplesOwed = s.samplesOwed := rfl
@[simp] theorem State.withNotices_pagesOwed (s : State) (x : List Notice) : (s.withNotices x).pagesOwed = s.pagesOwed := rfl
@[simp] theorem State.withNotices_choices (s : State) (x : List Notice) : (s.withNotices x).choices = s.choices := rfl
@[simp] theorem State.withNotices_pending (s : State) (x : List Notice) : (s.withNotices x).pending = s.pending := rfl
@[simp] theorem State.withNotices_member (s : State) (x : List Notice) (k : MemberIx) : (s.withNotices x).member k = s.member k := rfl
@[simp] theorem State.withNotices_channel (s : State) (x : List Notice) (k : ChannelIx) : (s.withNotices x).channel k = s.channel k := rfl
@[simp] theorem State.withNotices_session (s : State) (x : List Notice) (k : Slot) : (s.withNotices x).session k = s.session k := rfl
@[simp] theorem State.withNotices_read (s : State) (x : List Notice) (k : Nat) : (s.withNotices x).read k = s.read k := rfl
@[simp] theorem State.withNotices_clock (s : State) (x : List Notice) : (s.withNotices x).clock = s.clock := rfl
@[simp] theorem State.withNotices_ready (s : State) (x : List Notice) : (s.withNotices x).ready = s.ready := rfl

/-! ### withGrant -/

@[simp] theorem State.withGrant_members (s : State) (x : Option Grant) : (s.withGrant x).members = s.members := rfl
@[simp] theorem State.withGrant_channels (s : State) (x : Option Grant) : (s.withGrant x).channels = s.channels := rfl
@[simp] theorem State.withGrant_sessions (s : State) (x : Option Grant) : (s.withGrant x).sessions = s.sessions := rfl
@[simp] theorem State.withGrant_floor (s : State) (x : Option Grant) : (s.withGrant x).floor = s.floor := rfl
@[simp] theorem State.withGrant_key (s : State) (x : Option Grant) : (s.withGrant x).key = { s.key with grant := x } := rfl
@[simp] theorem State.withGrant_playout (s : State) (x : Option Grant) : (s.withGrant x).playout = s.playout := rfl
@[simp] theorem State.withGrant_receive (s : State) (x : Option Grant) : (s.withGrant x).receive = s.receive := rfl
@[simp] theorem State.withGrant_detector (s : State) (x : Option Grant) : (s.withGrant x).detector = s.detector := rfl
@[simp] theorem State.withGrant_ident (s : State) (x : Option Grant) : (s.withGrant x).ident = s.ident := rfl
@[simp] theorem State.withGrant_supervisor (s : State) (x : Option Grant) : (s.withGrant x).supervisor = s.supervisor := rfl
@[simp] theorem State.withGrant_log (s : State) (x : Option Grant) : (s.withGrant x).log = s.log := rfl
@[simp] theorem State.withGrant_cells (s : State) (x : Option Grant) : (s.withGrant x).cells = s.cells := rfl
@[simp] theorem State.withGrant_bus (s : State) (x : Option Grant) : (s.withGrant x).bus = s.bus := rfl
@[simp] theorem State.withGrant_params (s : State) (x : Option Grant) : (s.withGrant x).params = s.params := rfl
@[simp] theorem State.withGrant_mem (s : State) (x : Option Grant) : (s.withGrant x).mem = s.mem := rfl
@[simp] theorem State.withGrant_phase (s : State) (x : Option Grant) : (s.withGrant x).phase = s.phase := rfl
@[simp] theorem State.withGrant_periods (s : State) (x : Option Grant) : (s.withGrant x).periods = s.periods := rfl
@[simp] theorem State.withGrant_txfaultPin (s : State) (x : Option Grant) : (s.withGrant x).txfaultPin = s.txfaultPin := rfl
@[simp] theorem State.withGrant_disablePin (s : State) (x : Option Grant) : (s.withGrant x).disablePin = s.disablePin := rfl
@[simp] theorem State.withGrant_notices (s : State) (x : Option Grant) : (s.withGrant x).notices = s.notices := rfl
@[simp] theorem State.withGrant_samplesOwed (s : State) (x : Option Grant) : (s.withGrant x).samplesOwed = s.samplesOwed := rfl
@[simp] theorem State.withGrant_pagesOwed (s : State) (x : Option Grant) : (s.withGrant x).pagesOwed = s.pagesOwed := rfl
@[simp] theorem State.withGrant_choices (s : State) (x : Option Grant) : (s.withGrant x).choices = s.choices := rfl
@[simp] theorem State.withGrant_pending (s : State) (x : Option Grant) : (s.withGrant x).pending = s.pending := rfl
@[simp] theorem State.withGrant_member (s : State) (x : Option Grant) (k : MemberIx) : (s.withGrant x).member k = s.member k := rfl
@[simp] theorem State.withGrant_channel (s : State) (x : Option Grant) (k : ChannelIx) : (s.withGrant x).channel k = s.channel k := rfl
@[simp] theorem State.withGrant_session (s : State) (x : Option Grant) (k : Slot) : (s.withGrant x).session k = s.session k := rfl
@[simp] theorem State.withGrant_read (s : State) (x : Option Grant) (k : Nat) : (s.withGrant x).read k = s.read k := rfl
@[simp] theorem State.withGrant_clock (s : State) (x : Option Grant) : (s.withGrant x).clock = s.clock := rfl
@[simp] theorem State.withGrant_ready (s : State) (x : Option Grant) : (s.withGrant x).ready = s.ready := rfl

/-! ### withHolds -/

@[simp] theorem State.withHolds_members (s : State) (x : HoldSources) : (s.withHolds x).members = s.members := rfl
@[simp] theorem State.withHolds_channels (s : State) (x : HoldSources) : (s.withHolds x).channels = s.channels := rfl
@[simp] theorem State.withHolds_sessions (s : State) (x : HoldSources) : (s.withHolds x).sessions = s.sessions := rfl
@[simp] theorem State.withHolds_floor (s : State) (x : HoldSources) : (s.withHolds x).floor = s.floor := rfl
@[simp] theorem State.withHolds_key (s : State) (x : HoldSources) : (s.withHolds x).key = s.key := rfl
@[simp] theorem State.withHolds_playout (s : State) (x : HoldSources) : (s.withHolds x).playout = s.playout := rfl
@[simp] theorem State.withHolds_receive (s : State) (x : HoldSources) : (s.withHolds x).receive = s.receive := rfl
@[simp] theorem State.withHolds_detector (s : State) (x : HoldSources) : (s.withHolds x).detector = { s.detector with holds := x } := rfl
@[simp] theorem State.withHolds_ident (s : State) (x : HoldSources) : (s.withHolds x).ident = s.ident := rfl
@[simp] theorem State.withHolds_supervisor (s : State) (x : HoldSources) : (s.withHolds x).supervisor = s.supervisor := rfl
@[simp] theorem State.withHolds_log (s : State) (x : HoldSources) : (s.withHolds x).log = s.log := rfl
@[simp] theorem State.withHolds_cells (s : State) (x : HoldSources) : (s.withHolds x).cells = s.cells := rfl
@[simp] theorem State.withHolds_bus (s : State) (x : HoldSources) : (s.withHolds x).bus = s.bus := rfl
@[simp] theorem State.withHolds_params (s : State) (x : HoldSources) : (s.withHolds x).params = s.params := rfl
@[simp] theorem State.withHolds_mem (s : State) (x : HoldSources) : (s.withHolds x).mem = s.mem := rfl
@[simp] theorem State.withHolds_phase (s : State) (x : HoldSources) : (s.withHolds x).phase = s.phase := rfl
@[simp] theorem State.withHolds_periods (s : State) (x : HoldSources) : (s.withHolds x).periods = s.periods := rfl
@[simp] theorem State.withHolds_txfaultPin (s : State) (x : HoldSources) : (s.withHolds x).txfaultPin = s.txfaultPin := rfl
@[simp] theorem State.withHolds_disablePin (s : State) (x : HoldSources) : (s.withHolds x).disablePin = s.disablePin := rfl
@[simp] theorem State.withHolds_notices (s : State) (x : HoldSources) : (s.withHolds x).notices = s.notices := rfl
@[simp] theorem State.withHolds_samplesOwed (s : State) (x : HoldSources) : (s.withHolds x).samplesOwed = s.samplesOwed := rfl
@[simp] theorem State.withHolds_pagesOwed (s : State) (x : HoldSources) : (s.withHolds x).pagesOwed = s.pagesOwed := rfl
@[simp] theorem State.withHolds_choices (s : State) (x : HoldSources) : (s.withHolds x).choices = s.choices := rfl
@[simp] theorem State.withHolds_pending (s : State) (x : HoldSources) : (s.withHolds x).pending = s.pending := rfl
@[simp] theorem State.withHolds_member (s : State) (x : HoldSources) (k : MemberIx) : (s.withHolds x).member k = s.member k := rfl
@[simp] theorem State.withHolds_channel (s : State) (x : HoldSources) (k : ChannelIx) : (s.withHolds x).channel k = s.channel k := rfl
@[simp] theorem State.withHolds_session (s : State) (x : HoldSources) (k : Slot) : (s.withHolds x).session k = s.session k := rfl
@[simp] theorem State.withHolds_read (s : State) (x : HoldSources) (k : Nat) : (s.withHolds x).read k = s.read k := rfl
@[simp] theorem State.withHolds_clock (s : State) (x : HoldSources) : (s.withHolds x).clock = s.clock := rfl
@[simp] theorem State.withHolds_ready (s : State) (x : HoldSources) : (s.withHolds x).ready = s.ready := rfl

/-! ### notify -/

@[simp] theorem State.notify_members (s : State) (x : Notice) : (s.notify x).members = s.members := rfl
@[simp] theorem State.notify_channels (s : State) (x : Notice) : (s.notify x).channels = s.channels := rfl
@[simp] theorem State.notify_sessions (s : State) (x : Notice) : (s.notify x).sessions = s.sessions := rfl
@[simp] theorem State.notify_floor (s : State) (x : Notice) : (s.notify x).floor = s.floor := rfl
@[simp] theorem State.notify_key (s : State) (x : Notice) : (s.notify x).key = s.key := rfl
@[simp] theorem State.notify_playout (s : State) (x : Notice) : (s.notify x).playout = s.playout := rfl
@[simp] theorem State.notify_receive (s : State) (x : Notice) : (s.notify x).receive = s.receive := rfl
@[simp] theorem State.notify_detector (s : State) (x : Notice) : (s.notify x).detector = s.detector := rfl
@[simp] theorem State.notify_ident (s : State) (x : Notice) : (s.notify x).ident = s.ident := rfl
@[simp] theorem State.notify_supervisor (s : State) (x : Notice) : (s.notify x).supervisor = s.supervisor := rfl
@[simp] theorem State.notify_log (s : State) (x : Notice) : (s.notify x).log = s.log := rfl
@[simp] theorem State.notify_cells (s : State) (x : Notice) : (s.notify x).cells = s.cells := rfl
@[simp] theorem State.notify_bus (s : State) (x : Notice) : (s.notify x).bus = s.bus := rfl
@[simp] theorem State.notify_params (s : State) (x : Notice) : (s.notify x).params = s.params := rfl
@[simp] theorem State.notify_mem (s : State) (x : Notice) : (s.notify x).mem = s.mem := rfl
@[simp] theorem State.notify_phase (s : State) (x : Notice) : (s.notify x).phase = s.phase := rfl
@[simp] theorem State.notify_periods (s : State) (x : Notice) : (s.notify x).periods = s.periods := rfl
@[simp] theorem State.notify_txfaultPin (s : State) (x : Notice) : (s.notify x).txfaultPin = s.txfaultPin := rfl
@[simp] theorem State.notify_disablePin (s : State) (x : Notice) : (s.notify x).disablePin = s.disablePin := rfl
@[simp] theorem State.notify_notices (s : State) (x : Notice) : (s.notify x).notices = s.notices ++ [x] := rfl
@[simp] theorem State.notify_samplesOwed (s : State) (x : Notice) : (s.notify x).samplesOwed = s.samplesOwed := rfl
@[simp] theorem State.notify_pagesOwed (s : State) (x : Notice) : (s.notify x).pagesOwed = s.pagesOwed := rfl
@[simp] theorem State.notify_choices (s : State) (x : Notice) : (s.notify x).choices = s.choices := rfl
@[simp] theorem State.notify_pending (s : State) (x : Notice) : (s.notify x).pending = s.pending := rfl
@[simp] theorem State.notify_member (s : State) (x : Notice) (k : MemberIx) : (s.notify x).member k = s.member k := rfl
@[simp] theorem State.notify_channel (s : State) (x : Notice) (k : ChannelIx) : (s.notify x).channel k = s.channel k := rfl
@[simp] theorem State.notify_session (s : State) (x : Notice) (k : Slot) : (s.notify x).session k = s.session k := rfl
@[simp] theorem State.notify_read (s : State) (x : Notice) (k : Nat) : (s.notify x).read k = s.read k := rfl
@[simp] theorem State.notify_clock (s : State) (x : Notice) : (s.notify x).clock = s.clock := rfl
@[simp] theorem State.notify_ready (s : State) (x : Notice) : (s.notify x).ready = s.ready := rfl

/-! ### write -/

@[simp] theorem State.write_members (s : State) (a : Nat) (w : Word) : (s.write a w).members = s.members := rfl
@[simp] theorem State.write_channels (s : State) (a : Nat) (w : Word) : (s.write a w).channels = s.channels := rfl
@[simp] theorem State.write_sessions (s : State) (a : Nat) (w : Word) : (s.write a w).sessions = s.sessions := rfl
@[simp] theorem State.write_floor (s : State) (a : Nat) (w : Word) : (s.write a w).floor = s.floor := rfl
@[simp] theorem State.write_key (s : State) (a : Nat) (w : Word) : (s.write a w).key = s.key := rfl
@[simp] theorem State.write_playout (s : State) (a : Nat) (w : Word) : (s.write a w).playout = s.playout := rfl
@[simp] theorem State.write_receive (s : State) (a : Nat) (w : Word) : (s.write a w).receive = s.receive := rfl
@[simp] theorem State.write_detector (s : State) (a : Nat) (w : Word) : (s.write a w).detector = s.detector := rfl
@[simp] theorem State.write_ident (s : State) (a : Nat) (w : Word) : (s.write a w).ident = s.ident := rfl
@[simp] theorem State.write_supervisor (s : State) (a : Nat) (w : Word) : (s.write a w).supervisor = s.supervisor := rfl
@[simp] theorem State.write_log (s : State) (a : Nat) (w : Word) : (s.write a w).log = s.log := rfl
@[simp] theorem State.write_cells (s : State) (a : Nat) (w : Word) : (s.write a w).cells = s.cells := rfl
@[simp] theorem State.write_bus (s : State) (a : Nat) (w : Word) : (s.write a w).bus = s.bus := rfl
@[simp] theorem State.write_params (s : State) (a : Nat) (w : Word) : (s.write a w).params = s.params := rfl
@[simp] theorem State.write_mem (s : State) (a : Nat) (w : Word) : (s.write a w).mem = s.mem.write a w := rfl
@[simp] theorem State.write_phase (s : State) (a : Nat) (w : Word) : (s.write a w).phase = s.phase := rfl
@[simp] theorem State.write_periods (s : State) (a : Nat) (w : Word) : (s.write a w).periods = s.periods := rfl
@[simp] theorem State.write_txfaultPin (s : State) (a : Nat) (w : Word) : (s.write a w).txfaultPin = s.txfaultPin := rfl
@[simp] theorem State.write_disablePin (s : State) (a : Nat) (w : Word) : (s.write a w).disablePin = s.disablePin := rfl
@[simp] theorem State.write_notices (s : State) (a : Nat) (w : Word) : (s.write a w).notices = s.notices := rfl
@[simp] theorem State.write_samplesOwed (s : State) (a : Nat) (w : Word) : (s.write a w).samplesOwed = s.samplesOwed := rfl
@[simp] theorem State.write_pagesOwed (s : State) (a : Nat) (w : Word) : (s.write a w).pagesOwed = s.pagesOwed := rfl
@[simp] theorem State.write_choices (s : State) (a : Nat) (w : Word) : (s.write a w).choices = s.choices := rfl
@[simp] theorem State.write_pending (s : State) (a : Nat) (w : Word) : (s.write a w).pending = s.pending := rfl
@[simp] theorem State.write_member (s : State) (a : Nat) (w : Word) (k : MemberIx) : (s.write a w).member k = s.member k := rfl
@[simp] theorem State.write_channel (s : State) (a : Nat) (w : Word) (k : ChannelIx) : (s.write a w).channel k = s.channel k := rfl
@[simp] theorem State.write_session (s : State) (a : Nat) (w : Word) (k : Slot) : (s.write a w).session k = s.session k := rfl
@[simp] theorem State.write_clock (s : State) (a : Nat) (w : Word) : (s.write a w).clock = s.clock := rfl
@[simp] theorem State.write_ready (s : State) (a : Nat) (w : Word) : (s.write a w).ready = s.ready := rfl

/-! ### writeAll -/

@[simp] theorem State.writeAll_members (s : State) (a : Nat) (ws : List Word) : (s.writeAll a ws).members = s.members := rfl
@[simp] theorem State.writeAll_channels (s : State) (a : Nat) (ws : List Word) : (s.writeAll a ws).channels = s.channels := rfl
@[simp] theorem State.writeAll_sessions (s : State) (a : Nat) (ws : List Word) : (s.writeAll a ws).sessions = s.sessions := rfl
@[simp] theorem State.writeAll_floor (s : State) (a : Nat) (ws : List Word) : (s.writeAll a ws).floor = s.floor := rfl
@[simp] theorem State.writeAll_key (s : State) (a : Nat) (ws : List Word) : (s.writeAll a ws).key = s.key := rfl
@[simp] theorem State.writeAll_playout (s : State) (a : Nat) (ws : List Word) : (s.writeAll a ws).playout = s.playout := rfl
@[simp] theorem State.writeAll_receive (s : State) (a : Nat) (ws : List Word) : (s.writeAll a ws).receive = s.receive := rfl
@[simp] theorem State.writeAll_detector (s : State) (a : Nat) (ws : List Word) : (s.writeAll a ws).detector = s.detector := rfl
@[simp] theorem State.writeAll_ident (s : State) (a : Nat) (ws : List Word) : (s.writeAll a ws).ident = s.ident := rfl
@[simp] theorem State.writeAll_supervisor (s : State) (a : Nat) (ws : List Word) : (s.writeAll a ws).supervisor = s.supervisor := rfl
@[simp] theorem State.writeAll_log (s : State) (a : Nat) (ws : List Word) : (s.writeAll a ws).log = s.log := rfl
@[simp] theorem State.writeAll_cells (s : State) (a : Nat) (ws : List Word) : (s.writeAll a ws).cells = s.cells := rfl
@[simp] theorem State.writeAll_bus (s : State) (a : Nat) (ws : List Word) : (s.writeAll a ws).bus = s.bus := rfl
@[simp] theorem State.writeAll_params (s : State) (a : Nat) (ws : List Word) : (s.writeAll a ws).params = s.params := rfl
@[simp] theorem State.writeAll_mem (s : State) (a : Nat) (ws : List Word) : (s.writeAll a ws).mem = s.mem.writeAll a ws := rfl
@[simp] theorem State.writeAll_phase (s : State) (a : Nat) (ws : List Word) : (s.writeAll a ws).phase = s.phase := rfl
@[simp] theorem State.writeAll_periods (s : State) (a : Nat) (ws : List Word) : (s.writeAll a ws).periods = s.periods := rfl
@[simp] theorem State.writeAll_txfaultPin (s : State) (a : Nat) (ws : List Word) : (s.writeAll a ws).txfaultPin = s.txfaultPin := rfl
@[simp] theorem State.writeAll_disablePin (s : State) (a : Nat) (ws : List Word) : (s.writeAll a ws).disablePin = s.disablePin := rfl
@[simp] theorem State.writeAll_notices (s : State) (a : Nat) (ws : List Word) : (s.writeAll a ws).notices = s.notices := rfl
@[simp] theorem State.writeAll_samplesOwed (s : State) (a : Nat) (ws : List Word) : (s.writeAll a ws).samplesOwed = s.samplesOwed := rfl
@[simp] theorem State.writeAll_pagesOwed (s : State) (a : Nat) (ws : List Word) : (s.writeAll a ws).pagesOwed = s.pagesOwed := rfl
@[simp] theorem State.writeAll_choices (s : State) (a : Nat) (ws : List Word) : (s.writeAll a ws).choices = s.choices := rfl
@[simp] theorem State.writeAll_pending (s : State) (a : Nat) (ws : List Word) : (s.writeAll a ws).pending = s.pending := rfl
@[simp] theorem State.writeAll_member (s : State) (a : Nat) (ws : List Word) (k : MemberIx) : (s.writeAll a ws).member k = s.member k := rfl
@[simp] theorem State.writeAll_channel (s : State) (a : Nat) (ws : List Word) (k : ChannelIx) : (s.writeAll a ws).channel k = s.channel k := rfl
@[simp] theorem State.writeAll_session (s : State) (a : Nat) (ws : List Word) (k : Slot) : (s.writeAll a ws).session k = s.session k := rfl
@[simp] theorem State.writeAll_clock (s : State) (a : Nat) (ws : List Word) : (s.writeAll a ws).clock = s.clock := rfl
@[simp] theorem State.writeAll_ready (s : State) (a : Nat) (ws : List Word) : (s.writeAll a ws).ready = s.ready := rfl

/-! ### raise -/

@[simp] theorem State.raise_members (s : State) (e : EventBit) : (s.raise e).members = s.members := rfl
@[simp] theorem State.raise_channels (s : State) (e : EventBit) : (s.raise e).channels = s.channels := rfl
@[simp] theorem State.raise_sessions (s : State) (e : EventBit) : (s.raise e).sessions = s.sessions := rfl
@[simp] theorem State.raise_floor (s : State) (e : EventBit) : (s.raise e).floor = s.floor := rfl
@[simp] theorem State.raise_key (s : State) (e : EventBit) : (s.raise e).key = s.key := rfl
@[simp] theorem State.raise_playout (s : State) (e : EventBit) : (s.raise e).playout = s.playout := rfl
@[simp] theorem State.raise_receive (s : State) (e : EventBit) : (s.raise e).receive = s.receive := rfl
@[simp] theorem State.raise_detector (s : State) (e : EventBit) : (s.raise e).detector = s.detector := rfl
@[simp] theorem State.raise_ident (s : State) (e : EventBit) : (s.raise e).ident = s.ident := rfl
@[simp] theorem State.raise_supervisor (s : State) (e : EventBit) : (s.raise e).supervisor = s.supervisor := rfl
@[simp] theorem State.raise_log (s : State) (e : EventBit) : (s.raise e).log = s.log := rfl
@[simp] theorem State.raise_cells (s : State) (e : EventBit) : (s.raise e).cells = s.cells := rfl
@[simp] theorem State.raise_bus (s : State) (e : EventBit) : (s.raise e).bus = { s.bus with events := s.bus.events ||| bitWord e.index } := rfl
@[simp] theorem State.raise_params (s : State) (e : EventBit) : (s.raise e).params = s.params := rfl
@[simp] theorem State.raise_mem (s : State) (e : EventBit) : (s.raise e).mem = s.mem := rfl
@[simp] theorem State.raise_phase (s : State) (e : EventBit) : (s.raise e).phase = s.phase := rfl
@[simp] theorem State.raise_periods (s : State) (e : EventBit) : (s.raise e).periods = s.periods := rfl
@[simp] theorem State.raise_txfaultPin (s : State) (e : EventBit) : (s.raise e).txfaultPin = s.txfaultPin := rfl
@[simp] theorem State.raise_disablePin (s : State) (e : EventBit) : (s.raise e).disablePin = s.disablePin := rfl
@[simp] theorem State.raise_notices (s : State) (e : EventBit) : (s.raise e).notices = s.notices := rfl
@[simp] theorem State.raise_samplesOwed (s : State) (e : EventBit) : (s.raise e).samplesOwed = s.samplesOwed := rfl
@[simp] theorem State.raise_pagesOwed (s : State) (e : EventBit) : (s.raise e).pagesOwed = s.pagesOwed := rfl
@[simp] theorem State.raise_choices (s : State) (e : EventBit) : (s.raise e).choices = s.choices := rfl
@[simp] theorem State.raise_pending (s : State) (e : EventBit) : (s.raise e).pending = s.pending := rfl
@[simp] theorem State.raise_member (s : State) (e : EventBit) (k : MemberIx) : (s.raise e).member k = s.member k := rfl
@[simp] theorem State.raise_channel (s : State) (e : EventBit) (k : ChannelIx) : (s.raise e).channel k = s.channel k := rfl
@[simp] theorem State.raise_session (s : State) (e : EventBit) (k : Slot) : (s.raise e).session k = s.session k := rfl
@[simp] theorem State.raise_read (s : State) (e : EventBit) (k : Nat) : (s.raise e).read k = s.read k := rfl
@[simp] theorem State.raise_clock (s : State) (e : EventBit) : (s.raise e).clock = s.clock := rfl
@[simp] theorem State.raise_ready (s : State) (e : EventBit) : (s.raise e).ready = s.ready := rfl

/-! ### setAnswered -/

@[simp] theorem State.setAnswered_members (s : State) (n : Slot) : (s.setAnswered n).members = s.members := rfl
@[simp] theorem State.setAnswered_channels (s : State) (n : Slot) : (s.setAnswered n).channels = s.channels := rfl
@[simp] theorem State.setAnswered_sessions (s : State) (n : Slot) : (s.setAnswered n).sessions = s.sessions := rfl
@[simp] theorem State.setAnswered_floor (s : State) (n : Slot) : (s.setAnswered n).floor = s.floor := rfl
@[simp] theorem State.setAnswered_key (s : State) (n : Slot) : (s.setAnswered n).key = s.key := rfl
@[simp] theorem State.setAnswered_playout (s : State) (n : Slot) : (s.setAnswered n).playout = s.playout := rfl
@[simp] theorem State.setAnswered_receive (s : State) (n : Slot) : (s.setAnswered n).receive = s.receive := rfl
@[simp] theorem State.setAnswered_detector (s : State) (n : Slot) : (s.setAnswered n).detector = s.detector := rfl
@[simp] theorem State.setAnswered_ident (s : State) (n : Slot) : (s.setAnswered n).ident = s.ident := rfl
@[simp] theorem State.setAnswered_supervisor (s : State) (n : Slot) : (s.setAnswered n).supervisor = s.supervisor := rfl
@[simp] theorem State.setAnswered_log (s : State) (n : Slot) : (s.setAnswered n).log = s.log := rfl
@[simp] theorem State.setAnswered_cells (s : State) (n : Slot) : (s.setAnswered n).cells = s.cells := rfl
@[simp] theorem State.setAnswered_bus (s : State) (n : Slot) : (s.setAnswered n).bus = { s.bus with answered := s.bus.answered ||| bitWord n.val } := rfl
@[simp] theorem State.setAnswered_params (s : State) (n : Slot) : (s.setAnswered n).params = s.params := rfl
@[simp] theorem State.setAnswered_mem (s : State) (n : Slot) : (s.setAnswered n).mem = s.mem := rfl
@[simp] theorem State.setAnswered_phase (s : State) (n : Slot) : (s.setAnswered n).phase = s.phase := rfl
@[simp] theorem State.setAnswered_periods (s : State) (n : Slot) : (s.setAnswered n).periods = s.periods := rfl
@[simp] theorem State.setAnswered_txfaultPin (s : State) (n : Slot) : (s.setAnswered n).txfaultPin = s.txfaultPin := rfl
@[simp] theorem State.setAnswered_disablePin (s : State) (n : Slot) : (s.setAnswered n).disablePin = s.disablePin := rfl
@[simp] theorem State.setAnswered_notices (s : State) (n : Slot) : (s.setAnswered n).notices = s.notices := rfl
@[simp] theorem State.setAnswered_samplesOwed (s : State) (n : Slot) : (s.setAnswered n).samplesOwed = s.samplesOwed := rfl
@[simp] theorem State.setAnswered_pagesOwed (s : State) (n : Slot) : (s.setAnswered n).pagesOwed = s.pagesOwed := rfl
@[simp] theorem State.setAnswered_choices (s : State) (n : Slot) : (s.setAnswered n).choices = s.choices := rfl
@[simp] theorem State.setAnswered_pending (s : State) (n : Slot) : (s.setAnswered n).pending = s.pending := rfl
@[simp] theorem State.setAnswered_member (s : State) (n : Slot) (k : MemberIx) : (s.setAnswered n).member k = s.member k := rfl
@[simp] theorem State.setAnswered_channel (s : State) (n : Slot) (k : ChannelIx) : (s.setAnswered n).channel k = s.channel k := rfl
@[simp] theorem State.setAnswered_session (s : State) (n : Slot) (k : Slot) : (s.setAnswered n).session k = s.session k := rfl
@[simp] theorem State.setAnswered_read (s : State) (n : Slot) (k : Nat) : (s.setAnswered n).read k = s.read k := rfl
@[simp] theorem State.setAnswered_clock (s : State) (n : Slot) : (s.setAnswered n).clock = s.clock := rfl
@[simp] theorem State.setAnswered_ready (s : State) (n : Slot) : (s.setAnswered n).ready = s.ready := rfl

/-! ### setNews -/

@[simp] theorem State.setNews_members (s : State) (n : Slot) : (s.setNews n).members = s.members := rfl
@[simp] theorem State.setNews_channels (s : State) (n : Slot) : (s.setNews n).channels = s.channels := rfl
@[simp] theorem State.setNews_sessions (s : State) (n : Slot) : (s.setNews n).sessions = s.sessions := rfl
@[simp] theorem State.setNews_floor (s : State) (n : Slot) : (s.setNews n).floor = s.floor := rfl
@[simp] theorem State.setNews_key (s : State) (n : Slot) : (s.setNews n).key = s.key := rfl
@[simp] theorem State.setNews_playout (s : State) (n : Slot) : (s.setNews n).playout = s.playout := rfl
@[simp] theorem State.setNews_receive (s : State) (n : Slot) : (s.setNews n).receive = s.receive := rfl
@[simp] theorem State.setNews_detector (s : State) (n : Slot) : (s.setNews n).detector = s.detector := rfl
@[simp] theorem State.setNews_ident (s : State) (n : Slot) : (s.setNews n).ident = s.ident := rfl
@[simp] theorem State.setNews_supervisor (s : State) (n : Slot) : (s.setNews n).supervisor = s.supervisor := rfl
@[simp] theorem State.setNews_log (s : State) (n : Slot) : (s.setNews n).log = s.log := rfl
@[simp] theorem State.setNews_cells (s : State) (n : Slot) : (s.setNews n).cells = s.cells := rfl
@[simp] theorem State.setNews_bus (s : State) (n : Slot) : (s.setNews n).bus = { s.bus with news := s.bus.news ||| bitWord n.val } := rfl
@[simp] theorem State.setNews_params (s : State) (n : Slot) : (s.setNews n).params = s.params := rfl
@[simp] theorem State.setNews_mem (s : State) (n : Slot) : (s.setNews n).mem = s.mem := rfl
@[simp] theorem State.setNews_phase (s : State) (n : Slot) : (s.setNews n).phase = s.phase := rfl
@[simp] theorem State.setNews_periods (s : State) (n : Slot) : (s.setNews n).periods = s.periods := rfl
@[simp] theorem State.setNews_txfaultPin (s : State) (n : Slot) : (s.setNews n).txfaultPin = s.txfaultPin := rfl
@[simp] theorem State.setNews_disablePin (s : State) (n : Slot) : (s.setNews n).disablePin = s.disablePin := rfl
@[simp] theorem State.setNews_notices (s : State) (n : Slot) : (s.setNews n).notices = s.notices := rfl
@[simp] theorem State.setNews_samplesOwed (s : State) (n : Slot) : (s.setNews n).samplesOwed = s.samplesOwed := rfl
@[simp] theorem State.setNews_pagesOwed (s : State) (n : Slot) : (s.setNews n).pagesOwed = s.pagesOwed := rfl
@[simp] theorem State.setNews_choices (s : State) (n : Slot) : (s.setNews n).choices = s.choices := rfl
@[simp] theorem State.setNews_pending (s : State) (n : Slot) : (s.setNews n).pending = s.pending := rfl
@[simp] theorem State.setNews_member (s : State) (n : Slot) (k : MemberIx) : (s.setNews n).member k = s.member k := rfl
@[simp] theorem State.setNews_channel (s : State) (n : Slot) (k : ChannelIx) : (s.setNews n).channel k = s.channel k := rfl
@[simp] theorem State.setNews_session (s : State) (n : Slot) (k : Slot) : (s.setNews n).session k = s.session k := rfl
@[simp] theorem State.setNews_read (s : State) (n : Slot) (k : Nat) : (s.setNews n).read k = s.read k := rfl
@[simp] theorem State.setNews_clock (s : State) (n : Slot) : (s.setNews n).clock = s.clock := rfl
@[simp] theorem State.setNews_ready (s : State) (n : Slot) : (s.setNews n).ready = s.ready := rfl

/-! ### Indexed reads after indexed updates -/

@[simp] theorem State.withMember_member (s : State) (m k : MemberIx) (r : Member) :
    (s.withMember m r).member k = if k = m then r else s.member k := by
  simp only [State.member, State.withMember, Fin.getElem_fin, Vector.getElem_set, Fin.ext_iff, eq_comm]

@[simp] theorem State.withChannel_channel (s : State) (c k : ChannelIx) (r : Channel) :
    (s.withChannel c r).channel k = if k = c then r else s.channel k := by
  simp only [State.channel, State.withChannel, Fin.getElem_fin, Vector.getElem_set, Fin.ext_iff, eq_comm]

@[simp] theorem State.withSession_session (s : State) (n k : Slot) (r : Session) :
    (s.withSession n r).session k = if k = n then r else s.session k := by
  simp only [State.session, State.withSession, Fin.getElem_fin, Vector.getElem_set, Fin.ext_iff, eq_comm]

/-! ### The grant and the queue after the updates that do not reach them -/

theorem State.entryOf_floor {s t : State} (h : t.floor = s.floor) (n : Slot) : t.entryOf n = s.entryOf n := by
  simp only [State.entryOf, h]

theorem State.grantOf_key {s t : State} (h : t.key = s.key) (n : Slot) : t.grantOf n = s.grantOf n := by
  simp only [State.grantOf, h]

theorem State.holds_key {s t : State} (h : t.key = s.key) (n : Slot) : t.holds n = s.holds n := by
  simp only [State.holds, h]

/-! ### withQueue and without -/

@[simp] theorem Floor.withQueue_queue (f : Floor) (q : List Entry) : (f.withQueue q).queue = q := rfl
@[simp] theorem Floor.withQueue_arrival (f : Floor) (q : List Entry) : (f.withQueue q).arrival = f.arrival := rfl
@[simp] theorem Floor.withQueue_tagCounter (f : Floor) (q : List Entry) : (f.withQueue q).tagCounter = f.tagCounter := rfl
@[simp] theorem Floor.withQueue_hold (f : Floor) (q : List Entry) : (f.withQueue q).hold = f.hold := rfl
@[simp] theorem Floor.withQueue_courtesy (f : Floor) (q : List Entry) : (f.withQueue q).courtesy = f.courtesy := rfl
@[simp] theorem Floor.withQueue_idle (f : Floor) (q : List Entry) : (f.withQueue q).idle = f.idle := rfl
@[simp] theorem Floor.withQueue_granted (f : Floor) (q : List Entry) : (f.withQueue q).granted = f.granted := rfl
@[simp] theorem Floor.without_queue (f : Floor) (n : Slot) : (f.without n).queue = f.queue.filter fun e => e.session != n := rfl
@[simp] theorem Floor.without_arrival (f : Floor) (n : Slot) : (f.without n).arrival = f.arrival := rfl
@[simp] theorem Floor.without_tagCounter (f : Floor) (n : Slot) : (f.without n).tagCounter = f.tagCounter := rfl
@[simp] theorem Floor.without_hold (f : Floor) (n : Slot) : (f.without n).hold = f.hold := rfl
@[simp] theorem Floor.without_courtesy (f : Floor) (n : Slot) : (f.without n).courtesy = f.courtesy := rfl
@[simp] theorem Floor.without_idle (f : Floor) (n : Slot) : (f.without n).idle = f.idle := rfl
@[simp] theorem Floor.without_granted (f : Floor) (n : Slot) : (f.without n).granted = f.granted := rfl

/-- The notices a change of the queue sends (R39, R41): one to each session whose floor state or position it changes. -/
theorem Floor.withQueue_notices (f : Floor) (q : List Entry) (n : Slot) : (f.withQueue q).positionNotices[n] =
    if (f.withQueue q).positionOf n = f.positionOf n then f.positionNotices[n] else f.positionNotices[n] + 1 := by
  show (Vector.ofFn _)[n] = _
  rw [Fin.getElem_fin, Vector.getElem_ofFn]; rfl

/-- A change that leaves the queue as it was sends no notice. -/
theorem Floor.withQueue_self (f : Floor) : f.withQueue f.queue = f := by
  have h : (f.withQueue f.queue).positionNotices = f.positionNotices := by
    apply Vector.ext
    intro i hi
    exact (f.withQueue_notices f.queue ⟨i, hi⟩).trans (if_pos rfl)
  exact congrArg (fun v => ({ f with positionNotices := v } : Floor)) h

/-- A session with no entry has none to lose. -/
theorem Floor.without_none {f : Floor} {n : Slot} (h : ∀ e ∈ f.queue, e.session ≠ n) : f.without n = f := by
  have : (f.queue.filter fun e => e.session != n) = f.queue := List.filter_eq_self.2 fun e he => by simpa using h e he
  unfold Floor.without; rw [this, withQueue_self]

/-- No change of the queue takes a notice back. -/
theorem Floor.withQueue_notices_le (f : Floor) (q : List Entry) (n : Slot) :
    f.positionNotices[n] ≤ (f.withQueue q).positionNotices[n] := by
  rw [withQueue_notices]; split <;> omega

end Sys2Proof.Machine
end

