-- ==== Sys2Proof/Laws/Memory.lean ====
section
/-! SUPPORT. The exchange memory: reading after a store, and the canonical form, which every store keeps. -/

set_option Elab.async false

namespace Sys2Proof.Machine

/-! ## Reading -/

theorem Memory.read_above {m : Memory} {k a : Nat} (h : Memory.above k m = true) (ha : a ≤ k) : m.read a = 0 := by
  induction m with
  | nil => rfl
  | cons c rest ih =>
    simp only [Memory.above, List.all_cons, Bool.and_eq_true, decide_eq_true_eq] at h
    rw [Memory.read, if_neg (by omega)]
    exact ih h.2

theorem Memory.read_write_same (m : Memory) (a : Nat) (w : Word) (h : m.wf = true) : (m.write a w).read a = w := by
  induction m with
  | nil =>
    rw [Memory.write]
    split
    · rename_i hw; rw [hw]; rfl
    · rw [Memory.read, if_pos rfl]
  | cons c rest ih =>
    obtain ⟨k, v⟩ := c
    simp only [Memory.wf, Bool.and_eq_true] at h
    rw [Memory.write]
    split
    · rename_i h1
      split
      · rename_i hw; rw [hw, Memory.read, if_neg (by omega)]; exact Memory.read_above h.1.2 (by omega)
      · rw [Memory.read, if_pos rfl]
    · split
      · rename_i h2; subst h2
        split
        · rename_i hw; rw [hw]; exact Memory.read_above h.1.2 (Nat.le_refl _)
        · rw [Memory.read, if_pos rfl]
      · rename_i h2; rw [Memory.read, if_neg (Ne.symm h2)]; exact ih h.2

/-- A store leaves every other word as it was, in any memory. -/
theorem Memory.read_write_other (m : Memory) (a b : Nat) (w : Word) (h : b ≠ a) :
    (m.write a w).read b = m.read b := by
  induction m with
  | nil => simp only [Memory.write]; split <;> simp [Memory.read, Ne.symm h]
  | cons c rest ih =>
    obtain ⟨k, v⟩ := c
    simp only [Memory.write]
    split
    · split <;> simp [Memory.read, Ne.symm h]
    · split
      · rename_i h1 h2; subst h2
        split <;> simp [Memory.read, Ne.symm h]
      · simp [Memory.read, ih]

theorem Memory.read_write (m : Memory) (a b : Nat) (w : Word) (h : m.wf = true) :
    (m.write a w).read b = if b = a then w else m.read b := by
  split
  · rename_i hb; subst hb; exact Memory.read_write_same _ _ _ h
  · rename_i hb; exact Memory.read_write_other _ _ _ _ hb

/-- Stores from `a` on leave every other address as it was. -/
theorem Memory.read_writeAll_other (m : Memory) (a b : Nat) (ws : List Word) (h : b < a ∨ a + ws.length ≤ b) :
    (m.writeAll a ws).read b = m.read b := by
  induction ws generalizing m a with
  | nil => rfl
  | cons w ws ih =>
    simp only [List.length_cons] at h
    rw [Memory.writeAll, ih _ _ (by omega), Memory.read_write_other _ _ _ _ (by omega)]

/-! ## The canonical form -/

theorem Memory.above_cons {b k : Nat} {v : Word} {m : Memory} :
    Memory.above b ((k, v) :: m) = true ↔ b < k ∧ Memory.above b m = true := by
  simp only [Memory.above, List.all_cons, Bool.and_eq_true, decide_eq_true_eq]

theorem Memory.above_write (m : Memory) (b a : Nat) (w : Word) (hb : b < a) (h : Memory.above b m = true) :
    Memory.above b (m.write a w) = true := by
  induction m with
  | nil => rw [Memory.write]; split; · exact h
           · exact Memory.above_cons.2 ⟨hb, h⟩
  | cons c rest ih =>
    obtain ⟨k, v⟩ := c
    have h2 := Memory.above_cons.1 h
    rw [Memory.write]
    split
    · split
      · exact h
      · exact Memory.above_cons.2 ⟨hb, h⟩
    · split
      · split
        · exact h2.2
        · exact Memory.above_cons.2 ⟨hb, h2.2⟩
      · exact Memory.above_cons.2 ⟨h2.1, ih h2.2⟩

theorem Memory.above_of_above {m : Memory} {a b : Nat} (hab : a < b) (h : Memory.above b m = true) :
    Memory.above a m = true := by
  simp only [Memory.above, List.all_eq_true, decide_eq_true_eq] at h ⊢
  intro c hc
  have := h c hc
  omega

theorem Memory.write_wf (m : Memory) (a : Nat) (w : Word) (h : m.wf = true) : (m.write a w).wf = true := by
  induction m with
  | nil => simp only [Memory.write]; split <;> simp_all [Memory.wf, Memory.above]
  | cons c rest ih =>
    obtain ⟨k, v⟩ := c
    simp only [Memory.wf, Bool.and_eq_true, bne_iff_ne] at h
    simp only [Memory.write]
    split
    · rename_i h1
      split
      · simpa [Memory.wf] using h
      · rename_i hw
        have : Memory.above a ((k, v) :: rest) = true := by
          have := Memory.above_of_above h1 h.1.2
          simp only [Memory.above] at this
          simp [Memory.above, h1, this]
        simp only [Memory.wf, Bool.and_eq_true, bne_iff_ne]
        exact ⟨⟨hw, this⟩, h⟩
    · split
      · rename_i h1 h2; subst h2
        split
        · exact h.2
        · rename_i hw; simp only [Memory.wf, Bool.and_eq_true, bne_iff_ne]; exact ⟨⟨hw, h.1.2⟩, h.2⟩
      · rename_i h1 h2
        simp only [Memory.wf, Bool.and_eq_true, bne_iff_ne]
        exact ⟨⟨h.1.1, Memory.above_write _ _ _ _ (by omega) h.1.2⟩, ih h.2⟩

theorem Memory.writeAll_wf (m : Memory) (a : Nat) (ws : List Word) (h : m.wf = true) : (m.writeAll a ws).wf = true := by
  induction ws generalizing m a with
  | nil => exact h
  | cons w ws ih => exact ih _ _ (Memory.write_wf _ _ _ h)

theorem Memory.read_writeAll (m : Memory) (a i : Nat) (ws : List Word) (h : m.wf = true) (hi : i < ws.length) :
    (m.writeAll a ws).read (a + i) = ws.getD i 0 := by
  induction ws generalizing m a i with
  | nil => simp at hi
  | cons w ws ih =>
    cases i with
    | zero =>
      rw [Memory.writeAll, Memory.read_writeAll_other _ _ _ _ (by omega), Memory.read_write _ _ _ _ h]; simp
    | succ i =>
      have := ih (m.write a w) (a + 1) i (Memory.write_wf _ _ _ h) (by simpa using hi)
      rw [show a + (i + 1) = a + 1 + i by omega, Memory.writeAll, this]; simp

theorem reset_memory_wf : State.reset.memoryLaw := rfl

end Sys2Proof.Machine
end

