-- ==== Sys2Proof/Laws/Frame.lean ====
section
/-! SUPPORT. The frame of every shared operation: the parts of the state it can reach. Each lemma is assembled from those of the
operations it calls. -/

set_option Elab.async false

namespace Sys2Proof.Machine

/-! ## Frames compose -/

theorem OnlyChanges.refl (ps : List Part) (s : State) : OnlyChanges ps s s := by
  intro p _; cases p <;> first | rfl | exact fun _ => rfl

theorem OnlyChanges.trans {ps : List Part} {s t u : State} (h1 : OnlyChanges ps s t) (h2 : OnlyChanges ps t u) :
    OnlyChanges ps s u := by
  intro p hp
  have a := h1 p hp
  have b := h2 p hp
  cases p <;> first | exact Eq.trans b a | exact fun n => Eq.trans (b n) (a n)

/-- The outer step first. -/
theorem OnlyChanges.after {ps : List Part} {s t u : State} (h2 : OnlyChanges ps t u) (h1 : OnlyChanges ps s t) :
    OnlyChanges ps s u := h1.trans h2

theorem OnlyChanges.mono {ps qs : List Part} {s t : State} (h : OnlyChanges ps s t)
    (sub : ∀ p ∈ ps, p ∈ qs := by decide) : OnlyChanges qs s t :=
  fun p hp => h p fun hq => hp (sub p hq)

/-- A state that differs from `s` in nothing the frame speaks of, but for the listed parts. -/
theorem OnlyChanges.of_eq {ps : List Part} {s t : State} (h : t = s) : OnlyChanges ps s t := h ▸ .refl ps s

theorem OnlyChanges.ite {ps : List Part} {s t u : State} {c : Prop} [Decidable c] (h1 : OnlyChanges ps s t)
    (h2 : OnlyChanges ps s u) : OnlyChanges ps s (if c then t else u) := by split <;> assumption

/-! ## The updates -/

section updates
variable {ps : List Part} {s : State}

theorem withMember_frame {m : MemberIx} {r : Member} (h : Part.members ∈ ps := by decide) :
    OnlyChanges ps s (s.withMember m r) := by
  intro p hp; cases p <;> first | exact absurd h hp | rfl | exact fun _ => rfl

theorem withChannel_frame {c : ChannelIx} {r : Channel} (h : Part.channels ∈ ps := by decide) :
    OnlyChanges ps s (s.withChannel c r) := by
  intro p hp; cases p <;> first | exact absurd h hp | rfl | exact fun _ => rfl

theorem withFloor_frame {x : Floor} (h : Part.floor ∈ ps := by decide) : OnlyChanges ps s (s.withFloor x) := by
  intro p hp; cases p <;> first | exact absurd h hp | rfl | exact fun _ => rfl

theorem withKey_frame {x : KeyController} (h : Part.key ∈ ps := by decide) : OnlyChanges ps s (s.withKey x) := by
  intro p hp; cases p <;> first | exact absurd h hp | rfl | exact fun _ => rfl

theorem withGrant_frame {x : Option Grant} (h : Part.key ∈ ps := by decide) : OnlyChanges ps s (s.withGrant x) :=
  withKey_frame h

theorem withPlayout_frame {x : Playout} (h : Part.playout ∈ ps := by decide) : OnlyChanges ps s (s.withPlayout x) := by
  intro p hp; cases p <;> first | exact absurd h hp | rfl | exact fun _ => rfl

theorem withReceive_frame {x : Receive} (h : Part.receive ∈ ps := by decide) : OnlyChanges ps s (s.withReceive x) := by
  intro p hp; cases p <;> first | exact absurd h hp | rfl | exact fun _ => rfl

theorem withDetector_frame {x : Detector} (h : Part.detector ∈ ps := by decide) : OnlyChanges ps s (s.withDetector x) := by
  intro p hp; cases p <;> first | exact absurd h hp | rfl | exact fun _ => rfl

theorem withHolds_frame {x : HoldSources} (h : Part.detector ∈ ps := by decide) : OnlyChanges ps s (s.withHolds x) :=
  withDetector_frame h

theorem withIdent_frame {x : Ident} (h : Part.ident ∈ ps := by decide) : OnlyChanges ps s (s.withIdent x) := by
  intro p hp; cases p <;> first | exact absurd h hp | rfl | exact fun _ => rfl

theorem withSupervisor_frame {x : Supervisor} (h : Part.supervisor ∈ ps := by decide) :
    OnlyChanges ps s (s.withSupervisor x) := by
  intro p hp; cases p <;> first | exact absurd h hp | rfl | exact fun _ => rfl

theorem withLog_frame {x : StationLog} (h : Part.log ∈ ps := by decide) : OnlyChanges ps s (s.withLog x) := by
  intro p hp; cases p <;> first | exact absurd h hp | rfl | exact fun _ => rfl

theorem withCells_frame {x : Cells} (h : Part.cells ∈ ps := by decide) : OnlyChanges ps s (s.withCells x) := by
  intro p hp; cases p <;> first | exact absurd h hp | rfl | exact fun _ => rfl

theorem withParams_frame {x : Params} (h : Part.params ∈ ps := by decide) : OnlyChanges ps s (s.withParams x) := by
  intro p hp; cases p <;> first | exact absurd h hp | rfl | exact fun _ => rfl

theorem withMem_frame {x : Memory} (h : Part.mem ∈ ps := by decide) : OnlyChanges ps s (s.withMem x) := by
  intro p hp; cases p <;> first | exact absurd h hp | rfl | exact fun _ => rfl

theorem write_frame {a : Nat} {w : Word} (h : Part.mem ∈ ps := by decide) : OnlyChanges ps s (s.write a w) :=
  withMem_frame h

theorem writeAll_frame {a : Nat} {ws : List Word} (h : Part.mem ∈ ps := by decide) : OnlyChanges ps s (s.writeAll a ws) :=
  withMem_frame h

theorem withNotices_frame {x : List Notice} (h : Part.notices ∈ ps := by decide) : OnlyChanges ps s (s.withNotices x) := by
  intro p hp; cases p <;> first | exact absurd h hp | rfl | exact fun _ => rfl

theorem notify_frame {x : Notice} (h : Part.notices ∈ ps := by decide) : OnlyChanges ps s (s.notify x) :=
  withNotices_frame h

theorem raise_frame {e : EventBit} (h : Part.events ∈ ps := by decide) : OnlyChanges ps s (s.raise e) := by
  intro p hp; cases p <;> first | exact absurd h hp | rfl | exact fun _ => rfl

theorem setAnswered_frame {n : Slot} (h : Part.answered ∈ ps := by decide) : OnlyChanges ps s (s.setAnswered n) := by
  intro p hp; cases p <;> first | exact absurd h hp | rfl | exact fun _ => rfl

theorem setNews_frame {n : Slot} (h : Part.news ∈ ps := by decide) : OnlyChanges ps s (s.setNews n) := by
  intro p hp; cases p <;> first | exact absurd h hp | rfl | exact fun _ => rfl

/-- A session record rewritten with its change count kept. -/
theorem withSession_frame {n : Slot} {r : Session} (hc : r.changeCount = (s.session n).changeCount := by rfl)
    (h : Part.sessions ∈ ps := by decide) : OnlyChanges ps s (s.withSession n r) := by
  intro p hp
  cases p with
  | sessions => exact absurd h hp
  | changeCounts =>
    intro k; rw [State.withSession_session]
    split
    · rename_i hk; rw [hk, hc]
    · rfl
  | _ => rfl

/-- A change count advanced, the rest of the session record kept. -/
theorem withSession_count_frame {n : Slot} {r : Session} (hr : r.uncounted = (s.session n).uncounted := by rfl)
    (h : Part.changeCounts ∈ ps := by decide) : OnlyChanges ps s (s.withSession n r) := by
  intro p hp
  cases p with
  | changeCounts => exact absurd h hp
  | sessions =>
    intro k; rw [State.withSession_session]
    split
    · rename_i hk; rw [hk, hr]
    · rfl
  | _ => rfl

theorem foldl_frame {α : Type} {f : State → α → State} (hf : ∀ s a, OnlyChanges ps s (f s a)) (l : List α) :
    ∀ s, OnlyChanges ps s (l.foldl f s) := by
  induction l with
  | nil => exact fun s => .refl ps s
  | cons a l ih => exact fun s => (hf s a).trans (ih _)

end updates

/-! ## Publication -/

theorem rewriteRecord_frame (s : State) (n : Slot) : OnlyChanges [.changeCounts, .mem] s (s.rewriteRecord n) :=
  OnlyChanges.trans (withSession_count_frame (s := s)) (OnlyChanges.trans write_frame (OnlyChanges.trans writeAll_frame write_frame))

theorem publishOne_frame (b : State) (n : Slot) (t : State) : OnlyChanges recordParts t (publishOne b n t) := by
  unfold publishOne
  split
  · exact .refl _ _
  · split
    · exact (rewriteRecord_frame t n).mono
    · exact (rewriteRecord_frame t n).mono.trans setNews_frame

theorem publish_frame (b t : State) : OnlyChanges recordParts t (publish b t) :=
  foldl_frame (fun s n => publishOne_frame b n s) _ _

/-- An event reaches what its effect reaches, and the records it publishes. -/
theorem event_frame {ps : List Part} {f : State → State} {s : State} (h : OnlyChanges ps s (f s))
    (sub : ∀ p ∈ recordParts, p ∈ ps := by decide) : OnlyChanges ps s (event f s) :=
  h.trans ((publish_frame s (f s)).mono sub)

end Sys2Proof.Machine
end

