-- ==== Sys2Proof/Laws/Operations.lean ====
section
/-! SUPPORT. The frames of the shared operations of the blocks, from the small ones up to a grant's whole course, an
arbitration and the service of a cell. -/

set_option Elab.async false

namespace Sys2Proof.Machine

/-! ## Members, log, playout -/

theorem setPenalty_frame (s : State) (m : MemberIx) : OnlyChanges [.members] s (s.setPenalty m) :=
  withMember_frame

theorem judgeMark_frame (s : State) : OnlyChanges [.log, .events] s s.judgeMark :=
  .ite withLog_frame (OnlyChanges.after raise_frame withLog_frame)

theorem reserve_frame (s : State) : OnlyChanges [.log, .events] s s.reserve.1 := by
  unfold State.reserve
  dsimp only
  split
  · exact OnlyChanges.after withLog_frame (judgeMark_frame s)
  · exact OnlyChanges.after raise_frame (judgeMark_frame s)

theorem appendLog_frame (s : State) (e : LogEntry) : OnlyChanges [.log, .events, .mem] s (s.appendLog e) :=
  OnlyChanges.after raise_frame (OnlyChanges.after withLog_frame writeAll_frame)

theorem freePlaces_frame (s : State) (l : List Nat) : OnlyChanges [.mem] s (s.freePlaces l) :=
  foldl_frame (fun _ _ => write_frame) l s

theorem sweep_frame (s : State) (d : Word → Bool) : OnlyChanges [.mem, .playout] s (s.sweep d) :=
  OnlyChanges.after withPlayout_frame (OnlyChanges.mono (freePlaces_frame s _))

theorem startSweep_frame (s : State) (t : Word) : OnlyChanges [.mem, .playout] s (s.startSweep t) :=
  OnlyChanges.after (sweep_frame _ _) withPlayout_frame

theorem endPlayout_frame (s : State) : OnlyChanges [.mem, .playout] s s.endPlayout :=
  OnlyChanges.after (sweep_frame _ _) withPlayout_frame

theorem recentre_frame (tag : Word) (k : Nat) : ∀ s, OnlyChanges [.mem, .playout] s (State.recentre tag k s) := by
  induction k with
  | zero => exact fun s => .refl _ s
  | succ k ih =>
    intro s
    unfold State.recentre
    split
    · exact .refl _ _
    · split
      · exact .refl _ _
      · exact OnlyChanges.after (ih _) (OnlyChanges.after withPlayout_frame write_frame)

theorem countDepth_frame (s : State) (tag : Word) (k : Bool) : OnlyChanges [.mem, .playout] s (s.countDepth tag k) :=
  OnlyChanges.after withPlayout_frame (.ite (OnlyChanges.after withPlayout_frame (recentre_frame _ _ _)) (.refl _ _))

theorem makeDue_frame (s : State) (c : Bool) : OnlyChanges [.ident] s (s.makeDue c) :=
  .ite withIdent_frame (.refl _ _)

theorem identOwed_frame (s : State) : OnlyChanges [.ident] s s.identOwed :=
  .ite withIdent_frame (OnlyChanges.after (makeDue_frame _ _) withIdent_frame)

theorem identDone_frame (s : State) : OnlyChanges [.ident, .events] s s.identDone :=
  OnlyChanges.after raise_frame withIdent_frame

/-! ## The grant -/

theorem dropPtt_frame (s : State) : OnlyChanges [.key, .detector, .supervisor, .events] s s.dropPtt :=
  .ite (OnlyChanges.after raise_frame (OnlyChanges.after withSupervisor_frame (OnlyChanges.after withHolds_frame withKey_frame))) (.refl _ _)

theorem assertPtt_frame (s : State) : OnlyChanges [.key, .detector, .events] s s.assertPtt :=
  OnlyChanges.after raise_frame (OnlyChanges.after withHolds_frame withKey_frame)

theorem endForSession_frame (s : State) (n : Slot) (r : EndReason) (t : Word) :
    OnlyChanges [.sessions] s (s.endForSession n r t) := withSession_frame

theorem endForHolder_frame (s : State) (g : Grant) (r : EndReason) : OnlyChanges [.sessions] s (s.endForHolder g r) := by
  unfold State.endForHolder
  split
  · exact .refl _ _
  · exact endForSession_frame _ _ _ _

theorem preKeyEnd_frame (g : Grant) (r : EndReason) (s : State) :
    OnlyChanges [.sessions, .key, .playout, .detector, .mem, .notices] s (preKeyEnd g r s) :=
  OnlyChanges.after withGrant_frame <| OnlyChanges.after notify_frame <| OnlyChanges.after (OnlyChanges.mono (endForHolder_frame _ _ _)) <|
    OnlyChanges.after (OnlyChanges.mono (endPlayout_frame _)) withHolds_frame

theorem chargeTicks_frame (s : State) (g : Grant) (k : Nat) : OnlyChanges [.members] s (s.chargeTicks g k).1 := by
  unfold State.chargeTicks
  split
  · exact .refl _ _
  · exact withMember_frame

theorem startRecovery_frame (s : State) : OnlyChanges [.key, .detector] s s.startRecovery :=
  OnlyChanges.after withHolds_frame withKey_frame

theorem noteTimeout_frame (s : State) (g : Grant) : OnlyChanges [.key] s (s.noteTimeout g) := by
  unfold State.noteTimeout
  split
  · exact .refl _ _
  · exact .ite withKey_frame (.refl _ _)

theorem identEnd_frame (s : State) (g : Grant) : OnlyChanges [.ident, .events] s (s.identEnd g) := by
  unfold State.identEnd
  split
  · exact .refl _ _
  · exact .ite (OnlyChanges.after (identDone_frame _) withIdent_frame) withIdent_frame

theorem penalty_frame (g : Grant) (m : Option MemberIx) (s : State) :
    OnlyChanges [.members] s (match m with
      | some m => if g.endReason = some .timeout then s.setPenalty m else s
      | none => s) := by
  split
  · exact .ite (setPenalty_frame _ _) (.refl _ _)
  · exact .refl _ _

theorem unkey_frame (g : Grant) (s : State) : OnlyChanges endParts s (unkey g s) := by
  unfold unkey
  extract_lets t owed charged g' t1 t2 t3 t4 r t5 t6
  have h1 : OnlyChanges endParts s t1 :=
    OnlyChanges.after (OnlyChanges.mono (appendLog_frame _ _)) <| OnlyChanges.after (OnlyChanges.mono (chargeTicks_frame _ _ _)) (OnlyChanges.mono (dropPtt_frame s))
  have h2 : OnlyChanges endParts s t2 := OnlyChanges.after (OnlyChanges.mono (penalty_frame g' g'.member t1)) h1
  exact OnlyChanges.after withGrant_frame <| OnlyChanges.after notify_frame <| OnlyChanges.after (OnlyChanges.mono (noteTimeout_frame _ _)) <|
    OnlyChanges.after (OnlyChanges.mono (startRecovery_frame _)) <| OnlyChanges.after (OnlyChanges.mono (endForHolder_frame _ _ _)) <| OnlyChanges.after (OnlyChanges.mono (endPlayout_frame _)) <| OnlyChanges.after (OnlyChanges.mono (identEnd_frame _ _)) h2

theorem enterTail_frame (q : Bool) (g : Grant) (s : State) : OnlyChanges endParts s (enterTail q g s) :=
  .ite (OnlyChanges.after (unkey_frame _ _) withPlayout_frame) (OnlyChanges.after withGrant_frame withPlayout_frame)

theorem beginDrain_frame (f : Option Word) (g : Grant) (s : State) : OnlyChanges endParts s (beginDrain f g s) := by
  unfold beginDrain
  dsimp only
  split
  · exact .ite (OnlyChanges.after (enterTail_frame _ _ _) withPlayout_frame) (OnlyChanges.after withGrant_frame withPlayout_frame)
  · exact OnlyChanges.after withGrant_frame withPlayout_frame

theorem applyCause_frame (g : Grant) (r : EndReason) (s : State) : OnlyChanges endParts s (applyCause g r s) := by
  have hp : ∀ q, OnlyChanges endParts s (preKeyEnd g q s) := fun q => (preKeyEnd_frame g q s).mono
  have hu : ∀ g', OnlyChanges endParts s (unkey g' s) := fun g' => unkey_frame g' s
  have ht : ∀ g', OnlyChanges endParts s (enterTail true g' s) := fun g' => enterTail_frame true g' s
  have hd : OnlyChanges endParts s (beginDrain none g s) := beginDrain_frame none g s
  have hr : OnlyChanges endParts s s := .refl _ _
  generalize hpk : preKeyEnd g = pk at *
  generalize huk : unkey = uk at *
  unfold applyCause
  rw [hpk, huk]
  clear hpk huk
  cases causeClass r <;> cases g.state <;> dsimp only <;> first | exact hr | exact hp _ | exact hu _ | exact ht _ | exact hd

theorem takeCause_frame (tag : Word) (r : EndReason) (s : State) : OnlyChanges endParts s (takeCause tag r s) := by
  unfold takeCause
  split
  · exact .refl _ _
  · exact .ite (applyCause_frame _ _ _) (.refl _ _)

theorem sendCause_frame (r : EndReason) (now : Bool) (s : State) : OnlyChanges endParts s (sendCause r now s) := by
  unfold sendCause
  split
  · exact .refl _ _
  · exact .ite (takeCause_frame _ _ _) notify_frame

theorem startPlayout_frame (s : State) : OnlyChanges [.playout] s s.startPlayout := withPlayout_frame

theorem memberKeyUp_frame (g : Grant) (s : State) :
    OnlyChanges [.members, .sessions, .ident, .playout] s (s.memberKeyUp g) := by
  unfold State.memberKeyUp
  extract_lets t t1 t2
  have h : OnlyChanges [.members, .sessions, .ident, .playout] s t := by
    unfold t; split
    · exact withMember_frame
    · exact .refl _ _
  have h1 : OnlyChanges [.members, .sessions, .ident, .playout] s t1 := OnlyChanges.after (OnlyChanges.mono (identOwed_frame _)) h
  have h2 : OnlyChanges [.members, .sessions, .ident, .playout] s t2 := by
    refine OnlyChanges.after ?_ h1
    unfold t2; split
    · exact .ite withSession_frame (.refl _ _)
    · exact .refl _ _
  exact OnlyChanges.after (OnlyChanges.mono (startPlayout_frame _)) h2

theorem keyUpSucceeds_frame (g : Grant) (s : State) : OnlyChanges courseParts s (keyUpSucceeds g s) := by
  unfold keyUpSucceeds
  extract_lets g' t
  have h : OnlyChanges courseParts s t := OnlyChanges.after (OnlyChanges.mono (assertPtt_frame _)) withGrant_frame
  split
  · exact OnlyChanges.after (OnlyChanges.mono (memberKeyUp_frame _ _)) h
  · exact h

theorem keyUp_frame (g : Grant) (s : State) : OnlyChanges courseParts s (keyUp g s) :=
  .ite withGrant_frame <| .ite (OnlyChanges.mono (preKeyEnd_frame _ _ _)) <|
    .ite (OnlyChanges.after (keyUpSucceeds_frame _ _) (OnlyChanges.mono (reserve_frame s))) (OnlyChanges.after (OnlyChanges.mono (preKeyEnd_frame _ _ _)) (OnlyChanges.mono (reserve_frame s)))

theorem enterPrebuffer_frame (g : Grant) (s : State) : OnlyChanges courseParts s (enterPrebuffer g s) :=
  .ite (keyUp_frame _ _) withGrant_frame

theorem leaveGap2_frame (g : Grant) (s : State) : OnlyChanges courseParts s (leaveGap2 g s) := by
  unfold leaveGap2
  dsimp only
  split
  · exact enterPrebuffer_frame _ _
  · exact keyUp_frame _ _

theorem enterGap2_frame (g : Grant) (s : State) : OnlyChanges courseParts s (enterGap2 g s) :=
  .ite (leaveGap2_frame _ _) withGrant_frame

theorem enterGap1_frame (g : Grant) (s : State) : OnlyChanges courseParts s (enterGap1 g s) :=
  .ite (enterGap2_frame _ _) withGrant_frame

theorem forceIdent_frame (g : Grant) (s : State) : OnlyChanges courseParts s (forceIdent g s) :=
  OnlyChanges.after (enterGap1_frame _ _) withIdent_frame

theorem busyWaitOver_frame (g : Grant) (s : State) : OnlyChanges courseParts s (busyWaitOver g s) := by
  unfold busyWaitOver
  split
  · exact (OnlyChanges.mono (preKeyEnd_frame _ _ _))
  · exact forceIdent_frame _ _

theorem enterWaitClear_frame (g : Grant) (s : State) : OnlyChanges courseParts s (enterWaitClear g s) :=
  .ite (enterGap1_frame _ _) (.ite (busyWaitOver_frame _ _) withGrant_frame)

theorem leaveChangeover_frame (g : Grant) (s : State) : OnlyChanges courseParts s (leaveChangeover g s) :=
  .ite (OnlyChanges.after (enterWaitClear_frame _ _) withHolds_frame) (OnlyChanges.after (enterPrebuffer_frame _ _) withHolds_frame)

theorem enterChangeover_frame (g : Grant) (s : State) : OnlyChanges courseParts s (enterChangeover g s) :=
  .ite (OnlyChanges.after (leaveChangeover_frame _ _) <| OnlyChanges.after withHolds_frame withKey_frame)
    (OnlyChanges.after withGrant_frame <| OnlyChanges.after withHolds_frame withKey_frame)

theorem busyChange_frame (s : State) : OnlyChanges courseParts s (busyChange s) := by
  unfold busyChange
  split
  · exact .refl _ _
  · split
    · exact .ite (enterGap1_frame _ _) (.refl _ _)
    · exact .ite (enterWaitClear_frame _ _) (.refl _ _)
    all_goals exact .refl _ _

theorem takeMemberGrant_frame (tag : Word) (n : Slot) (m : MemberIx) (c : ChannelIx) (s : State) :
    OnlyChanges courseParts s (takeMemberGrant tag n m c s) := by
  unfold takeMemberGrant
  extract_lets g0 g k t t1
  have h : OnlyChanges courseParts s t1 := OnlyChanges.after (OnlyChanges.mono (startSweep_frame t tag)) withKey_frame
  exact .ite (OnlyChanges.after (enterChangeover_frame _ _) h)
    (.ite (OnlyChanges.after (enterWaitClear_frame _ _) h) (OnlyChanges.after (enterPrebuffer_frame _ _) h))

theorem takeIdentGrant_frame (tag : Word) (c : ChannelIx) (s : State) :
    OnlyChanges courseParts s (takeIdentGrant tag c s) :=
  .ite (OnlyChanges.after (enterWaitClear_frame _ _) (OnlyChanges.mono (startSweep_frame _ _))) (OnlyChanges.after (keyUp_frame _ _) (OnlyChanges.mono (startSweep_frame _ _)))

/-! ## The floor -/

theorem stopQuiet_frame (s : State) : OnlyChanges [.ident] s s.stopQuiet := withIdent_frame

theorem noteQuiet_frame (s : State) : OnlyChanges [.ident] s s.noteQuiet := .ite withIdent_frame (.refl _ _)

theorem joinQueue_frame (e : Entry) (s : State) : OnlyChanges [.floor, .ident] s (joinQueue e s) :=
  OnlyChanges.after (OnlyChanges.mono (stopQuiet_frame _)) withFloor_frame

theorem removeEntry_frame (s : State) (n : Slot) : OnlyChanges [.floor, .ident] s (s.removeEntry n) := by
  unfold State.removeEntry
  split
  · exact .refl _ _
  · exact OnlyChanges.after (OnlyChanges.mono (noteQuiet_frame _)) withFloor_frame

theorem departEntry_frame (n : Slot) (r : EndReason) (s : State) :
    OnlyChanges [.floor, .ident, .sessions] s (departEntry n r s) := by
  unfold departEntry
  split
  · exact .refl _ _
  · exact OnlyChanges.after withSession_frame (OnlyChanges.mono (removeEntry_frame _ _))

theorem clearQueue_frame (r : EndReason) (s : State) : OnlyChanges [.floor, .ident, .sessions] s (clearQueue r s) :=
  foldl_frame (fun _ _ => departEntry_frame _ _ _) _ _

theorem openGrant_frame (s : State) : OnlyChanges [.floor, .ident] s s.openGrant :=
  OnlyChanges.after (OnlyChanges.mono (stopQuiet_frame _)) withFloor_frame

theorem grantEntry_frame (e : Entry) (s : State) : OnlyChanges arbitrationParts s (grantEntry e s) :=
  OnlyChanges.after (OnlyChanges.mono (takeMemberGrant_frame _ _ _ _ _)) <| OnlyChanges.after withFloor_frame (OnlyChanges.mono (openGrant_frame s))

theorem grantIdent_frame (s : State) : OnlyChanges arbitrationParts s (grantIdent s).1 := by
  unfold grantIdent
  split
  · exact .refl _ _
  · exact OnlyChanges.after (OnlyChanges.mono (takeIdentGrant_frame _ _ _)) (OnlyChanges.mono (openGrant_frame s))

theorem tryEntries_frame (skip : State → Entry → Bool) (l : List Entry) :
    ∀ s, OnlyChanges arbitrationParts s (tryEntries skip l s).1 := by
  induction l with
  | nil => exact fun s => .refl _ s
  | cons e l ih =>
    intro s
    unfold tryEntries
    split
    · exact ih s
    · split
      · exact grantEntry_frame _ _
      · exact OnlyChanges.after (ih _) (OnlyChanges.mono (departEntry_frame _ _ s))
      · exact OnlyChanges.after (ih _) (OnlyChanges.mono (departEntry_frame _ _ s))

theorem tryMarked_frame (s : State) : OnlyChanges arbitrationParts s (tryMarked s).1 := tryEntries_frame _ _ _

theorem tryIdent_frame (s : State) : OnlyChanges arbitrationParts s (tryIdent s).1 := by
  unfold tryIdent
  split
  · exact grantIdent_frame _
  · exact .refl _ _

theorem tryUnmarked_frame (s : State) : OnlyChanges arbitrationParts s (tryUnmarked s).1 := by
  unfold tryUnmarked
  split
  · exact tryEntries_frame _ _ _
  · exact .refl _ _

theorem arbitrate_frame (s : State) : OnlyChanges arbitrationParts s (arbitrate s) := by
  unfold arbitrate
  extract_lets a b
  have ha : OnlyChanges arbitrationParts s a.1 := tryMarked_frame s
  have hb : OnlyChanges arbitrationParts s b.1 := OnlyChanges.after (tryIdent_frame _) ha
  exact .ite (.refl _ _) (.ite ha (.ite hb (OnlyChanges.after (tryUnmarked_frame _) hb)))

theorem takeEnded_frame (k : GrantKind) (r : EndReason) (s : State) : OnlyChanges arbitrationParts s (takeEnded k r s) := by
  unfold takeEnded
  refine OnlyChanges.after (arbitrate_frame _) <| OnlyChanges.after (noteQuiet_frame _).mono <|
    OnlyChanges.after withFloor_frame ?_
  cases s.requeueEntry k r with
  | some e => exact (joinQueue_frame e s).mono
  | none => exact withFloor_frame

/-! ## Sessions and the Supervisor -/

theorem armDeadline_frame (s : State) (n : Slot) (p : Nat) : OnlyChanges [.sessions] s (s.armDeadline n p) :=
  .ite withSession_frame (.refl _ _)

theorem noteRequest_frame (s : State) (n : Slot) : OnlyChanges [.sessions] s (s.noteRequest n) :=
  OnlyChanges.after (armDeadline_frame _ _ _) withSession_frame

theorem endGrantOf_frame (n : Slot) (r : EndReason) (s : State) : OnlyChanges endParts s (endGrantOf n r s) := by
  unfold endGrantOf
  split
  · exact .refl _ _
  · exact takeCause_frame _ _ _

theorem closeSession_frame (n : Slot) (r : EndReason) (s : State) : OnlyChanges closeParts s (closeSession n r s) :=
  OnlyChanges.after (OnlyChanges.mono (departEntry_frame _ _ _)) <| OnlyChanges.after (OnlyChanges.mono (endGrantOf_frame _ _ _)) withSession_frame

theorem expireSession_frame (n : Slot) (s : State) : OnlyChanges closeParts s (expireSession n s) := by
  unfold expireSession
  extract_lets r t t1
  have h : OnlyChanges closeParts s t := withSession_frame
  have h1 : OnlyChanges closeParts s t1 := by
    refine OnlyChanges.after ?_ h
    unfold t1; split
    · exact withMember_frame
    · exact .refl _ _
  exact OnlyChanges.after (OnlyChanges.mono (departEntry_frame _ _ _)) <| OnlyChanges.after (OnlyChanges.mono (endGrantOf_frame _ _ _)) h1

theorem openSession_frame (n : Slot) (m : MemberIx) (s : State) : OnlyChanges [.sessions] s (openSession n m s) :=
  withSession_frame

theorem countFor_frame (s : State) (h : Option Slot) (f : Session → Session)
    (hf : ∀ r, (f r).changeCount = r.changeCount) : OnlyChanges [.sessions] s (s.countFor h f) := by
  unfold State.countFor
  split
  · exact .refl _ _
  · exact withSession_frame (hf _)

theorem stopStation_frame (now : Bool) (s : State) : OnlyChanges endParts s (stopStation now s) :=
  OnlyChanges.after notify_frame <| OnlyChanges.after (sendCause_frame _ _ _) <| OnlyChanges.after (OnlyChanges.mono (dropPtt_frame _)) withSupervisor_frame

theorem enterLockout_frame (r : LockoutReason) (s : State) :
    OnlyChanges [.key, .detector, .supervisor, .events, .notices] s (enterLockout r s) :=
  OnlyChanges.after notify_frame <| OnlyChanges.after (OnlyChanges.mono (dropPtt_frame _)) <| OnlyChanges.after raise_frame withSupervisor_frame

theorem kill_frame (now : Bool) (s : State) : OnlyChanges endParts s (kill now s) :=
  OnlyChanges.after (OnlyChanges.mono (enterLockout_frame _ _)) (sendCause_frame _ _ _)

theorem clearLockout_frame (s : State) : OnlyChanges (.supervisor :: arbitrationParts) s (clearLockout s) :=
  OnlyChanges.after (OnlyChanges.mono (arbitrate_frame _)) withSupervisor_frame

theorem qualifiedFault_frame (now : Bool) (s : State) : OnlyChanges endParts s (qualifiedFault now s) := by
  unfold qualifiedFault
  extract_lets v t t1 h v1 t2 t3
  have h3 : OnlyChanges endParts s t3 :=
    OnlyChanges.after raise_frame <| OnlyChanges.after withSupervisor_frame <| OnlyChanges.after (sendCause_frame _ _ _) withSupervisor_frame
  exact .ite (OnlyChanges.after (OnlyChanges.mono (enterLockout_frame _ _)) h3) h3

theorem judgeTxfault_frame (now : Bool) (s : State) : OnlyChanges endParts s (judgeTxfault now s) := by
  unfold judgeTxfault
  extract_lets a v t
  have h : OnlyChanges endParts s t := withSupervisor_frame
  exact .ite (OnlyChanges.after withSupervisor_frame h)
    (.ite (.ite (OnlyChanges.after (qualifiedFault_frame _ _) h) (OnlyChanges.after withSupervisor_frame h)) h)

theorem assertDisable_frame (now : Bool) (s : State) : OnlyChanges endParts s (assertDisable now s) := by
  unfold assertDisable
  split
  · exact OnlyChanges.after (sendCause_frame _ _ _) <| OnlyChanges.after (OnlyChanges.mono (dropPtt_frame _)) <| OnlyChanges.after raise_frame withSupervisor_frame
  · exact withSupervisor_frame
  · exact .refl _ _

theorem completeDisableRelease_frame (s : State) :
    OnlyChanges (.supervisor :: arbitrationParts) s (completeDisableRelease s) :=
  OnlyChanges.after (OnlyChanges.mono (arbitrate_frame _)) <| OnlyChanges.after raise_frame withSupervisor_frame

/-! ## Samples and boundaries -/

theorem reportDetector_frame (d : Detector) (s : State) : OnlyChanges courseParts s (reportDetector d s) := by
  unfold reportDetector
  extract_lets o t t1
  have h1 : OnlyChanges courseParts s t1 :=
    OnlyChanges.after (.ite (.refl _ _) raise_frame) (withDetector_frame : OnlyChanges courseParts s t)
  exact .ite h1 (OnlyChanges.after (busyChange_frame _) <| OnlyChanges.after raise_frame h1)

theorem captureBlock_frame (b : List Word) (k : Bool) (s : State) :
    OnlyChanges [.receive, .mem, .events] s (captureBlock b k s) :=
  OnlyChanges.after withReceive_frame (.ite (OnlyChanges.after raise_frame writeAll_frame) (OnlyChanges.after raise_frame withReceive_frame))

theorem receiveSample_frame (x : Word) (s : State) : OnlyChanges [.receive, .mem, .events] s (receiveSample x s) :=
  .ite (captureBlock_frame _ _ _) withReceive_frame

theorem detectSample_frame (x : Word) (c : Bool) (s : State) : OnlyChanges courseParts s (detectSample x c s) :=
  .ite (.refl _ _) (reportDetector_frame _ _)

theorem sampleEvent_frame (x : Word) (c : Bool) (s : State) :
    OnlyChanges (.receive :: .samplesOwed :: courseParts) s (sampleEvent x c s) := by
  have h : OnlyChanges (.receive :: .samplesOwed :: courseParts) s (receiveSample x (detectSample x c s)) :=
    OnlyChanges.after (OnlyChanges.mono (receiveSample_frame _ _)) (OnlyChanges.mono (detectSample_frame x c s))
  refine OnlyChanges.after ?_ h
  intro p hp; cases p <;> first | exact absurd (by decide) hp | rfl | exact fun _ => rfl

theorem releasePlace_frame (s : State) (i : Nat) : OnlyChanges [.mem, .playout] s (s.releasePlace i) :=
  OnlyChanges.after withPlayout_frame write_frame

theorem playBlock_frame (g : Grant) (s : State) : OnlyChanges endParts s (playBlock g s) := by
  unfold playBlock
  extract_lets i b t f t1 t2
  have h : OnlyChanges endParts s t2 := OnlyChanges.after (OnlyChanges.mono (countFor_frame _ _ _ (fun _ => rfl))) <|
    OnlyChanges.after withPlayout_frame (OnlyChanges.mono (releasePlace_frame s _))
  split
  · exact OnlyChanges.after (OnlyChanges.mono (armDeadline_frame _ _ _)) h
  · exact h

theorem clearPlace_frame (g : Grant) (c : PlaceCase) (s : State) : OnlyChanges endParts s (clearPlace g c s) := by
  unfold clearPlace
  dsimp only
  split
  · exact OnlyChanges.after (OnlyChanges.mono (countFor_frame _ _ _ (fun _ => rfl))) (OnlyChanges.mono (releasePlace_frame s _))
  · exact OnlyChanges.after (OnlyChanges.mono (countFor_frame _ _ _ (fun _ => rfl))) (OnlyChanges.mono (releasePlace_frame s _))
  · exact OnlyChanges.after (OnlyChanges.mono (countFor_frame _ _ _ (fun _ => rfl))) (OnlyChanges.mono (releasePlace_frame s _))
  · exact .refl _ _
  · exact .refl _ _

theorem finishBoundary_frame (g : Grant) (m : Bool) (s : State) : OnlyChanges endParts s (finishBoundary g m s) := by
  unfold finishBoundary
  extract_lets t f t1
  have h : OnlyChanges endParts s t1 := OnlyChanges.after withPlayout_frame (OnlyChanges.mono (countDepth_frame _ _ _))
  exact .ite (.ite (OnlyChanges.after (enterTail_frame _ _ _) h) h) (OnlyChanges.mono (countDepth_frame _ _ _))

theorem substitute_frame (g : Grant) (s : State) : OnlyChanges endParts s (substitute g s) := by
  unfold substitute
  split
  · exact OnlyChanges.after (OnlyChanges.mono (countFor_frame _ _ _ (fun _ => rfl))) withPlayout_frame
  · exact withPlayout_frame

theorem missBlock_frame (g : Grant) (s : State) : OnlyChanges endParts s (missBlock g s) :=
  .ite (finishBoundary_frame _ _ _) (.ite (OnlyChanges.after (takeCause_frame _ _ _) withPlayout_frame)
    (OnlyChanges.after (finishBoundary_frame _ _ _) (substitute_frame _ _)))

theorem boundaryEvent_frame (s : State) : OnlyChanges endParts s (boundaryEvent s) := by
  unfold boundaryEvent
  split
  · exact .refl _ _
  · refine .ite ?_ (.refl _ _)
    unfold boundaryOf
    dsimp only
    exact .ite (OnlyChanges.after (finishBoundary_frame _ _ _) <| OnlyChanges.after withPlayout_frame <| OnlyChanges.after (playBlock_frame _ _) withPlayout_frame)
      (OnlyChanges.after (missBlock_frame _ _) <| OnlyChanges.after withPlayout_frame <| OnlyChanges.after (clearPlace_frame _ _ _) withPlayout_frame)

/-! ## The service of a cell -/

theorem writeAnswer_frame (c : Cell) (tag : Word) (a : Answer) (s : State) :
    OnlyChanges [.cells, .mem, .answered, .events] s (writeAnswer c tag a s) := by
  unfold writeAnswer
  extract_lets t f t1
  have h : OnlyChanges [.cells, .mem, .answered, .events] s t1 :=
    OnlyChanges.after withCells_frame <| OnlyChanges.after write_frame writeAll_frame
  split
  · exact OnlyChanges.after raise_frame h
  · exact OnlyChanges.after setAnswered_frame <| OnlyChanges.after withCells_frame h

theorem serve_frame {ps : List Part} (c : Cell) (body : State → State × Answer) (s : State)
    (h : OnlyChanges ps s (body s).1) (sub : ∀ p ∈ [Part.cells, .mem, .answered, .events], p ∈ ps := by decide) :
    OnlyChanges ps s (serve c body s) :=
  OnlyChanges.after (OnlyChanges.mono (writeAnswer_frame _ _ _ _) sub) h

theorem gate_frame {ps : List Part} (n : Slot) (body : State → State × Answer) (s : State)
    (h : ∀ t, OnlyChanges ps t (body t).1) (sub : Part.sessions ∈ ps := by decide) : OnlyChanges ps s (gate n body s).1 := by
  unfold gate
  split
  · exact .refl _ _
  · exact .refl _ _
  · exact OnlyChanges.after (h _) (OnlyChanges.mono (noteRequest_frame s n) (by simpa using sub))

theorem operatorOnly_frame {ps : List Part} (n : Slot) (body : State → State × Answer) (s : State)
    (h : OnlyChanges ps s (body s).1) : OnlyChanges ps s (operatorOnly n body s).1 := by
  unfold operatorOnly
  split
  · exact h
  · exact .refl _ _

/-- The service of a station cell reaches what its body reaches. -/
theorem stationService_frame {ps : List Part} (r : Request) (body : State → State × Answer) (s : State)
    (h : OnlyChanges ps s (body s).1)
    (sub : ∀ p ∈ [Part.cells, .mem, .answered, .events] ++ recordParts, p ∈ ps := by decide) :
    OnlyChanges ps s (stationService r body s) := by
  unfold stationService
  refine .ite (event_frame (serve_frame 0 body s h ?_) ?_) (.refl _ _)
  · exact fun p hp => sub p (List.mem_append_left _ hp)
  · exact fun p hp => sub p (List.mem_append_right _ hp)

/-- The service of a session cell reaches what its body reaches, and the session's record through the gate. -/
theorem sessionService_frame {ps : List Part} (r : Request) (body : Slot → State → State × Answer) (s : State)
    (h : ∀ n t, OnlyChanges ps t (body n t).1)
    (sub : ∀ p ∈ [Part.sessions, .cells, .mem, .answered, .events] ++ recordParts, p ∈ ps := by decide) :
    OnlyChanges ps s (sessionService r body s) := by
  unfold sessionService
  split
  · exact .refl _ _
  · refine .ite (event_frame (serve_frame _ _ s (gate_frame _ _ s (h _) ?_) ?_) ?_) (.refl _ _)
    · exact sub _ (by decide)
    · exact fun p hp => sub p (List.mem_append_left _ (List.mem_cons_of_mem _ hp))
    · exact fun p hp => sub p (List.mem_append_right _ hp)

end Sys2Proof.Machine
end

