-- ==== Sys2Proof/Laws/Stores.lean ====
section
/-! SUPPORT. Which words of the exchange memory each shared operation stores to, and that it keeps the canonical form. -/

set_option Elab.async false

namespace Sys2Proof.Machine

/-- From `s` to `t` the canonical form is kept, only words that `P` holds of and state words of transmit places are stored
to, and a state word is only ever changed from FILLED to 0. -/
def Stores (P : Nat → Prop) (s t : State) : Prop :=
  s.memoryLaw → t.memoryLaw ∧ (∀ a, ¬ P a → isTxState a = false → t.read a = s.read a) ∧
    (∀ a, isTxState a = true → t.read a = s.read a ∨ (s.read a = 1 ∧ t.read a = 0))

theorem Stores.refl {P : Nat → Prop} (s : State) : Stores P s s := fun h => ⟨h, fun _ _ _ => rfl, fun _ _ => .inl rfl⟩

theorem Stores.trans {P : Nat → Prop} {s t u : State} (h1 : Stores P s t) (h2 : Stores P t u) : Stores P s u := by
  intro h
  obtain ⟨ht, k1, f1⟩ := h1 h
  obtain ⟨hu, k2, f2⟩ := h2 ht
  refine ⟨hu, fun a ha hx => (k2 a ha hx).trans (k1 a ha hx), fun a hx => ?_⟩
  rcases f1 a hx with e1 | ⟨e1, e1'⟩ <;> rcases f2 a hx with e2 | ⟨e2, e2'⟩
  · exact .inl (e2.trans e1)
  · exact .inr ⟨e1 ▸ e2, e2'⟩
  · exact .inr ⟨e1, e2.trans e1'⟩
  · exact .inr ⟨e1, e2'⟩

/-- The outer step first. -/
theorem Stores.after {P : Nat → Prop} {s t u : State} (h2 : Stores P t u) (h1 : Stores P s t) : Stores P s u := h1.trans h2

theorem Stores.mono {P Q : Nat → Prop} {s t : State} (h : Stores P s t) (sub : ∀ a, P a → Q a) : Stores Q s t :=
  fun hs => ⟨(h hs).1, fun a ha => (h hs).2.1 a fun hp => ha (sub a hp), (h hs).2.2⟩

theorem Stores.of_mem {P : Nat → Prop} {s t : State} (h : t.mem = s.mem) : Stores P s t :=
  fun hs => ⟨by rw [State.memoryLaw, h]; exact hs, fun a _ _ => by rw [State.read, State.read, h],
    fun a _ => .inl (by rw [State.read, State.read, h])⟩

theorem Stores.ite {P : Nat → Prop} {s t u : State} {c : Prop} [Decidable c] (h1 : Stores P s t) (h2 : Stores P s u) :
    Stores P s (if c then t else u) := by split <;> assumption

theorem Stores.foldl {P : Nat → Prop} {α : Type} {f : State → α → State} (l : List α)
    (hf : ∀ a ∈ l, ∀ s, Stores P s (f s a)) : ∀ s, Stores P s (l.foldl f s) := by
  induction l with
  | nil => exact fun s => .refl s
  | cons a l ih =>
    exact fun s => (hf a (List.mem_cons_self ..) s).trans (ih (fun b hb => hf b (List.mem_cons_of_mem _ hb)) _)

/-- The frame of memory that `Stores` gives: nothing changes outside `P` and the state words of FILLED places. -/
theorem Stores.kept {P : Nat → Prop} {s t : State} (h : Stores P s t) (hs : s.memoryLaw) :
    MemoryKept (fun a => P a ∨ inFilled s a) s t := by
  intro a ha
  cases hx : isTxState a with
  | false => exact (h hs).2.1 a (fun hp => ha (.inl hp)) hx
  | true => exact ((h hs).2.2 a hx).resolve_right fun e => ha (.inr ⟨hx, e.1⟩)

theorem write_stores {P : Nat → Prop} {s : State} {a : Nat} {w : Word} (h : P a) (hx : isTxState a = false) :
    Stores P s (s.write a w) := by
  intro hs
  refine ⟨Memory.write_wf _ _ _ hs, fun _ hb _ => Memory.read_write_other _ _ _ _ fun e => hb (e ▸ h), fun b hb => .inl ?_⟩
  exact Memory.read_write_other _ _ _ _ fun e => by rw [e, hx] at hb; cases hb

theorem writeAll_stores {P : Nat → Prop} {s : State} {a : Nat} {ws : List Word}
    (h : ∀ b, a ≤ b → b < a + ws.length → P b) (hx : ∀ b, a ≤ b → b < a + ws.length → isTxState b = false) :
    Stores P s (s.writeAll a ws) := by
  intro hs
  refine ⟨Memory.writeAll_wf _ _ _ hs, fun b hb _ => Memory.read_writeAll_other _ _ _ _ ?_, fun b hb => .inl ?_⟩
  · by_contra hc
    exact hb (h b (by omega) (by omega))
  · refine Memory.read_writeAll_other _ _ _ _ ?_
    by_contra hc
    rw [hx b (by omega) (by omega)] at hb; cases hb

/-- A step that writes a log entry, made from a state with the same log. -/
theorem Stores.at {s t u : State} (h : Stores (logPlace t.log) t u) (hl : t.log = s.log) : Stores (logPlace s.log) t u :=
  hl ▸ h

/-- Outside the transmit places no word is a state word of one. -/
theorem isTxState_outside {a : Nat} (h : a < 0x1000 ∨ 0x3A00 ≤ a) : isTxState a = false := by
  unfold isTxState
  rcases h with h | h
  · rw [decide_eq_false (by omega)]; rfl
  · rw [decide_eq_false (p := a < 0x3A00) (by omega), Bool.and_false]; rfl

section updates
variable {P : Nat → Prop} {s : State}
theorem withMember_stores {m : MemberIx} {r : Member} : Stores P s (s.withMember m r) := .of_mem rfl
theorem withChannel_stores {m : ChannelIx} {r : Channel} : Stores P s (s.withChannel m r) := .of_mem rfl
theorem withSession_stores {m : Slot} {r : Session} : Stores P s (s.withSession m r) := .of_mem rfl
theorem withFloor_stores {x : Floor} : Stores P s (s.withFloor x) := .of_mem rfl
theorem withKey_stores {x : KeyController} : Stores P s (s.withKey x) := .of_mem rfl
theorem withGrant_stores {x : Option Grant} : Stores P s (s.withGrant x) := .of_mem rfl
theorem withPlayout_stores {x : Playout} : Stores P s (s.withPlayout x) := .of_mem rfl
theorem withReceive_stores {x : Receive} : Stores P s (s.withReceive x) := .of_mem rfl
theorem withDetector_stores {x : Detector} : Stores P s (s.withDetector x) := .of_mem rfl
theorem withHolds_stores {x : HoldSources} : Stores P s (s.withHolds x) := .of_mem rfl
theorem withIdent_stores {x : Ident} : Stores P s (s.withIdent x) := .of_mem rfl
theorem withSupervisor_stores {x : Supervisor} : Stores P s (s.withSupervisor x) := .of_mem rfl
theorem withLog_stores {x : StationLog} : Stores P s (s.withLog x) := .of_mem rfl
theorem withCells_stores {x : Cells} : Stores P s (s.withCells x) := .of_mem rfl
theorem withBus_stores {x : Bus} : Stores P s (s.withBus x) := .of_mem rfl
theorem withParams_stores {x : Params} : Stores P s (s.withParams x) := .of_mem rfl
theorem withNotices_stores {x : List Notice} : Stores P s (s.withNotices x) := .of_mem rfl
theorem notify_stores {x : Notice} : Stores P s (s.notify x) := .of_mem rfl
theorem raise_stores {e : EventBit} : Stores P s (s.raise e) := .of_mem rfl
theorem setAnswered_stores {n : Slot} : Stores P s (s.setAnswered n) := .of_mem rfl
theorem setNews_stores {n : Slot} : Stores P s (s.setNews n) := .of_mem rfl
end updates

/-! ## Publication -/

theorem length_padTo (n : Nat) (ws : List Word) (h : ws.length ≤ n) : (padTo n ws).length = n := by
  simp only [padTo, List.length_append, List.length_replicate]; omega

theorem length_recordFields (s : State) (n : Slot) : (s.recordFields n).length = 18 := rfl

theorem inRecord_outside {n : Slot} {a : Nat} (h : inRecord n a) : a < 0x1000 := by
  have := n.isLt
  simp only [inRecord, inArea, recordBase] at h
  omega

theorem rewriteRecord_stores (s : State) (n : Slot) : Stores (inRecord n) s (s.rewriteRecord n) := by
  have h0 : inRecord n (recordBase n) := ⟨Nat.le_refl _, by omega⟩
  have hx : isTxState (recordBase n) = false := isTxState_outside (.inl (inRecord_outside h0))
  have h1 : ∀ b, recordBase n + 1 ≤ b → b < recordBase n + 1 + (padTo 31 (s.recordFields n)).length → inRecord n b := by
    intro b h1 h2
    rw [length_padTo _ _ (by rw [length_recordFields]; omega)] at h2
    exact ⟨by omega, by omega⟩
  exact Stores.after (write_stores h0 hx) <| Stores.after
    (writeAll_stores h1 fun b hb hc => isTxState_outside (.inl (inRecord_outside (h1 b hb hc)))) <|
    Stores.after (write_stores h0 hx) withSession_stores

theorem publishOne_stores (b : State) (n : Slot) (t : State) : Stores (inRecord n) t (publishOne b n t) :=
  .ite (.refl t) (.ite (rewriteRecord_stores t n) (setNews_stores.after (rewriteRecord_stores t n)))

/-- A word of some status record. -/
def inRecords (a : Nat) : Prop := ∃ n, inRecord n a

theorem publish_stores (b t : State) : Stores inRecords t (publish b t) :=
  Stores.foldl _ (fun n _ s => (publishOne_stores b n s).mono fun _ h => ⟨n, h⟩) t

theorem isTxState_txBase {i : Nat} (h : i < 64) : isTxState (txBase i) = true := by
  have h2 : 4096 + 168 * i < 14848 := by omega
  simp [isTxState, txBase, h2]

theorem freePlace_stores {P : Nat → Prop} (s : State) {i : Nat} (h : i < 64) (hf : s.filled i = true ∨ s.txState i = 0) :
    Stores P s (s.freePlace i) := by
  intro hs
  refine ⟨Memory.write_wf _ _ _ hs, fun b _ hx => Memory.read_write_other _ _ _ _ fun e => ?_, fun b _ => ?_⟩
  · rw [e, isTxState_txBase h] at hx; cases hx
  · by_cases e : b = txBase i
    · have hw : (s.freePlace i).read b = 0 := by rw [e]; exact Memory.read_write_same _ _ _ hs
      rcases hf with hf | hf
      · exact .inr ⟨by rw [e]; simpa [State.filled, State.txState] using hf, hw⟩
      · exact .inl (by rw [hw, e]; exact hf.symm)
    · exact .inl (Memory.read_write_other _ _ _ _ e)

theorem freePlace_txState {s : State} {i j : Nat} (hs : s.memoryLaw) (h : s.filled j = true ∨ s.txState j = 0) :
    (s.freePlace i).filled j = true ∨ (s.freePlace i).txState j = 0 := by
  by_cases e : j = i
  · exact .inr (e ▸ Memory.read_write_same _ _ _ hs)
  · have : (s.freePlace i).txState j = s.txState j :=
      Memory.read_write_other _ _ _ _ (by simp only [txBase]; omega)
    simpa only [State.filled, this] using h

/-! ## Members, log, playout -/

theorem setPenalty_stores {P : Nat → Prop} (s : State) (m : MemberIx) : Stores P s (s.setPenalty m) :=
  withMember_stores

theorem judgeMark_stores {P : Nat → Prop} (s : State) : Stores P s s.judgeMark :=
  .ite withLog_stores (Stores.after raise_stores withLog_stores)

theorem reserve_stores {P : Nat → Prop} (s : State) : Stores P s s.reserve.1 := by
  unfold State.reserve
  dsimp only
  split
  · exact Stores.after withLog_stores (judgeMark_stores s)
  · exact Stores.after raise_stores (judgeMark_stores s)

theorem appendLog_stores (s : State) (e : LogEntry) : Stores (logPlace s.log) s (s.appendLog e) := by
  have hk : s.log.next.toNat % 64 < 64 := Nat.mod_lt _ (by decide)
  have hl : (e.words s.log.next).length = 16 := rfl
  refine Stores.after raise_stores (Stores.after withLog_stores (writeAll_stores (fun b h1 h2 => ?_) fun b h1 h2 => ?_)) <;>
    rw [hl] at h2
  · exact ⟨h1, h2⟩
  · exact isTxState_outside (.inl (by simp only [logBase] at h2; omega))

theorem freePlaces_stores {P : Nat → Prop} (l : List Nat) : ∀ s : State,
    (∀ i ∈ l, i < 64 ∧ (s.filled i = true ∨ s.txState i = 0)) → Stores P s (s.freePlaces l) := by
  induction l with
  | nil => exact fun s _ => .refl s
  | cons i l ih =>
    intro s h hs
    have h1 := freePlace_stores (P := P) s (h i (List.mem_cons_self ..)).1 (h i (List.mem_cons_self ..)).2
    refine Stores.trans h1 (ih _ fun j hj => ?_) hs
    have := h j (List.mem_cons_of_mem _ hj)
    exact ⟨this.1, freePlace_txState hs this.2⟩

theorem sweepSet_filled (s : State) (d : Word → Bool) : ∀ i ∈ s.sweepSet d, i < 64 ∧ s.filled i = true := fun i hi => by
  simp only [State.sweepSet, List.mem_filter, List.mem_range, Bool.and_eq_true] at hi
  exact ⟨hi.1, hi.2.1⟩

theorem sweep_stores {P : Nat → Prop} (s : State) (d : Word → Bool) : Stores P s (s.sweep d) :=
  Stores.after withPlayout_stores (freePlaces_stores _ s fun i hi =>
    ⟨(sweepSet_filled s d i hi).1, .inl (sweepSet_filled s d i hi).2⟩)

theorem startSweep_stores {P : Nat → Prop} (s : State) (t : Word) : Stores P s (s.startSweep t) :=
  Stores.after (sweep_stores _ _) withPlayout_stores

theorem endPlayout_stores {P : Nat → Prop} (s : State) : Stores P s s.endPlayout :=
  Stores.after (sweep_stores _ _) withPlayout_stores

theorem nearest_mem (s : State) (p : Nat) (l : List Nat) : ∀ i, s.nearest p l = some i → i ∈ l := by
  induction l with
  | nil => intro i h; cases h
  | cons j l ih =>
    intro i h
    unfold State.nearest at h
    split at h
    · cases h; exact List.mem_cons_self ..
    · rename_i k hk
      split at h <;> cases h
      · exact List.mem_cons_of_mem _ (ih _ hk)
      · exact List.mem_cons_self ..

theorem window_filled (s : State) (tag : Word) (p : Nat) : ∀ i ∈ s.window tag p, i < 64 ∧ s.filled i = true := fun i hi => by
  simp only [State.window, List.mem_filter, List.mem_range, Bool.and_eq_true] at hi
  exact ⟨hi.1, hi.2.1.1⟩

theorem recentre_stores {P : Nat → Prop} (tag : Word) (k : Nat) : ∀ s, Stores P s (State.recentre tag k s) := by
  induction k with
  | zero => exact fun s => .refl s
  | succ k ih =>
    intro s
    unfold State.recentre
    split
    · exact .refl _
    · split
      · exact .refl _
      · rename_i i hi
        exact Stores.after (ih _) (Stores.after withPlayout_stores
          (freePlace_stores s (window_filled s _ _ i (nearest_mem s _ _ i hi)).1
            (.inl (window_filled s _ _ i (nearest_mem s _ _ i hi)).2)))

theorem countDepth_stores {P : Nat → Prop} (s : State) (tag : Word) (k : Bool) : Stores P s (s.countDepth tag k) :=
  Stores.after withPlayout_stores (.ite (Stores.after withPlayout_stores (recentre_stores _ _ _)) (.refl _))

theorem makeDue_stores {P : Nat → Prop} (s : State) (c : Bool) : Stores P s (s.makeDue c) :=
  .ite withIdent_stores (.refl _)

theorem identOwed_stores {P : Nat → Prop} (s : State) : Stores P s s.identOwed :=
  .ite withIdent_stores (Stores.after (makeDue_stores _ _) withIdent_stores)

theorem identDone_stores {P : Nat → Prop} (s : State) : Stores P s s.identDone :=
  Stores.after raise_stores withIdent_stores

/-! ## The grant -/

theorem dropPtt_stores {P : Nat → Prop} (s : State) : Stores P s s.dropPtt :=
  .ite (Stores.after raise_stores (Stores.after withSupervisor_stores (Stores.after withHolds_stores withKey_stores))) (.refl _)

theorem assertPtt_stores {P : Nat → Prop} (s : State) : Stores P s s.assertPtt :=
  Stores.after raise_stores (Stores.after withHolds_stores withKey_stores)

theorem endForSession_stores {P : Nat → Prop} (s : State) (n : Slot) (r : EndReason) (t : Word) :
    Stores P s (s.endForSession n r t) := withSession_stores

theorem endForHolder_stores {P : Nat → Prop} (s : State) (g : Grant) (r : EndReason) : Stores P s (s.endForHolder g r) := by
  unfold State.endForHolder
  split
  · exact .refl _
  · exact endForSession_stores _ _ _ _

theorem preKeyEnd_stores {P : Nat → Prop} (g : Grant) (r : EndReason) (s : State) :
    Stores P s (preKeyEnd g r s) :=
  Stores.after withGrant_stores <| Stores.after notify_stores <| Stores.after (endForHolder_stores _ _ _) <|
    Stores.after (endPlayout_stores _) withHolds_stores

theorem chargeTicks_stores {P : Nat → Prop} (s : State) (g : Grant) (k : Nat) : Stores P s (s.chargeTicks g k).1 := by
  unfold State.chargeTicks
  split
  · exact .refl _
  · exact withMember_stores

theorem startRecovery_stores {P : Nat → Prop} (s : State) : Stores P s s.startRecovery :=
  Stores.after withHolds_stores withKey_stores

theorem noteTimeout_stores {P : Nat → Prop} (s : State) (g : Grant) : Stores P s (s.noteTimeout g) := by
  unfold State.noteTimeout
  split
  · exact .refl _
  · exact .ite withKey_stores (.refl _)

theorem identEnd_stores {P : Nat → Prop} (s : State) (g : Grant) : Stores P s (s.identEnd g) := by
  unfold State.identEnd
  split
  · exact .refl _
  · exact .ite (Stores.after (identDone_stores _) withIdent_stores) withIdent_stores

theorem penalty_stores {P : Nat → Prop} (g : Grant) (m : Option MemberIx) (s : State) :
    Stores P s (match m with
      | some m => if g.endReason = some .timeout then s.setPenalty m else s
      | none => s) := by
  split
  · exact .ite (setPenalty_stores _ _) (.refl _)
  · exact .refl _

theorem unkey_stores (g : Grant) (s : State) : Stores (logPlace s.log) s (unkey g s) := by
  unfold unkey
  extract_lets t owed charged g' t1 t2 t3 t4 r t5 t6
  have hl : charged.1.log = s.log :=
    (chargeTicks_frame t g owed .log (by decide)).trans (dropPtt_frame s .log (by decide))
  have h1 : Stores (logPlace s.log) s t1 :=
    Stores.after (.at (appendLog_stores _ _) hl) <| Stores.after (chargeTicks_stores _ _ _) (dropPtt_stores s)
  have h2 : Stores (logPlace s.log) s t2 := Stores.after (penalty_stores g' g'.member t1) h1
  exact Stores.after withGrant_stores <| Stores.after notify_stores <| Stores.after (noteTimeout_stores _ _) <|
    Stores.after (startRecovery_stores _) <| Stores.after (endForHolder_stores _ _ _) <| Stores.after (endPlayout_stores _) <| Stores.after (identEnd_stores _ _) h2

theorem enterTail_stores (q : Bool) (g : Grant) (s : State) : Stores (logPlace s.log) s (enterTail q g s) := by
  unfold enterTail
  extract_lets g' p t
  have h : Stores (logPlace s.log) s t := withPlayout_stores
  split
  · exact Stores.after (.at (unkey_stores g' t) rfl) h
  · exact Stores.after withGrant_stores h

theorem beginDrain_stores (f : Option Word) (g : Grant) (s : State) : Stores (logPlace s.log) s (beginDrain f g s) := by
  unfold beginDrain
  extract_lets _ g' p t
  have h : Stores (logPlace s.log) s t := withPlayout_stores
  split
  · split
    · exact Stores.after (.at (enterTail_stores false g' t) rfl) h
    · exact Stores.after withGrant_stores h
  · exact Stores.after withGrant_stores h

theorem applyCause_stores (g : Grant) (r : EndReason) (s : State) : Stores (logPlace s.log) s (applyCause g r s) := by
  have hp : ∀ q, Stores (logPlace s.log) s (preKeyEnd g q s) := fun q => (preKeyEnd_stores g q s)
  have hu : ∀ g', Stores (logPlace s.log) s (unkey g' s) := fun g' => unkey_stores g' s
  have ht : ∀ g', Stores (logPlace s.log) s (enterTail true g' s) := fun g' => enterTail_stores true g' s
  have hr : Stores (logPlace s.log) s s := .refl _
  generalize hpk : preKeyEnd g = pk at *
  generalize huk : unkey = uk at *
  unfold applyCause
  rw [hpk, huk]
  clear hpk huk
  cases causeClass r <;> cases g.state <;> dsimp only <;> first | exact hr | exact hp _ | exact hu _ | exact ht _

theorem takeCause_stores (tag : Word) (r : EndReason) (s : State) : Stores (logPlace s.log) s (takeCause tag r s) := by
  unfold takeCause
  split
  · exact .refl _
  · exact .ite (applyCause_stores _ _ _) (.refl _)

theorem sendCause_stores (r : EndReason) (now : Bool) (s : State) : Stores (logPlace s.log) s (sendCause r now s) := by
  unfold sendCause
  split
  · exact .refl _
  · exact .ite (takeCause_stores _ _ _) notify_stores

theorem startPlayout_stores {P : Nat → Prop} (s : State) : Stores P s s.startPlayout := withPlayout_stores

theorem memberKeyUp_stores {P : Nat → Prop} (g : Grant) (s : State) :
    Stores P s (s.memberKeyUp g) := by
  unfold State.memberKeyUp
  extract_lets t t1 t2
  have h : Stores P s t := by
    unfold t; split
    · exact withMember_stores
    · exact .refl _
  have h1 : Stores P s t1 := Stores.after (identOwed_stores _) h
  have h2 : Stores P s t2 := by
    refine Stores.after ?_ h1
    unfold t2; split
    · exact .ite withSession_stores (.refl _)
    · exact .refl _
  exact Stores.after (startPlayout_stores _) h2

theorem keyUpSucceeds_stores {P : Nat → Prop} (g : Grant) (s : State) : Stores P s (keyUpSucceeds g s) := by
  unfold keyUpSucceeds
  extract_lets g' t
  have h : Stores P s t := Stores.after (assertPtt_stores _) withGrant_stores
  split
  · exact Stores.after (memberKeyUp_stores _ _) h
  · exact h

theorem keyUp_stores {P : Nat → Prop} (g : Grant) (s : State) : Stores P s (keyUp g s) :=
  .ite withGrant_stores <| .ite (preKeyEnd_stores _ _ _) <|
    .ite (Stores.after (keyUpSucceeds_stores _ _) (reserve_stores s)) (Stores.after (preKeyEnd_stores _ _ _) (reserve_stores s))

theorem enterPrebuffer_stores {P : Nat → Prop} (g : Grant) (s : State) : Stores P s (enterPrebuffer g s) :=
  .ite (keyUp_stores _ _) withGrant_stores

theorem leaveGap2_stores {P : Nat → Prop} (g : Grant) (s : State) : Stores P s (leaveGap2 g s) := by
  unfold leaveGap2
  dsimp only
  split
  · exact enterPrebuffer_stores _ _
  · exact keyUp_stores _ _

theorem enterGap2_stores {P : Nat → Prop} (g : Grant) (s : State) : Stores P s (enterGap2 g s) :=
  .ite (leaveGap2_stores _ _) withGrant_stores

theorem enterGap1_stores {P : Nat → Prop} (g : Grant) (s : State) : Stores P s (enterGap1 g s) :=
  .ite (enterGap2_stores _ _) withGrant_stores

theorem forceIdent_stores {P : Nat → Prop} (g : Grant) (s : State) : Stores P s (forceIdent g s) :=
  Stores.after (enterGap1_stores _ _) withIdent_stores

theorem busyWaitOver_stores {P : Nat → Prop} (g : Grant) (s : State) : Stores P s (busyWaitOver g s) := by
  unfold busyWaitOver
  split
  · exact (preKeyEnd_stores _ _ _)
  · exact forceIdent_stores _ _

theorem enterWaitClear_stores {P : Nat → Prop} (g : Grant) (s : State) : Stores P s (enterWaitClear g s) :=
  .ite (enterGap1_stores _ _) (.ite (busyWaitOver_stores _ _) withGrant_stores)

theorem leaveChangeover_stores {P : Nat → Prop} (g : Grant) (s : State) : Stores P s (leaveChangeover g s) :=
  .ite (Stores.after (enterWaitClear_stores _ _) withHolds_stores) (Stores.after (enterPrebuffer_stores _ _) withHolds_stores)

theorem enterChangeover_stores {P : Nat → Prop} (g : Grant) (s : State) : Stores P s (enterChangeover g s) :=
  .ite (Stores.after (leaveChangeover_stores _ _) <| Stores.after withHolds_stores withKey_stores)
    (Stores.after withGrant_stores <| Stores.after withHolds_stores withKey_stores)

theorem busyChange_stores {P : Nat → Prop} (s : State) : Stores P s (busyChange s) := by
  unfold busyChange
  split
  · exact .refl _
  · split
    · exact .ite (enterGap1_stores _ _) (.refl _)
    · exact .ite (enterWaitClear_stores _ _) (.refl _)
    all_goals exact .refl _

theorem takeMemberGrant_stores {P : Nat → Prop} (tag : Word) (n : Slot) (m : MemberIx) (c : ChannelIx) (s : State) :
    Stores P s (takeMemberGrant tag n m c s) := by
  unfold takeMemberGrant
  extract_lets g0 g k t t1
  have h : Stores P s t1 := Stores.after (startSweep_stores t tag) withKey_stores
  exact .ite (Stores.after (enterChangeover_stores _ _) h)
    (.ite (Stores.after (enterWaitClear_stores _ _) h) (Stores.after (enterPrebuffer_stores _ _) h))

theorem takeIdentGrant_stores {P : Nat → Prop} (tag : Word) (c : ChannelIx) (s : State) :
    Stores P s (takeIdentGrant tag c s) :=
  .ite (Stores.after (enterWaitClear_stores _ _) (startSweep_stores _ _)) (Stores.after (keyUp_stores _ _) (startSweep_stores _ _))

/-! ## The floor -/

theorem stopQuiet_stores {P : Nat → Prop} (s : State) : Stores P s s.stopQuiet := withIdent_stores

theorem noteQuiet_stores {P : Nat → Prop} (s : State) : Stores P s s.noteQuiet := .ite withIdent_stores (.refl _)

theorem joinQueue_stores {P : Nat → Prop} (e : Entry) (s : State) : Stores P s (joinQueue e s) :=
  Stores.after (stopQuiet_stores _) withFloor_stores

theorem removeEntry_stores {P : Nat → Prop} (s : State) (n : Slot) : Stores P s (s.removeEntry n) := by
  unfold State.removeEntry
  split
  · exact .refl _
  · exact Stores.after (noteQuiet_stores _) withFloor_stores

theorem departEntry_stores {P : Nat → Prop} (n : Slot) (r : EndReason) (s : State) :
    Stores P s (departEntry n r s) := by
  unfold departEntry
  split
  · exact .refl _
  · exact Stores.after withSession_stores (removeEntry_stores _ _)

theorem clearQueue_stores {P : Nat → Prop} (r : EndReason) (s : State) : Stores P s (clearQueue r s) :=
  Stores.foldl _ (fun _ _ _ => departEntry_stores _ _ _) s

theorem openGrant_stores {P : Nat → Prop} (s : State) : Stores P s s.openGrant :=
  Stores.after (stopQuiet_stores _) withFloor_stores

theorem grantEntry_stores {P : Nat → Prop} (e : Entry) (s : State) : Stores P s (grantEntry e s) :=
  Stores.after (takeMemberGrant_stores _ _ _ _ _) <| Stores.after withFloor_stores (openGrant_stores s)

theorem grantIdent_stores {P : Nat → Prop} (s : State) : Stores P s (grantIdent s).1 := by
  unfold grantIdent
  split
  · exact .refl _
  · exact Stores.after (takeIdentGrant_stores _ _ _) (openGrant_stores s)

theorem tryEntries_stores {P : Nat → Prop} (skip : State → Entry → Bool) (l : List Entry) :
    ∀ s, Stores P s (tryEntries skip l s).1 := by
  induction l with
  | nil => exact fun s => .refl s
  | cons e l ih =>
    intro s
    unfold tryEntries
    split
    · exact ih s
    · split
      · exact grantEntry_stores _ _
      · exact Stores.after (ih _) (departEntry_stores _ _ s)
      · exact Stores.after (ih _) (departEntry_stores _ _ s)

theorem tryMarked_stores {P : Nat → Prop} (s : State) : Stores P s (tryMarked s).1 := tryEntries_stores _ _ _

theorem tryIdent_stores {P : Nat → Prop} (s : State) : Stores P s (tryIdent s).1 := by
  unfold tryIdent
  split
  · exact grantIdent_stores _
  · exact .refl _

theorem tryUnmarked_stores {P : Nat → Prop} (s : State) : Stores P s (tryUnmarked s).1 := by
  unfold tryUnmarked
  split
  · exact tryEntries_stores _ _ _
  · exact .refl _

theorem arbitrate_stores {P : Nat → Prop} (s : State) : Stores P s (arbitrate s) := by
  unfold arbitrate
  extract_lets a b
  have ha : Stores P s a.1 := tryMarked_stores s
  have hb : Stores P s b.1 := Stores.after (tryIdent_stores _) ha
  exact .ite (.refl _) (.ite ha (.ite hb (Stores.after (tryUnmarked_stores _) hb)))

theorem takeEnded_stores {P : Nat → Prop} (k : GrantKind) (r : EndReason) (s : State) : Stores P s (takeEnded k r s) := by
  unfold takeEnded
  refine Stores.after (arbitrate_stores _) <| Stores.after (noteQuiet_stores _) <|
    Stores.after withFloor_stores ?_
  cases s.requeueEntry k r with
  | some e => exact (joinQueue_stores e s)
  | none => exact withFloor_stores

/-! ## Sessions and the Supervisor -/

theorem armDeadline_stores {P : Nat → Prop} (s : State) (n : Slot) (p : Nat) : Stores P s (s.armDeadline n p) :=
  .ite withSession_stores (.refl _)

theorem noteRequest_stores {P : Nat → Prop} (s : State) (n : Slot) : Stores P s (s.noteRequest n) :=
  Stores.after (armDeadline_stores _ _ _) withSession_stores

theorem endGrantOf_stores (n : Slot) (r : EndReason) (s : State) : Stores (logPlace s.log) s (endGrantOf n r s) := by
  unfold endGrantOf
  split
  · exact .refl _
  · exact takeCause_stores _ _ _

theorem closeSession_stores (n : Slot) (r : EndReason) (s : State) : Stores (logPlace s.log) s (closeSession n r s) :=
  Stores.after (departEntry_stores _ _ _) <| Stores.after (endGrantOf_stores _ _ _) withSession_stores

theorem expireSession_stores (n : Slot) (s : State) : Stores (logPlace s.log) s (expireSession n s) := by
  unfold expireSession
  extract_lets r t t1
  have h : Stores (logPlace s.log) s t1 ∧ t1.log = s.log := by
    unfold t1
    split
    · exact ⟨Stores.after withMember_stores withSession_stores, rfl⟩
    · exact ⟨withSession_stores, rfl⟩
  exact Stores.after (departEntry_stores _ _ _) <| Stores.after (.at (endGrantOf_stores n _ t1) h.2) h.1

theorem openSession_stores {P : Nat → Prop} (n : Slot) (m : MemberIx) (s : State) : Stores P s (openSession n m s) :=
  withSession_stores

theorem countFor_stores {P : Nat → Prop} (s : State) (h : Option Slot) (f : Session → Session) : Stores P s (s.countFor h f) := by
  unfold State.countFor
  split
  · exact .refl _
  · exact withSession_stores

theorem stopStation_stores (now : Bool) (s : State) : Stores (logPlace s.log) s (stopStation now s) :=
  Stores.after notify_stores <| Stores.after (.at (sendCause_stores _ _ _) (dropPtt_frame _ .log (by decide))) <|
    Stores.after (dropPtt_stores _) withSupervisor_stores

theorem enterLockout_stores {P : Nat → Prop} (r : LockoutReason) (s : State) :
    Stores P s (enterLockout r s) :=
  Stores.after notify_stores <| Stores.after (dropPtt_stores _) <| Stores.after raise_stores withSupervisor_stores

theorem kill_stores (now : Bool) (s : State) : Stores (logPlace s.log) s (kill now s) :=
  Stores.after (enterLockout_stores _ _) (sendCause_stores _ _ _)

theorem clearLockout_stores {P : Nat → Prop} (s : State) : Stores P s (clearLockout s) :=
  Stores.after (arbitrate_stores _) withSupervisor_stores

theorem qualifiedFault_stores (now : Bool) (s : State) : Stores (logPlace s.log) s (qualifiedFault now s) := by
  unfold qualifiedFault
  extract_lets v t t1 h v1 t2 t3
  have h1 : Stores (logPlace s.log) s t1 :=
    Stores.after (.at (sendCause_stores .fault now t) rfl) (withSupervisor_stores : Stores (logPlace s.log) s t)
  have h3 : Stores (logPlace s.log) s t3 := Stores.after raise_stores <| Stores.after withSupervisor_stores h1
  exact .ite (Stores.after (enterLockout_stores _ _) h3) h3

theorem judgeTxfault_stores (now : Bool) (s : State) : Stores (logPlace s.log) s (judgeTxfault now s) := by
  unfold judgeTxfault
  extract_lets a v t
  have h : Stores (logPlace s.log) s t := withSupervisor_stores
  exact .ite (Stores.after withSupervisor_stores h)
    (.ite (.ite (Stores.after (.at (qualifiedFault_stores now t) rfl) h) (Stores.after withSupervisor_stores h)) h)

theorem assertDisable_stores (now : Bool) (s : State) : Stores (logPlace s.log) s (assertDisable now s) := by
  unfold assertDisable
  split
  · exact Stores.after (.at (sendCause_stores _ _ _) (dropPtt_frame _ .log (by decide))) <|
      Stores.after (dropPtt_stores _) <| Stores.after raise_stores withSupervisor_stores
  · exact withSupervisor_stores
  · exact .refl _

theorem completeDisableRelease_stores {P : Nat → Prop} (s : State) :
    Stores P s (completeDisableRelease s) :=
  Stores.after (arbitrate_stores _) <| Stores.after raise_stores withSupervisor_stores

/-! ## Samples and boundaries -/

theorem reportDetector_stores {P : Nat → Prop} (d : Detector) (s : State) : Stores P s (reportDetector d s) := by
  unfold reportDetector
  extract_lets o t t1
  have h1 : Stores P s t1 := Stores.after (.ite (.refl _) raise_stores) (withDetector_stores : Stores P s t)
  exact .ite h1 (Stores.after (busyChange_stores _) (Stores.after raise_stores h1))

theorem captureBlock_stores (b : List Word) (k : Bool) (s : State) (hb : b.length ≤ 160) :
    Stores (rxPlace s.receive) s (captureBlock b k s) := by
  have hk : s.receive.captureSequence.toNat % 32 < 32 := Nat.mod_lt _ (by decide)
  have hl : (s.receiveWords b k).length = 8 + b.length := by simp [State.receiveWords]; omega
  refine Stores.after withReceive_stores (.ite (Stores.after raise_stores (writeAll_stores (fun c h1 h2 => ?_) fun c h1 _ => ?_))
    (Stores.after raise_stores withReceive_stores))
  · rw [hl] at h2; exact ⟨h1, by omega⟩
  · exact isTxState_outside (.inr (by simp only [rxBase] at h1; omega))

theorem detectSample_stores {P : Nat → Prop} (x : Word) (c : Bool) (s : State) : Stores P s (detectSample x c s) :=
  .ite (.refl _) (reportDetector_stores _ _)

theorem releasePlace_stores {P : Nat → Prop} (s : State) (i : Nat) (h : i < 64) (hf : s.filled i = true) :
    Stores P s (s.releasePlace i) :=
  Stores.after withPlayout_stores (freePlace_stores s h (.inl hf))

theorem playBlock_stores {P : Nat → Prop} (g : Grant) (s : State) (hf : s.filled (s.playout.position % 64) = true) :
    Stores P s (playBlock g s) := by
  unfold playBlock
  extract_lets i b t f t1 t2
  have h : Stores P s t2 := Stores.after (countFor_stores _ _ _) <|
    Stores.after withPlayout_stores (releasePlace_stores s _ (Nat.mod_lt _ (by decide)) hf)
  split
  · exact Stores.after (armDeadline_stores _ _ _) h
  · exact h

theorem clearPlace_stores {P : Nat → Prop} (g : Grant) (c : PlaceCase) (s : State)
    (hf : c ≠ .empty → s.filled (s.playout.position % 64) = true) : Stores P s (clearPlace g c s) := by
  have h : c ≠ .empty → Stores P s (s.releasePlace (s.playout.position % 64)) :=
    fun hc => releasePlace_stores s _ (Nat.mod_lt _ (by decide)) (hf hc)
  unfold clearPlace
  dsimp only
  split
  · exact Stores.after (countFor_stores _ _ _) (h (by decide))
  · exact Stores.after (countFor_stores _ _ _) (h (by decide))
  · exact Stores.after (countFor_stores _ _ _) (h (by decide))
  · exact .refl _
  · exact .refl _

theorem finishBoundary_stores (g : Grant) (m : Bool) (s : State) : Stores (logPlace s.log) s (finishBoundary g m s) := by
  unfold finishBoundary
  split
  · extract_lets t f t1
    have h : Stores (logPlace s.log) s t1 := Stores.after withPlayout_stores (countDepth_stores _ _ _)
    have hl : t1.log = s.log := countDepth_frame s g.tag false .log (by decide)
    split
    · exact Stores.after (.at (enterTail_stores false g t1) hl) h
    · exact h
  · exact countDepth_stores _ _ _

theorem substitute_stores {P : Nat → Prop} (g : Grant) (s : State) : Stores P s (substitute g s) := by
  unfold substitute
  split
  · exact Stores.after (countFor_stores _ _ _) withPlayout_stores
  · exact withPlayout_stores

theorem substitute_log (g : Grant) (s : State) : (substitute g s).log = s.log := by
  unfold substitute
  split
  · unfold State.countFor
    cases g.session <;> rfl
  · rfl

theorem playBlock_log (g : Grant) (s : State) : (playBlock g s).log = s.log := by
  unfold playBlock State.armDeadline State.countFor
  cases g.session <;> dsimp only <;> first | rfl | (split <;> rfl)

theorem clearPlace_log (g : Grant) (c : PlaceCase) (s : State) : (clearPlace g c s).log = s.log := by
  unfold clearPlace State.countFor
  cases c <;> cases g.session <;> rfl

theorem missBlock_stores (g : Grant) (s : State) : Stores (logPlace s.log) s (missBlock g s) := by
  unfold missBlock
  split
  · exact finishBoundary_stores _ _ _
  · split
    · exact Stores.after (.at (takeCause_stores _ _ _) rfl) withPlayout_stores
    · exact Stores.after (.at (finishBoundary_stores _ _ _) (substitute_log g s)) (substitute_stores g s)

theorem classify_filled {s : State} {tag : Word} {p : Nat} (h : s.classify tag p ≠ .empty) : s.filled (p % 64) = true := by
  unfold State.classify at h
  dsimp only at h
  split at h
  · exact absurd rfl h
  · rename_i hf; simpa using hf

theorem boundaryOf_stores (g : Grant) (s : State) : Stores (logPlace s.log) s (boundaryOf g s) := by
  unfold boundaryOf
  extract_lets c p t
  have h : Stores (logPlace s.log) s t := withPlayout_stores
  have hf : c ≠ .empty → t.filled (t.playout.position % 64) = true := fun hc => classify_filled hc
  split
  · rename_i hc
    have h1 : Stores (logPlace s.log) s (playBlock g t).advance :=
      Stores.after withPlayout_stores (Stores.after (playBlock_stores g t (hf (by rw [hc]; decide))) h)
    exact Stores.after (.at (finishBoundary_stores g false _) (playBlock_log g t)) h1
  · have h1 : Stores (logPlace s.log) s (clearPlace g c t).advance :=
      Stores.after withPlayout_stores (Stores.after (clearPlace_stores g c t hf) h)
    exact Stores.after (.at (missBlock_stores g _) (clearPlace_log g c t)) h1

theorem boundaryEvent_stores (s : State) : Stores (logPlace s.log) s (boundaryEvent s) := by
  unfold boundaryEvent
  split
  · exact .refl _
  · exact .ite (boundaryOf_stores _ _) (.refl _)

/-! ## The service of a cell -/

theorem length_sixteen (a : Answer) (h : a.words.length ≤ 16) : a.sixteen.length = 16 := by
  unfold Answer.sixteen
  split
  · exact length_padTo _ _ h
  · rfl

theorem inAnswer_outside {c : Cell} {a : Nat} (h : inAnswer c a) : a < 0x1000 := by
  have := c.isLt
  simp only [inAnswer, inArea, cellBase] at h
  omega

theorem writeAnswer_stores (c : Cell) (tag : Word) (a : Answer) (s : State) (h : a.words.length ≤ 16) :
    Stores (inAnswer c) s (writeAnswer c tag a s) := by
  have h1 : ∀ b, cellBase c + 43 ≤ b → b < cellBase c + 43 + (a.codeWord :: tag :: a.sixteen).length → inAnswer c b := by
    intro b h1 h2
    simp only [List.length_cons, length_sixteen a h] at h2
    exact .inr ⟨h1, by omega⟩
  have h0 : Stores (inAnswer c) s
      ((s.writeAll (cellBase c + 43) (a.codeWord :: tag :: a.sixteen)).write (cellBase c) 0) :=
    Stores.after (write_stores (.inl rfl) (isTxState_outside (.inl (inAnswer_outside (.inl rfl)))))
      (writeAll_stores h1 fun b hb hc => isTxState_outside (.inl (inAnswer_outside (h1 b hb hc))))
  unfold writeAnswer
  dsimp only
  split
  · exact Stores.after raise_stores (Stores.after withCells_stores h0)
  · exact Stores.after setAnswered_stores (Stores.after withCells_stores (Stores.after withCells_stores h0))

theorem gate_stores {P : Nat → Prop} (n : Slot) (body : State → State × Answer) (s : State)
    (h : ∀ t, Stores P t (body t).1) : Stores P s (gate n body s).1 := by
  unfold gate
  split
  · exact .refl _
  · exact .refl _
  · exact Stores.after (h _) (.of_mem (noteRequest_frame s n .mem (by decide)))

end Sys2Proof.Machine
end

