-- ==== Sys2Proof/Laws/Publish.lean ====
section
/-! SUPPORT. What the publication at the end of an event does to the session status records, their change counts and NEWS
(R32, R33), and what an answer leaves in its cell (R165). -/

set_option Elab.async false

namespace Sys2Proof.Machine

/-! ## What the records are formed from -/

/-- Two states that agree on the sessions, the members, the queue, the grant and the playout show the same records. -/
theorem recordFields_congr {s t : State} (hs : ∀ n, (t.session n).uncounted = (s.session n).uncounted)
    (hm : t.members = s.members) (hf : t.floor = s.floor) (hk : t.key = s.key) (hp : t.playout = s.playout) (n : Slot) :
    t.recordFields n = s.recordFields n := by
  have h := hs n
  simp only [Session.uncounted, Session.mk.injEq, and_true] at h
  obtain ⟨h1, h2, _, h4, h5, h6, h7, h8, h9, h10, h11⟩ := h
  have hmem : ∀ m, t.member m = s.member m := fun m => by rw [State.member, State.member, hm]
  have he : ∀ n, t.entryOf n = s.entryOf n := State.entryOf_floor hf
  have hg : ∀ n, t.grantOf n = s.grantOf n := State.grantOf_key hk
  have hfl : t.floorState n = s.floorState n := by unfold State.floorState; rw [he, hg]
  have hch : t.channelOf n = s.channelOf n := by unfold State.channelOf; rw [he, hg]
  have hbu : t.budgetOf n = s.budgetOf n := by unfold State.budgetOf; simp only [h1, h2, hmem]
  have hpo : t.positionOf n = s.positionOf n := by unfold State.positionOf; rw [hf]
  have hkg : t.keyedGrantOf n = s.keyedGrantOf n := by unfold State.keyedGrantOf; rw [hg]
  unfold State.recordFields
  simp only [hfl, hch, hbu, hpo, hkg, hg, hp, h1, h4, h5, h6, h7, h8, h9, h10, h11]

theorem newsFields_congr {s t : State} {n : Slot} (h : t.recordFields n = s.recordFields n) :
    t.newsFields n = s.newsFields n := by
  simp only [State.recordFields, List.cons.injEq] at h
  obtain ⟨h1, h2, h3, _, _, _, _, _, _, _, h11, h12, _⟩ := h
  simp only [State.newsFields, h1, h2, h3, h11, h12]

theorem newsState_congr {s t : State} {n : Slot} (h : t.recordState n = s.recordState n) : t.newsState n = s.newsState n := by
  simp only [State.recordState, Prod.mk.injEq] at h
  exact Prod.ext (newsFields_congr h.1) h.2.2

/-- A frame that leaves the sources of the records alone leaves the records' fields alone. -/
theorem OnlyChanges.recordFields {ps : List Part} {s t : State} (h : OnlyChanges ps s t) (n : Slot)
    (hd : ∀ p ∈ [Part.sessions, .members, .floor, .key, .playout], p ∉ ps := by decide) :
    t.recordFields n = s.recordFields n :=
  recordFields_congr (h .sessions (hd _ (by decide))) (h .members (hd _ (by decide))) (h .floor (hd _ (by decide)))
    (h .key (hd _ (by decide))) (h .playout (hd _ (by decide))) n

/-- The same for what decides on a rewrite. -/
theorem OnlyChanges.recordState {ps : List Part} {s t : State} (h : OnlyChanges ps s t) (n : Slot)
    (hd : ∀ p ∈ [Part.sessions, .members, .floor, .key, .playout], p ∉ ps := by decide) :
    t.recordState n = s.recordState n :=
  Prod.ext (h.recordFields n hd)
    (Prod.ext (congrArg Session.counterNotices (h .sessions (hd _ (by decide)) n) :)
      (congrArg (fun f : Floor => f.positionNotices[n]) (h .floor (hd _ (by decide))) :))

theorem publishOne_recordState (b : State) (k : Slot) (t : State) (n : Slot) :
    (publishOne b k t).recordState n = t.recordState n :=
  (publishOne_frame b k t).recordState n

theorem publish_recordState (b t : State) (n : Slot) : (publish b t).recordState n = t.recordState n :=
  (publish_frame b t).recordState n

theorem publishOne_recordFields (b : State) (k : Slot) (t : State) (n : Slot) :
    (publishOne b k t).recordFields n = t.recordFields n :=
  (publishOne_frame b k t).recordFields n

theorem publish_recordFields (b t : State) (n : Slot) : (publish b t).recordFields n = t.recordFields n :=
  (publish_frame b t).recordFields n

/-! ## One rewrite -/

theorem rewriteRecord_session (s : State) (k n : Slot) :
    (s.rewriteRecord k).session n =
      if n = k then { s.session k with changeCount := (s.session k).changeCount + 2 } else s.session n := by
  simp [State.rewriteRecord]

theorem rewriteRecord_news (s : State) (k : Slot) : (s.rewriteRecord k).bus = s.bus := rfl

theorem rewriteRecord_mem (s : State) (n : Slot) :
    (s.rewriteRecord n).mem = ((s.mem.write (recordBase n) ((s.session n).changeCount + 1)).writeAll (recordBase n + 1)
      (padTo 31 (s.recordFields n))).write (recordBase n) ((s.session n).changeCount + 2) := by
  simp only [State.rewriteRecord, State.write, State.writeAll, State.withMem_mem, State.withSession_mem]

theorem rewriteRecord_read_first (s : State) (n : Slot) (hs : s.memoryLaw) :
    (s.rewriteRecord n).read (recordBase n) = (s.session n).changeCount + 2 := by
  rw [State.read, rewriteRecord_mem]
  exact Memory.read_write_same _ _ _ (Memory.writeAll_wf _ _ _ (Memory.write_wf _ _ _ hs))

/-- A list padded with words 0 reads, at every index, as the list does with 0 beyond its end. -/
theorem getD_padTo (k i : Nat) (l : List Word) : (padTo k l).getD i 0 = l.getD i 0 := by
  unfold padTo
  rcases Nat.lt_or_ge i l.length with h | h
  · rw [List.getD_append _ _ _ _ h]
  · rw [List.getD_append_right _ _ _ _ h, List.getD_eq_default _ _ h]
    rcases Nat.lt_or_ge (i - l.length) (k - l.length) with h' | h'
    · rw [List.getD_eq_getElem _ _ (by simpa using h')]; simp
    · rw [List.getD_eq_default _ _ (by simpa using h')]

theorem rewriteRecord_read (s : State) (n : Slot) (i : Nat) (hi : i < 31) (hs : s.memoryLaw) :
    (s.rewriteRecord n).read (recordBase n + 1 + i) = (s.recordFields n).getD i 0 := by
  have hl : (padTo 31 (s.recordFields n)).length = 31 := length_padTo _ _ (by rw [length_recordFields]; omega)
  rw [State.read, rewriteRecord_mem, Memory.read_write_other _ _ _ _ (by omega),
    Memory.read_writeAll _ _ _ _ (Memory.write_wf _ _ _ hs) (by omega), getD_padTo]

/-! ## One session's publication, and all sixteen -/

theorem setNews_news (s : State) (k n : Slot) :
    (s.setNews k).bus.news.getLsbD n.val = (s.bus.news.getLsbD n.val || decide (n = k)) := by
  have hn := n.isLt
  have hk := k.isLt
  simp only [State.setNews, State.withBus_bus, BitVec.getLsbD_or, bitWord, BitVec.getLsbD_shiftLeft, BitVec.getLsbD_one]
  congr 1
  simp only [Fin.ext_iff]
  by_cases h : n.val = k.val
  · simp [h]
  · simp [h]; omega

/-- The publication of one record, seen from the session itself. -/
theorem publishOne_self (b : State) (n : Slot) (t : State) (ht : t.memoryLaw) :
    if t.recordState n = b.recordState n then publishOne b n t = t
    else ((publishOne b n t).session n).changeCount = (t.session n).changeCount + 2 ∧
      (publishOne b n t).read (recordBase n) = (t.session n).changeCount + 2 ∧
      (∀ i, i < 31 → (publishOne b n t).read (recordBase n + 1 + i) = (t.recordFields n).getD i 0) ∧
      (publishOne b n t).bus.news.getLsbD n.val =
        (t.bus.news.getLsbD n.val || decide (t.newsState n ≠ b.newsState n)) := by
  by_cases h : t.recordState n = b.recordState n
  · rw [if_pos h, publishOne, if_pos h.symm]
  · rw [if_neg h, publishOne, if_neg fun e => h e.symm]
    split
    · rename_i hn
      refine ⟨by rw [rewriteRecord_session, if_pos rfl], rewriteRecord_read_first t n ht,
        fun i hi => rewriteRecord_read t n i hi ht, ?_⟩
      rw [rewriteRecord_news]; simp [hn]
    · rename_i hn
      refine ⟨?_, ?_, fun i hi => ?_, ?_⟩
      · rw [State.setNews_session, rewriteRecord_session, if_pos rfl]
      · rw [State.setNews_read, rewriteRecord_read_first t n ht]
      · rw [State.setNews_read, rewriteRecord_read t n i hi ht]
      · rw [setNews_news, rewriteRecord_news]; simp [Ne.symm hn]

/-- The publication of one record, seen from another session. -/
theorem publishOne_other (b : State) (k : Slot) (t : State) (ht : t.memoryLaw) (n : Slot) (h : n ≠ k) :
    ((publishOne b k t).session n) = t.session n ∧
      (∀ a, inRecord n a → (publishOne b k t).read a = t.read a) ∧
      (publishOne b k t).bus.news.getLsbD n.val = t.bus.news.getLsbD n.val := by
  refine ⟨?_, fun a ha => ?_, ?_⟩
  · unfold publishOne; split
    · rfl
    · split
      · rw [rewriteRecord_session, if_neg h]
      · rw [State.setNews_session, rewriteRecord_session, if_neg h]
  · refine ((publishOne_stores b k t) ht).2.1 a (fun hk => h ?_) (isTxState_outside (.inl (inRecord_outside ha)))
    simp only [inRecord, inArea, recordBase] at ha hk
    exact Fin.ext (by omega)
  · unfold publishOne; split
    · rfl
    · split
      · rfl
      · rw [setNews_news, rewriteRecord_news]; simp [h]

theorem publish_fold (b : State) (l : List Slot) (hl : l.Nodup) : ∀ t : State, t.memoryLaw →
    (∀ n, n ∉ l → (l.foldl (fun t n => publishOne b n t) t).session n = t.session n ∧
      (∀ a, inRecord n a → (l.foldl (fun t n => publishOne b n t) t).read a = t.read a) ∧
      (l.foldl (fun t n => publishOne b n t) t).bus.news.getLsbD n.val = t.bus.news.getLsbD n.val) ∧
    (∀ n, n ∈ l → (l.foldl (fun t n => publishOne b n t) t).session n = (publishOne b n t).session n ∧
      (∀ a, inRecord n a → (l.foldl (fun t n => publishOne b n t) t).read a = (publishOne b n t).read a) ∧
      (l.foldl (fun t n => publishOne b n t) t).bus.news.getLsbD n.val = (publishOne b n t).bus.news.getLsbD n.val) := by
  induction l with
  | nil => exact fun t _ => ⟨fun n _ => ⟨rfl, fun _ _ => rfl, rfl⟩, fun n hn => absurd hn (List.not_mem_nil)⟩
  | cons k l ih =>
    intro t ht
    obtain ⟨hk, hl⟩ := List.nodup_cons.1 hl
    have hu := ((publishOne_stores b k t) ht).1
    obtain ⟨ih1, ih2⟩ := ih hl (publishOne b k t) hu
    refine ⟨fun n hn => ?_, fun n hn => ?_⟩
    · have hnk : n ≠ k := fun e => hn (e ▸ List.mem_cons_self ..)
      obtain ⟨a1, a2, a3⟩ := ih1 n fun h => hn (List.mem_cons_of_mem _ h)
      obtain ⟨b1, b2, b3⟩ := publishOne_other b k t ht n hnk
      exact ⟨a1.trans b1, fun a ha => (a2 a ha).trans (b2 a ha), a3.trans b3⟩
    · by_cases e : n = k
      · subst e; exact ih1 n hk
      · obtain ⟨a1, a2, a3⟩ := ih2 n (List.mem_of_ne_of_mem e hn)
        have hself := publishOne_comm b k n t ht e
        exact ⟨a1.trans hself.1, fun a ha => (a2 a ha).trans (hself.2.1 a ha), a3.trans hself.2.2⟩
where
  publishOne_comm (b : State) (k n : Slot) (t : State) (ht : t.memoryLaw) (e : n ≠ k) :
      (publishOne b n (publishOne b k t)).session n = (publishOne b n t).session n ∧
        (∀ a, inRecord n a → (publishOne b n (publishOne b k t)).read a = (publishOne b n t).read a) ∧
        (publishOne b n (publishOne b k t)).bus.news.getLsbD n.val = (publishOne b n t).bus.news.getLsbD n.val := by
    have hu := ((publishOne_stores b k t) ht).1
    obtain ⟨c1, c2, c3⟩ := publishOne_other b k t ht n e
    have hf := publishOne_recordFields b k t n
    have s1 := publishOne_self b n t ht
    have s2 := publishOne_self b n (publishOne b k t) hu
    rw [publishOne_recordState, hf, newsState_congr (publishOne_recordState b k t n)] at s2
    by_cases h : t.recordState n = b.recordState n
    · rw [if_pos h] at s1 s2; rw [s1, s2]; exact ⟨c1, c2, c3⟩
    · rw [if_neg h] at s1 s2
      obtain ⟨p1, p2, p3, p4⟩ := s1
      obtain ⟨q1, q2, q3, q4⟩ := s2
      refine ⟨?_, fun a ha => ?_, ?_⟩
      · have hs : ∀ u, (publishOne b n u).session n =
            { u.session n with changeCount := ((publishOne b n u).session n).changeCount } := fun u => by
          have := publishOne_frame b n u .sessions (by decide) n
          simp only [Session.uncounted, Session.mk.injEq] at this
          obtain ⟨e1, e2, e3, e4, e5, e6, e7, e8, e9, e10, e11, _⟩ := this
          cases hx : (publishOne b n u).session n
          simp_all
        rw [hs, hs t, q1, p1, c1]
      · obtain ⟨i, rfl⟩ : ∃ i, a = recordBase n + i := ⟨a - recordBase n, by
          simp only [inRecord, inArea] at ha; omega⟩
        simp only [inRecord, inArea] at ha
        cases i with
        | zero => rw [Nat.add_zero, q2, p2, c1]
        | succ i =>
          rw [show recordBase n + (i + 1) = recordBase n + 1 + i by omega, q3 i (by omega), p3 i (by omega)]
      · rw [q4, p4, c3]

/-- The publication at the end of an event whose effect took `s` to `u`, with the change counts and NEWS left alone. -/
theorem publish_published {s u : State} (hu : u.memoryLaw) (hc : ∀ n, (u.session n).changeCount = (s.session n).changeCount)
    (hn : u.bus.news = s.bus.news) : Published s (publish s u) := by
  intro n
  have hf := publish_recordFields s u n
  obtain ⟨a1, a2, a3⟩ := (publish_fold s allSlots (List.nodup_finRange 16) u hu).2 n (List.mem_finRange n)
  have hself := publishOne_self s n u hu
  unfold PublishedFor
  rw [publish_recordState, hf, newsState_congr (publish_recordState s u n)]
  change (publish s u).session n = _ at a1
  change (∀ a, inRecord n a → (publish s u).read a = _) at a2
  change (publish s u).bus.news.getLsbD n.val = _ at a3
  split
  · rename_i h
    rw [if_pos h] at hself
    rw [a1, a3, hself, hc, hn]; exact ⟨rfl, rfl⟩
  · rename_i h
    rw [if_neg h] at hself
    obtain ⟨p1, p2, p3, p4⟩ := hself
    have hr : ∀ i, i < 32 → inRecord n (recordBase n + i) := fun i hi => ⟨by omega, by omega⟩
    refine ⟨by rw [a1, p1, hc], by rw [a2 (recordBase n) (hr 0 (by omega)), p2, hc], fun i hi => ?_, by rw [a3, p4, hn]⟩
    rw [a2 _ ?_, p3 i hi]
    rw [Nat.add_assoc]; exact hr _ (by omega)

/-- An event that changes no record publishes nothing. -/
theorem publish_unchanged {s u : State} (h : ∀ n, u.recordState n = s.recordState n) : publish s u = u := by
  have hl : ∀ l : List Slot, l.foldl (fun t n => publishOne s n t) u = u := by
    intro l
    induction l with
    | nil => rfl
    | cons k l ih => rw [List.foldl_cons, publishOne, if_pos (h k).symm, ih]
  exact hl allSlots

theorem event_unchanged {ps : List Part} {f : State → State} {s : State} (h : OnlyChanges ps s (f s))
    (hd : ∀ p ∈ [Part.sessions, .members, .floor, .key, .playout], p ∉ ps := by decide) : event f s = f s :=
  publish_unchanged fun n => h.recordState n hd

/-! ## Publication changes no word outside the records of changed sessions -/

theorem MemoryKept.refl (P : Nat → Prop) (s : State) : MemoryKept P s s := fun _ _ => rfl

theorem MemoryKept.trans {P : Nat → Prop} {s t u : State} (h1 : MemoryKept P s t) (h2 : MemoryKept P t u) :
    MemoryKept P s u := fun a ha => (h2 a ha).trans (h1 a ha)

theorem MemoryKept.mono {P Q : Nat → Prop} {s t : State} (h : MemoryKept P s t) (sub : ∀ a, P a → Q a) : MemoryKept Q s t :=
  fun a ha => h a fun hp => ha (sub a hp)

theorem MemoryKept.of_mem {P : Nat → Prop} {s t : State} (h : t.mem = s.mem) : MemoryKept P s t :=
  fun a _ => by rw [State.read, State.read, h]

theorem rewriteRecord_kept (s : State) (n : Slot) : MemoryKept (inRecord n) s (s.rewriteRecord n) := by
  intro a ha
  have hl : (padTo 31 (s.recordFields n)).length = 31 := length_padTo _ _ (by rw [length_recordFields]; omega)
  simp only [inRecord, inArea, not_and, Nat.not_lt] at ha
  rw [State.read, rewriteRecord_mem, Memory.read_write_other _ _ _ _ (by omega),
    Memory.read_writeAll_other _ _ _ _ (by omega), Memory.read_write_other _ _ _ _ (by omega), State.read]

theorem publishOne_kept (b : State) (n : Slot) (t : State) : MemoryKept (inRecord n) t (publishOne b n t) := by
  unfold publishOne
  split
  · exact .refl _ _
  · split
    · exact rewriteRecord_kept t n
    · intro a ha; rw [State.setNews_read]; exact rewriteRecord_kept t n a ha

theorem publish_kept (s u : State) : MemoryKept (inChangedRecord s (publish s u)) u (publish s u) := by
  have hl : ∀ (l : List Slot) (v : State), (∀ n, v.recordState n = u.recordState n) →
      MemoryKept (inChangedRecord s u) v (l.foldl (fun t n => publishOne s n t) v) := by
    intro l
    induction l with
    | nil => exact fun v _ => .refl _ v
    | cons k l ih =>
      intro v hv
      refine MemoryKept.trans ?_ (ih _ fun n => (publishOne_recordState s k v n).trans (hv n))
      show MemoryKept _ v (publishOne s k v)
      by_cases h : s.recordState k = v.recordState k
      · unfold publishOne; rw [if_pos h]; exact .refl _ _
      · exact (publishOne_kept s k v).mono fun a ha => ⟨k, fun e => h (by rw [hv, e]), ha⟩
  refine (hl allSlots u fun _ => rfl).mono fun a ⟨n, hn, ha⟩ => ⟨n, ?_, ha⟩
  rw [publish_recordState]; exact hn

/-- What publication stores to: the records of the sessions that have changed. -/
theorem publish_stores_changed (s u : State) (hu : u.memoryLaw) :
    Stores (inChangedRecord s (publish s u)) u (publish s u) := by
  have h := publish_stores s u
  intro hs
  refine ⟨(h hs).1, fun a ha hx => ?_, (h hs).2.2⟩
  by_cases hr : inRecords a
  · obtain ⟨n, hn⟩ := hr
    have hf : u.recordState n = s.recordState n := by
      by_contra hc
      exact ha ⟨n, by rw [publish_recordState]; exact hc, hn⟩
    obtain ⟨_, a2, _⟩ := (publish_fold s allSlots (List.nodup_finRange 16) u hu).2 n (List.mem_finRange n)
    have hself := publishOne_self s n u hu
    rw [if_pos hf] at hself
    rw [hself] at a2
    exact a2 a hn
  · exact (h hs).2.1 a hr hx

end Sys2Proof.Machine
end

