-- ==== Sys2Proof/Laws/Service.lean ====
section
/-! SUPPORT. What the service of a cell does, whatever the request's own work is: the answer, the Request Cell Unit, the summary
registers, the published records, and the frame (R164, R165). -/

set_option Elab.async false

namespace Sys2Proof.Machine

theorem cellSlot_cell (n : Slot) : cellSlot n.cell = some n := by
  unfold cellSlot
  rw [dif_neg (by simp [Slot.cell])]
  simp [Slot.cell]

theorem cellSlot_zero : cellSlot 0 = none := rfl

/-! ## The answer -/

theorem writeAnswer_mem (c : Cell) (tag : Word) (a : Answer) (s : State) :
    (writeAnswer c tag a s).mem = (s.mem.writeAll (cellBase c + 43) (a.codeWord :: tag :: a.sixteen)).write (cellBase c) 0 := by
  unfold writeAnswer
  cases cellSlot c <;> simp only [State.write, State.writeAll, State.withMem_mem, State.withCells_mem, State.raise_mem,
    State.setAnswered_mem]

theorem writeAnswer_cells (c : Cell) (tag : Word) (a : Answer) (s : State) :
    (writeAnswer c tag a s).cells = s.cells.served c := by
  unfold writeAnswer Cells.served
  cases cellSlot c <;> rfl

theorem writeAnswer_answered (c : Cell) (tag : Word) (a : Answer) (s : State) :
    (writeAnswer c tag a s).bus.answered =
      (match cellSlot c with | none => s.bus.answered | some n => s.bus.answered ||| bitWord n.val) := by
  unfold writeAnswer
  cases cellSlot c <;> rfl

theorem writeAnswer_events (c : Cell) (tag : Word) (a : Answer) (s : State) :
    (writeAnswer c tag a s).bus.events =
      (match cellSlot c with | none => s.bus.events ||| bitWord 0 | some _ => s.bus.events) := by
  unfold writeAnswer
  cases cellSlot c <;> rfl

theorem sixteen_getD (a : Answer) (i : Nat) :
    a.sixteen.getD i 0 = if a.code.carriesWords then a.words.getD i 0 else 0 := by
  unfold Answer.sixteen
  rw [getD_padTo]
  split
  · rfl
  · rfl

theorem writeAnswer_read (c : Cell) (tag : Word) (a : Answer) (s : State) (hs : s.memoryLaw) (hw : a.words.length ≤ 16) :
    (writeAnswer c tag a s).read (cellBase c + 43) = a.codeWord ∧ (writeAnswer c tag a s).read (cellBase c + 44) = tag ∧
    (∀ i, i < 16 → (writeAnswer c tag a s).read (cellBase c + 45 + i) = if a.code.carriesWords then a.words.getD i 0 else 0) ∧
    (writeAnswer c tag a s).read (cellBase c) = 0 := by
  have hr : ∀ i, i < 18 → (writeAnswer c tag a s).read (cellBase c + 43 + i) = (a.codeWord :: tag :: a.sixteen).getD i 0 := by
    intro i hi
    rw [State.read, writeAnswer_mem, Memory.read_write_other _ _ _ _ (by omega), Memory.read_writeAll _ _ _ _ hs]
    rw [List.length_cons, List.length_cons, length_sixteen a hw]; omega
  refine ⟨hr 0 (by omega), hr 1 (by omega), fun i hi => ?_, ?_⟩
  · rw [show cellBase c + 45 + i = cellBase c + 43 + (i + 2) by omega, hr _ (by omega), ← sixteen_getD]; rfl
  · rw [State.read, writeAnswer_mem]
    exact Memory.read_write_same _ _ _ (Memory.writeAll_wf _ _ _ hs)

/-! ## The whole event of a service -/

theorem inRecords_not_inAnswer {c : Cell} {a : Nat} (h : inRecords a) : ¬ inAnswer c a := by
  obtain ⟨n, hn⟩ := h
  have := c.isLt
  simp only [inRecord, inArea, recordBase] at hn
  simp only [inAnswer, inArea, cellBase]
  omega

theorem writeAnswer_kept (c : Cell) (tag : Word) (a : Answer) (s : State) (hw : a.words.length ≤ 16) :
    MemoryKept (inAnswer c) s (writeAnswer c tag a s) := by
  intro b hb
  simp only [inAnswer, inArea, not_or, not_and, Nat.not_lt] at hb
  rw [State.read, writeAnswer_mem, Memory.read_write_other _ _ _ _ hb.1, Memory.read_writeAll_other, State.read]
  rw [List.length_cons, List.length_cons, length_sixteen a hw]
  omega

/-- The event that serves cell c with a body whose work reaches `ps` and changes no word outside `Q`. -/
theorem serve_event {ps : List Part} {Q : Nat → Prop} {c : Cell} {body : State → State × Answer} {s : State}
    (hf : OnlyChanges ps s (body s).1) (hu : (body s).1.memoryLaw) (hQ : MemoryKept Q s (body s).1)
    (hw : (body s).2.words.length ≤ 16) (hd : ∀ p ∈ [Part.cells, .answered, .changeCounts, .news], p ∉ ps := by decide) :
    Served s (event (serve c body) s) c (body s).2 ∧
    ServiceFrame c ps Q s (event (serve c body) s) ∧
    Published s (event (serve c body) s) ∧
    OnlyChanges serviceParts (body s).1 (event (serve c body) s) ∧
    (event (serve c body) s).bus.events =
      (match cellSlot c with | none => (body s).1.bus.events ||| bitWord 0 | some _ => (body s).1.bus.events) := by
  have hA := writeAnswer_frame c (s.read (cellBase c + 2)) (body s).2 (body s).1
  have hM := writeAnswer_stores c (s.read (cellBase c + 2)) (body s).2 (body s).1 hw
  have hK := writeAnswer_kept c (s.read (cellBase c + 2)) (body s).2 (body s).1 hw
  have hR := writeAnswer_read c (s.read (cellBase c + 2)) (body s).2 (body s).1 hu hw
  have hv := (hM hu).1
  have hpub := publish_frame s (writeAnswer c (s.read (cellBase c + 2)) (body s).2 (body s).1)
  have hsto := publish_stores s (writeAnswer c (s.read (cellBase c + 2)) (body s).2 (body s).1)
  have hcells := writeAnswer_cells c (s.read (cellBase c + 2)) (body s).2 (body s).1
  have hans := writeAnswer_answered c (s.read (cellBase c + 2)) (body s).2 (body s).1
  have hev := writeAnswer_events c (s.read (cellBase c + 2)) (body s).2 (body s).1
  have hbc : (body s).1.cells = s.cells := hf .cells (hd _ (by decide))
  have hba : (body s).1.bus.answered = s.bus.answered := hf .answered (hd _ (by decide))
  have hch := publish_kept s (writeAnswer c (s.read (cellBase c + 2)) (body s).2 (body s).1)
  have hP2 : Published s (publish s (writeAnswer c (s.read (cellBase c + 2)) (body s).2 (body s).1)) :=
    publish_published hv
      (fun n => (hA .changeCounts (by decide) n).trans (hf .changeCounts (hd _ (by decide)) n))
      ((hA .news (by decide)).trans (hf .news (hd _ (by decide))))
  change Served s (publish s (writeAnswer c (s.read (cellBase c + 2)) (body s).2 (body s).1)) c (body s).2 ∧
    ServiceFrame c ps Q s (publish s (writeAnswer c (s.read (cellBase c + 2)) (body s).2 (body s).1)) ∧
    Published s (publish s (writeAnswer c (s.read (cellBase c + 2)) (body s).2 (body s).1)) ∧
    OnlyChanges serviceParts (body s).1 (publish s (writeAnswer c (s.read (cellBase c + 2)) (body s).2 (body s).1)) ∧
    (publish s (writeAnswer c (s.read (cellBase c + 2)) (body s).2 (body s).1)).bus.events = _
  generalize writeAnswer c (s.read (cellBase c + 2)) (body s).2 (body s).1 = v at *
  have hread : ∀ a, inAnswer c a → (publish s v).read a = v.read a := fun a ha =>
    (hsto hv).2.1 a (fun hr => inRecords_not_inAnswer hr ha) (isTxState_outside (.inl (inAnswer_outside ha)))
  have hpe : (publish s v).bus.events = v.bus.events := hpub .events (by decide)
  have hpa : (publish s v).bus.answered = v.bus.answered := hpub .answered (by decide)
  have hpc : (publish s v).cells = v.cells := hpub .cells (by decide)
  refine ⟨⟨⟨?_, ?_, fun i hi => ?_, ?_⟩, ?_, ?_⟩, ⟨?_, ?_⟩, hP2, ?_, hpe.trans hev⟩
  · rw [hread _ (.inr ⟨by omega, by omega⟩), hR.1]
  · rw [hread _ (.inr ⟨by omega, by omega⟩), hR.2.1]
  · rw [hread _ (.inr ⟨by omega, by omega⟩), hR.2.2.1 i hi]
  · rw [hread _ (.inl rfl), hR.2.2.2]
  · rw [hpc, hcells, hbc]
  · cases hc : cellSlot c with
    | none =>
      rw [hc] at hev hans
      refine ⟨?_, by rw [hpa, hans, hba]⟩
      rw [hpe, hev, BitVec.getLsbD_or]; simp [bitWord]
    | some n =>
      rw [hc] at hans
      show (publish s v).bus.answered = _
      rw [hpa, hans, hba]
  · refine OnlyChanges.trans (hf.mono fun p hp => List.mem_append_left _ hp) (OnlyChanges.trans
      (hA.mono fun p hp => List.mem_append_right _ ?_) (hpub.mono fun p hp => List.mem_append_right _ ?_))
    · revert p; decide
    · revert p; decide
  · exact (hQ.mono fun a h => .inl h).trans ((hK.mono fun a h => .inr (.inl h)).trans (hch.mono fun a h => .inr (.inr h)))
  · exact OnlyChanges.trans (hA.mono) (hpub.mono)

/-! ## The two kinds of service -/

theorem stationService_eq {r : Request} {body : State → State × Answer} {s : State} (h : s.serves 0 r) :
    stationService r body s = event (serve 0 body) s := if_pos h

theorem sessionService_eq {r : Request} {body : Slot → State → State × Answer} {s : State} {n : Slot} (h : s.serves n.cell r) :
    sessionService r body s = event (serve n.cell (gate n (body n))) s := by
  unfold sessionService
  rw [h.2.1]
  simp only [Option.bind_some, cellSlot_cell]
  exact if_pos ⟨h.1, h.2.2⟩

theorem gate_open {n : Slot} {body : State → State × Answer} {s : State} (h : (s.session n).state = .opened) :
    gate n body s = body (s.gated n) := by
  unfold gate; rw [h]; rfl

/-- What the gate of an OPEN session does (R20, R27). -/
theorem gated_session (s : State) (n k : Slot) (h : (s.session n).state = .opened) :
    (s.gated n).session k =
      if k = n then
        { s.session n with
          requestsTaken := min 65535 ((s.session n).requestsTaken + 1)
          counterNotices := (s.session n).counterNotices + 1
          deadline := some (Clock.plus s.clock (s.periodFor n)) }
      else s.session k := by
  unfold State.gated State.noteRequest State.countNotice State.armDeadline
  have hp : ∀ r, (s.withSession n r).periodFor n = s.periodFor n := fun _ => rfl
  simp only [State.withSession_session, if_true, h, hp, State.withSession_clock]
  split <;> rfl

theorem gated_frame (s : State) (n : Slot) : OnlyChanges [.sessions] s (s.gated n) := noteRequest_frame s n

theorem gated_mem (s : State) (n : Slot) : (s.gated n).mem = s.mem := gated_frame s n .mem (by decide)

end Sys2Proof.Machine
end

