-- ==== Sys2Proof/Laws/Ends.lean ====
section
/-! SUPPORT. How a grant ends: what the pre-key end and the unkey leave at the Key Controller, and what an abrupt cause does in
every state (R80–R83). -/

set_option Elab.async false

namespace Sys2Proof.Machine

theorem dropPtt_key (s : State) : s.dropPtt.key = { s.key with ptt := false } := by
  unfold State.dropPtt
  split
  · rfl
  · rename_i h; cases hk : s.key; rw [hk] at h; simp_all

theorem dropPtt_notices (s : State) : s.dropPtt.notices = s.notices := dropPtt_frame s .notices (by decide)

/-- The Key Controller after an unkey of `g` (R76, R83, R84). -/
def Grant.keyAfter (g : Grant) (s : State) : KeyController :=
  { s.key with
    grant := none, ptt := false, recovery := startTimer (ms s.params.recovery)
    timedOut := match g.session with
      | none => s.key.timedOut
      | some n => if g.endReason = some .timeout then some (n, s.periods) else s.key.timedOut }

theorem noteTimeout_key (g : Grant) (s : State) : (s.noteTimeout g).key =
    { s.key with
      timedOut := match g.session with
        | none => s.key.timedOut
        | some n => if g.endReason = some .timeout then some (n, s.periods) else s.key.timedOut } := by
  unfold State.noteTimeout
  cases g.session with
  | none => rfl
  | some n => dsimp only; split <;> rfl

/-- The frame of an unkey before its end notice: nothing but PTT, receiver recovery and the note of a TIMEOUT changes at the Key
Controller. -/
theorem unkey_key (g : Grant) (s : State) : (unkey g s).key = g.keyAfter s := by
  unfold unkey
  extract_lets t owed charged g' t1 t2 t3 t4 r t5 t6
  have e1 : t.key = { s.key with ptt := false } := dropPtt_key s
  have e2 : charged.1.key = t.key := chargeTicks_frame t g owed .key (by decide)
  have e3 : t1.key = charged.1.key := appendLog_frame _ _ .key (by decide)
  have e4 : t2.key = t1.key := penalty_frame g' g'.member t1 .key (by decide)
  have e5 : t3.key = t2.key := identEnd_frame _ _ .key (by decide)
  have e6 : t4.key = t3.key := endPlayout_frame _ .key (by decide)
  have e7 : t5.key = t4.key := endForHolder_frame _ _ _ .key (by decide)
  have p5 : t5.periods = s.periods := by
    have q1 : t.periods = s.periods := dropPtt_frame s .periods (by decide)
    have q2 : charged.1.periods = t.periods := chargeTicks_frame t g owed .periods (by decide)
    have q3 : t1.periods = charged.1.periods := appendLog_frame _ _ .periods (by decide)
    have q4 : t2.periods = t1.periods := penalty_frame g' g'.member t1 .periods (by decide)
    have q5 : t3.periods = t2.periods := identEnd_frame _ _ .periods (by decide)
    have q6 : t4.periods = t3.periods := endPlayout_frame _ .periods (by decide)
    have q7 : t5.periods = t4.periods := endForHolder_frame _ _ _ .periods (by decide)
    rw [q7, q6, q5, q4, q3, q2, q1]
  have p : t5.params = s.params := by
    have q1 : t.params = s.params := dropPtt_frame s .params (by decide)
    have q2 : charged.1.params = t.params := chargeTicks_frame t g owed .params (by decide)
    have q3 : t1.params = charged.1.params := appendLog_frame _ _ .params (by decide)
    have q4 : t2.params = t1.params := penalty_frame g' g'.member t1 .params (by decide)
    have q5 : t3.params = t2.params := identEnd_frame _ _ .params (by decide)
    have q6 : t4.params = t3.params := endPlayout_frame _ .params (by decide)
    have q7 : t5.params = t4.params := endForHolder_frame _ _ _ .params (by decide)
    rw [q7, q6, q5, q4, q3, q2, q1]
  have e8 : t5.startRecovery.key = { t5.key with recovery := startTimer (ms t5.params.recovery) } := rfl
  have e9 : t5.startRecovery.periods = t5.periods := rfl
  have e0 := noteTimeout_key g' t5.startRecovery
  rw [e8, e9, p, p5, e7, e6, e5, e4, e3, e2, e1] at e0
  show { t6.key with grant := none } = _
  rw [e0]
  rfl

theorem unkey_notices (g : Grant) (s : State) :
    (unkey g s).notices = s.notices ++ [.ended g.kind g.tag g.session (g.endReason.getD .released)] := by
  unfold unkey
  extract_lets t owed charged g' t1 t2 t3 t4 r t5 t6
  have e1 : t.notices = s.notices := dropPtt_notices s
  have e2 : charged.1.notices = t.notices := chargeTicks_frame t g owed .notices (by decide)
  have e3 : t1.notices = charged.1.notices := appendLog_frame _ _ .notices (by decide)
  have e4 : t2.notices = t1.notices := penalty_frame g' g'.member t1 .notices (by decide)
  have e5 : t3.notices = t2.notices := identEnd_frame _ _ .notices (by decide)
  have e6 : t4.notices = t3.notices := endPlayout_frame _ .notices (by decide)
  have e7 : t5.notices = t4.notices := endForHolder_frame _ _ _ .notices (by decide)
  have e8 : t6.notices = t5.notices :=
    (noteTimeout_frame _ _ .notices (by decide)).trans (startRecovery_frame t5 .notices (by decide))
  show t6.notices ++ _ = _
  rw [e8, e7, e6, e5, e4, e3, e2, e1]

theorem preKeyEnd_key (g : Grant) (r : EndReason) (s : State) : (preKeyEnd g r s).key = { s.key with grant := none } := by
  unfold preKeyEnd
  extract_lets r' h t t1 t2
  have e1 : t1.key = s.key := endPlayout_frame _ .key (by decide)
  have e2 : t2.key = t1.key := endForHolder_frame _ _ _ .key (by decide)
  show { t2.key with grant := none } = _
  rw [e2, e1]

theorem preKeyEnd_notices (g : Grant) (r : EndReason) (s : State) : (preKeyEnd g r s).notices = s.notices ++ [g.endNotice r] := by
  unfold preKeyEnd
  extract_lets r' h t t1 t2
  have e1 : t1.notices = s.notices := endPlayout_frame _ .notices (by decide)
  have e2 : t2.notices = t1.notices := endForHolder_frame _ _ _ .notices (by decide)
  show t2.notices ++ _ = _
  rw [e2, e1]; rfl

/-- An abrupt cause ends its grant in every state, with the end reason it already has, if it has one (R80, R81). -/
theorem applyCause_abrupt (g : Grant) (r : EndReason) (s : State) (h : causeClass r = .abrupt) :
    (applyCause g r s).key.grant = none ∧ (applyCause g r s).notices = s.notices ++ [g.endNotice r] ∧
    (s.key.ptt = false ∨ g.state.onAir = true → (applyCause g r s).key.ptt = false) := by
  have hu : ∀ g' : Grant, g'.kind = g.kind → g'.tag = g.tag → g'.session = g.session →
      g'.endReason = some (g.endReason.getD r) →
      (unkey g' s).key.grant = none ∧ (unkey g' s).notices = s.notices ++ [g.endNotice r] ∧
      (s.key.ptt = false ∨ g.state.onAir = true → (unkey g' s).key.ptt = false) := fun g' h1 h2 h3 h4 => by
    rw [unkey_key, unkey_notices, h1, h2, h3, h4]; exact ⟨rfl, rfl, fun _ => rfl⟩
  have hp : g.state.onAir = false → (preKeyEnd g r s).key.grant = none ∧
      (preKeyEnd g r s).notices = s.notices ++ [g.endNotice r] ∧
      (s.key.ptt = false ∨ g.state.onAir = true → (preKeyEnd g r s).key.ptt = false) := fun hs => by
    rw [preKeyEnd_key, preKeyEnd_notices, hs]; exact ⟨rfl, rfl, fun h => h.resolve_right (by decide)⟩
  unfold applyCause
  rw [h]
  cases hs : g.state <;> rw [hs] at hu hp <;> dsimp only <;>
    first | exact hp rfl | exact hu _ rfl rfl rfl rfl

end Sys2Proof.Machine
end

