-- ==== Sys2Proof/Laws/Course.lean ====
section
/-! SUPPORT. One lemma for each operation of the Key Controller that says once everything it does: the ends of a grant (R82, R83),
its key-up (R71, R72) and its course before it (R63–R70), in the terms of Safety.lean. -/

set_option Elab.async false

namespace Sys2Proof.Machine

/-! ## What a frame says of a record, the clock and a table -/

theorem Session.eq_of_uncounted {a b : Session} (h : a.uncounted = b.uncounted) (hc : a.changeCount = b.changeCount) : a = b := by
  simp only [Session.uncounted, Session.mk.injEq] at h
  cases a; cases b; simp_all

theorem OnlyChanges.session {ps : List Part} {s t : State} (h : OnlyChanges ps s t) (n : Slot)
    (h1 : Part.sessions ∉ ps := by decide) (h2 : Part.changeCounts ∉ ps := by decide) : t.session n = s.session n :=
  Session.eq_of_uncounted (h .sessions h1 n) (h .changeCounts h2 n)

theorem OnlyChanges.clock {ps : List Part} {s t : State} (h : OnlyChanges ps s t) (h1 : Part.periods ∉ ps := by decide) :
    t.clock = s.clock := by
  have : t.periods = s.periods := h .periods h1
  rw [State.clock, State.clock, this]

theorem OnlyChanges.member {ps : List Part} {s t : State} (h : OnlyChanges ps s t) (m : MemberIx)
    (h1 : Part.members ∉ ps := by decide) : t.member m = s.member m := by
  have : t.members = s.members := h .members h1
  rw [State.member, State.member, this]

theorem OnlyChanges.channel {ps : List Part} {s t : State} (h : OnlyChanges ps s t) (c : ChannelIx)
    (h1 : Part.channels ∉ ps := by decide) : t.channel c = s.channel c := by
  have : t.channels = s.channels := h .channels h1
  rw [State.channel, State.channel, this]

theorem OnlyChanges.read {ps : List Part} {s t : State} (h : OnlyChanges ps s t) (a : Nat)
    (h1 : Part.mem ∉ ps := by decide) : t.read a = s.read a := by
  have : t.mem = s.mem := h .mem h1
  rw [State.read, State.read, this]

/-- The holder's record after a grant's end, from a state that agrees on what it is made of. -/
theorem Grant.endsAt_congr {g : Grant} {r : EndReason} {s u v : State} (h : g.endsAt r u v)
    (hn : ∀ k, u.session k = s.session k) (hc : u.clock = s.clock) (hp : u.params = s.params) : g.endsAt r s v := by
  intro k
  rw [h k, hn, hc, hp]

/-! ## Transmit places freed -/

theorem Stores.law {P : Nat → Prop} {s t : State} (h : Stores P s t) (hs : s.memoryLaw) : t.memoryLaw := (h hs).1

theorem txBase_inj {i j : Nat} (h : txBase i = txBase j) : i = j := by simp only [txBase] at h; omega

theorem freePlaces_read (l : List Nat) : ∀ s : State, s.memoryLaw →
    (∀ i, (s.freePlaces l).read (txBase i) = if i ∈ l then 0 else s.read (txBase i)) ∧
    (∀ a, (∀ i ∈ l, a ≠ txBase i) → (s.freePlaces l).read a = s.read a) := by
  induction l with
  | nil => exact fun s _ => ⟨fun _ => rfl, fun _ _ => rfl⟩
  | cons k l ih =>
    intro s hs
    have hk : (s.freePlace k).memoryLaw := Memory.write_wf _ _ _ hs
    obtain ⟨h1, h2⟩ := ih (s.freePlace k) hk
    refine ⟨fun i => ?_, fun a ha => ?_⟩
    · show ((s.freePlace k).freePlaces l).read (txBase i) = _
      rw [h1]
      by_cases hi : i ∈ l
      · rw [if_pos hi, if_pos (List.mem_cons_of_mem _ hi)]
      · rw [if_neg hi]
        by_cases e : i = k
        · subst e; rw [if_pos (List.mem_cons_self ..)]; exact Memory.read_write_same _ _ _ hs
        · rw [if_neg (by simp [e, hi])]
          exact Memory.read_write_other _ _ _ _ fun h => e (txBase_inj h)
    · show ((s.freePlace k).freePlaces l).read a = _
      rw [h2 a fun i hi => ha i (List.mem_cons_of_mem _ hi)]
      exact Memory.read_write_other _ _ _ _ (ha k (List.mem_cons_self ..))

/-- The grant end at the Playout Engine (R100). -/
theorem endPlayout_stops (s : State) (hs : s.memoryLaw) : StopsPlayout s s.endPlayout := by
  let t := s.withPlayout { s.playout with boundary := none, dacBlock := [], currentTag := none }
  have hset : t.sweepSet (fun _ => true) = (List.range 64).filter fun i => s.read (txBase i) == 1 := by
    simp only [State.sweepSet, Bool.and_true]; rfl
  have hr := (freePlaces_read (t.sweepSet fun _ => true) t hs).1
  have hp : (t.freePlaces (t.sweepSet fun _ => true)).playout = t.playout := freePlaces_frame _ _ .playout (by decide)
  refine ⟨?_, fun i hi => ?_⟩
  · show { (t.freePlaces (t.sweepSet fun _ => true)).playout with
      discarded := saturate 65535 (t.freePlaces (t.sweepSet fun _ => true)).playout.discarded
        (t.sweepSet fun _ => true).length } = _
    rw [hp, hset]; rfl
  · show (t.freePlaces (t.sweepSet fun _ => true)).read (txBase i) = _
    rw [hr, hset]
    by_cases h : s.read (txBase i) = 1
    · rw [if_pos h, if_pos]
      simp only [List.mem_filter, List.mem_range, beq_iff_eq]; exact ⟨hi, h⟩
    · rw [if_neg h, if_neg]
      · rfl
      · simp only [List.mem_filter, List.mem_range, beq_iff_eq]; exact fun h' => h h'.2

/-! ## The holder's record -/

theorem endForHolder_session (s : State) (g : Grant) (r : EndReason) : g.endsAt r s (s.endForHolder g r) := by
  intro k
  unfold State.endForHolder
  cases hg : g.session with
  | none => rfl
  | some n =>
    dsimp only [State.endForSession]
    rw [State.withSession_session]
    by_cases h : k = n
    · subst h; rw [if_pos rfl, if_pos rfl]
    · rw [if_neg h, if_neg fun e => h (Option.some.inj e).symm]

/-! ## The pre-key end (R82) -/

theorem preKeyEnd_spec (g : Grant) (r : EndReason) (s : State) (hs : s.memoryLaw) :
    PreKeyEnds g r s (preKeyEnd g r s) ∧ (preKeyEnd g r s).log = s.log ∧ (preKeyEnd g r s).bus.events = s.bus.events := by
  have hk := preKeyEnd_key g r s
  have hn := preKeyEnd_notices g r s
  have hl := preKeyEnd_frame g r s .log (by decide)
  have he := preKeyEnd_frame g r s .events (by decide)
  refine ⟨⟨hk, hn, ?_, ?_, ?_, preKeyEnd_frame g r s .members (by decide), preKeyEnd_frame g r s .ident (by decide),
    preKeyEnd_frame g r s .supervisor (by decide)⟩, hl, he⟩
  · unfold preKeyEnd
    extract_lets r' h t t1 t2
    have e1 : t1.detector = t.detector := endPlayout_frame _ .detector (by decide)
    have e2 : t2.detector = t1.detector := endForHolder_frame _ _ _ .detector (by decide)
    show t2.detector = _
    rw [e2, e1]; rfl
  · unfold preKeyEnd
    extract_lets r' h t t1 t2
    have hp := endPlayout_stops t hs
    have e : t2.playout = t1.playout := endForHolder_frame _ _ _ .playout (by decide)
    have m : t2.mem = t1.mem := endForHolder_frame _ _ _ .mem (by decide)
    exact ⟨e.trans hp.1, fun i hi => by
      show t2.read _ = _
      rw [State.read, m]; exact hp.2 i hi⟩
  · unfold preKeyEnd
    extract_lets r' h t t1 t2
    have f : OnlyChanges [.detector, .mem, .playout] s t1 :=
      OnlyChanges.after (endPlayout_frame t).mono (withHolds_frame (by decide))
    exact Grant.endsAt_congr (endForHolder_session t1 g r') (fun k => f.session k) f.clock (f .params (by decide))

/-! ## The unkey (R83) -/

theorem dropPtt_spec (s : State) :
    s.dropPtt.detector = { s.detector with holds := { s.detector.holds with ptt := !s.key.ptt && s.detector.holds.ptt } } ∧
    s.dropPtt.supervisor =
      (if s.key.ptt then { s.supervisor with qualification := none, qualifiedThisKeying := false } else s.supervisor) ∧
    s.dropPtt.bus.events = s.bus.events ||| (if s.key.ptt then bitWord 11 else 0) := by
  unfold State.dropPtt
  split
  · rename_i h; rw [h]; exact ⟨rfl, rfl, rfl⟩
  · rename_i h
    rw [Bool.eq_false_iff.2 h]
    exact ⟨rfl, rfl, (BitVec.or_zero ..).symm⟩

theorem flagWord_bit (b : Bool) : flagWord b = word b.toNat := by cases b <;> rfl

theorem logFlags_eq (a b c d : Bool) : flagsWord [a, b, c, d] = logFlags a b c d := by
  cases a <;> cases b <;> cases c <;> cases d <;> decide

/-- The words of the entry an unkey appends (11.4). -/
theorem entryFor_words (s : State) (g : Grant) (n : Word) :
    (s.entryFor g).words n =
      [n, (match g.kind with | .member => 0 | .ident => 1), memberWord g.member, slotWord g.session, word g.channel.val,
       g.tag, lowWord (g.keyUpTime.getD 0), highWord (g.keyUpTime.getD 0),
       lowWord (BitVec.ofNat 32 (g.keySamples / 8)), highWord (BitVec.ofNat 32 (g.keySamples / 8)), reasonWord g.endReason,
       logFlags g.cutShort (g.kind == .member && s.playout.concealment) g.forced g.budgetExhausted, 0, 0, 0, 0] := by
  unfold LogEntry.words State.entryFor
  rw [logFlags_eq]
  cases g.kind <;> rfl

theorem chargeTicks_exhausts (s : State) (g : Grant) :
    (s.chargeTicks g g.ticksOwed).2 = true ↔ g.exhausts s := by
  unfold State.chargeTicks Grant.exhausts
  cases hm : g.member with
  | none => simp
  | some m =>
    simp only [Member.exhaustedBy, Bool.and_eq_true, Bool.not_eq_true', decide_eq_true_eq, Option.some.injEq,
      exists_eq_left', Nat.sub_eq_zero_iff_le, and_assoc]

theorem chargeTicks_member (s : State) (g : Grant) (k : Nat) (m : MemberIx) (h : g.member = some m) :
    (s.chargeTicks g k).1.member m = (s.member m).charge k := by
  unfold State.chargeTicks
  rw [h]
  dsimp only
  rw [State.withMember_member, if_pos rfl]

theorem appendLog_read (s : State) (e : LogEntry) (hs : s.memoryLaw) (i : Nat) (hi : i < 16) :
    (s.appendLog e).read (logBase (s.log.next.toNat % 64) + i) = (e.words s.log.next).getD i 0 := by
  unfold State.appendLog
  extract_lets u l
  exact Memory.read_writeAll _ _ _ _ hs hi

theorem appendLog_tx (s : State) (e : LogEntry) (i : Nat) : (s.appendLog e).read (txBase i) = s.read (txBase i) := by
  unfold State.appendLog
  extract_lets u l
  have := Nat.mod_lt s.log.next.toNat (show 0 < 64 by decide)
  have hl : (e.words s.log.next).length = 16 := rfl
  exact Memory.read_writeAll_other _ _ _ _ (.inr (by rw [hl]; simp only [logBase, txBase]; omega))

theorem setPenalty_member (s : State) (m : MemberIx) :
    (s.setPenalty m).member m =
      { s.member m with
        penaltyEnd := if (s.member m).present ∧ s.params.timeoutPenalty ≠ 0 then
          some (Clock.plus s.clock (1000 * s.params.timeoutPenalty)) else none } := by
  unfold State.setPenalty
  rw [State.withMember_member, if_pos rfl]
  simp only [Bool.and_eq_true, bne_iff_ne]

/-- The grant record as the unkey logs and closes it (R83 parts 2 and 3). -/
def unkeyed (g : Grant) (exhausted : Bool) : Grant :=
  { g with ticks := g.ticks + g.ticksOwed, budgetExhausted := g.budgetExhausted || exhausted }

/-- The states an unkey passes through, in the order of R83's parts. -/
theorem unkey_chain (g : Grant) (s : State) : ∃ (t : State) (c : State × Bool) (t1 t2 t3 t4 t5 t6 : State),
    t = s.dropPtt ∧ c = t.chargeTicks g g.ticksOwed ∧ t1 = c.1.appendLog (s.entryFor (unkeyed g c.2)) ∧
    t2 = (match g.member with | some m => if g.endReason = some .timeout then t1.setPenalty m else t1 | none => t1) ∧
    t3 = t2.identEnd (unkeyed g c.2) ∧ t4 = t3.endPlayout ∧
    t5 = t4.endForHolder (unkeyed g c.2) (g.endReason.getD .released) ∧ t6 = t5.startRecovery ∧
    unkey g s = ((t6.noteTimeout (unkeyed g c.2)).notify (.ended g.kind g.tag g.session (g.endReason.getD .released))).withGrant none :=
  ⟨_, _, _, _, _, _, _, _, rfl, rfl, rfl, rfl, rfl, rfl, rfl, rfl, rfl⟩

theorem unkey_spec (g : Grant) (s : State) (hs : s.memoryLaw) : Unkeys g s (unkey g s) := by
  have hk := unkey_key g s
  have hn := unkey_notices g s
  obtain ⟨t, c, t1, t2, t3, t4, t5, t6, e0, ec, e1, e2, e3, e4, e5, e6, hu⟩ := unkey_chain g s
  have f0 : OnlyChanges [.key, .detector, .supervisor, .events] s t := e0 ▸ dropPtt_frame s
  have f1 : OnlyChanges [.members] t c.1 := ec ▸ chargeTicks_frame t g _
  have f2 : OnlyChanges [.log, .events, .mem] c.1 t1 := e1 ▸ appendLog_frame _ _
  have f3 : OnlyChanges [.members] t1 t2 := e2 ▸ penalty_frame g g.member t1
  have f4 : OnlyChanges [.ident, .events] t2 t3 := e3 ▸ identEnd_frame _ _
  have f5 : OnlyChanges [.mem, .playout] t3 t4 := e4 ▸ endPlayout_frame _
  have f6 : OnlyChanges [.sessions] t4 t5 := e5 ▸ endForHolder_frame _ _ _
  have f7 : OnlyChanges [.key, .detector] t5 t6 := e6 ▸ startRecovery_frame _
  have f8 : OnlyChanges [.key, .notices] t6 (unkey g s) :=
    hu ▸ OnlyChanges.after (withGrant_frame (by decide)) (OnlyChanges.after (notify_frame (by decide)) (noteTimeout_frame _ _).mono)
  obtain ⟨d1, d2, d3⟩ := dropPtt_spec s
  rw [← e0] at d1 d2 d3
  -- what the parts up to the log entry have left alone
  have b1 : OnlyChanges [.key, .detector, .supervisor, .events, .members] s c.1 := f0.mono.trans f1.mono
  have b2 : OnlyChanges [.key, .detector, .supervisor, .events, .members, .log, .mem] s t1 := b1.mono.trans f2.mono
  have b3 : OnlyChanges [.key, .detector, .supervisor, .events, .members, .log, .mem] s t2 := b2.trans f3.mono
  have b4 : OnlyChanges [.key, .detector, .supervisor, .events, .members, .log, .mem, .ident] s t3 := b3.mono.trans f4.mono
  have b5 : OnlyChanges [.key, .detector, .supervisor, .events, .members, .log, .mem, .ident, .playout] s t4 :=
    b4.mono.trans f5.mono
  have b6 : OnlyChanges [.key, .detector, .supervisor, .events, .members, .log, .mem, .ident, .playout, .sessions] s t5 :=
    b5.mono.trans f6.mono
  -- what the parts from each on leave alone
  have a6 : OnlyChanges [.key, .detector, .notices] t5 (unkey g s) := f7.mono.trans f8.mono
  have a5 : OnlyChanges [.key, .detector, .notices, .sessions] t4 (unkey g s) := f6.mono.trans a6.mono
  have a4 : OnlyChanges [.key, .detector, .notices, .sessions, .mem, .playout] t3 (unkey g s) := f5.mono.trans a5.mono
  have a3 : OnlyChanges [.key, .detector, .notices, .sessions, .mem, .playout, .ident, .events] t2 (unkey g s) :=
    f4.mono.trans a4.mono
  have a2 : OnlyChanges [.key, .detector, .notices, .sessions, .mem, .playout, .ident, .events, .members] t1 (unkey g s) :=
    f3.mono.trans a3.mono
  have hc : c.1.memoryLaw := by rw [State.memoryLaw, b1 .mem (by decide)]; exact hs
  have el : c.1.log = s.log := b1 .log (by decide)
  have law1 : t1.memoryLaw := e1 ▸ (appendLog_stores c.1 _).law hc
  have s2 : Stores noWord t1 t2 := e2 ▸ penalty_stores g g.member t1
  have s3 : Stores noWord t2 t3 := e3 ▸ identEnd_stores t2 (unkeyed g c.2)
  have s4 : Stores noWord t3 t4 := e4 ▸ endPlayout_stores t3
  have law3 : t3.memoryLaw := s3.law (s2.law law1)
  refine ⟨?_, ?_, ?_, ?_, ?_, ?_, ?_, ?_, ?_, hn, ?_⟩
  · have e : startTimer (ms s.params.recovery) = if s.params.recovery = 0 then none else some (8 * s.params.recovery) := by
      unfold startTimer ms
      by_cases h : s.params.recovery = 0
      · simp [h]
      · rw [if_neg h, if_neg (by omega)]
    cases hg : g.session <;> simp only [hk, Grant.keyAfter, hg, e]
  · have p : t5.params = s.params := b6 .params (by decide)
    have e : t5.detector = t.detector := by
      have : OnlyChanges [.members, .log, .events, .mem, .ident, .playout, .sessions] t t5 :=
        f1.mono.trans <| f2.mono.trans <| f3.mono.trans <| f4.mono.trans <| f5.mono.trans f6.mono
      exact this .detector (by decide)
    have : t6.detector = { t5.detector with holds := { t5.detector.holds with recovery := t5.params.recovery != 0 } } := by
      rw [e6]; rfl
    rw [f8 .detector (by decide), this, p, e, d1]
    simp only [bne, beq_eq_decide, decide_not]
  · have : OnlyChanges [.members, .log, .events, .mem, .ident, .playout, .sessions, .key, .detector, .notices] t (unkey g s) :=
      f1.mono.trans <| f2.mono.trans <| a2.mono
    rw [this .supervisor (by decide), d2]
  · intro m
    by_cases hm : g.member = some m
    case neg =>
      rw [if_neg hm, a3.member m, e2]
      have hc1 : c.1.member m = s.member m := by
        rw [ec, ← f0.member m]; unfold State.chargeTicks
        cases hg : g.member with
        | none => rfl
        | some k => exact State.withMember_member _ _ _ _ |>.trans (if_neg fun h => hm (by rw [hg, h]))
      have ht1 : t1.member m = s.member m := (f2.member m).trans hc1
      cases hg : g.member with
      | none => exact ht1
      | some k =>
        dsimp only
        have : m ≠ k := fun h => hm (by rw [hg, h])
        unfold State.setPenalty
        split
        · rw [State.withMember_member, if_neg this, ht1]
        · exact ht1
    rw [if_pos hm]
    have em : c.1.member m = (s.member m).charge g.ticksOwed := by
      rw [ec, chargeTicks_member t g _ m hm, f0.member m]
    have p : t1.params = s.params := b2 .params (by decide)
    have q : t1.clock = s.clock := b2.clock
    have : t2.member m = if g.endReason = some .timeout then (t1.setPenalty m).member m else t1.member m := by
      rw [e2, hm]; dsimp only; split <;> rfl
    rw [a3.member m, this, setPenalty_member, p, q, f2.member m, em]
    unfold Member.charge
    rcases s.member m with ⟨p1, _, _, _, _, _, p7, _, _, _, _, _, _⟩
    by_cases h1 : g.endReason = some EndReason.timeout <;> by_cases h3 : s.params.timeoutPenalty = 0 <;> cases p1 <;>
      cases p7 <;> simp [h1, h3]
  · have : t1.log = { c.1.log with next := c.1.log.next + 1, reserved := false } := by rw [e1]; rfl
    rw [a2 .log (by decide), this, el]
  · refine ⟨g.budgetExhausted || c.2, ?_, fun i hi => ?_⟩
    · have hx : c.2 = true ↔ g.exhausts s := by
        rw [ec, chargeTicks_exhausts t g]
        simp only [Grant.exhausts, f0.member]
      rw [Bool.or_eq_true, hx]
    · have hb : isTxState (logBase (s.log.next.toNat % 64) + i) = false :=
        isTxState_outside (.inl (by have := Nat.mod_lt s.log.next.toNat (show 0 < 64 by decide); simp only [logBase]; omega))
      have ha := appendLog_read c.1 (s.entryFor (unkeyed g c.2)) hc i hi
      rw [el] at ha
      rw [a5.read, (s2.trans (s3.trans s4) law1).2.1 _ (fun h => h) hb, e1, ha, entryFor_words]
      rfl
  · rw [a4 .ident (by decide), e3]
    have q : t2.clock = s.clock := b3.clock
    have e : t2.ident = s.ident := b3 .ident (by decide)
    unfold State.identEnd
    rw [show (unkeyed g c.2).kind = g.kind from rfl, show (unkeyed g c.2).endReason = g.endReason from rfl]
    cases g.kind with
    | member => exact e
    | ident =>
      rw [if_neg (show ¬ GrantKind.ident = .member by decide), ← e, ← q]
      dsimp only
      split <;> rfl
  · have hp := endPlayout_stops t3 law3
    rw [← e4] at hp
    have ep : t3.playout = s.playout := b4 .playout (by decide)
    have hr : ∀ i, t3.read (txBase i) = s.read (txBase i) := fun i => by
      have : OnlyChanges [.members, .ident, .events] t1 t3 := f3.mono.trans f4.mono
      rw [this.read, e1, appendLog_tx, b1.read]
    refine ⟨?_, fun i hi => ?_⟩
    · rw [a5 .playout (by decide), hp.1, ep]
      simp only [hr]
    · rw [a5.read, hp.2 i hi, hr]
  · intro k
    rw [a6.session k, e5]
    exact Grant.endsAt_congr (g := g) (endForHolder_session t4 (unkeyed g c.2) _) (fun k => b5.session k) b5.clock
      (b5 .params (by decide)) k
  · have e : t2.bus.events = s.bus.events ||| (if s.key.ptt then bitWord 11 else 0) ||| bitWord 1 := by
      rw [f3 .events (by decide), e1, ← d3, ← f1 .events (by decide)]; rfl
    rw [a4 .events (by decide), e3, ← e]
    unfold State.identEnd
    rw [show (unkeyed g c.2).kind = g.kind from rfl, show (unkeyed g c.2).endReason = g.endReason from rfl]
    cases g.kind with
    | member => simp
    | ident =>
      dsimp only
      by_cases h : g.endReason = some EndReason.idDone
      · rw [if_pos h, if_pos ⟨rfl, h⟩]; rfl
      · rw [if_neg h, if_neg fun h' => h h'.2]; exact (BitVec.or_zero ..).symm

/-! ## Tail (R79) -/

theorem limitReached_iff (g : Grant) : g.limitReached = true ↔ g.atLimit := by
  unfold Grant.limitReached Grant.atLimit ms
  cases g.keyLimit <;> simp

theorem startTimer_ms (n : Nat) : startTimer (ms n) = if n = 0 then none else some (8 * n) := by
  unfold startTimer ms
  by_cases h : n = 0
  · simp [h]
  · rw [if_neg h, if_neg (by omega)]

theorem unkeys_of_playout {g : Grant} {s t v : State} (h : Unkeys g t v) (f : OnlyChanges [.playout] s t)
    (hp : t.playout = { s.playout with boundary := t.playout.boundary, dacBlock := t.playout.dacBlock }) : Unkeys g s v := by
  have hk : t.key = s.key := f .key (by decide)
  have hpa : t.params = s.params := f .params (by decide)
  have hc : t.clock = s.clock := f.clock
  have hm : ∀ m, t.member m = s.member m := fun m => f.member m
  have hn : ∀ n, t.session n = s.session n := fun n => f.session n
  have hr : ∀ a, t.read a = s.read a := fun a => f.read a
  have hl : t.log = s.log := f .log (by decide)
  have he : t.bus.events = s.bus.events := f .events (by decide)
  obtain ⟨h1, h2, h3, h4, h5, h6, h7, h8, h9, h10, h11⟩ := h
  refine ⟨?_, ?_, ?_, ?_, ?_, ?_, ?_, ?_, Grant.endsAt_congr h9 hn hc hpa, ?_, ?_⟩
  · rw [h1, hk, hpa, f .periods (by decide)]
  · rw [h2, hk, hpa, f .detector (by decide)]
  · rw [h3, hk, f .supervisor (by decide)]
  · intro m; rw [h4 m]; simp only [hm, hpa, hc]
  · rw [h5, hl]
  · obtain ⟨x, hx, hy⟩ := h6
    refine ⟨x, ?_, fun i hi => ?_⟩
    · rw [hx]; simp only [Grant.exhausts, hm]
    · rw [← hl, hy i hi]; unfold Grant.logged; rw [hl, hp]
  · rw [h7, f .ident (by decide), hc]
  · refine ⟨?_, fun i hi => ?_⟩
    · rw [h8.1, hp]; simp only [hr]
    · rw [h8.2 i hi, hr]
  · rw [h10, f .notices (by decide)]
  · rw [h11, he, hk]

theorem enterTail_spec (q : Bool) (g : Grant) (s : State) (hs : s.memoryLaw) : EntersTail q g s (enterTail q g s) := by
  unfold enterTail
  extract_lets g' p t
  have f : OnlyChanges [.playout] s t := withPlayout_frame
  have ht : t.memoryLaw := hs
  have hg : g'.tailLeft = if s.params.tail = 0 then none else some (8 * s.params.tail) := startTimer_ms _
  have hl : g'.limitReached = true ↔ g.atLimit := limitReached_iff g'
  refine ⟨fun h => ?_, fun h0 h1 => ?_⟩
  · rw [if_pos]
    · have hu := unkeys_of_playout (unkey_spec g' t ht) f rfl
      exact ⟨hu.key, hu.detector, hu.supervisor, hu.member, hu.log, hu.entry, hu.ident, hu.playout, hu.session, hu.notices,
        hu.events⟩
    · rw [Bool.or_eq_true, hl, hg]
      rcases h with h | h
      · exact .inl (by rw [if_pos h]; rfl)
      · exact .inr h
  · rw [if_neg]
    · refine ⟨?_, rfl, OnlyChanges.after (withGrant_frame (by decide)) (f.mono)⟩
      show { s.key with grant := some g' } = _
      rw [← (show g'.tailLeft = some (8 * s.params.tail) by rw [hg, if_neg h0])]
    · rw [Bool.or_eq_true, hl, hg, if_neg h0]
      exact fun h => h.elim (fun h => by cases h) h1

/-! ## Key-up (R71, R72) -/

theorem judgeMark_spec (s : State) :
    s.judgeMark.log = s.logAfter s.log.reserved ∧ s.judgeMark.bus.events = s.bus.events ||| s.markEvent := by
  unfold State.judgeMark State.logAfter State.markEvent State.markAfter
  extract_lets v
  by_cases h : (s.log.next - v).toNat ≤ 64
  · rw [if_pos h]
    have h' : (s.log.next - s.read 0x40).toNat ≤ 64 := h
    simp only [if_pos h']
    exact ⟨rfl, (BitVec.or_zero ..).symm⟩
  · rw [if_neg h]
    have h' : ¬ (s.log.next - s.read 0x40).toNat ≤ 64 := h
    simp only [if_neg h']
    exact ⟨rfl, rfl⟩

theorem reserve_spec (s : State) :
    if 64 ≤ (s.log.next - s.markAfter).toNat + s.log.reserved.toNat then
      s.reserve.2 = false ∧ s.reserve.1.log = s.logAfter s.log.reserved ∧
        s.reserve.1.bus.events = s.bus.events ||| s.markEvent ||| bitWord 2
    else
      s.reserve.2 = true ∧ s.reserve.1.log = s.logAfter true ∧ s.reserve.1.bus.events = s.bus.events ||| s.markEvent := by
  obtain ⟨hl, he⟩ := judgeMark_spec s
  have hroom : s.judgeMark.log.room = 64 - (s.log.next - s.markAfter).toNat - s.log.reserved.toNat := by
    rw [hl]; unfold StationLog.room StationLog.unread State.logAfter; dsimp only; cases s.log.reserved <;> rfl
  unfold State.reserve
  extract_lets t
  split
  · rw [if_neg (by show ¬ 1 ≤ s.judgeMark.log.room; omega)]
    refine ⟨rfl, hl, ?_⟩
    rw [← he]; rfl
  · rw [if_pos (by show 1 ≤ s.judgeMark.log.room; omega)]
    refine ⟨rfl, ?_, he⟩
    show { s.judgeMark.log with reserved := true } = _
    rw [hl]; rfl

theorem preKeyEnds_of_log {g : Grant} {r : EndReason} {s t v : State} (h : PreKeyEnds g r t v)
    (f : OnlyChanges [.log, .events] s t) : PreKeyEnds g r s v := by
  obtain ⟨h1, h2, h3, h4, h5, h6, h7, h8⟩ := h
  refine ⟨?_, ?_, ?_, ⟨?_, fun i hi => ?_⟩, Grant.endsAt_congr h5 (fun n => f.session n) f.clock (f .params (by decide)),
    h6.trans (f .members (by decide)), h7.trans (f .ident (by decide)),
    h8.trans (f .supervisor (by decide))⟩
  · rw [h1, f .key (by decide)]
  · rw [h2, f .notices (by decide)]
  · rw [h3, f .detector (by decide)]
  · rw [h4.1, f .playout (by decide)]; simp only [f.read]
  · rw [h4.2 i hi, f.read]

theorem identOwed_spec (s : State) : s.identOwed.ident =
    { s.ident with
      owed := true, due := s.ident.due || (!s.ident.owed && s.ident.intervalReached && !s.params.idTextEmpty) } := by
  have he : s.identOwed =
      if s.ident.owed then s.withIdent { s.ident with owed := true }
      else if (s.ident.intervalReached && !s.params.idTextEmpty && !s.ident.due) = true then
        s.withIdent { s.ident with owed := true, due := true }
      else s.withIdent { s.ident with owed := true } := rfl
  rw [he]
  cases h1 : s.ident.owed with
  | true => simp
  | false =>
    by_cases h : (s.ident.intervalReached && !s.params.idTextEmpty && !s.ident.due) = true
    · rw [if_neg (by decide), if_pos h]
      simp only [Bool.and_eq_true] at h
      rw [h.1.1, h.1.2]; simp
    · rw [if_neg (by decide), if_neg h]
      have : (s.ident.due || (!false && s.ident.intervalReached && !s.params.idTextEmpty)) = s.ident.due := by
        revert h; cases s.ident.intervalReached <;> cases s.params.idTextEmpty <;> cases s.ident.due <;> decide
      rw [this]; rfl

theorem memberKeyUp_spec (g : Grant) (s : State) :
    (∀ m, (s.memberKeyUp g).member m =
      if g.member = some m then { s.member m with grantCount := min 65535 ((s.member m).grantCount + 1) } else s.member m) ∧
    (∀ k, (s.memberKeyUp g).session k =
      if g.session = some k ∧ (s.session k).state = .opened then
        { s.session k with deadline := some (Clock.plus s.clock s.params.holderSurveillance) }
      else s.session k) ∧
    (s.memberKeyUp g).ident =
      { s.ident with
        owed := true, due := s.ident.due || (!s.ident.owed && s.ident.intervalReached && !s.params.idTextEmpty) } ∧
    (s.memberKeyUp g).playout =
      { s.playout with
        position := 0, missingRun := 0, drainCount := 0, lastPlayed := none, concealment := false, depth := 0, depthLow := false,
        depthHigh := false, boundary := some (8 * s.params.txDelay), dacBlock := [] } := by
  unfold State.memberKeyUp
  extract_lets t t1 t2
  have f0 : OnlyChanges [.members] s t := by
    show OnlyChanges _ s (match g.member with | some m => s.countGrant m | none => s)
    split
    · exact withMember_frame
    · exact .refl _ _
  have f1 : OnlyChanges [.ident] t t1 := identOwed_frame t
  have f2 : OnlyChanges [.sessions] t1 t2 := by
    show OnlyChanges _ t1 (match g.session with | some n => _ | none => t1)
    split
    · exact .ite (withSession_frame rfl) (.refl _ _)
    · exact .refl _ _
  have f3 : OnlyChanges [.playout] t2 t2.startPlayout := startPlayout_frame t2
  have b1 : OnlyChanges [.members, .ident] s t1 := f0.mono.trans f1.mono
  refine ⟨fun m => ?_, fun k => ?_, ?_, ?_⟩
  · have h : OnlyChanges [.ident, .sessions, .playout] t t2.startPlayout := f1.mono.trans <| f2.mono.trans f3.mono
    rw [h.member m]
    show (match g.member with | some m => s.countGrant m | none => s).member m = _
    cases hm : g.member with
    | none => rfl
    | some k =>
      show (s.withMember k _).member m = _
      rw [State.withMember_member]
      by_cases e : m = k
      · subst e; rw [if_pos rfl, if_pos rfl]; rfl
      · rw [if_neg e, if_neg fun h => e (Option.some.inj h).symm]
  · rw [f3.session k]
    show (match g.session with | some n => _ | none => t1 : State).session k = _
    cases hk : g.session with
    | none => dsimp only; rw [if_neg (by simp)]; exact b1.session k
    | some n =>
      dsimp only
      rw [b1.session n, b1.clock, b1 .params (by decide)]
      by_cases h : (s.session n).state = .opened
      · rw [if_pos h, State.withSession_session]
        by_cases e : k = n
        · subst e; rw [if_pos rfl, if_pos ⟨rfl, h⟩]
        · rw [if_neg e, if_neg fun x => e (Option.some.inj x.1).symm]; exact b1.session k
      · rw [if_neg h, if_neg fun x => h (by rw [Option.some.inj x.1]; exact x.2)]; exact b1.session k
  · have h : OnlyChanges [.sessions, .playout] t1 t2.startPlayout := f2.mono.trans f3.mono
    rw [h .ident (by decide)]
    show t.identOwed.ident = _
    rw [identOwed_spec, f0 .ident (by decide), f0 .params (by decide)]
  · have h : OnlyChanges [.members, .ident, .sessions] s t2 := b1.mono.trans f2.mono
    show { t2.playout with
      position := 0, missingRun := 0, drainCount := 0, lastPlayed := none, concealment := false, depth := 0, depthLow := false,
      depthHigh := false, boundary := some (ms t2.params.txDelay), dacBlock := [] } = _
    rw [h .playout (by decide), h .params (by decide)]; rfl

theorem becomesGrant (g : Grant) (s : State) : BecomesGrant g s (s.withGrant (some g)) := ⟨rfl, withGrant_frame⟩

theorem supervisorReason_iff (r : EndReason) : supervisorReason r = true ↔ r ∈ [EndReason.killed, .fault, .disabled, .stopped] := by
  cases r <;> decide

theorem supervisorCauseWaits_iff (s : State) (tag : Word) :
    s.supervisorCauseWaits tag = true ↔ ∃ r ∈ [EndReason.killed, .fault, .disabled, .stopped], .cause tag r ∈ s.notices := by
  unfold State.supervisorCauseWaits
  rw [List.any_eq_true]
  constructor
  · rintro ⟨x, hx, h⟩
    cases x <;> simp only [Notice.supervisorCause, Bool.and_eq_true, beq_iff_eq, Bool.false_eq_true] at h
    obtain ⟨rfl, h⟩ := h
    exact ⟨_, (supervisorReason_iff _).1 h, hx⟩
  · rintro ⟨r, hr, h⟩
    exact ⟨_, h, by simp [Notice.supervisorCause, (supervisorReason_iff r).2 hr]⟩

theorem barsKeyUp_iff (s : State) (g : Grant) : s.barsKeyUp g = true ↔ KeyUpBarred g s := by
  unfold State.barsKeyUp KeyUpBarred
  rw [← supervisorCauseWaits_iff]
  simp only [Bool.or_eq_true, or_assoc]

/-- A grant that is held is never keyed (R71). -/
theorem keyUp_held {g : Grant} (s : State) (h : g.keyUpHeld = true) : keyUp g s = s.withGrant (some g) := by
  unfold keyUp
  rw [if_pos ((barsKeyUp_iff s g).2 (.inr (.inl h))), ← h]

theorem keyUp_spec (g : Grant) (s : State) (hs : s.memoryLaw) : KeyUpEvent g s (keyUp g s) := by
  unfold keyUp KeyUpEvent
  by_cases hb : KeyUpBarred g s
  · rw [if_pos ((barsKeyUp_iff s g).2 hb), if_pos hb]
    exact becomesGrant _ s
  · rw [if_neg (mt (barsKeyUp_iff s g).1 hb), if_neg hb]
    split
    · exact preKeyEnd_spec g _ s hs
    · have hr := reserve_spec s
      have fr := reserve_frame s
      have hl : s.reserve.1.memoryLaw := by rw [State.memoryLaw, fr .mem (by decide)]; exact hs
      extract_lets r
      split
      · rename_i h
        rw [if_pos h] at hr
        obtain ⟨h1, h2, h3⟩ := hr
        rw [if_neg (by show ¬ s.reserve.2 = true; rw [h1]; decide)]
        obtain ⟨p1, p2, p3⟩ := preKeyEnd_spec g .logFull s.reserve.1 hl
        exact ⟨preKeyEnds_of_log p1 fr, p2.trans h2, p3.trans h3⟩
      · rename_i h
        rw [if_neg h] at hr
        obtain ⟨h1, h2, h3⟩ := hr
        rw [if_pos (by show s.reserve.2 = true; exact h1)]
        show Keyed g s (keyUpSucceeds g s.reserve.1)
        generalize hu : s.reserve.1 = u at *
        unfold keyUpSucceeds
        extract_lets g' t
        have ft : OnlyChanges [.key, .detector, .events] u t :=
          OnlyChanges.after (assertPtt_frame _).mono (withGrant_frame (by decide))
        have fs : OnlyChanges [.log, .events, .key, .detector] s t := fr.mono.trans ft.mono
        have hk : t.key = { s.key with ptt := true, grant := some { g with
            reservationHeld := true, keyUpTime := some s.clock, keySamples := 0, ticks := 0, busyWait := .off,
            prebufferLeft := none, state := if g.kind = .member then .keyed else .idSending } } := by
          show { u.key with grant := some g', ptt := true } = _
          have : g' = { g with
            reservationHeld := true, keyUpTime := some s.clock, keySamples := 0, ticks := 0, busyWait := .off,
            prebufferLeft := none, state := if g.kind = .member then .keyed else .idSending } := by
              show ({ g with
                reservationHeld := true, keyUpTime := some u.clock, keySamples := 0, ticks := 0, busyWait := .off,
                prebufferLeft := none, state := match g.kind with | .member => .keyed | .ident => .idSending } : Grant) = _
              rw [fr.clock]; cases g.kind <;> rfl
          rw [fr .key (by decide), this]
        have hlog : t.log = s.logAfter true := (ft .log (by decide)).trans h2
        have hev : t.bus.events = s.bus.events ||| s.markEvent ||| bitWord 11 := by rw [← h3]; rfl
        have hd : t.detector = { s.detector with holds := { s.detector.holds with ptt := true } } := by
          show { u.detector with holds := { u.detector.holds with ptt := true } } = _
          rw [fr .detector (by decide)]
        have hno : t.notices = s.notices := fs .notices (by decide)
        cases hkind : g.kind with
        | ident =>
          have hni : ¬ g.kind = .member := fun h => absurd (hkind.symm.trans h) (by decide)
          refine ⟨?_, hlog, hev, hd, fun m => ?_, fun k => ?_, ?_, ?_, hno, fs .mem (by decide)⟩
          · dsimp only; rw [hk]
          · rw [if_neg fun h => hni h.1]; exact fs.member m
          · rw [if_neg fun h => hni h.1]; exact fs.session k
          · rw [if_neg hni]; exact fs .playout (by decide)
          · rw [if_neg hni]; exact fs .ident (by decide)
        | member =>
          dsimp only
          have fm := memberKeyUp_frame g' t
          obtain ⟨m1, m2, m3, m4⟩ := memberKeyUp_spec g' t
          refine ⟨?_, ?_, ?_, ?_, fun m => ?_, fun k => ?_, ?_, ?_, ?_, ?_⟩
          · rw [fm .key (by decide), hk]
          · rw [fm .log (by decide), hlog]
          · rw [fm .events (by decide), hev]
          · rw [fm .detector (by decide), hd]
          · rw [m1 m, fs.member]; simp only [hkind, true_and]; rfl
          · rw [m2 k, fs.session, fs.clock, fs .params (by decide)]; simp only [hkind, true_and]; rfl
          · rw [if_pos hkind, m4, fs .playout (by decide), fs .params (by decide)]
          · rw [if_pos hkind, m3, fs .ident (by decide), fs .params (by decide)]
          · rw [fm .notices (by decide), hno]
          · rw [fm .mem (by decide), fs .mem (by decide)]

/-! ## The course of a grant before its key-up (R63–R70) -/

theorem prebufferComplete_iff (s : State) (tag : Word) : s.prebufferComplete tag = true ↔ s.prebuffered tag := by
  simp only [State.prebufferComplete, State.prebuffered, List.all_eq_true, List.mem_range, State.blockPresent, Bool.and_eq_true,
    beq_iff_eq, State.filled, State.txState, State.txTag, State.txSequence, and_assoc]

theorem enterPrebuffer_spec (g : Grant) (s : State) (hs : s.memoryLaw) : EntersPrebuffer g s (enterPrebuffer g s) := by
  unfold enterPrebuffer
  refine ⟨fun h => ?_, fun h => ?_⟩
  · rw [if_pos ((prebufferComplete_iff s g.tag).2 h)]; exact keyUp_spec _ s hs
  · rw [if_neg fun h' => h ((prebufferComplete_iff s g.tag).1 h')]; exact becomesGrant _ s

theorem leaveGap2_spec (g : Grant) (s : State) (hs : s.memoryLaw) : LeavesGap2 g s (leaveGap2 g s) := by
  unfold leaveGap2 LeavesGap2
  cases h : g.kind with
  | member => rw [if_pos rfl]; exact enterPrebuffer_spec _ s hs
  | ident => rw [if_neg (by decide)]; exact keyUp_spec _ s hs

theorem enterGap2_spec (g : Grant) (s : State) (hs : s.memoryLaw) : EntersGap2 g s (enterGap2 g s) := by
  unfold enterGap2 EntersGap2
  rw [startTimer_ms]
  split
  · exact leaveGap2_spec _ s hs
  · exact becomesGrant _ s

theorem enterGap1_spec (g : Grant) (s : State) (hs : s.memoryLaw) : EntersGap1 g s (enterGap1 g s) := by
  unfold enterGap1 EntersGap1
  rw [startTimer_ms]
  split
  · exact enterGap2_spec _ s hs
  · exact becomesGrant _ s

theorem busyWaitOver_spec (g : Grant) (s : State) (hs : s.memoryLaw) : WaitIsOver g s (busyWaitOver g s) := by
  have hk : ∀ k, g.kind = k → busyWaitOver g s = match k with | .member => preKeyEnd g .channelBusy s | .ident => forceIdent g s :=
    fun k h => h ▸ rfl
  unfold WaitIsOver
  split <;> rename_i h
  · rw [hk _ h]; exact preKeyEnd_spec g _ s hs
  · rw [hk .ident (by cases e : g.kind <;> simp_all)]
    exact enterGap1_spec { g with forced := true } (s.withIdent { s.ident with forcedCount := _ }) hs

theorem waitAtEntry_eq (g : Grant) (p : Params) : g.busyWait.enter (p.busyWaitTime g.kind) = g.waitAtEntry p := by
  unfold BusyWait.enter Grant.waitAtEntry Grant.waitLimit Params.busyWaitTime ms seconds
  cases g.busyWait <;> cases g.kind <;> rfl

theorem enterWaitClear_spec (g : Grant) (s : State) (hs : s.memoryLaw) : EntersWaitClear g s (enterWaitClear g s) := by
  unfold enterWaitClear EntersWaitClear
  rw [waitAtEntry_eq]
  have hc : s.clearCondition = true ↔ s.detector.debounced = false ∧ s.key.recovery = none := by
    unfold State.clearCondition; simp
  simp only [hc]
  split
  · exact enterGap1_spec _ s hs
  · split
    · exact busyWaitOver_spec _ s hs
    · exact becomesGrant _ s

theorem busyChange_spec (s : State) (hs : s.memoryLaw) : MeetsBusyChange s (busyChange s) := by
  have hc : s.clearCondition = true ↔ s.detector.debounced = false ∧ s.key.recovery = none := by
    unfold State.clearCondition; simp
  unfold busyChange MeetsBusyChange
  cases hg : s.key.grant with
  | none => rfl
  | some g =>
    dsimp only
    cases h : g.state <;> dsimp only <;> simp only [reduceCtorEq, true_and, false_and, if_false] <;> try rfl
    · simp only [hc]
      split
      · exact enterGap1_spec g s hs
      · rfl
    · simp only [Bool.and_eq_true, Bool.not_eq_true']
      split
      · exact enterWaitClear_spec g s hs
      · rfl

end Sys2Proof.Machine
end

