-- ==== Sys2Proof/Laws/Events.lean ====
section
/-! SUPPORT. What every whole event is, whatever its own effect: an event at a moment, an event that takes a notice, and the service
of a cell. Each is the effect, with its frame, and then the publication of the status records. -/

set_option Elab.async false

namespace Sys2Proof.Machine

/-- Any event: its own effect with its frame, then the publication. -/
theorem event_to {ps : List Part} {Q : Nat → Prop} {f : State → State} {u : State} (hf : OnlyChanges ps u (f u))
    (hs : Stores Q u (f u)) (hu : u.memoryLaw) (h1 : Part.changeCounts ∉ ps := by decide)
    (h2 : Part.news ∉ ps := by decide) : EventTo ps (fun a => Q a ∨ inFilled u a) u (f u) (event f u) :=
  ⟨hf, hs.kept hu, publish_frame u (f u), publish_kept u (f u),
    publish_published (hs.law hu) (hf .changeCounts h1) (hf .news h2)⟩

theorem EventTo.mono {ps qs : List Part} {P Q : Nat → Prop} {u v t : State} (h : EventTo ps P u v t)
    (hp : ∀ p ∈ ps, p ∈ qs := by decide) (hQ : ∀ a, P a → Q a) : EventTo qs Q u v t :=
  ⟨h.1.mono hp, h.2.1.mono hQ, h.2.2⟩

/-- An event at a moment that comes next. -/
theorem timed_next {left : State → Option Nat} {n : Nat} {f : State → State} {s : State} (h : s.comesNext left n) :
    timed left f s = event f (s.passTime n) := by
  unfold timed
  rw [h.1]
  dsimp only
  rw [h.2.1, h.2.2]; rfl

theorem passTime_law {s : State} {n : Nat} (h : s.memoryLaw) : (s.passTime n).memoryLaw := h

/-- An event that takes a notice in flight. -/
theorem takeNotice_next {x : Notice} {f : State → State} {s : State} (hr : s.ready = true) (h : x ∈ s.notices) :
    takeNotice x f s = event f (s.withNotices (s.notices.erase x)) := by
  unfold takeNotice
  rw [hr, List.contains_iff_mem.2 h]; rfl

/-- An event of the part that takes no time, while it is ready. -/
theorem whenReady_next {f : State → State} {s : State} (hr : s.ready = true) : whenReady f s = event f s := by
  unfold whenReady; rw [hr]; rfl

/-- The service of a cell: the request's own work with its frame, then the answer and the publication. -/
theorem serve_to {ps : List Part} {Q : Nat → Prop} {c : Cell} {body : State → State × Answer} {s v : State} {a : Answer}
    (hb : body s = (v, a)) (hf : OnlyChanges ps s v) (hs : Stores Q s v) (hl : s.memoryLaw) (hw : a.words.length ≤ 16)
    (hd : ∀ p ∈ [Part.cells, .answered, .changeCounts, .news], p ∉ ps := by decide) :
    ServesTo c a ps (fun x => Q x ∨ inFilled s x) s v (event (serve c body) s) := by
  have h := serve_event (c := c) (body := body) (s := s) (by rw [hb]; exact hf) (by rw [hb]; exact hs.law hl)
    (by rw [hb]; exact hs.kept hl) (by rw [hb]; exact hw) hd
  rw [hb] at h
  obtain ⟨h1, -, h3, h4, h5⟩ := h
  refine ⟨hf, hs.kept hl, h1, h4, ?_, h3, h5⟩
  have hk := writeAnswer_kept c (s.read (cellBase c + 2)) a v hw
  have hp := publish_kept s (writeAnswer c (s.read (cellBase c + 2)) a v)
  have he : event (serve c body) s = publish s (writeAnswer c (s.read (cellBase c + 2)) a v) := by
    unfold event serve; rw [hb]
  rw [he]
  exact (hk.mono fun x h => .inl h).trans (hp.mono fun x h => .inr h)

theorem ServesTo.mono {ps qs : List Part} {P Q : Nat → Prop} {c : Cell} {a : Answer} {s v t : State} (h : ServesTo c a ps P s v t)
    (hp : ∀ p ∈ ps, p ∈ qs := by decide) (hQ : ∀ a, P a → Q a) : ServesTo c a qs Q s v t :=
  ⟨h.1.mono hp, h.2.1.mono hQ, h.2.2⟩

end Sys2Proof.Machine
end

