-- ==== Sys2Proof/Laws/Causes.lean ====
section
/-! SUPPORT. The causes that end a grant, as R80 to R83 have them, and the Supervisor's part in them: the PTT report, the lockout and
the qualified fault. -/

set_option Elab.async false

namespace Sys2Proof.Machine

/-- An abrupt cause ends its grant as R80 to R83 have it. -/
theorem applyCause_spec (g : Grant) (r : EndReason) (s : State) (hs : s.memoryLaw) (hc : causeClass r = .abrupt) :
    EndsAbruptly g r s (applyCause g r s) := by
  unfold EndsAbruptly applyCause
  rw [hc]
  cases g.state <;> dsimp only <;> first | exact unkey_spec _ _ hs | exact preKeyEnd_spec _ _ _ hs

theorem takeCause_spec {g : Grant} (r : EndReason) {s : State} (hs : s.memoryLaw) (hc : causeClass r = .abrupt)
    (hg : s.key.grant = some g) : EndsAbruptly g r s (takeCause g.tag r s) := by
  unfold takeCause; rw [hg]; dsimp only; rw [if_pos rfl]; exact applyCause_spec g r s hs hc

/-- What a cause sent to whatever grant exists does (R80, R136). -/
theorem sendCause_spec (r : EndReason) (now : Bool) (s : State) (hs : s.memoryLaw) (hc : causeClass r = .abrupt) :
    EndsGrantBy r now s (sendCause r now s) := by
  unfold EndsGrantBy sendCause
  cases hg : s.key.grant with
  | none => rfl
  | some g =>
    cases now with
    | false => rfl
    | true => exact ⟨takeCause_spec r hs hc hg, takeCause_frame _ _ _⟩

/-! ## The Supervisor's part in an end (R61, R136, R139, R144) -/

/-- The PTT report at the Key Controller (R61, R136). -/
theorem dropPtt_eq (s : State) : s.dropPtt = s.pttReleased := by
  unfold State.dropPtt State.pttReleased; split <;> rfl

theorem dropPtt_ptt (s : State) : s.dropPtt.key.ptt = false := by rw [dropPtt_key]

/-- The lockout (R139, R140). -/
theorem enterLockout_eq (r : LockoutReason) (s : State) : enterLockout r s = s.lockedOut r := by
  unfold enterLockout State.lockedOut
  dsimp only
  rw [dropPtt_eq]; rfl

/-- What an end cause leaves of the Supervisor's own state (R143): qualified this keying goes with PTT. -/
theorem sendCause_supervisor (r : EndReason) (now : Bool) (s : State) (hs : s.memoryLaw) (hc : causeClass r = .abrupt) :
    let v := sendCause r now s
    (s.key.ptt = false → v.key.ptt = false) ∧
    v.supervisor =
      if s.key.ptt && !v.key.ptt then { s.supervisor with qualification := none, qualifiedThisKeying := false }
      else s.supervisor := by
  have hu : ∀ g, (unkey g s).key.ptt = false ∧ (unkey g s).supervisor =
      if s.key.ptt then { s.supervisor with qualification := none, qualifiedThisKeying := false } else s.supervisor := fun g =>
    ⟨by rw [unkey_key]; rfl, (unkey_spec g s hs).supervisor⟩
  have hp : ∀ g, (preKeyEnd g r s).key.ptt = s.key.ptt ∧ (preKeyEnd g r s).supervisor = s.supervisor := fun g =>
    ⟨by rw [preKeyEnd_key], preKeyEnd_frame g r s .supervisor (by decide)⟩
  have hv : (sendCause r now s).key.ptt = s.key.ptt ∧ (sendCause r now s).supervisor = s.supervisor ∨
      (∃ g, sendCause r now s = unkey g s) ∨ ∃ g, sendCause r now s = preKeyEnd g r s := by
    unfold sendCause
    cases hg : s.key.grant with
    | none => exact .inl ⟨rfl, rfl⟩
    | some g =>
      cases now with
      | false => exact .inl ⟨rfl, rfl⟩
      | true =>
        refine .inr ?_
        dsimp only
        rw [if_pos rfl, takeCause, hg]
        dsimp only
        rw [if_pos rfl]
        unfold applyCause; rw [hc]
        cases g.state <;> dsimp only <;> first | exact .inl ⟨_, rfl⟩ | exact .inr ⟨_, rfl⟩
  dsimp only
  rcases hv with ⟨h1, h2⟩ | ⟨g, h⟩ | ⟨g, h⟩
  · rw [h1, h2]; simp
  · rw [h, (hu g).1, (hu g).2]; simp
  · rw [h, (hp g).1, (hp g).2]; simp

/-- A qualified fault (R143–R145). -/
theorem qualifiedFault_spec (now : Bool) (s : State) (hs : s.memoryLaw) : QualifiesFault now s (qualifiedFault now s) := by
  obtain ⟨u, hu⟩ : ∃ u, u = s.withSupervisor { s.supervisor with qualification := none, qualifiedThisKeying := true } := ⟨_, rfl⟩
  obtain ⟨w, hw⟩ : ∃ w, w = sendCause .fault now u := ⟨_, rfl⟩
  have hlaw : u.memoryLaw := hu ▸ hs
  have c1 := sendCause_spec .fault now u hlaw rfl
  obtain ⟨p0, p1⟩ := sendCause_supervisor .fault now u hlaw rfl
  rw [← hw] at c1 p0 p1
  have fw : OnlyChanges endParts u w := hw ▸ sendCause_frame .fault now u
  have hc : w.clock = s.clock := fw.clock.trans (by rw [hu]; rfl)
  have hpar : w.params = s.params := (fw .params (by decide)).trans (by rw [hu]; rfl)
  have hv : w.supervisor.history = s.supervisor.history ∧ w.supervisor.faultCount = s.supervisor.faultCount ∧
      w.supervisor.qualification = none ∧ w.supervisor.qualifiedThisKeying = (w.key.ptt || !s.key.ptt) := by
    have hk : u.key.ptt = s.key.ptt := by rw [hu]; rfl
    rw [hk] at p0 p1
    rw [p1]
    cases h1 : s.key.ptt <;> cases h2 : w.key.ptt <;> rw [h1] at p0 <;> simp_all
  obtain ⟨v1, v2, v3, v4⟩ := hv
  have hh : w.supervisor.noteFault w.clock (1000 * w.params.faultWindow) = s.supervisor.historyAfter s.clock s.params.faultWindow := by
    unfold Supervisor.noteFault Supervisor.historyAfter; rw [v1, hc, hpar]
  obtain ⟨x, hx⟩ : ∃ x : State, x = { w with
      supervisor := { w.supervisor with
        faultCount := min 65535 (s.supervisor.faultCount + 1)
        history := s.supervisor.historyAfter s.clock s.params.faultWindow }
      bus := { w.bus with events := w.bus.events ||| bitWord 4 } } := ⟨_, rfl⟩
  have e : qualifiedFault now s =
      if s.params.lockoutCount ≤ (s.supervisor.historyAfter s.clock s.params.faultWindow).length then x.lockedOut .faults else x := by
    unfold qualifiedFault
    dsimp only
    rw [← hu, ← hw]
    rw [hh, hx, ← v2, ← hpar, enterLockout_eq]
    rfl
  have hl : (x.lockedOut .faults).supervisor.history = x.supervisor.history ∧
      (x.lockedOut .faults).supervisor.faultCount = x.supervisor.faultCount ∧
      (x.supervisor.qualification = none → (x.lockedOut .faults).supervisor.qualification = none) ∧
      (x.supervisor.qualifiedThisKeying = (x.key.ptt || !s.key.ptt) → (x.key.ptt = true → s.key.ptt = true) →
        (x.lockedOut .faults).supervisor.qualifiedThisKeying = ((x.lockedOut .faults).key.ptt || !s.key.ptt)) ∧
      (x.lockedOut .faults).bus.events.getLsbD 4 = x.bus.events.getLsbD 4 := by
    unfold State.lockedOut State.pttReleased
    dsimp only
    cases h1 : x.key.ptt <;> simp [h1, bitWord]
  have hb : x.bus.events.getLsbD 4 = true := by rw [hx]; simp [bitWord]
  have hq : x.supervisor.qualification = none := by rw [hx]; exact v3
  have ht : x.supervisor.qualifiedThisKeying = (x.key.ptt || !s.key.ptt) := by rw [hx]; exact v4
  have hptt : x.key.ptt = true → s.key.ptt = true := fun h => by
    cases hsp : s.key.ptt with
    | true => rfl
    | false => rw [hx] at h; rw [p0 (by rw [hu]; exact hsp)] at h; cases h
  have hist : (qualifiedFault now s).supervisor.history = s.supervisor.historyAfter s.clock s.params.faultWindow := by
    rw [e]; split
    · rw [hl.1, hx]
    · rw [hx]
  refine ⟨hist, ?_, ?_, ?_, ?_, w, hu ▸ c1, ?_⟩
  · rw [e]; split
    · rw [hl.2.1, hx]
    · rw [hx]
  · rw [e]; split
    · exact hl.2.2.1 hq
    · exact hq
  · rw [e]; split
    · exact hl.2.2.2.1 ht hptt
    · exact ht
  · rw [e]; split
    · rw [hl.2.2.2.2, hb]
    · exact hb
  · dsimp only
    rw [hist, ← hx]; exact e

end Sys2Proof.Machine
end

