-- ==== Sys2Proof/Laws/Floor.lean ====
section
/-! SUPPORT. One lemma for each operation of the Floor Arbiter and the Session Monitor that says once everything it does: the
eligibility test (R12), a join (R36), a departure (R39), the end of a session's service (R22, R28), a grant (R51, R62) and the
arbitration (R46–R51). -/

set_option Elab.async false

namespace Sys2Proof.Machine

/-! ## Eligibility (R12) -/

theorem eligibility_spec (s : State) (m : MemberIx) (c : ChannelIx) :
    (s.mayKey m c → s.hasBudget m → s.eligibility m c = .pass) ∧ (¬ s.mayKey m c → s.eligibility m c = .notPermitted) ∧
    (s.mayKey m c → ¬ s.hasBudget m → s.eligibility m c = .noBudget) := by
  have h1 : privileged (s.member m) (s.channel c) c = true ↔ s.mayKey m c := by
    unfold privileged State.mayKey; simp [and_assoc]
  unfold State.eligibility
  refine ⟨fun a b => ?_, fun a => ?_, fun a b => ?_⟩
  · rw [if_pos (h1.2 a), if_pos]; simpa [State.hasBudget] using b
  · rw [if_neg fun h => a (h1.1 h)]
  · rw [if_pos (h1.2 a), if_neg]; simpa [State.hasBudget] using b

/-! ## Joining (R36) -/

theorem insertUnmarked_split (e : Entry) (q : List Entry) : ∃ front back,
    q = front ++ back ∧ insertUnmarked e q = front ++ e :: back ∧ (∀ x ∈ front, x.marked = true ∨ e.priority ≤ x.priority) ∧
    ∀ x rest, back = x :: rest → x.marked = false ∧ x.priority < e.priority := by
  induction q with
  | nil => exact ⟨[], [], rfl, rfl, by simp, by simp⟩
  | cons x q ih =>
    obtain ⟨f, b, h1, h2, h3, h4⟩ := ih
    unfold insertUnmarked
    by_cases hx : (!x.marked && decide (x.priority < e.priority)) = true
    · rw [if_pos hx]
      refine ⟨[], x :: q, rfl, rfl, by simp, fun y r hy => ?_⟩
      cases hy; simpa using hx
    · rw [if_neg hx]
      refine ⟨x :: f, b, by rw [h1]; rfl, by rw [h2]; rfl, fun y hy => ?_, h4⟩
      rcases List.mem_cons.1 hy with rfl | hy
      · simp only [Bool.and_eq_true, Bool.not_eq_true', decide_eq_true_eq, not_and] at hx
        cases hm : y.marked with
        | true => exact .inl rfl
        | false => exact .inr (Nat.le_of_not_lt (hx hm))
      · exact h3 y hy

theorem joinQueue_spec (e : Entry) (s : State) : Joins e s (joinQueue e s) := by
  refine ⟨?_, rfl, joinQueue_frame e s⟩
  let e' : Entry := { e with arrival := s.floor.arrival + 1 }
  have hq : ∀ front back, insertEntry e' s.floor.queue = front ++ e' :: back → (joinQueue e s).floor =
      { s.floor.withQueue (front ++ e' :: back) with arrival := s.floor.arrival + 1 } := fun front back h => by
    show ({ s.floor.withQueue (insertEntry e' s.floor.queue) with arrival := s.floor.arrival + 1 } : Floor) = _
    rw [h]
  by_cases hm : e.marked = true
  · exact ⟨[], s.floor.queue, rfl, hq _ _ (if_pos hm), fun _ => rfl, fun h => by rw [hm] at h; cases h⟩
  · obtain ⟨f, b, h1, h2, h3, h4⟩ := insertUnmarked_split e' s.floor.queue
    exact ⟨f, b, h1, hq _ _ ((if_neg hm).trans h2), fun h => absurd h hm, fun _ => ⟨h3, h4⟩⟩

/-! ## Leaving (R39) -/

theorem grantOf_some {s : State} {n : Slot} {g : Grant} (h : s.grantOf n = some g) :
    s.key.grant = some g ∧ g.session = some n := by
  unfold State.grantOf at h
  split at h
  · cases h
  · rename_i hg
    split at h
    · cases h; exact ⟨hg, ‹_›⟩
    · cases h

theorem queueWithout_none {s : State} {n : Slot} (h : s.entryOf n = none) : s.queueWithout n = s.floor.queue := by
  unfold State.queueWithout
  rw [List.filter_eq_self]
  intro x hx
  simpa using List.find?_eq_none.1 h x hx

theorem without_none {s : State} {n : Slot} (h : s.entryOf n = none) : s.floor.without n = s.floor :=
  Floor.without_none fun x hx => by simpa using List.find?_eq_none.1 h x hx

theorem removeEntry_spec (s : State) (n : Slot) :
    (s.removeEntry n).floor = s.floor.without n ∧
    (s.removeEntry n).ident =
      (if (s.entryOf n).isSome then { s.ident with quiet := quietAfter s (s.queueWithout n) } else s.ident) := by
  unfold State.removeEntry
  cases he : s.entryOf n with
  | none => rw [without_none he]; exact ⟨rfl, rfl⟩
  | some e =>
    simp only [Option.isSome_some, if_true]
    refine ⟨noteQuiet_frame _ .floor (by decide), ?_⟩
    unfold State.noteQuiet quietAfter
    by_cases hq : s.floor.idle = true ∧ s.queueWithout n = []
    · rw [if_pos hq, if_pos (by unfold State.floorQuiet; rw [Bool.and_eq_true, List.isEmpty_iff]; exact hq)]; rfl
    · rw [if_neg hq, if_neg (by unfold State.floorQuiet; rw [Bool.and_eq_true, List.isEmpty_iff]; exact hq)]; rfl

theorem departEntry_spec (n : Slot) (r : EndReason) (s : State) :
    (departEntry n r s).floor = s.floor.without n ∧
    (departEntry n r s).session n =
      (if (s.entryOf n).isSome then { s.session n with lastEndReason := some r, lastEndTag := none } else s.session n) ∧
    (∀ k, k ≠ n → (departEntry n r s).session k = s.session k) ∧
    (departEntry n r s).ident =
      (if (s.entryOf n).isSome then { s.ident with quiet := quietAfter s (s.queueWithout n) } else s.ident) := by
  obtain ⟨h1, h2⟩ := removeEntry_spec s n
  have hs : ∀ k, (s.removeEntry n).session k = s.session k := fun k => (removeEntry_frame s n).session k
  unfold departEntry
  cases he : s.entryOf n with
  | none => rw [without_none he]; exact ⟨rfl, rfl, fun _ _ => rfl, rfl⟩
  | some e =>
    rw [he] at h2
    refine ⟨h1, ?_, fun k hk => ?_, h2⟩
    · show ((s.removeEntry n).withSession n _).session n = _
      rw [State.withSession_session, if_pos rfl, hs]; rfl
    · show ((s.removeEntry n).withSession n _).session k = _
      rw [State.withSession_session, if_neg hk, hs]

/-! ## The end of a session's service (R22, R28) -/

/-- What an abrupt cause does to the session records (R27, R31). -/
theorem applyCause_sessions (g : Grant) (r : EndReason) (s : State) (hs : s.memoryLaw) (hc : causeClass r = .abrupt) :
    g.endsAt (g.endReason.getD r) s (applyCause g r s) := by
  have hu : ∀ g' : Grant, g'.session = g.session → g'.tag = g.tag → g'.endReason = some (g.endReason.getD r) →
      g.endsAt (g.endReason.getD r) s (unkey g' s) := fun g' h1 h2 h3 k => by
    have := (unkey_spec g' s hs).session k
    rw [h1, h2, h3] at this; exact this
  have hp : g.endsAt (g.endReason.getD r) s (preKeyEnd g r s) := (preKeyEnd_spec g r s hs).1.session
  unfold applyCause
  rw [hc]
  cases hst : g.state <;> dsimp only <;> first | exact hp | exact hu _ rfl rfl rfl

theorem departs (n : Slot) (r : EndReason) (s : State) (h : (s.entryOf n).isSome) : Departs n r s (departEntry n r s) := by
  obtain ⟨h1, h2, h3, h4⟩ := departEntry_spec n r s
  rw [if_pos h] at h2 h4
  refine ⟨h1, h4, fun k => ?_, departEntry_frame n r s⟩
  by_cases hk : k = n
  · subst hk; rw [if_pos rfl, h2]
  · rw [if_neg hk, h3 k hk]

theorem departEntry_none {n : Slot} {s : State} (r : EndReason) (h : s.entryOf n = none) : departEntry n r s = s := by
  unfold departEntry; rw [h]

/-- The course of the end of session n's service (R22, R28): its grant, then its entry. -/
theorem endService_course (n : Slot) (r : EndReason) (s : State) (hs : s.memoryLaw) (hc : causeClass r = .abrupt) :
    ∃ w, (match s.grantOf n with
      | none => w = s
      | some g => EndsAbruptly g r s w ∧ OnlyChanges endParts s w) ∧
    if (s.entryOf n).isSome then Departs n r w (departEntry n r (endGrantOf n r s))
    else departEntry n r (endGrantOf n r s) = w := by
  have he : (endGrantOf n r s).entryOf n = s.entryOf n :=
    State.entryOf_floor ((endGrantOf_frame n r s) .floor (by decide)) n
  refine ⟨endGrantOf n r s, ?_, ?_⟩
  · cases hg : s.grantOf n with
    | none => unfold endGrantOf; rw [hg]
    | some g =>
      refine ⟨?_, endGrantOf_frame n r s⟩
      unfold endGrantOf; rw [hg]; exact takeCause_spec r hs hc (grantOf_some hg).1
  · split
    · rename_i h; exact departs n r _ (by rw [he]; exact h)
    · rename_i h; exact departEntry_none r (by rw [he]; simpa using h)

/-- The end of session n's service, for an abrupt cause (R22, R28). -/
theorem endService_spec (n : Slot) (r : EndReason) (s : State) (hs : s.memoryLaw) (hp : s.pttLaw) (hc : causeClass r = .abrupt) :
    EndsService n r s (departEntry n r (endGrantOf n r s)) ∧
    ((departEntry n r (endGrantOf n r s)).session n).state = (s.session n).state ∧
    ((departEntry n r (endGrantOf n r s)).session n).member = (s.session n).member ∧
    ((s.session n).state ≠ .opened → ((departEntry n r (endGrantOf n r s)).session n).deadline = (s.session n).deadline) := by
  have hf := endGrantOf_frame n r s
  have hfl : (endGrantOf n r s).floor = s.floor := hf .floor (by decide)
  obtain ⟨d1, d2, d3, -⟩ := departEntry_spec n r (endGrantOf n r s)
  rw [State.entryOf_floor hfl] at d2
  rw [hfl] at d1
  have hk : (departEntry n r (endGrantOf n r s)).key = (endGrantOf n r s).key := departEntry_frame _ _ _ .key (by decide)
  have hn : (departEntry n r (endGrantOf n r s)).notices = (endGrantOf n r s).notices :=
    departEntry_frame _ _ _ .notices (by decide)
  cases hg : s.grantOf n with
  | none =>
    have he : endGrantOf n r s = s := by unfold endGrantOf; rw [hg]
    have hw := endService_course n r s hs hc
    rw [he] at hw d1 d2 d3 hk hn ⊢
    refine ⟨⟨hw, d1, ?_, ?_, ?_, d3⟩, ?_, ?_, fun _ => ?_⟩
    · rw [hg]; exact ⟨hk, hn⟩
    all_goals rw [d2]; split <;> first | rfl | rw [hg]
  | some g =>
    obtain ⟨g1, g2⟩ := grantOf_some hg
    have he : endGrantOf n r s = applyCause g r s := by
      unfold endGrantOf; rw [hg]; show takeCause g.tag r s = _; unfold takeCause; rw [g1]; exact if_pos rfl
    obtain ⟨a1, a2, a3⟩ := applyCause_abrupt g r s hc
    have b1 := applyCause_sessions g r s hs hc
    have hw := endService_course n r s hs hc
    rw [he] at hw d1 d2 d3 hk hn ⊢
    rw [b1 n, if_pos g2] at d2
    refine ⟨⟨hw, d1, ?_, ?_, ?_, fun k hk' => ?_⟩, ?_, ?_, fun ho => ?_⟩
    · rw [hg]
      refine ⟨hk ▸ a1, ?_, hn.trans a2⟩
      rw [hk]
      refine a3 ?_
      cases hpt : s.key.ptt with
      | false => exact .inl rfl
      | true =>
        obtain ⟨⟨g', h1, h2⟩, -⟩ := hp hpt
        rw [g1] at h1; cases h1; exact .inr h2
    · rw [d2, hg]; split <;> rfl
    · rw [d2, hg]; split <;> rfl
    · rw [d3 k hk', b1 k, if_neg fun e => hk' (by rw [g2] at e; cases e; rfl)]
    · rw [d2]; split <;> rfl
    · rw [d2]; split <;> rfl
    · rw [d2]; split <;> simp

/-! ## A grant (R51, R62) and the arbitration (R46–R49) -/

theorem startSweep_spec (s : State) (tag : Word) (hs : s.memoryLaw) : SweepsFor tag s (s.startSweep tag) := by
  let t := s.withPlayout { s.playout with currentTag := some tag }
  have hset : t.sweepSet (· != tag) =
      (List.range 64).filter fun i => s.read (txBase i) == 1 && s.read (txBase i + 1) != tag := rfl
  have hr := (freePlaces_read (t.sweepSet (· != tag)) t hs).1
  have hp : (t.freePlaces (t.sweepSet (· != tag))).playout = t.playout := freePlaces_frame _ _ .playout (by decide)
  refine ⟨?_, fun i hi => ?_⟩
  · show { (t.freePlaces (t.sweepSet (· != tag))).playout with
      discarded := saturate 65535 (t.freePlaces (t.sweepSet (· != tag))).playout.discarded
        (t.sweepSet (· != tag)).length } = _
    rw [hp, hset]; rfl
  · show (t.freePlaces (t.sweepSet (· != tag))).read (txBase i) = _
    rw [hr, hset]
    by_cases h : s.read (txBase i) = 1 ∧ s.read (txBase i + 1) ≠ tag
    · rw [if_pos h, if_pos]
      simpa [List.mem_filter] using ⟨hi, h⟩
    · rw [if_neg h, if_neg]
      · rfl
      · simp only [List.mem_filter, Bool.and_eq_true, beq_iff_eq, bne_iff_ne]; exact fun h' => h h'.2

theorem leaveChangeover_spec (g : Grant) (s : State) (hs : s.memoryLaw) : LeavesChangeover g s (leaveChangeover g s) := by
  unfold leaveChangeover
  extract_lets g' _ t
  unfold LeavesChangeover
  show if (s.channel g.channel).busyCheck = true then _ else _
  have ht : t.memoryLaw := hs
  by_cases h : (s.channel g.channel).busyCheck = true
  · rw [if_pos h, if_pos (show (t.channel g'.channel).busyCheck = true from h)]; exact enterWaitClear_spec g' t ht
  · rw [if_neg h, if_neg (show ¬ (t.channel g'.channel).busyCheck = true from h)]; exact enterPrebuffer_spec g' t ht

theorem enterChangeover_spec (g : Grant) (s : State) (hs : s.memoryLaw) : EntersChangeover g s (enterChangeover g s) := by
  unfold enterChangeover EntersChangeover
  rw [startTimer_ms]
  dsimp only
  split
  · exact leaveChangeover_spec _ _ hs
  · exact becomesGrant _ _

/-- What a MEMBER grant taken does at the Key Controller and the Playout Engine (R62). -/
theorem takeMemberGrant_spec (tag : Word) (n : Slot) (m : MemberIx) (c : ChannelIx) (s : State) (hs : s.memoryLaw) :
    ∃ w, w.key = { s.key with chselChannel := some c } ∧ SweepsFor tag s w ∧ OnlyChanges [.key, .playout, .mem] s w ∧
      let g : Grant := { Grant.fresh tag .member (some n) (some m) c with
        keyLimit := some (1000 * min (s.member m).maxKeyTime (s.channel c).maxKeyTime) }
      if (s.channel c).radioMemory ≠ s.key.chsel then EntersChangeover g w (takeMemberGrant tag n m c s)
      else if (s.channel c).busyCheck then EntersWaitClear g w (takeMemberGrant tag n m c s)
      else EntersPrebuffer g w (takeMemberGrant tag n m c s) := by
  let g : Grant := { Grant.fresh tag .member (some n) (some m) c with
    keyLimit := some (1000 * min (s.member m).maxKeyTime (s.channel c).maxKeyTime) }
  let t := s.withKey { s.key with chselChannel := some c }
  have he : ∀ w, w = t.startSweep tag → takeMemberGrant tag n m c s =
      (if (w.channel c).radioMemory ≠ w.key.chsel then enterChangeover g w
        else if (w.channel c).busyCheck then enterWaitClear g w else enterPrebuffer g w) := by
    rintro _ rfl; rfl
  have f1 : OnlyChanges [.key] s t := withKey_frame
  have hw : SweepsFor tag s (t.startSweep tag) := startSweep_spec t tag hs
  have hl : (t.startSweep tag).memoryLaw := (startSweep_stores (P := noWord) t tag).law hs
  have f2 := startSweep_frame t tag
  have hkw : (t.startSweep tag).key = { s.key with chselChannel := some c } := f2 .key (by decide)
  have fw : OnlyChanges [.key, .playout, .mem] s (t.startSweep tag) := f1.mono.trans f2.mono
  have hc := fw.channel c
  specialize he _ rfl
  generalize t.startSweep tag = w at hw hl f2 hkw fw hc he
  have hr : w.key.chsel = s.key.chsel := by rw [hkw]
  refine ⟨w, hkw, hw, fw, ?_⟩
  rw [he, hc, hr]
  dsimp only
  split
  · exact enterChangeover_spec _ w hl
  · split
    · exact enterWaitClear_spec _ w hl
    · exact enterPrebuffer_spec _ w hl

theorem takeIdentGrant_spec (tag : Word) (c : ChannelIx) (s : State) (hs : s.memoryLaw) :
    ∃ w, SweepsFor tag s w ∧ OnlyChanges [.playout, .mem] s w ∧
      if (s.channel c).busyCheck then EntersWaitClear (Grant.fresh tag .ident none none c) w (takeIdentGrant tag c s)
      else KeyUpEvent (Grant.fresh tag .ident none none c) w (takeIdentGrant tag c s) := by
  have hw := startSweep_spec s tag hs
  have hl : (s.startSweep tag).memoryLaw := (startSweep_stores (P := noWord) s tag).law hs
  have f := startSweep_frame s tag
  have hc := f.channel c
  unfold takeIdentGrant
  generalize s.startSweep tag = w at *
  refine ⟨w, hw, f.mono, ?_⟩
  dsimp only
  rw [hc]
  split
  · exact enterWaitClear_spec _ w hl
  · exact keyUp_spec _ w hl

theorem SweepsFor.of_frame {ps : List Part} {tag : Word} {s t w : State} (h : SweepsFor tag t w) (f : OnlyChanges ps s t)
    (h1 : Part.playout ∉ ps := by decide) (h2 : Part.mem ∉ ps := by decide) : SweepsFor tag s w := by
  have hr : ∀ a, t.read a = s.read a := fun a => f.read a h2
  refine ⟨?_, fun i hi => ?_⟩
  · rw [h.1, f .playout h1]; simp only [hr]
  · rw [h.2 i hi]; simp only [hr]

theorem grantEntry_spec (e : Entry) (s : State) (hs : s.memoryLaw) : GrantsEntry e s (grantEntry e s) := by
  unfold grantEntry
  extract_lets t0 __src t
  have hfl : t.floor =
      { s.floor.without e.session with
        idle := false, courtesy := none, tagCounter := tagAfter s.floor.tagCounter
        granted := some { session := e.session, member := e.member, channel := e.channel, retries := e.retries } } := rfl
  have hid : t.ident = { s.ident with quiet := .stopped } := rfl
  have f : OnlyChanges [.floor, .ident] s t :=
    OnlyChanges.after (withFloor_frame (by decide)) (openGrant_frame s)
  have hl : t.memoryLaw := hs
  have htag : t.floor.tagCounter = tagAfter s.floor.tagCounter := rfl
  clear_value t
  obtain ⟨w, h1, h2, h3, h4⟩ := takeMemberGrant_spec t.floor.tagCounter e.session e.member e.channel t hl
  rw [htag] at h2 h4
  dsimp only at h4
  rw [f.channel, f.member, f .key (by decide), ← htag] at h4
  refine ⟨w, (h3 .floor (by decide)).trans hfl, (h3 .ident (by decide)).trans hid, by rw [h1, f .key (by decide)], h2.of_frame f,
    f.mono.trans h3.mono, ?_⟩
  rw [← htag]
  exact h4

theorem grantIdent_spec (c : ChannelIx) (s : State) (hs : s.memoryLaw) (h : s.key.chselChannel = some c) :
    GrantsIdent c s (grantIdent s).1 ∧ (grantIdent s).2 = true := by
  unfold grantIdent
  rw [h]
  refine ⟨?_, rfl⟩
  dsimp only
  have hfl : s.openGrant.floor = { s.floor with idle := false, courtesy := none, tagCounter := tagAfter s.floor.tagCounter } := rfl
  have hid : s.openGrant.ident = { s.ident with quiet := .stopped } := rfl
  have f : OnlyChanges [.floor, .ident] s s.openGrant := openGrant_frame s
  have hl : s.openGrant.memoryLaw := hs
  generalize s.openGrant = t at *
  have htag : t.floor.tagCounter = tagAfter s.floor.tagCounter := by rw [hfl]
  rw [htag]
  obtain ⟨w, h2, h3, h4⟩ := takeIdentGrant_spec (tagAfter s.floor.tagCounter) c t hl
  rw [f.channel] at h4
  exact ⟨w, (h3 .floor (by decide)).trans hfl, (h3 .ident (by decide)).trans hid, h2.of_frame f, f.mono.trans h3.mono, h4⟩

/-- Departures leave the rest of the Floor Arbiter's state alone. -/
theorem foldl_without_kept (es : List Entry) : ∀ f : Floor, let g := es.foldl (fun f x => f.without x.session) f
    g.idle = f.idle ∧ g.courtesy = f.courtesy ∧ g.hold = f.hold := by
  induction es with
  | nil => exact fun f => ⟨rfl, rfl, rfl⟩
  | cons x es ih => exact fun f => ih (f.without x.session)

theorem failsOut_nil (s : State) : FailsOut [] s s := by
  refine ⟨rfl, .refl _ _, by rw [if_pos rfl], fun _ _ => rfl, fun _ h => by simp at h, fun _ _ h => by simp at h, ?_⟩
  simp

/-- One more entry that fails the re-check leaves (R39, R49). -/
theorem failsOut_snoc {es : List Entry} {e : Entry} {u s : State} {r : EndReason} (h : FailsOut es u s) (hq : e ∈ u.floor.queue)
    (h1 : ¬ u.mayKey e.member e.channel → r = .notPermitted) (h2 : u.mayKey e.member e.channel → r = .noBudget) :
    FailsOut (es ++ [e]) u (departEntry e.session r s) := by
  obtain ⟨a0, a2, a3, a4, a5, a6, a1⟩ := h
  obtain ⟨d1, d2, d3, d4⟩ := departEntry_spec e.session r s
  have hf : (departEntry e.session r s).floor = (es ++ [e]).foldl (fun f x => f.without x.session) u.floor := by
    rw [d1, a0, List.foldl_append]; rfl
  have hqu : (departEntry e.session r s).floor.queue =
      u.floor.queue.filter fun x => (es ++ [e]).all fun y => x.session != y.session := by
    rw [d1, Floor.without_queue, a1, List.filter_filter]
    refine List.filter_congr fun x _ => ?_
    rw [List.all_append, Bool.and_comm]; simp
  have hkept : s.floor.idle = u.floor.idle := by
    rw [a0]; exact (foldl_without_kept es u.floor).1
  have hfr : OnlyChanges [.floor, .ident, .sessions] u (departEntry e.session r s) :=
    a2.trans (departEntry_frame e.session r s).mono
  have hent : (∀ y ∈ es, y.session ≠ e.session) → (s.entryOf e.session).isSome = true := fun hn => by
    unfold State.entryOf
    rw [List.find?_isSome]
    refine ⟨e, ?_, by simp⟩
    rw [a1]
    simp only [List.mem_filter, List.all_eq_true, bne_iff_ne]
    exact ⟨hq, fun y hy h => hn y hy h.symm⟩
  have hgone : ∀ y ∈ es, y.session = e.session → (s.entryOf e.session).isSome = false := fun y hy he => by
    unfold State.entryOf
    rw [Option.isSome_eq_false_iff, Option.isNone_iff_eq_none, List.find?_eq_none]
    intro x hx
    rw [a1] at hx
    simp only [List.mem_filter, List.all_eq_true, bne_iff_ne] at hx
    simpa [← he] using hx.2 y hy
  have hid : (departEntry e.session r s).ident =
      { u.ident with
        quiet := if es ++ [e] = [] then u.ident.quiet else quietAfter u (departEntry e.session r s).floor.queue } := by
    rw [if_neg (by simp), d4, d1]
    by_cases hes : ∃ y ∈ es, y.session = e.session
    · obtain ⟨y, hy, he⟩ := hes
      have hn := hgone y hy he
      rw [if_neg (by rw [hn]; decide), a3, if_neg (fun h : es = [] => by rw [h] at hy; cases hy),
        without_none (by simpa using hn)]
    · rw [if_pos (hent fun y hy h => hes ⟨y, hy, h⟩)]
      have hi := hkept
      have hp : s.params = u.params := a2 .params (by decide)
      have hq0 : u.floor.idle = true → s.queueWithout e.session ≠ [] → s.ident = u.ident := fun _ hne => by
        rw [a3]
        split
        · rfl
        · unfold quietAfter
          rw [if_neg]
          rintro ⟨-, h⟩
          exact hne (by unfold State.queueWithout; rw [h]; rfl)
      have hw : (s.floor.without e.session).queue = s.queueWithout e.session := rfl
      unfold quietAfter
      rw [hw, hi, hp]
      by_cases hc : u.floor.idle = true ∧ s.queueWithout e.session = []
      · rw [if_pos hc, if_pos hc, a3]
      · rw [if_neg hc, if_neg hc]
        have : s.ident = u.ident := by
          by_cases hidle : u.floor.idle = true
          · exact hq0 hidle fun h => hc ⟨hidle, h⟩
          · rw [a3]
            split
            · rfl
            · unfold quietAfter; rw [if_neg fun h => hidle h.1]
        rw [this]
  have hkeep : ∀ y ∈ es, (departEntry e.session r s).session y.session = s.session y.session := fun y hy => by
    by_cases he : y.session = e.session
    · rw [he, d2, hgone y hy he]; rfl
    · exact d3 _ he
  refine ⟨hf, hfr, hid, fun n hn => ?_, fun y hy => ?_, fun hd y hy => ?_, hqu⟩
  · rw [d3 n fun he => hn e (by simp) he.symm, a4 n fun y hy => hn y (by simp [hy])]
  · rcases List.mem_append.1 hy with hy | hy
    · rw [hkeep y hy]; exact a5 y hy
    · obtain rfl := List.mem_singleton.1 hy
      by_cases he : ∃ x ∈ es, x.session = y.session
      · obtain ⟨x, hx, he⟩ := he
        have q1 := hkeep x hx
        have q2 := a5 x hx
        rw [he] at q1 q2
        rw [q1]; exact q2
      · rw [d2, hent fun x hx hxe => he ⟨x, hx, hxe⟩]; rfl
  · rw [List.map_append, List.nodup_append] at hd
    rcases List.mem_append.1 hy with hy | hy
    · rw [hkeep y hy]; exact a6 hd.1 y hy
    · obtain rfl := List.mem_singleton.1 hy
      rw [d2, hent fun x hx he => hd.2.2 _ (List.mem_map_of_mem hx) y.session (by simp) he]
      exact ⟨fun h => by rw [h1 h]; rfl, fun h => by rw [h2 h]; rfl⟩

theorem mayKey_of_frame {u s : State} (h : OnlyChanges [.floor, .ident, .sessions] u s) (m : MemberIx) (c : ChannelIx) :
    s.mayKey m c ↔ u.mayKey m c := by unfold State.mayKey; rw [h.member, h.channel]

theorem hasBudget_of_frame {u s : State} (h : OnlyChanges [.floor, .ident, .sessions] u s) (m : MemberIx) :
    s.hasBudget m ↔ u.hasBudget m := by unfold State.hasBudget; rw [h.member]

/-- Entries considered from the front, after those of `left` have failed (R47, R48, R49). -/
theorem tryEntries_from {skip : State → Entry → Bool} {skipped : Entry → Bool} {u : State} (hu : u.memoryLaw)
    (hk : ∀ s e, OnlyChanges [.floor, .ident, .sessions] u s → skip s e = skipped e) (es : List Entry) :
    ∀ (left : List Entry) (s : State), FailsOut left u s → (∀ e ∈ es, e ∈ u.floor.queue) →
    (∀ front e back, es = front ++ e :: back → skipped e = false → u.mayBeGranted e →
      (∀ x ∈ front, skipped x = true ∨ ¬ u.mayBeGranted x) →
      ∃ w, FailsOut (left ++ front.filter fun x => !skipped x) u w ∧ GrantsEntry e w (tryEntries skip es s).1 ∧
        (tryEntries skip es s).2 = true) ∧
    ((∀ e ∈ es, skipped e = true ∨ ¬ u.mayBeGranted e) →
      FailsOut (left ++ es.filter fun x => !skipped x) u (tryEntries skip es s).1 ∧ (tryEntries skip es s).2 = false) := by
  induction es with
  | nil =>
    intro left s h _
    refine ⟨fun front e back he => by simp at he, fun _ => ?_⟩
    rw [List.filter_nil, List.append_nil]; exact ⟨h, rfl⟩
  | cons x es ih =>
    intro left s h hq
    have hq' : ∀ e ∈ es, e ∈ u.floor.queue := fun e he => hq e (by simp [he])
    obtain ⟨p1, p2, p3⟩ := eligibility_spec s x.member x.channel
    rw [mayKey_of_frame h.2.1, hasBudget_of_frame h.2.1] at p1 p3
    rw [mayKey_of_frame h.2.1] at p2
    have e1 : skip s x = true → tryEntries skip (x :: es) s = tryEntries skip es s := fun he => if_pos he
    have e2 : skip s x = false → tryEntries skip (x :: es) s =
        (match s.eligibility x.member x.channel with
          | .pass => (grantEntry x s, true)
          | .notPermitted => tryEntries skip es (departEntry x.session .notPermitted s)
          | .noBudget => tryEntries skip es (departEntry x.session .noBudget s)) :=
      fun he => if_neg (by rw [he]; decide)
    rw [hk s x h.2.1] at e1 e2
    cases hs : skipped x with
    | true =>
      rw [e1 hs]
      obtain ⟨i1, i2⟩ := ih left s h hq'
      refine ⟨fun front e back he hse hme hfr => ?_, fun hall => ?_⟩
      · cases front with
        | nil => obtain ⟨rfl, rfl⟩ := List.cons.inj he; rw [hs] at hse; cases hse
        | cons y front =>
          obtain ⟨rfl, he2⟩ := List.cons.inj he
          rw [List.filter_cons, hs]
          exact i1 front e back he2 hse hme fun z hz => hfr z (by simp [hz])
      · rw [List.filter_cons, hs]
        exact i2 fun z hz => hall z (by simp [hz])
    | false =>
      have e2 := e2 hs
      by_cases hm : u.mayBeGranted x
      · rw [p1 hm.1 hm.2] at e2
        rw [e2]
        refine ⟨fun front e back he hse hme hfr => ?_, fun hall => ?_⟩
        · cases front with
          | nil =>
            obtain ⟨rfl, rfl⟩ := List.cons.inj he
            rw [List.filter_nil, List.append_nil]
            exact ⟨s, h, grantEntry_spec x s ((congrArg Memory.wf (h.2.1 .mem (by decide))).trans hu), rfl⟩
          | cons y front =>
            obtain ⟨rfl, he2⟩ := List.cons.inj he
            rcases hfr x (by simp) with hc | hc
            · rw [hs] at hc; cases hc
            · exact absurd hm hc
        · rcases hall x (by simp) with hc | hc
          · rw [hs] at hc; cases hc
          · exact absurd hm hc
      · have hstep : ∃ r, FailsOut (left ++ [x]) u (departEntry x.session r s) ∧
            tryEntries skip (x :: es) s =
            tryEntries skip es (departEntry x.session r s) := by
          by_cases hmk : u.mayKey x.member x.channel
          · exact ⟨.noBudget, failsOut_snoc h (hq x (by simp)) (fun a => absurd hmk a) (fun _ => rfl),
              by rw [e2, p3 hmk fun hb => hm ⟨hmk, hb⟩]⟩
          · exact ⟨.notPermitted, failsOut_snoc h (hq x (by simp)) (fun _ => rfl) (fun a => absurd a hmk),
              by rw [e2, p2 hmk]⟩
        obtain ⟨r, hfo, he'⟩ := hstep
        rw [he']
        obtain ⟨i1, i2⟩ := ih (left ++ [x]) _ hfo hq'
        refine ⟨fun front e back he hse hme hfr => ?_, fun hall => ?_⟩
        · cases front with
          | nil => obtain ⟨rfl, rfl⟩ := List.cons.inj he; exact absurd hme hm
          | cons y front =>
            obtain ⟨rfl, he2⟩ := List.cons.inj he
            rw [List.filter_cons, hs]
            have := i1 front e back he2 hse hme fun z hz => hfr z (by simp [hz])
            simpa using this
        · rw [List.filter_cons, hs]
          have := i2 fun z hz => hall z (by simp [hz])
          simpa using this

/-- The same from the start, with what comes when none passes. -/
theorem tryEntries_spec {skip : State → Entry → Bool} {skipped : Entry → Bool} {u : State} (hu : u.memoryLaw)
    (hk : ∀ s e, OnlyChanges [.floor, .ident, .sessions] u s → skip s e = skipped e) (es : List Entry)
    (hq : ∀ e ∈ es, e ∈ u.floor.queue) (v : State) (next : State → Prop)
    (h1 : (tryEntries skip es u).2 = true → v = (tryEntries skip es u).1)
    (h2 : (tryEntries skip es u).2 = false → OnlyChanges [.floor, .ident, .sessions] u (tryEntries skip es u).1 →
      (tryEntries skip es u).1.floor.courtesy = u.floor.courtesy → (tryEntries skip es u).1.floor.hold = u.floor.hold →
      (tryEntries skip es u).1.ident.due = u.ident.due → next (tryEntries skip es u).1) :
    TriesInOrder skipped es u v next := by
  obtain ⟨a, b⟩ := tryEntries_from hu hk es [] u (failsOut_nil u) hq
  refine ⟨fun front e back he hs hm hf => ?_, fun hall => ?_⟩
  · obtain ⟨w, w1, w2, w3⟩ := a front e back he hs hm hf
    exact ⟨w, w1, (h1 w3) ▸ w2⟩
  · obtain ⟨b1, b2⟩ := b hall
    exact ⟨_, b1, h2 b2 b1.2.1 (by rw [b1.1]; exact (foldl_without_kept _ _).2.1)
      (by rw [b1.1]; exact (foldl_without_kept _ _).2.2) (by rw [b1.2.2.1])⟩

theorem grantsForbidden_iff (s : State) : s.grantsForbidden = false ↔
    s.floor.idle = true ∧ s.supervisor.running = true ∧ s.supervisor.lockout = none ∧ s.supervisor.disable = .released ∧
      s.ready = true := by
  unfold State.grantsForbidden
  simp [Bool.or_eq_false_iff, and_assoc]

/-- What an arbitration does (R46–R51). -/
theorem arbitrate_spec (s : State) (hs : s.memoryLaw) : Arbitrates s (arbitrate s) := by
  unfold arbitrate Arbitrates
  refine ⟨fun h => if_pos ?_, fun h => ?_⟩
  · cases hg : s.grantsForbidden with
    | true => rfl
    | false => exact absurd ((grantsForbidden_iff s).1 hg) h
  rw [if_neg (by rw [(grantsForbidden_iff s).2 h]; decide)]
  have e1 : tryEntries (fun _ _ => false) (s.floor.queue.filter (·.marked)) s = tryMarked s := rfl
  dsimp only
  generalize hv : (if (tryMarked s).2 = true then (tryMarked s).1
    else if (tryIdent (tryMarked s).1).2 = true then (tryIdent (tryMarked s).1).1
    else (tryUnmarked (tryIdent (tryMarked s).1).1).1) = v
  refine tryEntries_spec hs (fun _ _ _ => rfl) _ (fun e he => (List.mem_filter.1 he).1) _ _
    (fun hm => hv.symm.trans (if_pos hm)) (fun hm hf hc hh hd => ?_)
  rw [e1] at hm hf hc hh hd ⊢
  rw [if_neg (by rw [hm]; decide)] at hv
  have hw : (tryMarked s).1.memoryLaw := (congrArg Memory.wf (hf .mem (by decide))).trans hs
  generalize (tryMarked s).1 = w at hf hc hh hd hw hv ⊢
  have hkc : w.key.chselChannel = s.key.chselChannel := by rw [hf .key (by decide)]
  by_cases hi : s.floor.courtesy = none ∧ s.ident.due = true
  · rw [if_pos hi]
    intro c hc'
    obtain ⟨g1, g2⟩ := grantIdent_spec c w hw (hkc.trans hc')
    have hti : tryIdent w = grantIdent w := if_pos (by rw [hc, hd, hi.1, hi.2]; rfl)
    rw [hti, if_pos g2] at hv
    rw [← hv]; exact g1
  · rw [if_neg hi]
    have hti : tryIdent w = (w, false) := if_neg (by rw [hc, hd]; simpa using hi)
    rw [hti, if_neg (by simp)] at hv
    have hu : tryUnmarked w = if (s.floor.courtesy.isNone && !s.floor.hold) = true then
        tryEntries (fun t e => t.penaltyInForce e.member) (w.floor.queue.filter fun e => !e.marked) w else (w, false) := by
      unfold tryUnmarked; rw [hc, hh]
    by_cases hj : s.floor.courtesy = none ∧ s.floor.hold = false
    · rw [if_pos hj]
      rw [if_pos (by rw [hj.1, hj.2]; rfl)] at hu
      refine tryEntries_spec (skip := fun t e => t.penaltyInForce e.member) hw (fun t e ht => ?_) _
        (fun e he => (List.mem_filter.1 he).1) _ _ (fun _ => by rw [← hv]; exact congrArg Prod.fst hu)
        (fun _ _ _ _ _ => by rw [← hv]; exact congrArg Prod.fst hu)
      have h2 := hf.trans ht
      unfold State.penaltyInForce
      rw [h2.member, h2.clock]
    · rw [if_neg hj]
      rw [if_neg (by simpa using hj)] at hu
      rw [← hv, hu]

end Sys2Proof.Machine
end

