-- ==== Sys2Proof/Laws/Moments.lean ====
section
/-! SUPPORT. The events that come at a moment: what the passing of time leaves as it was, effects on the current grant, and the whole
event with its frame. -/

set_option Elab.async false

namespace Sys2Proof.Machine

theorem passTime_grant {s : State} {g : Grant} (n : Nat) (h : s.key.grant = some g) :
    (s.passTime n).key.grant = some (g.passTime n) := by
  show s.key.grant.map _ = _
  rw [h]; rfl

theorem onGrant_some {s : State} {g : Grant} (f : Grant → State → State) (h : s.key.grant = some g) : onGrant f s = f g s := by
  unfold onGrant; rw [h]

theorem onGrant_passTime {s : State} {g : Grant} (f : Grant → State → State) (n : Nat) (h : s.key.grant = some g) :
    onGrant f (s.passTime n) = f (g.passTime n) (s.passTime n) := onGrant_some f (passTime_grant n h)

theorem onGrant_frame {ps : List Part} {f : Grant → State → State} (h : ∀ g u, OnlyChanges ps u (f g u)) (u : State) :
    OnlyChanges ps u (onGrant f u) := by
  unfold onGrant; split
  · exact .refl _ _
  · exact h _ _

theorem onGrant_stores {P : Nat → Prop} {f : Grant → State → State} {u : State} (h : ∀ g, Stores P u (f g u)) :
    Stores P u (onGrant f u) := by
  unfold onGrant; split
  · exact .refl _
  · exact h _

/-- An event at a moment, whose effect stores to nothing but the state words of FILLED places. -/
theorem moment_to {ps : List Part} {f : State → State} {n : Nat} {s : State} (hl : s.memoryLaw)
    (hf : OnlyChanges ps (s.passTime n) (f (s.passTime n))) (hs : Stores noWord (s.passTime n) (f (s.passTime n)))
    (h1 : Part.changeCounts ∉ ps := by decide) (h2 : Part.news ∉ ps := by decide) :
    EventTo ps (inFilled s) (s.passTime n) (f (s.passTime n)) (event f (s.passTime n)) :=
  (event_to hf hs (passTime_law (n := n) hl) h1 h2).mono (fun _ h => h) fun _ h => h.elim (fun x => x.elim) id

/-- An event at a moment that can end the grant. -/
theorem moment_ends {ps : List Part} {f : State → State} {n : Nat} {s : State} (hl : s.memoryLaw)
    (hf : OnlyChanges ps (s.passTime n) (f (s.passTime n))) (hs : Stores (logPlace s.log) (s.passTime n) (f (s.passTime n)))
    (h1 : Part.changeCounts ∉ ps := by decide) (h2 : Part.news ∉ ps := by decide) :
    EventTo ps (endStores s) (s.passTime n) (f (s.passTime n)) (event f (s.passTime n)) :=
  (event_to hf hs (passTime_law (n := n) hl) h1 h2).mono (fun _ h => h) fun _ h => h

theorem anyAudio_iff (s : State) (tag : Word) : s.anyAudio tag = true ↔
    ∃ i, i < 64 ∧ s.read (txBase i) = 1 ∧ s.read (txBase i + 1) = tag ∧ (s.read (txBase i + 2)).toNat < s.params.maxDepth := by
  simp only [State.anyAudio, List.any_eq_true, List.mem_range, Bool.and_eq_true, beq_iff_eq, decide_eq_true_eq, and_assoc, State.filled]
  rfl

theorem expireBusyWait_eq (g : Grant) (s : State) : expireBusyWait g s =
    if g.state = .waitClear then busyWaitOver { g with busyWait := .expired } s
    else s.withGrant (some { g with busyWait := .expired }) := by
  unfold expireBusyWait
  cases h : g.state <;> rfl

theorem expireBusyWait_frame (g : Grant) (s : State) : OnlyChanges courseParts s (expireBusyWait g s) := by
  rw [expireBusyWait_eq]; exact .ite (busyWaitOver_frame _ _) withGrant_frame

theorem expireBusyWait_stores {P : Nat → Prop} (g : Grant) (s : State) : Stores P s (expireBusyWait g s) := by
  rw [expireBusyWait_eq]; exact .ite (busyWaitOver_stores _ _) (.of_mem rfl)

theorem expirePrebuffer_frame (g : Grant) (s : State) : OnlyChanges courseParts s (expirePrebuffer g s) :=
  .ite withGrant_frame <| .ite (keyUp_frame _ _) (preKeyEnd_frame _ _ _).mono

theorem expirePrebuffer_stores {P : Nat → Prop} (g : Grant) (s : State) : Stores P s (expirePrebuffer g s) :=
  .ite withGrant_stores <| .ite (keyUp_stores _ _) (preKeyEnd_stores _ _ _)

/-- Expiry of the prebuffer limit (R70, R71). -/
theorem expirePrebuffer_spec (g : Grant) (s : State) (hs : s.memoryLaw) :
    ExpiresPrebuffer { g with prebufferLeft := none } s (expirePrebuffer g s) := by
  unfold expirePrebuffer ExpiresPrebuffer
  dsimp only
  split
  · exact becomesGrant _ s
  · rw [← anyAudio_iff]
    refine ⟨fun h => ?_, fun h => ?_⟩
    · rw [if_pos h]; exact keyUp_spec _ s hs
    · rw [if_neg h]; exact preKeyEnd_spec _ _ s hs

/-- Key time at the key limit (R75). -/
theorem endAtKeyLimit_spec (g : Grant) (s : State) (hs : s.memoryLaw) (hl : g.atLimit) (hm : g.state.memberOnAir = true) :
    Unkeys (if g.state = .keyed then { g with endReason := some (g.endReason.getD .timeout) } else g) s (endAtKeyLimit g s) := by
  unfold endAtKeyLimit
  cases h : g.state <;> simp only [GrantState.memberOnAir, h] at hm <;> try cases hm
  · exact (enterTail_spec true _ s hs).1 (.inr hl)
  · exact (enterTail_spec true _ s hs).1 (.inr hl)
  · exact unkey_spec _ _ hs

theorem endAtKeyLimit_frame (g : Grant) (s : State) : OnlyChanges endParts s (endAtKeyLimit g s) := by
  unfold endAtKeyLimit
  cases g.state <;> first | exact enterTail_frame _ _ _ | exact unkey_frame _ _ | exact .refl _ _

theorem endAtKeyLimit_stores (g : Grant) (s : State) : Stores (logPlace s.log) s (endAtKeyLimit g s) := by
  unfold endAtKeyLimit
  cases g.state <;> first | exact enterTail_stores _ _ _ | exact unkey_stores _ _ | exact .refl _

/-- One accounting tick (R74). -/
theorem accountTick_eq (g : Grant) (s : State) :
    let c := s.chargeTicks g 1
    let h : Grant := { g with ticks := g.ticks + 1, budgetExhausted := g.budgetExhausted || c.2 }
    let w := c.1.withGrant (some h)
    accountTick g s = if c.2 = true ∧ g.state = .keyed then enterTail true (h.withReason .budget) w else w := by
  dsimp only
  unfold accountTick applyCause causeClass
  dsimp only
  by_cases h : (s.chargeTicks g 1).2 = true
  · rw [if_pos h]
    by_cases hs : g.state = .keyed
    · rw [if_pos ⟨h, hs⟩, hs]
    · rw [if_neg fun x => hs x.2]
      cases hst : g.state <;> first | exact absurd hst hs | rfl
  · rw [if_neg h, if_neg fun x => h x.1]

theorem accountTick_frame (g : Grant) (s : State) : OnlyChanges endParts s (accountTick g s) := by
  have h : OnlyChanges endParts s ((s.chargeTicks g 1).1.withGrant
      (some { g with ticks := g.ticks + 1, budgetExhausted := g.budgetExhausted || (s.chargeTicks g 1).2 })) :=
    OnlyChanges.after (withGrant_frame (by decide)) (chargeTicks_frame s g 1).mono
  rw [accountTick_eq]
  exact .ite (OnlyChanges.after (enterTail_frame _ _ _) h) h

theorem accountTick_stores (g : Grant) (s : State) : Stores (logPlace s.log) s (accountTick g s) := by
  have h : OnlyChanges [.members, .key] s ((s.chargeTicks g 1).1.withGrant
      (some { g with ticks := g.ticks + 1, budgetExhausted := g.budgetExhausted || (s.chargeTicks g 1).2 })) :=
    OnlyChanges.after (withGrant_frame (by decide)) (chargeTicks_frame s g 1).mono
  have h' : Stores (logPlace s.log) s ((s.chargeTicks g 1).1.withGrant
      (some { g with ticks := g.ticks + 1, budgetExhausted := g.budgetExhausted || (s.chargeTicks g 1).2 })) :=
    .of_mem (h .mem (by decide))
  rw [accountTick_eq]
  split
  · refine h'.trans ?_
    rw [← h .log (by decide)]
    exact enterTail_stores _ _ _
  · exact h'

end Sys2Proof.Machine
end

