-- ==== Sys2Proof/Laws/Boundary.lean ====
section
/-! SUPPORT. One lemma for each operation of a block boundary that says once everything it does: the case of the place (R93), the play
(R94), the substitute (R95), the depth count and re-centring (R97, R98), and the drain (R99). -/

set_option Elab.async false

namespace Sys2Proof.Machine

/-! ## Re-centring (R98) -/

theorem nearest_spec (s : State) (p : Nat) (l : List Nat) :
    match s.nearest p l with
    | none => l = []
    | some i => i ∈ l ∧ ∀ j ∈ l, s.ahead i p ≤ s.ahead j p := by
  induction l with
  | nil => rfl
  | cons x l ih =>
    unfold State.nearest
    cases h : s.nearest p l with
    | none =>
      rw [h] at ih
      dsimp only at ih ⊢
      subst ih
      simp
    | some j =>
      rw [h] at ih
      obtain ⟨h1, h2⟩ := ih
      dsimp only
      by_cases hd : distance (s.txSequence j) p < distance (s.txSequence x) p
      · rw [if_pos hd]
        refine ⟨by simp [h1], fun k hk => ?_⟩
        rcases List.mem_cons.1 hk with rfl | hk
        · exact Nat.le_of_lt hd
        · exact h2 k hk
      · rw [if_neg hd]
        refine ⟨by simp, fun k hk => ?_⟩
        rcases List.mem_cons.1 hk with rfl | hk
        · exact Nat.le_refl _
        · exact Nat.le_trans (Nat.le_of_not_lt hd) (h2 k hk)

/-- The transmit places that hold blocks of a grant. -/
def heldPlaces (s : State) (tag : Word) : List Nat :=
  (List.range 64).filter fun i => s.read (txBase i) == 1 && s.read (txBase i + 1) == tag

theorem freePlace_read_state (s : State) (i j : Nat) (hs : s.memoryLaw) :
    (s.freePlace i).read (txBase j) = if j = i then 0 else s.read (txBase j) := by
  by_cases h : j = i
  · subst h; rw [if_pos rfl]; exact Memory.read_write_same _ _ _ hs
  · rw [if_neg h]; exact Memory.read_write_other _ _ _ _ fun e => h (txBase_inj e)

theorem freePlace_read_body (s : State) (i j k : Nat) (hk : 0 < k) (hk' : k < 168) :
    (s.freePlace i).read (txBase j + k) = s.read (txBase j + k) :=
  Memory.read_write_other _ _ _ _ (by simp only [txBase]; omega)

theorem heldPlaces_free (s : State) (tag : Word) (i : Nat) (hs : s.memoryLaw) :
    heldPlaces (s.freePlace i) tag = (heldPlaces s tag).filter (· != i) := by
  unfold heldPlaces
  rw [List.filter_filter]
  refine List.filter_congr fun j _ => ?_
  rw [freePlace_read_state s i j hs, freePlace_read_body s i j 1 (by decide) (by decide)]
  by_cases h : j = i
  · subst h; simp
  · rw [if_neg h, show (j != i) = true from bne_iff_ne.2 h]; simp

theorem depthOf_le (s : State) (tag : Word) (p : Nat) : s.depthOf tag p ≤ (heldPlaces s tag).length := by
  have : (List.range 64).filter (s.counts tag p) = (heldPlaces s tag).filter fun i => decide (s.ahead i p ≤ 63) := by
    unfold heldPlaces
    rw [List.filter_filter]
    exact List.filter_congr fun i _ => Bool.and_comm _ _
  unfold State.depthOf
  rw [this]
  exact List.length_filter_le _ _

theorem recentre_spec (tag : Word) : ∀ (fuel : Nat) (s : State), s.memoryLaw → (heldPlaces s tag).length ≤ fuel →
    Recentres tag s (State.recentre tag fuel s) := by
  intro fuel
  induction fuel with
  | zero => exact fun s _ h => .done s (by have := depthOf_le s tag s.playout.position; omega)
  | succ fuel ih =>
    intro s hs h
    unfold State.recentre
    by_cases hd : s.depthAt tag s.playout.position ≤ s.params.prebufferTarget
    · rw [if_pos hd]; exact .done s hd
    · rw [if_neg hd]
      have hn := nearest_spec s s.playout.position (s.window tag s.playout.position)
      cases hne : s.nearest s.playout.position (s.window tag s.playout.position) with
      | none =>
        rw [hne] at hn
        refine absurd ?_ hd
        unfold State.depthAt
        rw [show s.window tag s.playout.position = [] from hn]
        exact Nat.zero_le _
      | some i =>
        rw [hne] at hn
        obtain ⟨hi, hmin⟩ := hn
        have hi' : i < 64 ∧ s.counts tag s.playout.position i = true := by
          simp only [State.window, List.mem_filter, List.mem_range] at hi; exact hi
        have hheld : i ∈ heldPlaces s tag := by
          have := hi'.2
          simp only [State.counts, Bool.and_eq_true] at this
          simp only [heldPlaces, List.mem_filter, List.mem_range, Bool.and_eq_true]
          exact ⟨hi'.1, this.1⟩
        refine .round s _ _ (Nat.lt_of_not_le hd) ⟨i, hi'.1, hi'.2, fun j hj hc => ?_, rfl⟩ (ih _ (Memory.write_wf _ _ _ hs) ?_)
        · exact hmin j (by simp only [State.window, List.mem_filter, List.mem_range]; exact ⟨hj, hc⟩)
        · show (heldPlaces (s.freePlace i) tag).length ≤ fuel
          rw [heldPlaces_free s tag i hs]
          have hlt : ((heldPlaces s tag).filter (· != i)).length < (heldPlaces s tag).length :=
            List.length_filter_lt_length_iff_exists.2 ⟨i, hheld, by simp⟩
          omega

theorem heldPlaces_le (s : State) (tag : Word) : (heldPlaces s tag).length ≤ 64 := by
  have := List.length_filter_le (fun i => s.read (txBase i) == 1 && s.read (txBase i + 1) == tag) (List.range 64)
  rw [List.length_range] at this
  exact this

theorem countDepth_spec (s : State) (tag : Word) (keyed : Bool) (hs : s.memoryLaw) :
    CountsDepth tag keyed s (s.countDepth tag keyed) := by
  have h0 : ∃ t, t = (if (keyed && decide (s.params.maxDepth < s.depthAt tag s.playout.position)) = true then
      (State.recentre tag 64 s).withPlayout
        { (State.recentre tag 64 s).playout with slip := saturate 65535 (State.recentre tag 64 s).playout.slip 1 }
      else s) ∧
      s.countDepth tag keyed = t.withPlayout { t.playout with
        depth := t.depthAt tag t.playout.position, depthLow := decide (t.depthAt tag t.playout.position ≤ 1)
        depthHigh := decide (t.params.maxDepth ≤ t.depthAt tag t.playout.position + 1) } := ⟨_, rfl, rfl⟩
  obtain ⟨t, ht, he⟩ := h0
  refine ⟨t, ?_, ?_⟩
  · rw [ht]
    by_cases h : keyed = true ∧ s.params.maxDepth < s.depthOf tag s.playout.position
    · rw [if_pos h, if_pos (by rw [h.1, Bool.true_and, decide_eq_true_iff]; exact h.2)]
      exact ⟨_, recentre_spec tag 64 s hs (heldPlaces_le s tag), rfl⟩
    · rw [if_neg h, if_neg (by rw [Bool.and_eq_true, decide_eq_true_iff]; exact h)]
  · rw [he]
    have hd : t.depthAt tag t.playout.position = t.depthOf tag t.playout.position := rfl
    have hh : ∀ m d : Nat, decide (m ≤ d + 1) = decide (m - 1 ≤ d) := fun m d => decide_eq_decide.2 (by omega)
    rw [hd, hh t.params.maxDepth]

/-! ## The case of the place (R93) -/

theorem classify_spec (s : State) (tag : Word) :
    let p := s.playout.position
    let i := p % 64
    (s.classify tag p = .play ↔ s.holdsBlock tag) ∧
    (s.read (txBase i) ≠ 1 → s.classify tag p = .empty) ∧
    (s.read (txBase i) = 1 → s.read (txBase i + 1) ≠ tag → s.classify tag p = .stale) ∧
    (s.read (txBase i) = 1 → s.read (txBase i + 1) = tag → 32768 ≤ s.ahead i p → s.classify tag p = .late) ∧
    (s.read (txBase i) = 1 → s.read (txBase i + 1) = tag → s.ahead i p < 32768 → s.ahead i p ≠ 0 →
      s.classify tag p = .overrun) := by
  intro p i
  have e : s.classify tag p =
      if !(s.read (txBase i) == 1) then .empty else if s.read (txBase i + 1) != tag then .stale
      else if s.ahead i p = 0 then .play else if 32768 ≤ s.ahead i p then .late else .overrun := rfl
  have hb : s.holdsBlock tag ↔ s.read (txBase i) = 1 ∧ s.read (txBase i + 1) = tag ∧ s.ahead i p = 0 := Iff.rfl
  have n1 : s.read (txBase i) ≠ 1 → (s.read (txBase i) == 1) = false := fun h => beq_eq_false_iff_ne.2 h
  have y1 : s.read (txBase i) = 1 → (s.read (txBase i) == 1) = true := fun h => beq_iff_eq.2 h
  have n2 : s.read (txBase i + 1) ≠ tag → (s.read (txBase i + 1) != tag) = true := fun h => bne_iff_ne.2 h
  have y2 : s.read (txBase i + 1) = tag → (s.read (txBase i + 1) != tag) = false := fun h => bne_eq_false_iff_eq.2 h
  rw [e, hb]
  refine ⟨?_, fun h => ?_, fun h h2 => ?_, fun h h2 h3 => ?_, fun h h2 h3 h4 => ?_⟩
  · constructor
    · intro h
      by_cases h1 : s.read (txBase i) = 1
      · by_cases h2 : s.read (txBase i + 1) = tag
        · refine ⟨h1, h2, ?_⟩
          rw [y1 h1, y2 h2] at h
          by_contra h3
          rw [if_neg h3, if_neg (by decide), if_neg (by decide)] at h
          split at h <;> cases h
        · rw [y1 h1, n2 h2] at h; simp at h
      · rw [n1 h1] at h; simp at h
    · rintro ⟨h1, h2, h3⟩
      rw [y1 h1, y2 h2, if_pos h3]; rfl
  · rw [n1 h]; rfl
  · rw [y1 h, n2 h2]; rfl
  · rw [y1 h, y2 h2, if_neg (show ¬ s.ahead i p = 0 by omega), if_pos h3]; rfl
  · rw [y1 h, y2 h2, if_neg h4, if_neg (show ¬ 32768 ≤ s.ahead i p by omega)]; rfl

/-! ## The holder's record at a boundary -/

theorem countFor_session (s : State) (holder : Option Slot) (f : Session → Session) (k : Slot) :
    (s.countFor holder f).session k =
      if holder = some k then { f (s.session k) with counterNotices := (s.session k).counterNotices + 1 }
      else s.session k := by
  unfold State.countFor State.countNotice
  cases holder with
  | none => rfl
  | some n =>
    dsimp only
    rw [State.withSession_session]
    by_cases h : k = n
    · subst h; rw [if_pos rfl, if_pos rfl]
    · rw [if_neg h, if_neg fun e => h (Option.some.inj e).symm]

theorem armDeadline_session (s : State) (n : Slot) (p : Nat) (k : Slot) :
    (s.armDeadline n p).session k =
      if n = k ∧ (s.session k).state = .opened then { s.session k with deadline := some (Clock.plus s.clock p) }
      else s.session k := by
  have e : s.armDeadline n p = if (s.session n).state = .opened then
      s.withSession n { s.session n with deadline := some (Clock.plus s.clock p) } else s := rfl
  rw [e]
  by_cases h : k = n
  · subst h
    by_cases ho : (s.session k).state = .opened
    · rw [if_pos ho, if_pos ⟨rfl, ho⟩, State.withSession_session, if_pos rfl]
    · rw [if_neg ho, if_neg fun x => ho x.2]
  · rw [if_neg (show ¬ (n = k ∧ _) from fun x => h x.1.symm)]
    split
    · rw [State.withSession_session, if_neg h]
    · rfl

/-! ## A block played, or missing (R93–R95) -/

theorem levelBlock_eq (s : State) (g : Grant) (x : Int) (block : List Word) :
    levelBlock (s.attenuationOf g) x block = s.leveled g x block := by
  unfold levelBlock State.attenuationOf totalAttenuation State.leveled
  cases (s.memberOf g.member).trim <;> rfl

theorem playBlock_spec (g : Grant) (s : State) :
    PlaysBlock g s (playBlock g (s.withPlayout { s.playout with boundary := some (ms 20) })).advance := by
  let i := s.playout.position % 64
  let block := (List.range 160).map fun k => s.read (txBase i + 8 + k)
  have h0 : ∃ t t1 t2 : State,
      t = ((s.withPlayout { s.playout with boundary := some (ms 20) }).releasePlace i).withPlayout
        { s.playout with
          boundary := some (ms 20), released := min 65535 (s.playout.released + 1), missingRun := 0, lastPlayed := some block
          dacBlock := levelBlock (s.attenuationOf g) 0 block } ∧
      t1 = t.countFor g.session (fun r => { r with blocksPlayed := saturate 65535 r.blocksPlayed 1 }) ∧
      t2 = (match g.session with
        | some n => t1.armDeadline n t1.params.holderSurveillance
        | none => t1) ∧
      playBlock g (s.withPlayout { s.playout with boundary := some (ms 20) }) = t2 := ⟨_, _, _, rfl, rfl, rfl, rfl⟩
  obtain ⟨t, t1, t2, et, e1, e2, he⟩ := h0
  rw [levelBlock_eq] at et
  have ft : OnlyChanges [.playout, .mem] s t := et ▸ (OnlyChanges.after (withPlayout_frame (by decide)) <|
    OnlyChanges.after (releasePlace_frame _ _).mono (withPlayout_frame (by decide)))
  have f1 : OnlyChanges [.sessions] t t1 := e1 ▸ countFor_frame _ _ _ fun _ => rfl
  have f2 : OnlyChanges [.sessions] t1 t2 := by
    rw [e2]
    split
    · exact armDeadline_frame _ _ _
    · exact .refl _ _
  have f12 : OnlyChanges [.sessions] t t2 := f1.trans f2
  have hp : t.playout = { s.playout with
      boundary := some (ms 20), released := min 65535 (s.playout.released + 1), missingRun := 0, lastPlayed := some block
      dacBlock := s.leveled g 0 block } := by rw [et]; rfl
  have hm : t.mem = s.mem.write (txBase i) 0 := by rw [et]; rfl
  have hs : ∀ k, t1.session k = if g.session = some k then
      { s.session k with
        blocksPlayed := min 65535 ((s.session k).blocksPlayed + 1), counterNotices := (s.session k).counterNotices + 1 }
      else s.session k := fun k => by
    rw [e1, countFor_session, ft.session k]; rfl
  rw [he]
  refine ⟨?_, ?_, fun k => ?_, OnlyChanges.after (withPlayout_frame (by decide)) (ft.mono.trans f12.mono)⟩
  · show ({ t2.playout with position := t2.playout.position + 1 } : Playout) = _
    rw [f12 .playout (by decide), hp]; rfl
  · show t2.mem = _
    rw [f12 .mem (by decide), hm]
  · show t2.session k = _
    rw [e2]
    cases hg : g.session with
    | none => rw [hg] at hs; exact hs k
    | some n =>
      rw [hg] at hs
      dsimp only
      rw [armDeadline_session, f1.clock, ft.clock, f1 .params (by decide), ft .params (by decide), hs k]
      by_cases h : n = k
      · subst h
        rw [if_pos rfl, if_pos rfl]
        by_cases ho : (s.session n).state = .opened
        · rw [if_pos ⟨rfl, ho⟩, if_pos ho]
        · rw [if_neg fun x => ho x.2, if_neg ho]
      · rw [if_neg fun x => h x.1, if_neg fun x => h (Option.some.inj x), if_neg fun x => h (Option.some.inj x)]

theorem clearPlace_spec (g : Grant) (s : State) (h : ¬ s.holdsBlock g.tag) :
    ClearsPlace g s
      (clearPlace g (s.classify g.tag s.playout.position)
        (s.withPlayout { s.playout with boundary := some (ms 20) })).advance := by
  let i := s.playout.position % 64
  let t := s.withPlayout { s.playout with boundary := some (ms 20) }
  obtain ⟨c1, c2, c3, c4, c5⟩ := classify_spec s g.tag
  have hfr : ∀ f : Session → Session, (∀ r, (f r).changeCount = r.changeCount) →
      OnlyChanges [.playout, .mem, .sessions] s ((t.releasePlace i).countFor g.session f).advance := fun f hf =>
    OnlyChanges.after (withPlayout_frame (by decide)) <| OnlyChanges.after (countFor_frame _ _ _ hf).mono <|
      OnlyChanges.after (releasePlace_frame _ _).mono (withPlayout_frame (by decide))
  have hfill : ∀ f : Session → Session, (∀ r, (f r).changeCount = r.changeCount) → s.read (txBase i) = 1 →
      (∀ k, f (s.session k) =
        if ¬ s.read (txBase i + 1) = g.tag then { s.session k with stale := min 65535 ((s.session k).stale + 1) }
        else if 32768 ≤ s.ahead i s.playout.position then { s.session k with late := min 65535 ((s.session k).late + 1) }
        else { s.session k with overrun := min 65535 ((s.session k).overrun + 1) }) →
      ClearsPlace g s ((t.releasePlace i).countFor g.session f).advance := fun f hf h1 hk => by
    have fc : OnlyChanges [.sessions] (t.releasePlace i) ((t.releasePlace i).countFor g.session f) := countFor_frame _ _ _ hf
    refine ⟨?_, ?_, fun k => ?_, hfr f hf⟩
    · show ({ ((t.releasePlace i).countFor g.session f).playout with position := _ } : Playout) = _
      rw [fc .playout (by decide), if_pos h1]; rfl
    · show ((t.releasePlace i).countFor g.session f).mem = _
      rw [fc .mem (by decide), if_pos h1]; rfl
    · show ((t.releasePlace i).countFor g.session f).session k = _
      have ht : (t.releasePlace i).session k = s.session k := rfl
      rw [countFor_session, ht]
      dsimp only
      by_cases hg : g.session = some k
      · rw [if_pos hg, if_pos ⟨hg, h1⟩, hk k]
      · rw [if_neg hg, if_neg fun x => hg x.1]
  by_cases h1 : s.read (txBase i) = 1
  · by_cases h2 : s.read (txBase i + 1) = g.tag
    · have h3 : s.ahead i s.playout.position ≠ 0 := fun h3 => h ⟨h1, h2, h3⟩
      by_cases h4 : 32768 ≤ s.ahead i s.playout.position
      · rw [c4 h1 h2 h4]
        exact hfill _ (fun _ => rfl) h1 fun k => by rw [if_neg fun x => x h2, if_pos h4]; rfl
      · rw [c5 h1 h2 (Nat.lt_of_not_le h4) h3]
        exact hfill _ (fun _ => rfl) h1 fun k => by rw [if_neg fun x => x h2, if_neg h4]; rfl
    · rw [c3 h1 h2]
      exact hfill _ (fun _ => rfl) h1 fun k => by rw [if_pos h2]; rfl
  · rw [c2 h1]
    refine ⟨?_, ?_, fun k => ?_, OnlyChanges.after (withPlayout_frame (by decide)) (withPlayout_frame (by decide))⟩
    · rw [if_neg h1]; rfl
    · rw [if_neg h1]; rfl
    · dsimp only; rw [if_neg fun x => h1 x.2]; rfl

theorem substitute_eq (g : Grant) (s : State) : substitute g s =
    if s.playout.missingRun = 0 ∧ s.playout.lastPlayed ≠ none then
      (s.withPlayout { s.playout with
        dacBlock := levelBlock (s.attenuationOf g) 12 (s.playout.lastPlayed.getD []), concealment := true
        missingRun := 1 }).countFor g.session fun r => { r with concealed := saturate 65535 r.concealed 1 }
    else s.withPlayout { s.playout with
      dacBlock := silentBlock, missingRun := saturate 65535 s.playout.missingRun 1 } := by
  unfold substitute
  cases hl : s.playout.lastPlayed with
  | none => rw [if_neg (by simp)]; cases s.playout.missingRun <;> rfl
  | some block =>
    cases hr : s.playout.missingRun with
    | zero => rw [if_pos (by simp)]; rfl
    | succ n => rw [if_neg (by simp)]; rfl

theorem substitute_spec (g : Grant) (s : State) : Substitutes g s (substitute g s) := by
  unfold Substitutes
  rw [substitute_eq]
  by_cases h : s.playout.missingRun = 0 ∧ s.playout.lastPlayed ≠ none
  · rw [if_pos h]
    dsimp only
    rw [if_pos h, h.1, levelBlock_eq]
    generalize ht : s.withPlayout _ = t
    have ft : OnlyChanges [.playout, .sessions] s t := ht ▸ withPlayout_frame (by decide)
    have fc : OnlyChanges [.sessions] t (t.countFor g.session fun r => { r with concealed := saturate 65535 r.concealed 1 }) :=
      countFor_frame _ _ _ fun _ => rfl
    have hs : ∀ k, t.session k = s.session k := fun k => by rw [← ht]; rfl
    refine ⟨?_, fun k => ?_, ft.trans fc.mono⟩
    · rw [fc .playout (by decide), ← ht]; rfl
    · rw [countFor_session, hs]; rfl
  · rw [if_neg h]
    dsimp only
    rw [if_neg h]
    exact ⟨rfl, withPlayout_frame⟩

/-! ## The rest of a boundary (R97–R99) -/

theorem drainEnded_iff (g : Grant) (missing : Bool) (w : State) : drainEnded g missing w = true ↔ g.drainIsOver missing w := by
  unfold drainEnded Grant.drainIsOver
  rw [Bool.or_eq_true, decide_eq_true_iff]
  cases g.finalCount with
  | none => simp
  | some n =>
    have : atOrBehind n w.playout.position = true ↔
        (n - word w.playout.position).toNat = 0 ∨ 32768 ≤ (n - word w.playout.position).toNat := by
      unfold atOrBehind distance; rw [Bool.or_eq_true, decide_eq_true_iff, decide_eq_true_iff]
    dsimp only
    rw [this]
    simp

theorem finishBoundary_spec (g : Grant) (missing : Bool) (s : State) (hs : s.memoryLaw) :
    if g.state = .drain then DrainsOn g missing s (finishBoundary g missing s)
    else CountsDepth g.tag true s (finishBoundary g missing s) := by
  by_cases h : g.state = .drain
  · rw [if_pos h]
    have hx : (s.countDepth g.tag false).memoryLaw := (countDepth_stores (P := noWord) s g.tag false).law hs
    have h0 : ∃ x w, x = s.countDepth g.tag false ∧
        w = x.withPlayout { x.playout with drainCount := x.playout.drainCount + 1 } ∧
        finishBoundary g missing s = if drainEnded g missing w then enterTail false g w else w := by
      refine ⟨_, _, rfl, rfl, ?_⟩
      unfold finishBoundary; rw [if_pos h]
    obtain ⟨x, w, ex, ew, he⟩ := h0
    have hw : w.memoryLaw := by rw [ew, ex]; exact hx
    refine ⟨x, ex ▸ countDepth_spec s g.tag false hs, ?_⟩
    dsimp only
    rw [← ew, he, ← drainEnded_iff]
    exact ⟨fun h' => by rw [if_pos h']; exact enterTail_spec _ _ _ hw, fun h' => if_neg h'⟩
  · rw [if_neg h]
    have : finishBoundary g missing s = s.countDepth g.tag true := by unfold finishBoundary; rw [if_neg h]
    rw [this]
    exact countDepth_spec s g.tag true hs

/-! ## Where re-centring ends (R98) -/

/-- No two blocks of the grant stand with one sequence. -/
def distinctBlocks (s : State) (tag : Word) : Prop :=
  ∀ i j, i < 64 → j < 64 → s.read (txBase i) = 1 → s.read (txBase j) = 1 → s.read (txBase i + 1) = tag →
    s.read (txBase j + 1) = tag → s.read (txBase i + 2) = s.read (txBase j + 2) → i = j

theorem word_toNat_sub (x : Word) (d : Nat) (h : d < x.toNat) : (x - word d - 1).toNat = x.toNat - d - 1 := by
  have hx := x.isLt
  have hd : (word d).toNat = d := by unfold word; rw [BitVec.toNat_ofNat]; omega
  have h1 : (x - word d).toNat = x.toNat - d := by rw [BitVec.toNat_sub, hd]; omega
  rw [BitVec.toNat_sub, h1]
  show (2 ^ 16 - 1 + (x.toNat - d)) % 2 ^ 16 = _
  omega

theorem ahead_past (s : State) (j p d : Nat) (h : d < s.ahead j p) : s.ahead j (p + d + 1) = s.ahead j p - d - 1 := by
  unfold State.ahead at *
  rw [← word_toNat_sub _ d h]
  congr 1
  have : word (p + d + 1) = word p + word d + 1 := by
    apply BitVec.eq_of_toNat_eq
    simp only [word, BitVec.toNat_add, BitVec.toNat_ofNat, show (1 : Word).toNat = 1 from rfl]
    omega
  rw [this]
  bv_omega

/-- One round takes at most one block from the depth. -/
theorem freesNearest_depth {tag : Word} {s t : State} (hs : s.memoryLaw) (hd : distinctBlocks s tag) (h : FreesNearest tag s t) :
    t.memoryLaw ∧ distinctBlocks t tag ∧ t.params = s.params ∧
      s.depthOf tag s.playout.position ≤ t.depthOf tag t.playout.position + 1 := by
  obtain ⟨i, hi, hc, hmin, rfl⟩ := h
  have hr : ∀ j, (s.write (txBase i) 0).read (txBase j) = if j = i then 0 else s.read (txBase j) :=
    fun j => freePlace_read_state s i j hs
  have hb : ∀ j k, 0 < k → k < 168 → (s.write (txBase i) 0).read (txBase j + k) = s.read (txBase j + k) :=
    fun j k => freePlace_read_body s i j k
  have hcs : ∀ j p, s.counts tag p j = true ↔ s.read (txBase j) = 1 ∧ s.read (txBase j + 1) = tag ∧ s.ahead j p ≤ 63 := by
    intro j p; unfold State.counts
    rw [Bool.and_eq_true, Bool.and_eq_true, beq_iff_eq, beq_iff_eq, decide_eq_true_iff, and_assoc]
  refine ⟨Memory.write_wf _ _ _ hs, ?_, rfl, ?_⟩
  · intro a b ha hb' h1 h2 h3 h4 h5
    have r1 : ∀ j, (s.write (txBase i) 0).read (txBase j) = 1 → s.read (txBase j) = 1 := fun j hj => by
      rw [hr] at hj; split at hj
      · exact absurd hj (by decide)
      · exact hj
    change (s.write (txBase i) 0).read _ = _ at h1 h2 h3 h4
    change (s.write (txBase i) 0).read _ = (s.write (txBase i) 0).read _ at h5
    rw [hb _ 1 (by decide) (by decide)] at h3 h4
    rw [hb _ 2 (by decide) (by decide), hb _ 2 (by decide) (by decide)] at h5
    exact hd a b ha hb' (r1 a h1) (r1 b h2) h3 h4 h5
  · generalize ht : (s.write (txBase i) 0).withPlayout { s.playout with
      released := min 65535 (s.playout.released + 1), position := s.playout.position + s.ahead i s.playout.position + 1 } = t
    have tp : t.playout.position = s.playout.position + s.ahead i s.playout.position + 1 := by rw [← ht]; rfl
    have tr : ∀ a, t.read a = (s.write (txBase i) 0).read a := fun a => by rw [← ht]; rfl
    have hct : ∀ j p, t.counts tag p j = true ↔ t.read (txBase j) = 1 ∧ t.read (txBase j + 1) = tag ∧ t.ahead j p ≤ 63 := by
      intro j p; unfold State.counts
      rw [Bool.and_eq_true, Bool.and_eq_true, beq_iff_eq, beq_iff_eq, decide_eq_true_iff, and_assoc]
    have ta : ∀ j p, t.ahead j p = s.ahead j p := fun j p => by
      unfold State.ahead; rw [tr, hb _ 2 (by decide) (by decide)]
    have sub : ∀ j ∈ (List.range 64).filter (s.counts tag s.playout.position), j ≠ i →
        j ∈ (List.range 64).filter (t.counts tag t.playout.position) := by
      intro j hj hji
      rw [List.mem_filter, List.mem_range] at hj ⊢
      refine ⟨hj.1, (hct _ _).2 ?_⟩
      obtain ⟨j1, j2, j3⟩ := (hcs _ _).1 hj.2
      obtain ⟨i1, i2, i3⟩ := (hcs _ _).1 hc
      have hle := hmin j hj.1 hj.2
      have hne : s.ahead i s.playout.position ≠ s.ahead j s.playout.position := by
        intro he
        refine hji (hd j i hj.1 hi j1 i1 j2 i2 ?_)
        unfold State.ahead at he
        have := BitVec.eq_of_toNat_eq he
        bv_omega
      refine ⟨by rw [tr, hr, if_neg hji]; exact j1, by rw [tr, hb _ 1 (by decide) (by decide)]; exact j2, ?_⟩
      rw [ta, tp, ahead_past s j _ _ (by omega)]
      omega
    unfold State.depthOf
    have hnd : ((List.range 64).filter (s.counts tag s.playout.position)).Nodup := List.nodup_range.filter _
    have h1 : ((List.range 64).filter (s.counts tag s.playout.position)).length ≤
        (i :: (List.range 64).filter (t.counts tag t.playout.position)).length := by
      refine List.Subperm.length_le (hnd.subperm fun j hj => ?_)
      by_cases hji : j = i
      · subst hji; exact List.mem_cons_self ..
      · exact List.mem_cons_of_mem _ (sub j hj hji)
    simpa using h1

theorem recentres_depth {tag : Word} {s t : State} (h : Recentres tag s t) : s.memoryLaw → distinctBlocks s tag →
    s.params.prebufferTarget ≤ s.depthOf tag s.playout.position →
    t.depthOf tag t.playout.position = s.params.prebufferTarget ∧ t.params = s.params := by
  induction h with
  | done u h => exact fun _ _ h' => ⟨Nat.le_antisymm h h', rfl⟩
  | round u w v h first rest ih =>
    intro hs hd _
    obtain ⟨a, b, c, d⟩ := freesNearest_depth hs hd first
    obtain ⟨e, f⟩ := ih a b (by rw [c]; omega)
    exact ⟨by rw [e, c], by rw [f, c]⟩

theorem recentres_slip {tag : Word} {s t : State} (h : Recentres tag s t) : t.playout.slip = s.playout.slip := by
  induction h with
  | done => rfl
  | round u w v _ f _ ih => obtain ⟨i, _, _, _, rfl⟩ := f; exact ih

/-- The depth at a boundary after its case, by the places as they stood before. -/
theorem depthOf_after {s w : State} {tag : Word} (hs : s.memoryLaw)
    (hm : w.mem = s.mem.write (txBase (s.playout.position % 64)) 0 ∨
      (w.mem = s.mem ∧ s.read (txBase (s.playout.position % 64)) ≠ 1)) (p : Nat) :
    w.depthOf tag p = ((List.range 64).filter fun i => i != s.playout.position % 64 && s.counts tag p i).length := by
  unfold State.depthOf
  congr 1
  refine List.filter_congr fun j _ => ?_
  have hr : ∀ k, k < 168 → 0 < k → w.read (txBase j + k) = s.read (txBase j + k) := fun k h1 h2 => by
    rcases hm with h | ⟨h, _⟩
    · rw [State.read, h]; exact Memory.read_write_other _ _ _ _ (by simp only [txBase]; omega)
    · rw [State.read, h]; rfl
  unfold State.counts State.ahead
  rw [hr 1 (by decide) (by decide), hr 2 (by decide) (by decide)]
  by_cases hj : j = s.playout.position % 64
  · have : w.read (txBase j) ≠ 1 := by
      rcases hm with h | ⟨h, h'⟩
      · rw [State.read, h, hj, Memory.read_write_same _ _ _ hs]; decide
      · rw [State.read, h, hj]; exact h'
    rw [show (w.read (txBase j) == 1) = false from beq_eq_false_iff_ne.2 this, hj]; simp
  · have : w.read (txBase j) = s.read (txBase j) := by
      rcases hm with h | ⟨h, _⟩
      · rw [State.read, h]; exact Memory.read_write_other _ _ _ _ fun e => hj (txBase_inj e)
      · rw [State.read, h]; rfl
    rw [this, show (j != s.playout.position % 64) = true from bne_iff_ne.2 hj]; simp

theorem distinctBlocks_after {s w : State} {tag : Word} (hs : s.memoryLaw) (hd : distinctBlocks s tag)
    (hm : w.mem = s.mem.write (txBase (s.playout.position % 64)) 0 ∨
      (w.mem = s.mem ∧ s.read (txBase (s.playout.position % 64)) ≠ 1)) : distinctBlocks w tag := by
  have hr : ∀ j k, k < 168 → 0 < k → w.read (txBase j + k) = s.read (txBase j + k) := fun j k h1 h2 => by
    rcases hm with h | ⟨h, _⟩
    · rw [State.read, h]; exact Memory.read_write_other _ _ _ _ (by simp only [txBase]; omega)
    · rw [State.read, h]; rfl
  have h1 : ∀ j, w.read (txBase j) = 1 → s.read (txBase j) = 1 := fun j hj => by
    rcases hm with h | ⟨h, _⟩
    · by_cases hjj : j = s.playout.position % 64
      · rw [State.read, h, hjj, Memory.read_write_same _ _ _ hs] at hj; exact absurd hj (by decide)
      · rw [State.read, h, Memory.read_write_other _ _ _ _ fun e => hjj (txBase_inj e)] at hj; exact hj
    · rw [State.read, h] at hj; exact hj
  intro i j hi hj a b c d e
  rw [hr i 1 (by decide) (by decide)] at c
  rw [hr j 1 (by decide) (by decide)] at d
  rw [hr i 2 (by decide) (by decide), hr j 2 (by decide) (by decide)] at e
  exact hd i j hi hj (h1 i a) (h1 j b) c d e

theorem countsDepth_target {tag : Word} {w v : State} (h : CountsDepth tag true w v) (hw : w.memoryLaw) (hd : distinctBlocks w tag)
    (hmax : w.params.maxDepth < w.depthOf tag w.playout.position) (ht : w.params.prebufferTarget < w.params.maxDepth) :
    v.playout.depth = w.params.prebufferTarget ∧ v.playout.slip = min 65535 (w.playout.slip + 1) := by
  obtain ⟨x, h1, h2⟩ := h
  rw [if_pos ⟨rfl, hmax⟩] at h1
  obtain ⟨y, h3, h4⟩ := h1
  obtain ⟨a, b⟩ := recentres_depth h3 hw hd (by omega)
  have c := recentres_slip h3
  rw [h2, h4]
  exact ⟨a, by show min 65535 (y.playout.slip + 1) = _; rw [c]⟩

/-! ## The whole boundary (R93) -/

/-- The three rows of a boundary are one event. -/
theorem boundary_exec {s : State} {n : Nat} {g : Grant} {c : Instr} (hg : s.key.grant = some g)
    (hn : s.comesNext State.boundaryLeft n)
    (hc : c = .blockBoundary ∨ (c = .audioLost ∧ boundaryLosesAudio s = true) ∨
      (c = .drainLimit ∧ boundaryReachesDrainLimit s = true)) :
    exec c s = .next (event boundaryEvent (s.passTime n)) ∧
      boundaryEvent (s.passTime n) = boundaryOf (g.passTime n) (s.passTime n) ∧ (g.state = .keyed ∨ g.state = .drain) := by
  have hst : g.state = .keyed ∨ g.state = .drain := by
    have := hn.1
    simp only [State.boundaryLeft, hg, Option.bind_some] at this
    by_contra h
    rw [if_neg h] at this; cases this
  refine ⟨?_, ?_, hst⟩
  · rcases hc with rfl | ⟨rfl, h⟩ | ⟨rfl, h⟩
    · show Host.Outcome.next (timed _ _ _) = _; rw [timed_next hn]
    · show Host.Outcome.next (if boundaryLosesAudio s then timed _ _ _ else _) = _; rw [if_pos h, timed_next hn]
    · show Host.Outcome.next (if boundaryReachesDrainLimit s then timed _ _ _ else _) = _; rw [if_pos h, timed_next hn]
  · unfold boundaryEvent
    rw [passTime_grant n hg]
    exact if_pos hst

/-- A boundary that plays a block. -/
theorem boundary_play (g : Grant) (s : State) (hs : s.memoryLaw) (hh : s.holdsBlock g.tag) :
    ∃ w, PlaysBlock g s w ∧
      if g.state = .drain then DrainsOn g false w (boundaryOf g s) else CountsDepth g.tag true w (boundaryOf g s) := by
  refine ⟨_, playBlock_spec g s, ?_⟩
  have he : boundaryOf g s =
      finishBoundary g false (playBlock g (s.withPlayout { s.playout with boundary := some (ms 20) })).advance :=
    if_pos ((classify_spec s g.tag).1.2 hh)
  rw [he]
  refine finishBoundary_spec g false _ ?_
  rw [State.memoryLaw, (playBlock_spec g s).2.1]
  exact Memory.write_wf _ _ _ hs

theorem reachesDrainLimit_iff {s : State} {g : Grant} (hg : s.key.grant = some g) :
    boundaryReachesDrainLimit s = true ↔ g.state = .drain ∧ s.params.drainLimit ≤ s.playout.drainCount + 1 := by
  unfold boundaryReachesDrainLimit; rw [hg]; simp

end Sys2Proof.Machine
end

