-- ==== Sys2Proof/Laws/Moves.lean ====
section
/-! SUPPORT. Every change of the queue notifies each session whose position it changes (R39, R41, R51), and what has been notified
comes out of the event as a rewrite with NEWS (R33). -/

set_option Elab.async false

namespace Sys2Proof.Machine

theorem Floor.positionOf_congr {f g : Floor} (h : g.queue = f.queue) (n : Slot) : g.positionOf n = f.positionOf n := by
  unfold Floor.positionOf; rw [h]

/-- Where neither the queue nor a count of notices changes, there is nothing to notify. -/
theorem Floor.Notifies.of_same {f g : Floor} (hq : g.queue = f.queue) (hn : g.positionNotices = f.positionNotices) :
    Floor.Notifies f g := fun k => ⟨by rw [hn], fun h => absurd (Floor.positionOf_congr hq k) h⟩

theorem Floor.Notifies.trans {f g h : Floor} (h1 : Floor.Notifies f g) (h2 : Floor.Notifies g h) : Floor.Notifies f h := fun k => by
  obtain ⟨a1, a2⟩ := h1 k
  obtain ⟨b1, b2⟩ := h2 k
  refine ⟨a1.trans b1, fun hm => ?_⟩
  by_cases hk : g.positionOf k = f.positionOf k
  · have := b2 fun e => hm (e.trans hk); omega
  · have := a2 hk; omega

theorem Floor.notifies_withQueue (f : Floor) (q : List Entry) : Floor.Notifies f (f.withQueue q) := fun k =>
  ⟨f.withQueue_notices_le q k, fun h => by rw [Floor.withQueue_notices, if_neg h]; omega⟩

theorem Floor.notifies_without (f : Floor) (n : Slot) : Floor.Notifies f (f.without n) := f.notifies_withQueue _

/-- A frame without the Floor Arbiter notifies nobody. -/
theorem OnlyChanges.notifies {ps : List Part} {s t : State} (h : OnlyChanges ps s t) (hd : Part.floor ∉ ps := by decide) :
    Floor.Notifies s.floor t.floor := by
  have hf : t.floor = s.floor := h .floor hd
  exact .of_same (by rw [hf]) (by rw [hf])

theorem joinQueue_notifies (e : Entry) (s : State) : Floor.Notifies s.floor (joinQueue e s).floor :=
  (s.floor.notifies_withQueue _).trans (.of_same rfl rfl)

theorem removeEntry_notifies (s : State) (n : Slot) : Floor.Notifies s.floor (s.removeEntry n).floor := by
  rw [(removeEntry_spec s n).1]; exact s.floor.notifies_without n

theorem departEntry_notifies (n : Slot) (r : EndReason) (s : State) : Floor.Notifies s.floor (departEntry n r s).floor := by
  rw [(departEntry_spec n r s).1]; exact s.floor.notifies_without n

theorem clearQueue_notifies (r : EndReason) (s : State) : Floor.Notifies s.floor (clearQueue r s).floor := by
  have : ∀ (l : List Entry) (t : State), Floor.Notifies t.floor (l.foldl (fun t e => departEntry e.session r t) t).floor := by
    intro l
    induction l with
    | nil => exact fun t => .of_same rfl rfl
    | cons e l ih => exact fun t => (departEntry_notifies _ _ _).trans (ih _)
  exact this _ s

theorem openGrant_notifies (s : State) : Floor.Notifies s.floor s.openGrant.floor := .of_same rfl rfl

theorem grantEntry_notifies (e : Entry) (s : State) : Floor.Notifies s.floor (grantEntry e s).floor := by
  unfold grantEntry
  extract_lets t0 src t
  have h : Floor.Notifies s.floor t.floor :=
    (s.floor.notifies_without e.session).trans (g := s.floor.without e.session) (.of_same rfl rfl)
  clear_value t
  exact h.trans (takeMemberGrant_frame _ _ _ _ _).notifies

theorem grantIdent_notifies (s : State) : Floor.Notifies s.floor (grantIdent s).1.floor := by
  unfold grantIdent
  split
  · exact .of_same rfl rfl
  · exact (openGrant_notifies s).trans (takeIdentGrant_frame _ _ _).notifies

theorem tryEntries_notifies (skip : State → Entry → Bool) (l : List Entry) :
    ∀ s, Floor.Notifies s.floor (tryEntries skip l s).1.floor := by
  induction l with
  | nil => exact fun s => .of_same rfl rfl
  | cons e l ih =>
    intro s
    unfold tryEntries
    split
    · exact ih s
    · split
      · exact grantEntry_notifies e s
      · exact (departEntry_notifies _ _ _).trans (ih _)
      · exact (departEntry_notifies _ _ _).trans (ih _)

/-- An arbitration notifies each session whose position it changes: those behind a departed or a granted entry, and those of these
entries themselves. -/
theorem arbitrate_notifies (s : State) : Floor.Notifies s.floor (arbitrate s).floor := by
  have hm : Floor.Notifies s.floor (tryMarked s).1.floor := tryEntries_notifies _ _ _
  have hi : ∀ t, Floor.Notifies t.floor (tryIdent t).1.floor := fun t => by
    unfold tryIdent
    split
    · exact grantIdent_notifies t
    · exact .of_same rfl rfl
  have hu : ∀ t, Floor.Notifies t.floor (tryUnmarked t).1.floor := fun t => by
    unfold tryUnmarked
    split
    · exact tryEntries_notifies _ _ _
    · exact .of_same rfl rfl
  unfold arbitrate
  split
  · exact .of_same rfl rfl
  · dsimp only
    split
    · exact hm
    · split
      · exact hm.trans (hi _)
      · exact (hm.trans (hi _)).trans (hu _)

/-- A session that has been sent a notice of its position has its record rewritten, with NEWS. -/
theorem Published.of_notice {s t : State} {k : Slot} (h : Published s t)
    (hn : s.floor.positionNotices[k] < t.floor.positionNotices[k]) :
    (t.session k).changeCount = (s.session k).changeCount + 2 ∧ t.bus.news.getLsbD k.val = true := by
  have hne : t.newsState k ≠ s.newsState k := fun e => by
    have : t.floor.positionNotices[k] = s.floor.positionNotices[k] := congrArg Prod.snd e
    omega
  have h' := h k
  unfold PublishedFor at h'
  rw [if_neg fun e => hne (newsState_congr e)] at h'
  exact ⟨h'.1, by rw [h'.2.2.2, decide_eq_true hne, Bool.or_true]⟩

/-- A change of the queue on the way of a published event comes out as NEWS, whatever the event does to the queue after it. -/
theorem Published.newsOfMoved {f g : Floor} {s t : State} (h : Published s t) (h1 : Floor.Notifies s.floor f)
    (h2 : Floor.Notifies f g) (h3 : Floor.Notifies g t.floor) : NewsOfMoved f g s t := fun k hk => by
  refine h.of_notice ?_
  have a := (h1 k).1
  have b := (h2 k).2 hk
  have c := (h3 k).1
  omega

theorem ServesTo.newsOfMoved {c : Cell} {a : Answer} {ps : List Part} {P : Nat → Prop} {s v t : State} {f g : Floor}
    (h : ServesTo c a ps P s v t) (h1 : Floor.Notifies s.floor f) (h2 : Floor.Notifies f g) (h3 : Floor.Notifies g v.floor) :
    NewsOfMoved f g s t :=
  Published.newsOfMoved h.2.2.2.2.2.1 h1 h2 (h3.trans h.2.2.2.1.notifies)

theorem EventTo.newsOfMoved {ps : List Part} {P : Nat → Prop} {u v t : State} {f g : Floor} (h : EventTo ps P u v t)
    (h1 : Floor.Notifies u.floor f) (h2 : Floor.Notifies f g) (h3 : Floor.Notifies g v.floor) : NewsOfMoved f g u t :=
  Published.newsOfMoved h.2.2.2.2 h1 h2 (h3.trans h.2.2.1.notifies)

end Sys2Proof.Machine
end

