-- ==== Sys2Proof/Laws/Notices.lean ====
section
/-! SUPPORT. What the notices do, with the ends of a session, the causes a grant takes, identification falling due, and the
identification's envelope. -/

set_option Elab.async false

namespace Sys2Proof.Machine

theorem applyCause_lost (g : Grant) (r : EndReason) (s : State) (hs : s.memoryLaw) (hc : causeClass r = .abrupt) (m : MemberIx) :
    ((applyCause g r s).member m).lostCount = (s.member m).lostCount := by
  have hu : ∀ g' : Grant, ((unkey g' s).member m).lostCount = (s.member m).lostCount := fun g' => by
    rw [(unkey_spec g' s hs).member m]; split <;> rfl
  have hp : ((preKeyEnd g r s).member m).lostCount = (s.member m).lostCount := by
    rw [State.member, (preKeyEnd_spec g r s hs).1.members]; rfl
  unfold applyCause
  rw [hc]
  cases hst : g.state <;> dsimp only <;> first | exact hp | exact hu _

theorem endGrantOf_lost (n : Slot) (r : EndReason) (s : State) (hs : s.memoryLaw) (hc : causeClass r = .abrupt) (m : MemberIx) :
    ((endGrantOf n r s).member m).lostCount = (s.member m).lostCount := by
  unfold endGrantOf takeCause
  split
  · rfl
  · split
    · rfl
    · split
      · exact applyCause_lost _ _ _ hs hc m
      · rfl

theorem dueThen_frame (c : Bool) (u : State) : OnlyChanges arbitrationParts u (dueThenArbitrate c u) := by
  have h : OnlyChanges arbitrationParts u (u.makeDue c) := .ite (withIdent_frame (by decide)) (.refl _ _)
  unfold dueThenArbitrate
  exact .ite (OnlyChanges.after (arbitrate_frame _) h) h

theorem dueThen_stores {P : Nat → Prop} (c : Bool) (u : State) : Stores P u (dueThenArbitrate c u) := by
  unfold dueThenArbitrate
  exact .ite (Stores.after (arbitrate_stores _) (makeDue_stores _ _)) (makeDue_stores _ _)

theorem dueThen_spec (u : State) (h : u.memoryLaw) : ReconsidersIdent u (dueThenArbitrate u.ident.owed u) := by
  unfold ReconsidersIdent
  dsimp only
  have hm : (u.ident.owed = true ∧ u.params.idTextEmpty = false ∧ u.ident.due = false) ↔
      (u.ident.owed && !u.params.idTextEmpty && !u.ident.due) = true := by
    simp [and_assoc]
  refine ⟨fun hc => ?_, fun hc => ?_⟩
  · have e : u.makeDue u.ident.owed = u.withIdent { u.ident with due := true } := if_pos (hm.1 hc)
    unfold dueThenArbitrate
    dsimp only
    rw [e, if_pos]
    · exact arbitrate_spec _ h
    · show (true && !u.ident.due) = true
      rw [hc.2.2]; rfl
  · have e : u.makeDue u.ident.owed = u := if_neg fun x => hc (hm.2 x)
    unfold dueThenArbitrate
    dsimp only
    rw [e, if_neg]
    cases u.ident.due <;> simp

theorem firstEnded_split : ∀ (front rest : List Notice) (x : Notice), isEnded x = true → front.any isEnded = false →
    firstEnded (front ++ x :: rest) = some x ∧ (front ++ x :: rest).erase x = front ++ rest := by
  intro front rest x hx
  induction front with
  | nil => intro _; cases x <;> simp_all [firstEnded, isEnded]
  | cons y ys ih =>
    intro h
    simp only [List.any_cons, Bool.or_eq_false_iff] at h
    obtain ⟨i1, i2⟩ := ih h.2
    have hne : y ≠ x := fun e => by rw [e, hx] at h; exact absurd h.1 (by decide)
    refine ⟨?_, ?_⟩
    · cases y <;> simp_all [firstEnded, isEnded]
    · rw [List.cons_append, List.erase_cons_tail (by simpa using hne), i2]; rfl

theorem requeue_iff (u : State) (k : GrantKind) (r : EndReason) (e : Entry) :
    u.requeueEntry k r = some e ↔ ∃ x left, u.claimLivesOn k r x left ∧ e =
      { session := x.session, member := x.member, channel := x.channel
        priority := if (u.member x.member).controlOperator then 3 else (u.member x.member).priority
        arrival := 0, retries := some left, marked := false } := by
  unfold State.requeueEntry State.claimLivesOn
  split
  · rename_i g hg
    split
    · rename_i left hr
      constructor
      · intro h
        split at h
        · rename_i hc
          cases h
          exact ⟨g, left, ⟨rfl, rfl, hg, hr, hc.1, by simpa using hc.2⟩, rfl⟩
        · cases h
      · rintro ⟨x, l, ⟨-, -, h1, h2, h3, h4⟩, rfl⟩
        rw [hg] at h1; cases h1
        rw [hr] at h2; cases h2
        rw [if_pos ⟨h3, by rw [h4]; rfl⟩]; rfl
    · rename_i hr
      constructor
      · intro h; cases h
      · rintro ⟨x, l, ⟨-, -, h1, h2, h3, h4⟩, rfl⟩
        rw [hg] at h1; cases h1
        exact absurd h2 (hr l)
  · rename_i hno
    constructor
    · intro h; cases h
    · rintro ⟨x, l, ⟨rfl, rfl, h1, h2, h3, h4⟩, rfl⟩
      exact absurd h1 (hno x rfl rfl)

theorem slotOf_some {s : State} {m : MemberIx} {k : Slot} (hb : s.bindingLaw) (h1 : (s.session k).state ≠ .free)
    (h2 : (s.session k).member = some m) : s.slotOf m = some k := by
  unfold State.slotOf
  cases h : allSlots.find? (fun n => (s.session n).state != .free && (s.session n).member == some m) with
  | none =>
    have := List.find?_eq_none.1 h k (by unfold allSlots; exact List.mem_finRange k)
    simp [h1, h2] at this
  | some j =>
    have hj := List.find?_some h
    simp only [Bool.and_eq_true, bne_iff_ne, ne_eq, beq_iff_eq] at hj
    by_contra hne
    exact hb.2.2 j k (fun e => hne (by rw [e])) hj.1 h1 (by rw [hj.2, h2])

theorem slotOf_none {s : State} {m : MemberIx} (h : ∀ k, (s.session k).state ≠ .free → (s.session k).member ≠ some m) :
    s.slotOf m = none := by
  unfold State.slotOf
  rw [List.find?_eq_none]
  intro k _
  simp only [Bool.and_eq_true, bne_iff_ne, ne_eq, beq_iff_eq, not_and]
  exact h k

theorem slotOf_bound {s : State} {m : MemberIx} {k : Slot} (h : s.slotOf m = some k) :
    (s.session k).state ≠ .free ∧ (s.session k).member = some m := by
  have := List.find?_some h
  simpa using this

theorem privileged_iff (s : State) (m : MemberIx) (c : ChannelIx) :
    privileged (s.member m) (s.channel c) c = true ↔ s.mayKey m c := by
  unfold privileged State.mayKey
  simp [and_assoc]

/-- The close of session n (R22): the end of its service, from the state in which its record is FREE. -/
theorem closeSession_spec (n : Slot) (r : EndReason) (s : State) (hs : s.memoryLaw) (hp : s.pttLaw) (hc : causeClass r = .abrupt) :
    EndsService n r (s.withSession n { s.session n with state := .free, member := none, deadline := none }) (closeSession n r s) ∧
    ((closeSession n r s).session n).state = .free ∧ ((closeSession n r s).session n).member = none ∧
    ((closeSession n r s).session n).deadline = none := by
  obtain ⟨x, hx⟩ : ∃ x : State, x = s.withSession n { s.session n with state := .free, member := none, deadline := none } := ⟨_, rfl⟩
  have hn : x.session n = { s.session n with state := .free, member := none, deadline := none } := by
    rw [hx, State.withSession_session, if_pos rfl]
  have he : closeSession n r s = departEntry n r (endGrantOf n r x) := by rw [hx]; rfl
  obtain ⟨h1, h2, h3, h4⟩ := endService_spec n r x (by rw [hx]; exact hs) (by rw [hx]; exact hp) hc
  rw [he, ← hx]
  refine ⟨h1, ?_, ?_, ?_⟩
  · rw [h2, hn]
  · rw [h3, hn]
  · rw [h4 (by rw [hn]; exact fun h => by cases h), hn]

theorem abrupt_privileges (g : Grant) (s : State) (hs : s.memoryLaw) (m : MemberIx) :
    let v := applyCause g .revoked s
    (v.member m).present = (s.member m).present ∧ (v.member m).permitted = (s.member m).permitted ∧ (v.member m).grade = (s.member m).grade := by
  have hu : ∀ g' : Grant, ((unkey g' s).member m).present = (s.member m).present ∧ ((unkey g' s).member m).permitted = (s.member m).permitted ∧ ((unkey g' s).member m).grade = (s.member m).grade := fun g' => by
    rw [(unkey_spec g' s hs).member m]; split <;> exact ⟨rfl, rfl, rfl⟩
  have hp : (preKeyEnd g .revoked s).member m = s.member m := by
    rw [State.member, (preKeyEnd_spec g _ s hs).1.members]; rfl
  dsimp only
  unfold applyCause causeClass
  cases hst : g.state <;> dsimp only <;> first | (rw [hp]; exact ⟨rfl, rfl, rfl⟩) | exact hu _

theorem clearQueue_spec (r : EndReason) (u : State) :
    (clearQueue r u).floor = u.floor.queue.foldl (fun f e => f.without e.session) u.floor ∧ (clearQueue r u).floor.queue = [] ∧
    (∀ k, (clearQueue r u).session k =
        if (u.entryOf k).isSome then { u.session k with lastEndReason := some r, lastEndTag := none } else u.session k) ∧
    (clearQueue r u).ident = (if u.floor.idle = true ∧ u.floor.queue ≠ [] then
        { u.ident with quiet := .running (8000 * u.params.idEndDelay) } else u.ident) := by
  -- generalise over a suffix of the queue still to go
  have key : ∀ (l : List Entry) (v : State), v.params = u.params → v.floor.idle = u.floor.idle →
      (∀ e ∈ v.floor.queue, ∃ x ∈ l, x.session = e.session) →
      let w := l.foldl (fun t e => departEntry e.session r t) v
      w.floor = l.foldl (fun f e => f.without e.session) v.floor ∧ w.floor.queue = [] ∧
      (∀ k, w.session k = if (v.entryOf k).isSome ∧ (∃ x ∈ l, x.session = k) then { v.session k with lastEndReason := some r, lastEndTag := none } else v.session k) ∧
      w.ident = (if u.floor.idle = true ∧ v.floor.queue ≠ [] then
        { v.ident with quiet := .running (8000 * u.params.idEndDelay) } else v.ident) := by
    intro l
    induction l with
    | nil =>
      intro v hp hf hq
      have h0 : v.floor.queue = [] := by
        cases h : v.floor.queue with
        | nil => rfl
        | cons a b => obtain ⟨x, hx, -⟩ := hq a (by rw [h]; exact List.mem_cons_self); cases hx
      refine ⟨rfl, h0, fun k => ?_, ?_⟩
      · rw [if_neg]; · rfl
        rintro ⟨-, x, hx, -⟩; cases hx
      · rw [if_neg]; · rfl
        exact fun h => h.2 h0
    | cons e l ih =>
      intro v hp hf hq
      obtain ⟨d1, d2, d3, d4⟩ := departEntry_spec e.session r v
      have dp : (departEntry e.session r v).params = v.params := departEntry_frame _ _ _ .params (by decide)
      have hq' : (departEntry e.session r v).floor.queue = v.queueWithout e.session := by rw [d1]; rfl
      obtain ⟨i1, i0, i2, i3⟩ := ih (departEntry e.session r v) (dp.trans hp) (by rw [d1]; exact hf) (by
        intro x hx
        rw [hq'] at hx
        obtain ⟨y, hy, hyx⟩ := hq x (List.mem_filter.1 hx).1
        have hne : x.session ≠ e.session := by simpa using (List.mem_filter.1 hx).2
        cases hy with
        | head => exact absurd hyx.symm hne
        | tail _ h => exact ⟨y, h, hyx⟩)
      have hen : ∀ k, ((departEntry e.session r v).entryOf k).isSome = true ↔ (v.entryOf k).isSome = true ∧ k ≠ e.session := by
        intro k
        simp only [State.entryOf, hq', List.find?_isSome, State.queueWithout, List.mem_filter, beq_iff_eq, bne_iff_ne, ne_eq]
        constructor
        · rintro ⟨x, ⟨h1, h2⟩, rfl⟩; exact ⟨⟨x, h1, rfl⟩, h2⟩
        · rintro ⟨⟨x, h1, rfl⟩, h2⟩; exact ⟨x, ⟨h1, h2⟩, rfl⟩
      refine ⟨by rw [d1] at i1; exact i1, i0, fun k => ?_, ?_⟩
      · rw [List.foldl_cons, i2 k]
        by_cases hk : k = e.session
        · subst hk
          rw [if_neg (fun h => ((hen _).1 h.1).2 rfl), d2]
          by_cases hs : (v.entryOf e.session).isSome
          · rw [if_pos hs, if_pos ⟨hs, e, List.mem_cons_self, rfl⟩]
          · rw [if_neg hs, if_neg fun h => hs h.1]
        · rw [d3 k hk]
          by_cases hs : (v.entryOf k).isSome ∧ ∃ x ∈ l, x.session = k
          · rw [if_pos ⟨(hen k).2 ⟨hs.1, hk⟩, hs.2⟩, if_pos]
            obtain ⟨h1, x, hx, hxk⟩ := hs
            exact ⟨h1, x, List.mem_cons_of_mem _ hx, hxk⟩
          · rw [if_neg (fun h => hs ⟨((hen k).1 h.1).1, h.2⟩), if_neg]
            rintro ⟨h1, x, hx, hxk⟩
            cases hx with
            | head => exact hk hxk.symm
            | tail _ hx => exact hs ⟨h1, x, hx, hxk⟩
      · rw [List.foldl_cons, i3, d4, hq']
        have hidle : v.floor.idle = u.floor.idle := hf
        by_cases hi : u.floor.idle = true
        · by_cases he : (v.entryOf e.session).isSome = true
          · have hne : v.floor.queue ≠ [] := by
              intro h; unfold State.entryOf at he; rw [h] at he; cases he
            rw [if_pos (show u.floor.idle = true ∧ v.floor.queue ≠ [] from ⟨hi, hne⟩), if_pos he]
            unfold quietAfter
            by_cases hw : v.queueWithout e.session = []
            · rw [if_neg (fun h => h.2 hw), if_pos ⟨hidle.trans hi, hw⟩, hp]
            · rw [if_pos ⟨hi, hw⟩]
          · have hw : v.queueWithout e.session = v.floor.queue := queueWithout_none (by simpa using he)
            rw [if_neg he, hw]
        · rw [if_neg (fun h : u.floor.idle = true ∧ v.queueWithout e.session ≠ [] => hi h.1), if_neg (fun h : u.floor.idle = true ∧ v.floor.queue ≠ [] => hi h.1)]
          split
          · unfold quietAfter
            rw [if_neg (fun h => hi (hidle ▸ h.1))]
          · rfl
  obtain ⟨k1, k0, k2, k3⟩ := key u.floor.queue u rfl rfl (fun e he => ⟨e, he, rfl⟩)
  refine ⟨k1, k0, fun k => ?_, k3⟩
  rw [show clearQueue r u = u.floor.queue.foldl (fun t e => departEntry e.session r t) u from rfl, k2 k]
  by_cases hs : (u.entryOf k).isSome = true
  · rw [if_pos hs, if_pos]
    refine ⟨hs, ?_⟩
    have h2 := hs
    unfold State.entryOf at h2
    rw [List.find?_isSome] at h2
    obtain ⟨x, hx, hxk⟩ := h2
    exact ⟨x, hx, by simpa using hxk⟩
  · rw [if_neg hs, if_neg fun h => hs h.1]

def lastTone (tail : Bool) (front : List PatternPart) : Bool := (front.getLast?.map (·.tone)).getD tail

theorem envelope_at (unit : Nat) (x : PatternPart) (back : List PatternPart) (j : Nat) (hj : j < x.units * unit) :
    ∀ (front : List PatternPart) (tail : Bool), envelope unit tail (front ++ x :: back) (patternUnits front * unit + j) =
      if x.tone then some (if j < 32 then 4 * (16 - j / 2) else 0)
      else if lastTone tail front && decide (j < 32) then some (4 * (j / 2 + 1)) else none := by
  intro front
  induction front with
  | nil =>
    intro tail
    simp only [List.nil_append, patternUnits, Nat.zero_mul, Nat.zero_add]
    unfold envelope
    rw [if_pos hj]
    rfl
  | cons p rest ih =>
    intro tail
    rw [List.cons_append]
    unfold envelope
    have e : patternUnits (p :: rest) * unit + j = p.units * unit + (patternUnits rest * unit + j) := by
      simp only [patternUnits]; rw [Nat.add_mul, Nat.add_assoc]
    rw [e, if_neg (by omega), Nat.add_sub_cancel_left, ih p.tone]
    congr 2
    unfold lastTone
    cases rest with
    | nil => rfl
    | cons q r => rw [List.getLast?_cons_cons, List.getLast?_eq_some_getLast (l := q :: r) (by simp)]; rfl

end Sys2Proof.Machine
end

