-- ==== Sys2Proof/Laws/PerInstr.lean ====
section
/-! SUPPORT. What well-formedness says of each command's operands, one lemma per constructor (LAWS.json, family Operands). -/

set_option Elab.async false

namespace Sys2Proof.Laws.Operands

/-- The operands a command's row can carry: a CONTROL write by the bits that name its row (R168), the addresses of the two address
rows (R160, R168), and an end cause that is sent as a notice, with a grant tag (R50, R80, R136). Every other row takes every
operand. -/
def Statement (i : Instr) : Prop :=
  i.wellFormed = true ↔
    (∀ v, i = .stationCellCall v → v.getLsbD 0 = true ∧ v.getLsbD 15 = false) ∧
    (∀ v, i = .interruptEnableWrite v → v.getLsbD 0 = false ∧ v.getLsbD 15 = false) ∧
    (∀ v, i = .softReset v → v.getLsbD 15 = true) ∧
    (∀ a v, i = .readOnlyRegisterWrite a v → a = 0x8000 ∨ a = 0x8001 ∨ a = 0x8004 ∨ a = 0x8005 ∨ 0x8007 < a.toNat) ∧
    (∀ a v, i = .hostMemoryWrite a v → a.toNat < 0x8000) ∧
    (∀ t r, i = .endCause t r → t ≠ 0 ∧
      (r = .preempted ∨ r = .killed ∨ r = .fault ∨ r = .disabled ∨ r = .stopped))

/-- A row that takes every operand, and none of the six that do not. -/
theorem of_plain {i : Instr} (h : i.wellFormed = true) (h1 : ∀ v, i ≠ .stationCellCall v) (h2 : ∀ v, i ≠ .interruptEnableWrite v)
    (h3 : ∀ v, i ≠ .softReset v) (h4 : ∀ a v, i ≠ .readOnlyRegisterWrite a v) (h5 : ∀ a v, i ≠ .hostMemoryWrite a v)
    (h6 : ∀ t r, i ≠ .endCause t r) : Statement i :=
  ⟨fun _ => ⟨fun v e => absurd e (h1 v), fun v e => absurd e (h2 v), fun v e => absurd e (h3 v),
    fun a v e => absurd e (h4 a v), fun a v e => absurd e (h5 a v), fun t r e => absurd e (h6 t r)⟩, fun _ => h⟩

theorem nop : Statement .nop := of_plain rfl nofun nofun nofun nofun nofun nofun
theorem start : Statement .start := of_plain rfl nofun nofun nofun nofun nofun nofun
theorem stop (causeNow : Bool) : Statement (.stop causeNow) := of_plain rfl nofun nofun nofun nofun nofun nofun
theorem holdFloor : Statement .holdFloor := of_plain rfl nofun nofun nofun nofun nofun nofun
theorem resumeFloor : Statement .resumeFloor := of_plain rfl nofun nofun nofun nofun nofun nofun
theorem setStation : Statement .setStation := of_plain rfl nofun nofun nofun nofun nofun nofun
theorem setMember : Statement .setMember := of_plain rfl nofun nofun nofun nofun nofun nofun
theorem readMember : Statement .readMember := of_plain rfl nofun nofun nofun nofun nofun nofun
theorem setChannel : Statement .setChannel := of_plain rfl nofun nofun nofun nofun nofun nofun
theorem readChannel : Statement .readChannel := of_plain rfl nofun nofun nofun nofun nofun nofun
theorem refill : Statement .refill := of_plain rfl nofun nofun nofun nofun nofun nofun
theorem openSession : Statement .openSession := of_plain rfl nofun nofun nofun nofun nofun nofun
theorem closeSession : Statement .closeSession := of_plain rfl nofun nofun nofun nofun nofun nofun
theorem clearLockout : Statement .clearLockout := of_plain rfl nofun nofun nofun nofun nofun nofun
theorem kill (causeNow : Bool) : Statement (.kill causeNow) := of_plain rfl nofun nofun nofun nofun nofun nofun
theorem detectorHold : Statement .detectorHold := of_plain rfl nofun nofun nofun nofun nofun nofun
theorem detectorRelease : Statement .detectorRelease := of_plain rfl nofun nofun nofun nofun nofun nofun
theorem keepalive : Statement .keepalive := of_plain rfl nofun nofun nofun nofun nofun nofun
theorem key : Statement .key := of_plain rfl nofun nofun nofun nofun nofun nofun
theorem release : Statement .release := of_plain rfl nofun nofun nofun nofun nofun nofun
theorem preempt (causeNow : Bool) : Statement (.preempt causeNow) := of_plain rfl nofun nofun nofun nofun nofun nofun
theorem eject : Statement .eject := of_plain rfl nofun nofun nofun nofun nofun nofun
theorem killFromSession (causeNow : Bool) : Statement (.killFromSession causeNow) :=
  of_plain rfl nofun nofun nofun nofun nofun nofun
theorem clearLockoutFromSession : Statement .clearLockoutFromSession := of_plain rfl nofun nofun nofun nofun nofun nofun
theorem holdFloorFromSession : Statement .holdFloorFromSession := of_plain rfl nofun nofun nofun nofun nofun nofun
theorem resumeFloorFromSession : Statement .resumeFloorFromSession := of_plain rfl nofun nofun nofun nofun nofun nofun
theorem undefinedRequest : Statement .undefinedRequest := of_plain rfl nofun nofun nofun nofun nofun nofun
theorem attentionWrite (value : Word) : Statement (.attentionWrite value) := of_plain rfl nofun nofun nofun nofun nofun nofun
theorem stationCellCall (value : Word) : Statement (.stationCellCall value) := by
  refine ⟨fun h => ⟨?_, nofun, nofun, nofun, nofun, nofun⟩, fun h => ?_⟩
  · rintro v ⟨⟩
    exact ⟨(Bool.and_eq_true_iff.1 h).1, by simpa using (Bool.and_eq_true_iff.1 h).2⟩
  · have := h.1 value rfl
    show (value.getLsbD 0 && !value.getLsbD 15) = true
    rw [this.1, this.2]; rfl
theorem interruptEnableWrite (value : Word) : Statement (.interruptEnableWrite value) := by
  refine ⟨fun h => ⟨nofun, ?_, nofun, nofun, nofun, nofun⟩, fun h => ?_⟩
  · rintro v ⟨⟩
    exact ⟨by simpa using (Bool.and_eq_true_iff.1 h).1, by simpa using (Bool.and_eq_true_iff.1 h).2⟩
  · have := h.2.1 value rfl
    show (!value.getLsbD 0 && !value.getLsbD 15) = true
    rw [this.1, this.2]; rfl
theorem softReset (value : Word) : Statement (.softReset value) := by
  refine ⟨fun h => ⟨nofun, nofun, ?_, nofun, nofun, nofun⟩, fun h => h.2.2.1 value rfl⟩
  rintro v ⟨⟩
  exact h
theorem eventEnableWrite (value : Word) : Statement (.eventEnableWrite value) :=
  of_plain rfl nofun nofun nofun nofun nofun nofun
theorem eventsClear (value : Word) : Statement (.eventsClear value) := of_plain rfl nofun nofun nofun nofun nofun nofun
theorem answeredRead : Statement .answeredRead := of_plain rfl nofun nofun nofun nofun nofun nofun
theorem newsRead : Statement .newsRead := of_plain rfl nofun nofun nofun nofun nofun nofun
theorem readOnlyRegisterWrite (address value : Word) : Statement (.readOnlyRegisterWrite address value) := by
  have e : (Instr.readOnlyRegisterWrite address value).wellFormed = true ↔
      address = 0x8000 ∨ address = 0x8001 ∨ address = 0x8004 ∨ address = 0x8005 ∨ 0x8007 < address.toNat := by
    show readOnlyAddress address = true ↔ _
    simp only [readOnlyAddress, Bool.or_eq_true, beq_iff_eq, decide_eq_true_eq, or_assoc]
  refine ⟨fun h => ⟨nofun, nofun, nofun, ?_, nofun, nofun⟩, fun h => e.2 (h.2.2.2.1 address value rfl)⟩
  rintro a v ⟨⟩
  exact e.1 h
theorem hostMemoryWrite (address value : Word) : Statement (.hostMemoryWrite address value) := by
  refine ⟨fun h => ⟨nofun, nofun, nofun, nofun, ?_, nofun⟩, fun h => decide_eq_true (h.2.2.2.2.1 address value rfl)⟩
  rintro a v ⟨⟩
  exact of_decide_eq_true h
theorem hardwareReset : Statement .hardwareReset := of_plain rfl nofun nofun nofun nofun nofun nofun
theorem resetRelease : Statement .resetRelease := of_plain rfl nofun nofun nofun nofun nofun nofun
theorem startUpClearingDone : Statement .startUpClearingDone := of_plain rfl nofun nofun nofun nofun nofun nofun
theorem txfaultChange (high causeNow : Bool) : Statement (.txfaultChange high causeNow) :=
  of_plain rfl nofun nofun nofun nofun nofun nofun
theorem disableAssert (causeNow : Bool) : Statement (.disableAssert causeNow) :=
  of_plain rfl nofun nofun nofun nofun nofun nofun
theorem disableReleaseBegin : Statement .disableReleaseBegin := of_plain rfl nofun nofun nofun nofun nofun nofun
theorem releaseTimerExpiry : Statement .releaseTimerExpiry := of_plain rfl nofun nofun nofun nofun nofun nofun
theorem adcSample (sample : Word) (cosHigh : Bool) : Statement (.adcSample sample cosHigh) :=
  of_plain rfl nofun nofun nofun nofun nofun nofun
theorem debounceComplete (sample : Word) (cosHigh : Bool) : Statement (.debounceComplete sample cosHigh) :=
  of_plain rfl nofun nofun nofun nofun nofun nofun
theorem captureBoundary (sample : Word) (cosHigh : Bool) : Statement (.captureBoundary sample cosHigh) :=
  of_plain rfl nofun nofun nofun nofun nofun nofun
theorem statusPageRewrite : Statement .statusPageRewrite := of_plain rfl nofun nofun nofun nofun nofun nofun
theorem courtesyExpiry : Statement .courtesyExpiry := of_plain rfl nofun nofun nofun nofun nofun nofun
theorem changeoverExpiry : Statement .changeoverExpiry := of_plain rfl nofun nofun nofun nofun nofun nofun
theorem busyWaitExpiry : Statement .busyWaitExpiry := of_plain rfl nofun nofun nofun nofun nofun nofun
theorem gap1Expiry : Statement .gap1Expiry := of_plain rfl nofun nofun nofun nofun nofun nofun
theorem gap2Expiry : Statement .gap2Expiry := of_plain rfl nofun nofun nofun nofun nofun nofun
theorem prebufferLimitExpiry : Statement .prebufferLimitExpiry := of_plain rfl nofun nofun nofun nofun nofun nofun
theorem blockBoundary : Statement .blockBoundary := of_plain rfl nofun nofun nofun nofun nofun nofun
theorem audioLost : Statement .audioLost := of_plain rfl nofun nofun nofun nofun nofun nofun
theorem drainLimit : Statement .drainLimit := of_plain rfl nofun nofun nofun nofun nofun nofun
theorem tailExpiry : Statement .tailExpiry := of_plain rfl nofun nofun nofun nofun nofun nofun
theorem accountingTick : Statement .accountingTick := of_plain rfl nofun nofun nofun nofun nofun nofun
theorem keyLimitReached : Statement .keyLimitReached := of_plain rfl nofun nofun nofun nofun nofun nofun
theorem keyLimitNotice (member : MemberIx) : Statement (.keyLimitNotice member) :=
  of_plain rfl nofun nofun nofun nofun nofun nofun
theorem receiverRecoveryExpiry : Statement .receiverRecoveryExpiry := of_plain rfl nofun nofun nofun nofun nofun nofun
theorem surveillanceExpiry (session : Slot) : Statement (.surveillanceExpiry session) :=
  of_plain rfl nofun nofun nofun nofun nofun nofun
theorem penaltyEnd (member : MemberIx) : Statement (.penaltyEnd member) := of_plain rfl nofun nofun nofun nofun nofun nofun
theorem intervalReached : Statement .intervalReached := of_plain rfl nofun nofun nofun nofun nofun nofun
theorem quietTimerExpiry : Statement .quietTimerExpiry := of_plain rfl nofun nofun nofun nofun nofun nofun
theorem idPatternStart : Statement .idPatternStart := of_plain rfl nofun nofun nofun nofun nofun nofun
theorem idPatternComplete : Statement .idPatternComplete := of_plain rfl nofun nofun nofun nofun nofun nofun
theorem qualificationExpiry (causeNow : Bool) : Statement (.qualificationExpiry causeNow) :=
  of_plain rfl nofun nofun nofun nofun nofun nofun
theorem endNotice : Statement .endNotice := of_plain rfl nofun nofun nofun nofun nofun nofun
theorem revocationNotice (member : MemberIx) : Statement (.revocationNotice member) :=
  of_plain rfl nofun nofun nofun nofun nofun nofun
theorem privilegeNotice (member : MemberIx) : Statement (.privilegeNotice member) :=
  of_plain rfl nofun nofun nofun nofun nofun nofun
theorem clearNotice (reason : ClearReason) : Statement (.clearNotice reason) := of_plain rfl nofun nofun nofun nofun nofun nofun
theorem endCause (tag : Word) (reason : EndReason) : Statement (.endCause tag reason) := by
  have e : (Instr.endCause tag reason).wellFormed = true ↔ tag ≠ 0 ∧
      (reason = .preempted ∨ reason = .killed ∨ reason = .fault ∨ reason = .disabled ∨ reason = .stopped) := by
    show (tag != 0 && reason.sentAsNotice) = true ↔ _
    rw [Bool.and_eq_true, bne_iff_ne]
    cases reason <;> simp [EndReason.sentAsNotice]
  refine ⟨fun h => ⟨nofun, nofun, nofun, nofun, nofun, ?_⟩, fun h => e.2 (h.2.2.2.2.2 tag reason rfl)⟩
  rintro t r ⟨⟩
  exact e.1 h

end Sys2Proof.Laws.Operands
end

