-- ==== Sys2Proof/Laws/Requests.lean ====
section
/-! SUPPORT. The requests: a request that has no effect but its answer, the gate before a session request, the control operator's
test, and which definition serves each session request. -/

set_option Elab.async false

namespace Sys2Proof.Machine

/-- A request whose body leaves the state alone only answers. -/
theorem only_answers {c : Cell} {body : State → State × Answer} {s : State} {a : Answer} (hs : s.memoryLaw) (hb : body s = (s, a))
    (hw : a.words.length ≤ 16) : OnlyAnswers c a s (event (serve c body) s) := by
  have h := serve_event (ps := []) (Q := noWord) (c := c) (body := body) (s := s) (by rw [hb]; exact .refl _ _)
    (by rw [hb]; exact hs) (by rw [hb]; exact .refl _ _) (by rw [hb]; exact hw) (by simp)
  rw [hb] at h
  exact ⟨h.1, h.2.1, h.2.2.2.2⟩

theorem noted_of {s t : State} {n : Slot} (ho : (s.session n).state = .opened)
    (h : ∀ k, (t.session k).uncounted = ((s.gated n).session k).uncounted) : Noted s t n := by
  refine ⟨?_, fun k hk => ?_⟩
  · rw [h, gated_session _ _ _ ho, if_pos rfl]; rfl
  · rw [h, gated_session _ _ _ ho, if_neg hk]

/-- A session request whose body leaves the gated state alone. -/
theorem only_noted {n : Slot} {body : State → State × Answer} {s : State} {a : Answer} (hs : s.memoryLaw)
    (ho : (s.session n).state = .opened) (hb : body (s.gated n) = (s.gated n, a)) (hw : a.words.length ≤ 16) :
    OnlyNotedAndAnswers n a s (event (serve n.cell (gate n body)) s) := by
  have hg : gate n body s = (s.gated n, a) := (gate_open ho).trans hb
  have h := serve_event (ps := [.sessions]) (Q := noWord) (c := n.cell) (body := gate n body) (s := s)
    (by rw [hg]; exact gated_frame s n) (by rw [hg]; show (s.gated n).mem.wf = true; rw [gated_mem]; exact hs)
    (by rw [hg]; exact .of_mem (gated_mem s n)) (by rw [hg]; exact hw)
  rw [hg] at h
  obtain ⟨h1, h2, -, h4, h5⟩ := h
  refine ⟨h1, noted_of ho (h4 .sessions (by decide)), h2, ?_⟩
  rw [h5, cellSlot_cell]; exact gated_frame s n .events (by decide)

/-- A request whose body takes `s` to `u` with the answer `a`. -/
theorem served_effect {ps : List Part} {Q : Nat → Prop} {body : State → State × Answer} {s u : State} {a : Answer}
    (c : Cell) (hb : body s = (u, a)) (hf : OnlyChanges ps s u) (hst : Stores Q s u) (hs : s.memoryLaw)
    (hw : a.words.length ≤ 16) (hd : ∀ p ∈ [Part.cells, .answered, .changeCounts, .news], p ∉ ps := by decide) :
    Served s (event (serve c body) s) c a ∧
    ServiceFrame c ps (fun x => Q x ∨ inFilled s x) s (event (serve c body) s) ∧
    OnlyChanges serviceParts u (event (serve c body) s) ∧
    (event (serve c body) s).bus.events =
      (match cellSlot c with | none => u.bus.events ||| bitWord 0 | some _ => u.bus.events) := by
  have h := serve_event (ps := ps) (c := c) (body := body) (s := s) (by rw [hb]; exact hf) (by rw [hb]; exact hst.law hs)
    (by rw [hb]; exact hst.kept hs) (by rw [hb]; exact hw) hd
  rw [hb] at h
  exact ⟨h.1, h.2.1, h.2.2.2.1, h.2.2.2.2⟩

theorem ServiceFrame.mono {c : Cell} {ps qs : List Part} {P Q : Nat → Prop} {s t : State} (h : ServiceFrame c ps P s t)
    (hp : ∀ p ∈ ps, p ∈ qs ++ serviceParts := by decide) (hQ : ∀ a, P a → Q a) : ServiceFrame c qs Q s t := by
  refine ⟨h.1.mono fun p hm => ?_, h.2.mono fun a ha => ?_⟩
  · rcases List.mem_append.1 hm with hm | hm
    · exact hp p hm
    · exact List.mem_append_right _ hm
  · rcases ha with ha | ha
    · exact .inl (hQ a ha)
    · exact .inr ha

/-! ## The control operator's test -/

theorem gated_operator {s : State} {n : Slot} : (s.gated n).isOperator n = s.isOperator n := by
  unfold State.isOperator
  have hm : (s.gated n).members = s.members := gated_frame s n .members (by decide)
  have : ((s.gated n).session n).member = (s.session n).member := by
    unfold State.gated State.noteRequest State.countNotice State.armDeadline; simp only []; split <;> simp
  rw [this]
  unfold State.memberOf State.member; rw [hm]

theorem isOperator_iff {s : State} {n : Slot} : s.isOperator n = true ↔ s.operatorSession n := by
  unfold State.isOperator State.operatorSession State.memberOf
  cases (s.session n).member with
  | none => simp [Member.reset]
  | some m => simp

theorem operatorOnly_gated {s : State} {n : Slot} {body : State → State × Answer} (h : s.operatorSession n) :
    operatorOnly n body (s.gated n) = body (s.gated n) :=
  if_pos (by rw [gated_operator]; exact isOperator_iff.2 h)

/-! ## The RELEASE that meets a timeout (R42, R76) -/

theorem timedOutNow_iff {s : State} {n : Slot} :
    s.timedOutNow n = true ↔ s.key.timedOut = some (n, s.periods) ∧ (s.session n).lastEndReason = some .timeout := by
  simp [State.timedOutNow]

/-- A session whose last end reason is not TIMEOUT meets none. -/
theorem timedOutNow_false {s : State} {n : Slot} (h : (s.session n).lastEndReason ≠ some .timeout) : s.timedOutNow n = false :=
  Bool.eq_false_iff.2 fun h' => h (timedOutNow_iff.1 h').2

/-- No timeout outlives a reopening of the slot (R21). -/
@[simp] theorem openSession_timedOutNow (n : Slot) (m : MemberIx) (s : State) : (openSession n m s).timedOutNow n = false :=
  timedOutNow_false (by simp [openSession, Session.reset])

/-- No timeout outlives the departure of a later entry of the session (R31, R39). -/
theorem departEntry_timedOutNow {n : Slot} {r : EndReason} {s : State} (h : (s.entryOf n).isSome) (hr : r ≠ .timeout) :
    (departEntry n r s).timedOutNow n = false :=
  timedOutNow_false (by rw [(departEntry_spec n r s).2.1, if_pos h]; simpa using hr)

/-- No timeout outlives the end of a later grant of the session (R31). -/
theorem endForSession_timedOutNow {n : Slot} {r : EndReason} {tag : Word} {s : State} (hr : r ≠ .timeout) :
    (s.endForSession n r tag).timedOutNow n = false :=
  timedOutNow_false (by simpa [State.endForSession] using hr)

/-! ## Every session request is served through the gate -/

theorem session_exec (s : State) (n : Slot) (r : Request) (now : Bool) (hr : r.ofSession = true) (h : s.serves n.cell r) :
    ∃ body : Slot → State → State × Answer, exec (r.command now) s = .next (event (serve n.cell (gate n (body n))) s) ∧
      (r.ofOperator = true → ∀ u : State, u.isOperator n = false → body n u = (u, .plain .notPermitted)) := by
  have hop : ∀ {b : State → State × Answer}, ∀ u : State, u.isOperator n = false →
      operatorOnly n b u = (u, .plain .notPermitted) := fun u hu => if_neg (by rw [hu]; decide)
  have hb : ∀ {q : Request} (b : Slot → State → State × Answer), s.serves n.cell q →
      sessionService q b s = event (serve n.cell (gate n (b n))) s := fun b hq => sessionService_eq hq
  cases r <;> try (cases hr)
  case keepalive =>
    refine ⟨keepaliveRequest, ?_, fun h => by cases h⟩
    show execKeepalive s = _
    unfold execKeepalive
    rw [hb _ h]
  case key =>
    refine ⟨keyRequest, ?_, fun h => by cases h⟩
    show execKey s = _
    unfold execKey
    rw [hb _ h]
  case release =>
    refine ⟨releaseRequest, ?_, fun h => by cases h⟩
    show execRelease s = _
    unfold execRelease
    rw [hb _ h]
  case preempt =>
    refine ⟨(preemptRequest now), ?_, fun _ u hu => if_pos (by rw [hu]; rfl)⟩
    show execPreempt now s = _
    unfold execPreempt
    rw [hb _ h]
  case eject =>
    refine ⟨ejectRequest, ?_, fun _ u hu => if_pos (by rw [hu]; rfl)⟩
    show execEject s = _
    unfold execEject
    rw [hb _ h]
  case killFromSession =>
    refine ⟨(fun n => operatorOnly n (killRequest now)), ?_, fun _ => hop⟩
    show execKillFromSession now s = _
    unfold execKillFromSession
    rw [hb _ h]
  case clearLockoutFromSession =>
    refine ⟨(fun n => operatorOnly n clearLockoutRequest), ?_, fun _ => hop⟩
    show execClearLockoutFromSession s = _
    unfold execClearLockoutFromSession
    rw [hb _ h]
  case holdFloorFromSession =>
    refine ⟨(fun n => operatorOnly n holdRequest), ?_, fun _ => hop⟩
    show execHoldFloorFromSession s = _
    unfold execHoldFloorFromSession
    rw [hb _ h]
  case resumeFloorFromSession =>
    refine ⟨(fun n => operatorOnly n resumeRequest), ?_, fun _ => hop⟩
    show execResumeFloorFromSession s = _
    unfold execResumeFloorFromSession
    rw [hb _ h]
  case undefinedRequest =>
    refine ⟨fun _ => refuse .badRequest, ?_, fun h => by cases h⟩
    have h0 : s.nextCell ≠ some 0 := by
      rw [h.2.1]; intro e; exact absurd (Option.some.inj e) (by simp [Slot.cell, Fin.succ_ne_zero])
    show execUndefinedRequest s = _
    unfold execUndefinedRequest
    rw [if_neg h0, hb _ h]

end Sys2Proof.Machine
end

