-- ==== Sys2Proof/Laws/Samples.lean ====
section
/-! SUPPORT. What a receive sample does: the figures it forms, what the Busy Detector reports of them (R111–R117), and what the
Receive Path adds (R108, R109). -/

set_option Elab.async false

namespace Sys2Proof.Machine

/-- The debounce in one equation (R116). -/
theorem debounceBy_eq (e : Detector) (p : Params) (raise : Bool) (count : Nat) (hc : count =
    (match e.run with | none => 0 | some k => if raise then k + 1 else k)) :
    e.debounceBy p raise = { e with
      debounced := if (e.rawBusy != e.debounced && decide (8 * p.debounce ≤ count)) = true then e.rawBusy else e.debounced
      run := if e.rawBusy = e.debounced ∨ (e.rawBusy != e.debounced && decide (8 * p.debounce ≤ count)) = true then
          none else some count } := by
  unfold Detector.debounceBy
  by_cases hr : e.rawBusy = e.debounced
  · rw [if_pos hr]; simp [hr]
  · rw [if_neg hr]
    have : (e.rawBusy != e.debounced) = true := by simpa using hr
    cases hrun : e.run with
    | none =>
      rw [hrun] at hc; dsimp only at hc ⊢; subst hc
      by_cases hd : 8 * p.debounce ≤ 0
      · simp only [if_pos hd, this, decide_eq_true hd, Bool.and_self, if_true, or_true]
      · simp only [if_neg hd, this, decide_eq_false hd, Bool.and_false, Bool.false_eq_true, if_false, or_false, if_neg hr]
    | some k =>
      rw [hrun] at hc; dsimp only at hc ⊢; subst hc
      by_cases hd : 8 * p.debounce ≤ if raise = true then k + 1 else k
      · simp only [if_pos hd, this, decide_eq_true hd, Bool.and_self, if_true, or_true]
      · simp only [if_neg hd, this, decide_eq_false hd, Bool.and_false, Bool.false_eq_true, if_false, or_false, if_neg hr]

/-- What DETECTOR HOLD leaves of the figures (R120). -/
theorem restart_eq (d : Detector) (p : Params) :
    let raw := p.cosUse && d.cos
    let count := d.run.getD 0
    let flips := raw != d.debounced && decide (8 * p.debounce ≤ count)
    d.restart p =
      { speech := 0, noise := 0, levelS := 0, levelN := 0, s0 := false, s1 := false, s2 := false, previousS1 := false,
        cos := d.cos, rawBusy := raw, debounced := if flips then raw else d.debounced,
        run := if raw = d.debounced ∨ flips then none else some count, holds := { d.holds with request := true } } := by
  intro raw count flips
  unfold Detector.restart
  dsimp only
  let d1 : Detector :=
    { d with
      speech := 0, noise := 0, levelS := 0, levelN := 0, s0 := false, s1 := false, s2 := false, previousS1 := false }
  have h1 : ({ d with speech := 0, noise := 0 } : Detector).formStatuses p = d1 := by
    unfold Detector.formStatuses hysteresisStatus; simp [d1]
  rw [h1]
  have h2 : d1.formRaw p = { d1 with rawBusy := raw } := by
    unfold Detector.formRaw Detector.selected; cases p.busySource <;> simp [d1, raw]
  rw [h2]
  rw [debounceBy_eq _ p false count (by show d.run.getD 0 = _; cases d.run <;> rfl)]

/-- What the report of new figures does (R117). -/
theorem reportDetector_spec (d : Detector) (s : State) (hs : s.memoryLaw) :
    ∃ w, w.detector = d ∧ OnlyChanges [.detector, .events] s w ∧
    w.bus.events = s.bus.events ||| (if d.s0 ≠ s.detector.s0 ∨ d.s1 ≠ s.detector.s1 ∨ d.s2 ≠ s.detector.s2 then
        bitWord 7 else 0) ||| (if d.debounced = s.detector.debounced then 0 else bitWord 6) ∧
    (if d.debounced = s.detector.debounced then reportDetector d s = w else MeetsBusyChange w (reportDetector d s)) := by
  have hx : ∃ x : State, x = (if d.s0 = s.detector.s0 ∧ d.s1 = s.detector.s1 ∧ d.s2 = s.detector.s2 then
      s.withDetector d else (s.withDetector d).raise .detectorChange) ∧ reportDetector d s = if d.debounced =
      s.detector.debounced then x else busyChange (x.raise .busyChange) := ⟨_, rfl, rfl⟩
  obtain ⟨x, hx, he⟩ := hx
  have hxd : x.detector = d := by rw [hx]; split <;> rfl
  have hxf : OnlyChanges [.detector, .events] s x := by
    rw [hx]; exact .ite withDetector_frame (.after raise_frame withDetector_frame)
  have hxe : x.bus.events = s.bus.events ||| (if d.s0 ≠ s.detector.s0 ∨ d.s1 ≠ s.detector.s1 ∨ d.s2 ≠ s.detector.s2 then
      bitWord 7 else 0) := by
    rw [hx]
    by_cases h : d.s0 = s.detector.s0 ∧ d.s1 = s.detector.s1 ∧ d.s2 = s.detector.s2
    · rw [if_pos h, if_neg (by simp [h.1, h.2.1, h.2.2])]; exact (BitVec.or_zero ..).symm
    · rw [if_neg h, if_pos (by by_contra hc; exact h (by simpa using hc))]; rfl
  rw [he]
  by_cases h : d.debounced = s.detector.debounced
  · simp only [if_pos h]
    exact ⟨x, hxd, hxf, by rw [hxe]; exact (BitVec.or_zero ..).symm, rfl⟩
  · simp only [if_neg h]
    refine ⟨x.raise .busyChange, hxd, .after raise_frame hxf, ?_, ?_⟩
    · show x.bus.events ||| _ = _; rw [hxe]; rfl
    · refine busyChange_spec _ ?_
      show x.mem.wf = true
      rw [show x.mem = s.mem from hxf .mem (by decide)]; exact hs

/-- What one evaluated sample makes of the figures (R112–R116). -/
theorem evaluate_eq (d : Detector) (p : Params) (x : Word) (high : Bool) :
    let target := 256 * min 32767 x.toInt.natAbs
    let toward := fun up down f => if f < target then f + (target - f) / 2 ^ up else f - (f - target) / 2 ^ down
    let speech := toward 3 (if p.decayCode = 0 then 3 else 9 + p.decayCode) d.speech
    let noise := if p.autoIntegrate = true ∧ d.previousS1 = true then d.noise else toward 16 16 d.noise
    let ls := speech / 2 ^ 15
    let ln := noise / 2 ^ 15
    let s0 := decide (ln < ls)
    let s1 := decide (ln + p.threshold < ls)
    let s2 := decide (ln + p.threshold + p.hysteresis < ls) ||
      (!decide (ls < max (ln + p.threshold - p.hysteresis) 1) && d.s2)
    let cos := high != p.cosLowActive
    let raw := (match p.busySource with | .s0 => s0 | .s1 => s1 | .s2 => s2) || (p.cosUse && cos)
    let count := match d.run with | none => 0 | some k => k + 1
    let flips := raw != d.debounced && decide (8 * p.debounce ≤ count)
    d.evaluate p x high =
      { speech := speech, noise := noise, levelS := ls, levelN := ln, s0 := s0, s1 := s1, s2 := s2, previousS1 := s1,
        cos := cos, rawBusy := raw, debounced := if flips then raw else d.debounced,
        run := if raw = d.debounced ∨ flips then none else some count, holds := d.holds } := by
  intro target toward speech noise ls ln s0 s1 s2 cos raw count flips
  have h0 : d.filter p x = { d with speech := speech, noise := noise } := by
    unfold Detector.filter
    have : (if (p.autoIntegrate && d.previousS1) = true then
        d.noise else filterStep 16 16 d.noise (Sys2Proof.Machine.target x)) = noise := by
      show _ = if p.autoIntegrate = true ∧ d.previousS1 = true then _ else _
      simp only [Bool.and_eq_true]; rfl
    rw [this]; rfl
  let d1 : Detector :=
    { d with speech := speech, noise := noise, levelS := ls, levelN := ln, s0 := s0, s1 := s1, s2 := s2, previousS1 := s1 }
  have h1 : (d.filter p x).formStatuses p = d1 := by
    rw [h0]; unfold Detector.formStatuses
    have : hysteresisStatus p ls ln d.s2 = s2 := by
      unfold hysteresisStatus
      show _ = (decide (ln + p.threshold + p.hysteresis < ls) ||
          (!decide (ls < max (ln + p.threshold - p.hysteresis) 1) && d.s2))
      by_cases a : ln + p.threshold + p.hysteresis < ls
      · rw [if_pos a, decide_eq_true a, Bool.true_or]
      · rw [if_neg a, decide_eq_false a, Bool.false_or]
        by_cases b : ls < max (ln + p.threshold - p.hysteresis) 1
        · rw [if_pos b, decide_eq_true b]; rfl
        · rw [if_neg b, decide_eq_false b]; rfl
    dsimp only
    rw [show speech / 2 ^ 15 = ls from rfl, show noise / 2 ^ 15 = ln from rfl, this]
  unfold Detector.evaluate
  dsimp only
  rw [h1]
  have h2 : Detector.formRaw { d1 with cos := cos } p = { d1 with cos := cos, rawBusy := raw } := by
    unfold Detector.formRaw Detector.selected; cases hbs : p.busySource <;> simp [d1, raw, hbs]
  show (Detector.formRaw { d1 with cos := cos } p).debounceBy p true = _
  rw [h2]
  rw [debounceBy_eq _ p true count (by show (match d.run with | none => 0 | some k => k + 1) = _; cases d.run <;> rfl)]

/-- An evaluated sample makes the figures the statements speak of. -/
theorem evaluate_sampled (d : Detector) (p : Params) (x : Word) (high : Bool) : d.evaluate p x high = d.sampled p x high :=
  evaluate_eq d p x high

/-- A detector is held while one of the four sources holds it (R118). -/
theorem held_iff (d : Detector) : d.held = true ↔ d.holds.ptt ∨ d.holds.recovery ∨ d.holds.changeover ∨ d.holds.request := by
  simp [Detector.held, or_assoc]

/-- A sample taken at the Busy Detector. -/
theorem detectSample_spec (x : Word) (high : Bool) (s : State) (hs : s.memoryLaw) :
    TakesSample x high s (detectSample x high s) := by
  unfold TakesSample detectSample
  simp only [← held_iff, ← evaluate_sampled]
  by_cases hh : s.detector.held = true
  · rw [if_pos hh, if_pos hh]
  · rw [if_neg hh, if_neg hh]
    obtain ⟨w, w1, w2, w3, w4⟩ := reportDetector_spec (s.detector.evaluate s.params x high) s hs
    refine ⟨w, w1, w2, by rw [w3]; simp only [ne_eq, ite_not], ?_⟩
    simpa only [ne_eq, ite_not] using w4

/-- What a sample adds at the Receive Path: EVENTS in one bit at a capture boundary, and words of the receive place alone. -/
theorem receiveSample_spec (x : Word) (s : State) (hl : s.receive.collection.length ≤ 159) :
    (receiveSample x s).bus.events = s.bus.events |||
      (if s.receive.collection.length < 159 then 0
        else if s.read (rxBase (s.receive.captureSequence.toNat % 32)) = 0 then bitWord 8 else bitWord 9) ∧
    MemoryKept (rxPlace s.receive) s (receiveSample x s) ∧
    (s.receive.collection.length < 159 ∨ s.read (rxBase (s.receive.captureSequence.toNat % 32)) ≠ 0 →
      (receiveSample x s).mem = s.mem) := by
  unfold receiveSample
  dsimp only
  by_cases h : s.receive.collection.length < 159
  · rw [if_neg (by simp; omega), if_pos h]
    exact ⟨(BitVec.or_zero ..).symm, .of_mem rfl, fun _ => rfl⟩
  · rw [if_pos (by simp; omega), if_neg h]
    unfold captureBlock
    dsimp only
    by_cases hb : s.read (rxBase (s.receive.captureSequence.toNat % 32)) = 0
    · rw [if_pos hb, if_pos hb]
      refine ⟨rfl, fun a ha => ?_, fun hc => hc.elim (fun c => absurd c h) (fun c => absurd hb c)⟩
      refine Memory.read_writeAll_other _ _ _ _ ?_
      have hlen : (s.receiveWords (s.receive.collection ++ [if s.key.ptt then 0 else x]) (s.receive.keyedMark ||
          s.key.ptt)).length = 168 := by
        simp [State.receiveWords]; omega
      rw [hlen]
      simp only [rxPlace, inArea] at ha
      omega
    · rw [if_neg hb, if_neg hb]
      exact ⟨rfl, .of_mem rfl, fun _ => rfl⟩

/-- The three rows of a sample are the same event. -/
theorem sample_next {s : State} {x : Word} {high : Bool} {n : Nat} {c : Instr} (h :
    s.comesNext (fun y => some y.sampleLeft) n) (hc : c = .adcSample x high ∨ (c = .debounceComplete x high ∧
    completesDebounce x high s = true) ∨
      (c = .captureBoundary x high ∧ 159 ≤ s.receive.collection.length)) : exec c s =
          .next (event (sampleEvent x high) (s.passTime n)) := by
  rcases hc with rfl | ⟨rfl, h2⟩ | ⟨rfl, h2⟩
  · exact congrArg Host.Outcome.next (timed_next h)
  · show execDebounceComplete x high s = _
    unfold execDebounceComplete; rw [if_pos h2, timed_next h]
  · show execCaptureBoundary x high s = _
    unfold execCaptureBoundary; rw [if_pos (show completesBlock s = true from decide_eq_true h2), timed_next h]

/-- The words a sample can store to. -/
theorem sampleEvent_stores (x : Word) (high : Bool) (s : State) (hl : s.receive.collection.length ≤ 159) :
    Stores (rxPlace s.receive) s (sampleEvent x high s) := by
  have h1 : Stores (rxPlace s.receive) s (detectSample x high s) := detectSample_stores x high s
  have hr : (detectSample x high s).receive = s.receive := detectSample_frame x high s .receive (by decide)
  have h2 : Stores (rxPlace s.receive) (detectSample x high s) (receiveSample x (detectSample x high s)) := by
    unfold receiveSample; dsimp only
    refine .ite ?_ withReceive_stores
    rw [← hr]; exact captureBlock_stores _ _ _ (by rw [hr]; simp; omega)
  exact .after (.of_mem rfl) (.after h2 h1)

end Sys2Proof.Machine
end

