-- ==== Sys2Proof/Tests/Slice0.lean ====
section
/-! SUPPORT. Tests. The ill-formed commands that WellFormed refuses; the manual's worked examples, with the figures the manual
prints; and, for each statement with hypotheses, a concrete state and operands that meet all of them together, for each of its
clauses (`test_witness_<statement>`). -/

set_option Elab.async false

open Sys2Proof Sys2Proof.Machine

namespace Sys2Proof.Tests

/-! ## WellFormed refuses an ill-formed term for each of its checks -/

/-- A station-cell call without bit 0, or with the soft-reset bit (R168). -/
theorem test_illFormed_stationCellCall :
    (Instr.stationCellCall 0x0006).wellFormed = false ∧ (Instr.stationCellCall 0x8001).wellFormed = false := by decide

/-- An enable write that calls the station cell, or resets (R168). -/
theorem test_illFormed_interruptEnableWrite :
    (Instr.interruptEnableWrite 0x0001).wellFormed = false ∧ (Instr.interruptEnableWrite 0x8000).wellFormed = false := by decide

/-- A soft reset without bit 15 (R168). -/
theorem test_illFormed_softReset : (Instr.softReset 0x7FFF).wellFormed = false := by decide

/-- A register that can be written, or an address of the exchange memory (R168). -/
theorem test_illFormed_readOnlyRegisterWrite :
    (Instr.readOnlyRegisterWrite 0x8006 0).wellFormed = false ∧ (Instr.readOnlyRegisterWrite 0x7FFF 0).wellFormed = false := by
  decide

/-- An address outside the exchange memory (R160). -/
theorem test_illFormed_hostMemoryWrite : (Instr.hostMemoryWrite 0x8000 0).wellFormed = false := by decide

/-- An end cause with tag 0 (R50), or with a reason that is sent in its own event (R80). -/
theorem test_illFormed_endCause :
    (Instr.endCause 0 .killed).wellFormed = false ∧ (Instr.endCause 1 .linkLost).wellFormed = false := by decide

/-- No row of the table has bits, so no word spells a command, and placing one leaves the state as it is. -/
theorem test_noWordSpellsACommand :
    decodeTableWord 16 0x0001 = none ∧ (State.reset.withFetchWord 16 0x0001).pending = [] := by decide

/-! ## Small states -/

/-- A ready part with nothing set up. -/
def readied : State := { State.reset with phase := .ready }

/-- The start-up clearing of a part whose exchange memory still holds a word, with DISABLE active. -/
def clearing : State := ({ State.reset with phase := .clearing, disablePin := true } : State).write 0x7FFF 1

/-- A metered control operator of grade 3, permitted every channel, with a budget of 5. -/
def operator : Member :=
  { Member.reset with
    present := true, grade := 3, controlOperator := true, permitted := 0xFFFF, priority := 1, maxKeyTime := 60
    allowance := some 5, remaining := 5 }

/-- A channel open to grade 1. -/
def openChannel : Channel := { Channel.reset with present := true, maxKeyTime := 60 }

/-- A RUNNING station with `m` in place 0 of the Member Table, session 1 OPEN for it, and channel 0 present. -/
def openedFor (m : Member) : State :=
  let s := ((readied.withMember 0 m).withChannel 0 openChannel).withSupervisor { readied.supervisor with running := true }
  s.withSession 0 { Session.reset with state := .opened, member := some 0, deadline := some 3000 }

/-- The same with a control operator. -/
def opened : State := openedFor operator

/-- The same with its session LOST. -/
def lost : State := opened.withSession 0 { (opened.session 0) with state := .lost, deadline := none }

/-- Cell c waits for service with a request kind and arguments. -/
def placed (c : Cell) (kind : Word) (args : List Word) (s : State) : State :=
  ((s.withCells { s.cells with waiting := s.cells.waiting.set c true }).write (cellBase c + 1) kind).writeAll (cellBase c + 3)
    args

/-- Session 1's entry in the queue. -/
def entry : Entry :=
  { session := 0, member := 0, channel := 0, priority := 3, arrival := 1, retries := none, marked := false }

/-- A ready, RUNNING station with session 1 OPEN and queued. -/
def queued : State := opened.withFloor { opened.floor with queue := [entry], arrival := 1 }

/-- Session 1's grant in a state, with no timer running. -/
def grantIn (st : GrantState) : Grant where
  tag := 1
  kind := .member
  session := some 0
  member := some 0
  channel := 0
  state := st
  keyUpTime := if st.onAir then some 0 else none
  keySamples := 0
  keyLimit := some 60000
  finalCount := none
  endReason := if st = .drain ∨ st = .tail then some .released else none
  cutShort := false
  forced := false
  budgetExhausted := false
  reservationHeld := st.onAir
  keyUpHeld := false
  ticks := 0
  changeoverLeft := none
  busyWait := .off
  gap1Left := none
  gap2Left := none
  prebufferLeft := none
  tailLeft := none

/-- An identification's grant in a state. -/
def identIn (st : GrantState) : Grant :=
  { grantIn st with kind := .ident, session := none, member := none, keyLimit := none }

/-- A state with a grant, PTT asserted while it is on the air and the next block boundary one sample period away. -/
def granting (g : Grant) : State :=
  { opened with
    floor := { opened.floor with idle := false, tagCounter := g.tag }
    key := { opened.key with grant := some g, ptt := g.state.onAir }
    playout := { opened.playout with
      currentTag := some g.tag, boundary := if g.state = .keyed ∨ g.state = .drain then some 1 else none }
    log := { opened.log with reserved := g.state.onAir } }

/-- Block `n` of grant 1 stands FILLED in its place. -/
def filled (n : Nat) (s : State) : State := s.writeAll (txBase (n % 64)) [1, 1, word n]

/-- What holds of the next state of a command; false where it has none. -/
def after (c : Instr) (s : State) (p : State → Bool) : Bool :=
  match exec c s with
  | .next t => p t
  | .fault _ => false
  | .refused _ => false

/-- The outcome is a next state. -/
def goesOn (o : Host.Outcome State Fault Refusal) : Bool :=
  match o with
  | .next _ => true
  | .fault _ => false
  | .refused _ => false

theorem next_of {o : Host.Outcome State Fault Refusal} (h : goesOn o = true) : ∃ t, o = .next t := by
  cases o with
  | next t => exact ⟨t, rfl⟩
  | fault f => cases h
  | refused r => cases h

/-! ## Worked examples -/

/-- 5.10: each row's A, x and y. -/
theorem test_level_rows : level 12000 14 = 5347 ∧ level (-12000) 14 = -5348 ∧ level 12000 26 = 2673 ∧ level 20000 (-12) = 32767 ∧
    level (-32768) (-12) = -32768 ∧ level 32767 90 = 181 ∧ level 32767 102 = 0 ∧ level (-1) 1 = -1 ∧ level 1 1 = 0 := by
  decide

/-- The station of 6.5 before its first sample. -/
def listening : Detector := { Detector.reset with noise := 80000, levelN := 2 }

/-- A row of the manual's tables: S, Ls, N, Ln, S0, S1, S2, raw busy, and the debounce run. -/
def figures (d : Detector) : List Nat × Option Nat :=
  ([d.speech, d.levelS, d.noise, d.levelN, d.s0.toNat, d.s1.toNat, d.s2.toNat, d.rawBusy.toNat], d.run)

/-- 6.5: samples 1, 2 and 3, each one step from the row before it. -/
theorem test_signalAppears :
    figures (listening.evaluate Params.reset 8000 false) =
      ([256000, 7, 80030, 2, 1, 0, 0, 0], none) ∧
    figures (({ listening with speech := 256000, noise := 80030, s0 := true } : Detector).evaluate Params.reset 8000 false) =
      ([480000, 14, 80060, 2, 1, 1, 1, 1], some 0) ∧
    figures
      (({ listening with speech := 480000, noise := 80060, s1 := true, s2 := true, previousS1 := true, run := some 0 } :
        Detector).evaluate Params.reset (-8000) false) =
      ([676000, 20, 80060, 2, 1, 1, 1, 1], some 1) := by decide

/-- The station of 6.6: decay code 0. -/
def symmetric : Params := { Params.reset with decayCode := 0 }

/-- 6.6: samples 8, 9 and 12 at decay code 0, each one step from the row before it. -/
theorem test_burstTooShort :
    figures
      (({ listening with speech := 396260, noise := 80060, s2 := true, previousS1 := true, run := some 5 } : Detector).evaluate
        symmetric 0 false) = ([346728, 10, 80060, 2, 1, 0, 1, 1], some 6) ∧
    figures
      (({ listening with speech := 346728, noise := 80060, s2 := true, run := some 6 } : Detector).evaluate symmetric 0 false) =
      ([303387, 9, 80059, 2, 1, 0, 1, 1], some 7) ∧
    figures
      (({ listening with speech := 232281, noise := 80057, s2 := true, run := some 9 } : Detector).evaluate symmetric 0 false) =
      ([203246, 6, 80056, 2, 1, 0, 0, 0], none) := by decide

/-- 7.5: "Q9T" is 39 units, and "Q9 T" and " Q9  T " are 43. -/
theorem test_patternUnits :
    patternUnits (pattern [26, 9, 29]) = 39 ∧ patternUnits (pattern [26, 9, 37, 29]) = 43 ∧
    patternUnits (pattern [37, 26, 9, 37, 37, 29, 37]) = 43 := by decide

/-- An identification of "Q9T" at sample k with phase P. -/
def sounding (k : Nat) (P : Word) : State :=
  let s := granting (identIn .idSending)
  { s with params := { s.params with idText := [26, 9, 29] }, ident := { s.ident with position := some k, phase := P } }

/-- 7.6: the first six samples at the DAC. -/
theorem test_firstSamples :
    (sounding 0 0).dac = -407 ∧ (sounding 1 6554).dac = -245 ∧ (sounding 2 13108).dac = -103 ∧ (sounding 3 19662).dac = 102 ∧
    (sounding 4 26216).dac = 387 ∧ (sounding 5 32770).dac = 645 := by decide +kernel

/-- 7.6: the tone of 800 Hz steps the phase by 6554. -/
theorem test_phaseStep : ((sounding 0 0).passTime 1).ident.phase = 6554 := by decide

/-- 10.8's state before its first row: the pointer at 5, EVENT_ENABLE 0400h. -/
def calling : State :=
  { readied with cells := { Cells.reset with pointer := 4 }, bus := { Bus.reset with eventEnable := 0x0400 } }

/-- The cells of a list wait, the pointer standing at a session. -/
def pendingCells (cs : List Cell) (pointer : Slot) : State :=
  { calling with
    cells := { calling.cells with
      waiting := cs.foldl (fun w (c : Cell) => w.set c true) calling.cells.waiting, pointer := pointer } }

/-- 10.8: the write of ATTENTION 0112h, and the second call of session 5. -/
theorem test_attention :
    after (.attentionWrite 0x0112) calling (fun t => t.cells.waiting == (pendingCells [2, 5, 9] 4).cells.waiting
      && t.read (cellBase 2) == 1 && t.read (cellBase 5) == 1 && t.read (cellBase 9) == 1) = true ∧
    after (.attentionWrite 0x0010) (pendingCells [2, 5] 8) (fun t => t.cells.attentionHeld == 1
      && t.bus.events == 0x0400 && t.interrupt) = true := by decide +kernel

/-- 10.8: the cells served, row by row. -/
theorem test_serviceOrder :
    (pendingCells [2, 5, 9] 4).nextCell = some 9 ∧ (pendingCells [0, 2, 5] 8).nextCell = some 0 ∧
    (pendingCells [2, 5] 8).nextCell = some 2 ∧ (pendingCells [5] 1).nextCell = some 5 := by decide

/-- 10.8: the reads and writes of the registers at its end. -/
theorem test_registers :
    after .answeredRead (readied.withBus { Bus.reset with answered := 0x0112 })
      (fun t => t.bus.data == 0x0112 && t.bus.answered == 0) = true ∧
    after (.eventsClear 0x0401) (readied.withBus { Bus.reset with events := 0x0401, eventEnable := 0x0400 })
      (fun t => t.bus.events == 0 && !t.interrupt) = true := by decide +kernel

/-- 1.6: SET MEMBER 5 stores a max key time of 700 s as 600 with CLAMPED (bit 8 of the code word), and a full budget. -/
theorem test_setMember :
    after .setMember (placed 0 0x07 [5, 1, 3, 0, 6, 0, 700, 0, 300, 0] readied) (fun t =>
      (t.member 5).maxKeyTime == 600 && (t.member 5).allowance == some 300 && (t.member 5).remaining == 300
        && t.read (cellBase 0 + 43) == 0x0100) = true := by decide +kernel

/-- 1.6: the allowance cut from 300 to 100 takes the remaining budget from 137 to 100, without CLAMPED. -/
theorem test_setMember_cut :
    after .setMember (placed 0 0x07 [5, 1, 3, 0, 6, 0, 600, 0, 100, 0]
        (readied.withMember 5 { operator with maxKeyTime := 600, allowance := some 300, remaining := 137 })) (fun t =>
      (t.member 5).remaining == 100 && t.read (cellBase 0 + 43) == 0) = true := by decide +kernel

/-- 1.6: REFILL 5 restores 100, with answer word 1. -/
theorem test_refill :
    after .refill (placed 0 0x0B [5] (readied.withMember 5 { operator with allowance := some 100, remaining := 0 })) (fun t =>
      (t.member 5).remaining == 100 && t.read (cellBase 0 + 45) == 1) = true := by decide +kernel

/-- KEY of an idle floor (R40, R41, R51): QUEUED, position 1, arrival number 1, and the grant with tag 1 made in the event. -/
theorem test_key : after .key (placed 1 0x21 [0, 0, 0] opened) (fun t =>
    t.read (cellBase 1 + 43) == 1 && t.read (cellBase 1 + 45) == 1 && t.read (cellBase 1 + 46) == 1
      && (t.key.grant.map (·.tag)) == some 1 && t.floor.queue.isEmpty && t.bus.answered == 1) = true := by decide +kernel

/-- Session 2's entry, of priority 0, is alone in the queue. -/
def waitingBehind : State :=
  opened.withFloor { opened.floor with queue := [{ entry with session := 1, member := 1, priority := 0 }], arrival := 1 }

/-- A session that a join moves from position 1 to 2, and the grant of the joined entry back to 1, is notified: its record is
rewritten once, with NEWS (R33, R39, R41, R51). -/
theorem test_keyNotifiesTheMoved : after .key (placed 1 0x21 [0, 0, 0] waitingBehind) (fun t =>
    (t.key.grant.bind (·.session)) == some 0 && t.positionOf 1 == some 1 && waitingBehind.positionOf 1 == some 1
      && (t.session 1).changeCount == 2 && t.read (recordBase 1) == 2 && t.bus.news == 3) = true := by decide +kernel

/-- The same for the marked entry of a PREEMPT (R56). -/
theorem test_preemptNotifiesTheMoved : after (.preempt true) (placed 1 0x23 [0] waitingBehind) (fun t =>
    (t.key.grant.bind (·.session)) == some 0 && t.positionOf 1 == some 1 && (t.session 1).changeCount == 2
      && t.bus.news == 3) = true := by decide +kernel

/-- KEEPALIVE answers the surveillance period, 3000 ms, or 1000 ms to a holder on the air (R26, R27). -/
theorem test_keepalive :
    after .keepalive (placed 1 0x20 [] opened) (fun t => t.read (cellBase 1 + 45) == 3000) = true ∧
    after .keepalive (placed 1 0x20 [] (granting (grantIn .keyed))) (fun t => t.read (cellBase 1 + 45) == 1000) = true := by
  decide +kernel

/-- A TIMEOUT unkey with a timeout penalty of 0 leaves the penalty end absent, one that stands included (R15). -/
theorem test_noPenaltyIsLeft :
    let s := granting { grantIn .keyed with keyLimit := some 10000, keySamples := 79999, ticks := 99 }
    after .keyLimitReached ({ s with params := { s.params with timeoutPenalty := 0 } }.withMember 0
        { operator with penaltyEnd := some 77 }) (fun t =>
      t.key.grant.isNone && (t.member 0).penaltyEnd.isNone && (t.session 0).lastEndReason == some .timeout) = true := by
  decide +kernel

/-- The key limit reached, and then the RELEASE of the same moment: ALREADY, code 8 (R76); one sample period later NOT_HOLDING, code 9. -/
theorem test_releaseMeetsTheTimeout :
    after .keyLimitReached (granting { grantIn .keyed with keyLimit := some 10000, keySamples := 79999, ticks := 99 }) (fun t =>
      after .release (placed 1 0x22 [] t) (fun u => u.read (cellBase 1 + 43) == 8)
        && after .release (placed 1 0x22 [] { t with periods := t.periods + 1 })
          (fun u => u.read (cellBase 1 + 43) == 9)) = true := by decide +kernel

/-- The timeout's moment again: with the slot closed and opened for the same member, or with a new KEY and its RELEASE, nothing is
left of the claim that timed out, and RELEASE is answered NOT_HOLDING, code 9 (R42). -/
theorem test_releaseAfterANewClaimAtTheTimeout :
    after .keyLimitReached (granting { grantIn .keyed with keyLimit := some 10000, keySamples := 79999, ticks := 99 }) (fun t =>
      after .closeSession (placed 0 0x0D [1] t) (fun u => after .openSession (placed 0 0x0C [1, 0] u) (fun v =>
        after .release (placed 1 0x22 [] v) (fun w => v.periods == t.periods && w.read (cellBase 1 + 43) == 9)))
      && after .key (placed 1 0x21 [0, 0, 0] (t.withMember 0 operator)) (fun u => after .release (placed 1 0x22 [] u) (fun v =>
        after .release (placed 1 0x22 [] v) (fun w =>
          v.read (cellBase 1 + 43) == 0 && v.periods == t.periods && w.read (cellBase 1 + 43) == 9)))) = true := by
  decide +kernel

/-- Each counter notice leads to a rewrite of the status record, also with the counter at 65535 (R30). -/
theorem test_counterNotice :
    after .keepalive (placed 1 0x20 [] (opened.withSession 0 { opened.session 0 with requestsTaken := 65535 })) (fun t =>
      (t.session 0).requestsTaken == 65535 && (t.session 0).changeCount == 2 && t.read (recordBase 0) == 2
        && t.bus.news == 0) = true := by decide +kernel

/-- SET MEMBER with present no sends the holder's revocation and key limit notices (R5, R17). -/
theorem test_removeHolder :
    after .setMember (placed 0 0x07 [0, 0] (granting (grantIn .keyed)))
      (fun t => t.notices == [.revocation 0, .keyLimit 0]) = true := by decide +kernel

/-- Two qualified faults of one millisecond stand in the history once (R135). -/
theorem test_historyHasNoDuplicates :
    ({ Supervisor.reset with history := [1, 5] } : Supervisor).noteFault 5 1000 = [1, 5] := by decide

/-- While an end cause is in flight the identification's pattern runs on (R134). -/
theorem test_patternRunsOn :
    after .idPatternComplete
      (let s := sounding 18752 0;
        { s with
          key := { s.key with ptt := false, grant := some { identIn .idSending with keySamples := 19071 } }
          notices := [.cause 1 .killed] })
      (fun t => t.ident.position.isNone && t.bus.events.getLsbD 12) = true := by decide +kernel

/-- NOP copies the host tag and frees the cell (R165). -/
theorem test_nop : after .nop ((placed 0 0x01 [] readied).write (cellBase 0 + 2) 0xBEEF) (fun t =>
    t.read (cellBase 0 + 43) == 0 && t.read (cellBase 0 + 44) == 0xBEEF && t.read (cellBase 0) == 0 && t.bus.events == 1) = true := by
  decide +kernel

/-- The tag after FFFFh is 1 (R50), and arrival numbers wrap to 0 (R36). -/
theorem test_wraps : nextTag 0xFFFF = 1 ∧ nextTag 1 = 2 ∧
    (joinQueue entry (opened.withFloor { opened.floor with arrival := 0xFFFF })).floor.arrival = 0 := by decide

/-- 9.8: the words of the second log entry (kind, member, session, channel, tag, times, reason, flags). -/
theorem test_logEntry :
    after .idPatternComplete
      (let g : Grant := { identIn .idSending with tag := 88, channel := 5, forced := true, keyUpTime := some 811500, keySamples := 19072 }
        let s := granting g
        { s with
          params := { s.params with idText := [26, 9, 29] }, periods := 6511072, ident := { s.ident with position := some 18752, lastId := some 762884 }
          supervisor := { s.supervisor with disable := .released }
          sessions := Vector.replicate 16 Session.reset })
      (fun t => (List.range 12).map (fun i => t.read (logBase 0 + i)) ==
        [0, 1, 0xFFFF, 0, 5, 88, 0x61EC, 0x000C, 2384, 0, 19, 4] && t.bus.events == 0x1802) = true := by decide +kernel

/-! ## The hypotheses of the statements can be met: the step, the registers and the requests -/

theorem test_witness_StepRunsTheFrontCommand :
    ({ readied with pending := [.nop, .start] } : State).pending = .nop :: [.start] ∧
    ({ readied with notices := [.clear .stopped] } : State).dueCommands ≠ [] ∧
    ({ readied with notices := [.clear .stopped] } : State).mayPass 1 = false ∧
    ({ readied with notices := [.cause 1 .killed] } : State).dueCommands ≠ [] ∧
    ({ readied with notices := [.cause 1 .killed] } : State).mayPass 1 = true ∧ State.reset.dueCommands ≠ [] ∧
    State.reset.ready = false ∧ readied.pending = [] ∧ readied.dueCommands = [] ∧ readied.ready = true ∧
    ({ State.reset with phase := .held } : State).pending = [] := by decide +kernel

/-- The 20 ms of the page rewrites (R171) and the millisecond of the station clock end with their last sample period. -/
theorem test_passTime :
    (∀ k ∈ [158, 159], (({ readied with periods := k } : State).passTime 1).pagesOwed = if k = 159 then 1 else 0) ∧
    (∀ k ∈ [6, 7], (({ readied with periods := k } : State).passTime 1).clock = if k = 7 then 1 else 0) := by decide

/-- A grant 799 sample periods into its key time, the tick one period away: no more than that one may pass before it (R74). -/
theorem test_mayPass :
    let s := granting { grantIn .keyed with keySamples := 799 };
    s.mayPass 1 = true ∧ s.mayPass 2 = false ∧ s.grantLeft (·.tickLeft) = some 1 := by decide +kernel

theorem test_witness_ResetGivesEveryBlockItsResetValues : opened.ready = true ∧ (0x8000 : Word).getLsbD 15 = true := by decide

theorem test_witness_StartUpMakesThePartReady :
    ({ State.reset with phase := .held } : State).phase = .held ∧ clearing.phase = .clearing ∧ HoldsResetValues clearing :=
  ⟨rfl, rfl, { members := by decide, channels := by decide, sessions := by decide, floor := rfl, key := rfl, playout := rfl,
               receive := rfl, detector := rfl, ident := rfl, supervisor := rfl, log := rfl, waiting := by decide, pointer := rfl,
               attentionHeld := rfl, bus := rfl, params := rfl, periods := rfl, notices := rfl, owed := ⟨rfl, rfl⟩ }⟩

theorem test_witness_AccessesBeforeReadyAreIgnored : clearing.ready = false := by decide

theorem test_witness_AttentionCallsTheNamedCells :
    calling.ready = true ∧ calling.memoryLaw ∧ (0x0007 : Word).getLsbD 0 = true ∧ (0x7FFF : Word).getLsbD 15 = false := by
  unfold State.memoryLaw; decide

theorem test_witness_RegistersActAsTheRegisterTableSays :
    calling.ready = true ∧ (0x7FFE : Word).getLsbD 0 = false ∧ (0x7FFE : Word).getLsbD 15 = false ∧
    0x8007 < (0x8008 : Word).toNat ∧ 0x8007 < (0xFFFF : Word).toNat ∧ (0x7FFF : Word).toNat < 0x8000 ∧
    ({ State.reset with phase := .held } : State).phase = .held ∧ clearing.phase = .clearing ∧ calling.phase = .ready := by decide

/-- The last word of the exchange memory, and a state word of a transmit place whose write does not complete PREBUFFER. -/
theorem test_witness_HostMemoryWritesStoreOneWord :
    readied.ready = true ∧ (0x7FFF : Word).toNat < 0x8000 ∧ isTxState (0x7FFF : Word).toNat = false ∧
    (0x1000 : Word).toNat < 0x8000 ∧ isTxState (0x1000 : Word).toNat = true ∧
    (granting (grantIn .prebuffer)).ready = true ∧ (granting (grantIn .prebuffer)).memoryLaw ∧
    ¬ ((granting (grantIn .prebuffer)).write (0x1000 : Word).toNat 1).prebuffered 1 := by
  refine ⟨by decide, by decide, by decide, by decide, by decide, by decide +kernel, by unfold State.memoryLaw; decide +kernel,
    fun h => absurd (h 0 (by decide +kernel)).2.1 (by decide +kernel)⟩

/-- Every station request, by its kind code (11.2), with three codes that are none. -/
def stationRequests : List (Word × Request) :=
  [(0x01, .nop), (0x02, .start), (0x03, .stop), (0x04, .holdFloor), (0x05, .resumeFloor), (0x06, .setStation),
   (0x07, .setMember), (0x08, .readMember), (0x09, .setChannel), (0x0A, .readChannel), (0x0B, .refill), (0x0C, .openSession),
   (0x0D, .closeSession), (0x0E, .clearLockout), (0x0F, .kill), (0x10, .detectorHold), (0x11, .detectorRelease),
   (0x00, .undefinedRequest), (0x12, .undefinedRequest), (0x20, .undefinedRequest)]

/-- Every session request, by its kind code (11.2), with three codes that are none. -/
def sessionRequests : List (Word × Request) :=
  [(0x20, .keepalive), (0x21, .key), (0x22, .release), (0x23, .preempt), (0x24, .killFromSession),
   (0x25, .clearLockoutFromSession), (0x26, .eject), (0x27, .holdFloorFromSession), (0x28, .resumeFloorFromSession),
   (0x00, .undefinedRequest), (0x01, .undefinedRequest), (0x29, .undefinedRequest)]

/-- A released PTT keeps R61's law. -/
theorem pttLaw_of {s : State} (h : s.key.ptt = false) : s.pttLaw := fun e => absurd e (by rw [h]; decide)

/-- Each station request can be the one served, in a lawful state. -/
theorem test_witness_stationRequests :
    ∀ x ∈ stationRequests, (placed 0 x.1 [] opened).memoryLaw ∧ (placed 0 x.1 [] opened).pttLaw ∧
      (placed 0 x.1 [] opened).serves 0 x.2 := by
  have h : ∀ x ∈ stationRequests, (placed 0 x.1 [] opened).mem.wf = true ∧ (placed 0 x.1 [] opened).key.ptt = false ∧
      (placed 0 x.1 [] opened).ready = true ∧ (placed 0 x.1 [] opened).nextCell = some 0 ∧
      (placed 0 x.1 [] opened).requestIn 0 = x.2 := by decide +kernel
  exact fun x hx => ⟨(h x hx).1, pttLaw_of (h x hx).2.1, (h x hx).2.2⟩

/-- Each session request can be the one served, its session OPEN and its member a control operator, or not one. -/
theorem test_witness_sessionRequests :
    ∀ m ∈ [operator, { operator with controlOperator := false }], ∀ x ∈ sessionRequests,
      (placed 1 x.1 [] (openedFor m)).memoryLaw ∧ (placed 1 x.1 [] (openedFor m)).pttLaw ∧
      (placed 1 x.1 [] (openedFor m)).servesOpen 0 x.2 ∧ x.2.ofSession = true ∧
      ((placed 1 x.1 [] (openedFor m)).operatorSession 0 ↔ m.controlOperator = true) := by
  have h : ∀ m ∈ [operator, { operator with controlOperator := false }], ∀ x ∈ sessionRequests,
      ((placed 1 x.1 [] (openedFor m)).mem.wf = true ∧ (placed 1 x.1 [] (openedFor m)).key.ptt = false ∧
        ((placed 1 x.1 [] (openedFor m)).ready = true ∧ (placed 1 x.1 [] (openedFor m)).nextCell = some (Slot.cell 0) ∧
          (placed 1 x.1 [] (openedFor m)).requestIn (Slot.cell 0) = x.2) ∧
        ((placed 1 x.1 [] (openedFor m)).session 0).state = .opened ∧ x.2.ofSession = true) ∧
      ((placed 1 x.1 [] (openedFor m)).session 0).member = some 0 ∧ (placed 1 x.1 [] (openedFor m)).member 0 = m := by
    decide +kernel
  intro m hm x hx
  obtain ⟨⟨h1, h2, h3, h4, h5⟩, h6, h7⟩ := h m hm x hx
  refine ⟨h1, pttLaw_of h2, ⟨h3, h4⟩, h5, ⟨fun ⟨k, a, b⟩ => ?_, fun hc => ⟨0, h6, h7 ▸ hc⟩⟩⟩
  rw [h6] at a; cases a; rw [h7] at b; exact b

theorem test_witness_TheGateTurnsAwayFreeAndLostSessions :
    Request.key.ofSession = true ∧ (placed 1 0x21 [] readied).memoryLaw ∧ (placed 1 0x21 [] readied).serves (Slot.cell 0) .key ∧
    ((placed 1 0x21 [] readied).session 0).state = .free ∧ (placed 1 0x21 [] lost).memoryLaw ∧
    (placed 1 0x21 [] lost).serves (Slot.cell 0) .key ∧ ((placed 1 0x21 [] lost).session 0).state = .lost := by
  unfold State.memoryLaw State.serves; decide +kernel

/-- SET STATION with the default figures of its 29 numbers, an option word and an ID text. -/
def stationWords (options length character : Word) : List Word :=
  [3000, 1000, 1000, 150, 5000, 400, 100, 4, 500, 12, 25, 20, 40, 200, 100, 30, 10, 120, 3, 600, 30, 10, 60, 800, 12, 2, 8, 3, 14,
   options, length, character]

/-- SET STATION waits in the station cell of `s`. -/
def setting (options character : Word) (s : State) : State := placed 0 0x06 (stationWords options 1 character) s

/-- The codes of option word 0006h and an ID text of one space (R175). -/
def codes : StationCodes where
  busySource := .s2
  autoIntegrate := true
  cosUse := false
  cosLowActive := false
  txfaultLowActive := false
  idText := [37]

/-- With defined codes, an undefined option field, an undefined character, and a grant. -/
theorem test_witness_SetStation :
    ((setting 0x0006 37 opened).memoryLaw ∧ (setting 0x0006 37 opened).pttLaw ∧ (setting 0x0006 37 opened).serves 0 .setStation ∧
      (setting 0x0006 37 opened).key.grant = none ∧ ∃ k, (setting 0x0006 37 opened).stationCodes 0 = some k) ∧
    ((setting 0x0008 37 opened).memoryLaw ∧ (setting 0x0008 37 opened).serves 0 .setStation ∧
      (setting 0x0008 37 opened).key.grant = none ∧ ((setting 0x0008 37 opened).argument 0 29).getLsbD 3 = true) ∧
    ((setting 0x0006 38 opened).memoryLaw ∧ (setting 0x0006 38 opened).serves 0 .setStation ∧
      (setting 0x0006 38 opened).key.grant = none ∧
      ¬ ((setting 0x0006 38 opened).argument 0 31).toNat / 256 ^ 0 % 256 ≤ 37) ∧
    ((setting 0x0006 37 (granting (grantIn .keyed))).memoryLaw ∧
      (setting 0x0006 37 (granting (grantIn .keyed))).serves 0 .setStation ∧
      (setting 0x0006 37 (granting (grantIn .keyed))).key.grant ≠ none) := by
  refine ⟨⟨?_, pttLaw_of (by decide +kernel), ?_, ?_, codes, ?_⟩, ?_, ?_, ?_⟩
  all_goals try simp only [State.memoryLaw, State.serves]
  all_goals decide +kernel

/-- SET MEMBER at the ends of its index, with present yes and no, and with each undefined code. -/
theorem test_witness_SetMember :
    (∀ a ∈ [[(63 : Word), 1, 0, 1, 0xFFFF, 9, 5, 0, 40000, 0x8000], [0, 1, 3, 0, 0, 0, 60, 1, 0, 36], [63, 0], [0, 0], [64, 0], [0, 2],
        [0, 1, 0, 2], [0, 1, 0, 0, 0, 0, 0, 2]],
      (placed 0 0x07 a opened).mem.wf = true ∧ (placed 0 0x07 a opened).ready = true ∧ (placed 0 0x07 a opened).nextCell = some 0 ∧
      (placed 0 0x07 a opened).requestIn 0 = .setMember) ∧
    ((placed 0 0x07 [63, 1, 0, 1, 0xFFFF, 9, 5, 0, 40000, 0x8000] opened).argument 0 0).toNat = (63 : MemberIx).val ∧
    ((placed 0 0x07 [63, 1, 0, 1, 0xFFFF, 9, 5, 0, 40000, 0x8000] opened).argument 0 1).toNat = 1 ∧
    ((placed 0 0x07 [63, 1, 0, 1, 0xFFFF, 9, 5, 0, 40000, 0x8000] opened).argument 0 3).toNat ≤ 1 ∧
    ((placed 0 0x07 [63, 1, 0, 1, 0xFFFF, 9, 5, 0, 40000, 0x8000] opened).argument 0 7).toNat ≤ 1 ∧
    ((placed 0 0x07 [63, 0] opened).argument 0 1).toNat = 0 ∧ 64 ≤ ((placed 0 0x07 [64, 0] opened).argument 0 0).toNat ∧
    2 ≤ ((placed 0 0x07 [0, 2] opened).argument 0 1).toNat ∧ 2 ≤ ((placed 0 0x07 [0, 1, 0, 2] opened).argument 0 3).toNat := by
  decide +kernel

/-- The index of READ MEMBER, READ CHANNEL, SET CHANNEL and REFILL at the ends of its range and beyond them. -/
theorem test_witness_indexes :
    ((placed 0 0x08 [63] opened).argument 0 0).toNat = (63 : MemberIx).val ∧ 64 ≤ ((placed 0 0x08 [64] opened).argument 0 0).toNat ∧
    ((placed 0 0x0A [15] opened).argument 0 0).toNat = (15 : ChannelIx).val ∧ 16 ≤ ((placed 0 0x0A [16] opened).argument 0 0).toNat ∧
    ((placed 0 0x09 [15, 1, 64, 0, 9, 61, 1] opened).argument 0 0).toNat = (15 : ChannelIx).val ∧
    ((placed 0 0x09 [0, 1, 0, 0, 0, 0, 2] (granting (grantIn .keyed))).argument 0 0).toNat = (grantIn .keyed).channel.val ∧
    (placed 0 0x0B [0xFFFF] opened).argument 0 0 = 0xFFFF ∧ ((placed 0 0x0B [63] opened).argument 0 0).toNat < 64 ∧
    64 ≤ ((placed 0 0x0B [64] opened).argument 0 0).toNat ∧ (placed 0 0x0B [64] opened).argument 0 0 ≠ 0xFFFF := by decide +kernel

/-- OPEN SESSION at the ends of its arguments, and a slot and member of each of its answers: IN_USE, NOT_PERMITTED, DUPLICATE, DONE. -/
theorem test_witness_OpenSessionOpensTheSlot :
    (∀ a ∈ [[(0 : Word), 0], [17, 0], [1, 64], [1, 0], [16, 63], [16, 0]],
      (placed 0 0x0C a opened).mem.wf = true ∧ (placed 0 0x0C a opened).requestIn 0 = .openSession ∧
      (placed 0 0x0C a opened).nextCell = some 0 ∧ (placed 0 0x0C a opened).ready = true) ∧
    ((placed 0 0x0C [0, 0] opened).argument 0 0).toNat = 0 ∧ 16 < ((placed 0 0x0C [17, 0] opened).argument 0 0).toNat ∧
    64 ≤ ((placed 0 0x0C [1, 64] opened).argument 0 1).toNat ∧
    ((placed 0 0x0C [16, 63] opened).argument 0 0).toNat = Slot.number 15 ∧
    ((placed 0 0x0C [16, 63] opened).argument 0 1).toNat = (63 : MemberIx).val ∧ (opened.session 0).state ≠ .free ∧
    (opened.session 15).state = .free ∧ (opened.member 63).present = false ∧ (opened.member 0).present = true ∧
    (opened.session 0).member = some 0 ∧ (readied.session 0).state = .free := by decide +kernel

/-- CLOSE SESSION and EJECT of slots 0, 17, 1 (OPEN) and 16 (FREE). -/
theorem test_witness_CloseSessionAndEjectCloseTheSlot :
    ((placed 0 0x0D [0] opened).argument 0 0).toNat = 0 ∧ 16 < ((placed 0 0x0D [17] opened).argument 0 0).toNat ∧
    ((placed 0 0x0D [1] opened).argument 0 0).toNat = Slot.number 0 ∧ (opened.session 0).state ≠ .free ∧
    ((placed 0 0x0D [16] opened).argument 0 0).toNat = Slot.number 15 ∧ (opened.session 15).state = .free ∧
    ((placed 1 0x26 [0] opened).argument (Slot.cell 0) 0).toNat = 0 ∧
    ((placed 1 0x26 [1] opened).argument (Slot.cell 0) 0).toNat = Slot.number 0 ∧
    ((placed 1 0x26 [16] opened).argument (Slot.cell 0) 0).toNat = Slot.number 15 := by decide +kernel

/-- KEY refused for each of its reasons. -/
theorem test_witness_KeyIsRefusedInItsOrder :
    2 ≤ ((placed 1 0x21 [0, 2, 0] opened).argument (Slot.cell 0) 1).toNat ∧
    7 < ((placed 1 0x21 [0, 1, 8] opened).argument (Slot.cell 0) 2).toNat ∧
    ((placed 1 0x21 [0, 1, 7] opened).argument (Slot.cell 0) 2).toNat ≤ 7 ∧ readied.supervisor.running = false ∧
    opened.supervisor.running = true ∧ opened.supervisor.lockout = none ∧ (queued.entryOf 0).isSome = true ∧
    (granting (grantIn .keyed)).holds 0 = true ∧ opened.entryOf 0 = none ∧ opened.holds 0 = false ∧
    ((placed 1 0x21 [16, 0, 0] opened).argument (Slot.cell 0) 0).toNat = 16 ∧
    ((openedFor { operator with remaining := 0 }).member 0).remaining = 0 := by decide +kernel

/-- KEY admitted: not persistent, and persistent with 7 retries. -/
theorem test_witness_KeyJoinsTheQueueAndArbitrates :
    ∀ a ∈ [[(0 : Word), 0, 0], [0, 1, 7]],
      (placed 1 0x21 a opened).mem.wf = true ∧
      ((placed 1 0x21 a opened).ready = true ∧ (placed 1 0x21 a opened).nextCell = some (Slot.cell 0) ∧
        (placed 1 0x21 a opened).requestIn (Slot.cell 0) = .key) ∧ ((placed 1 0x21 a opened).session 0).state = .opened ∧
      ((placed 1 0x21 a opened).argument (Slot.cell 0) 1 = 0 ∨
        (placed 1 0x21 a opened).argument (Slot.cell 0) 1 = 1 ∧ ((placed 1 0x21 a opened).argument (Slot.cell 0) 2).toNat ≤ 7) ∧
      (placed 1 0x21 a opened).supervisor.running = true ∧ (placed 1 0x21 a opened).supervisor.lockout = none ∧
      (placed 1 0x21 a opened).entryOf 0 = none ∧ (placed 1 0x21 a opened).holds 0 = false ∧
      ((placed 1 0x21 a opened).session 0).member = some 0 ∧
      ((placed 1 0x21 a opened).argument (Slot.cell 0) 0).toNat = (0 : ChannelIx).val ∧
      privileged ((placed 1 0x21 a opened).member 0) ((placed 1 0x21 a opened).channel 0) 0 = true ∧
      1 ≤ ((placed 1 0x21 a opened).member 0).remaining := by decide +kernel

/-- A station at the moment at which session 1's grant has ended TIMEOUT, with the last end reason `r` of the session. -/
def justTimedOut (r : Option EndReason) : State :=
  (opened.withKey { opened.key with timedOut := some (0, opened.periods) }).withSession 0
    { opened.session 0 with lastEndReason := r }

/-- RELEASE with nothing held, at a TIMEOUT's moment, at one with the slot reopened or a later claim cancelled, one sample period
after one, queued, before key-up, keyed, and already ending. -/
theorem test_witness_ReleaseEndsTheClaimInEveryState :
    (∀ r ∈ [some EndReason.timeout, none, some .cancelled],
      (justTimedOut r).grantOf 0 = none ∧ (justTimedOut r).entryOf 0 = none ∧
      (justTimedOut r).key.timedOut = some (0, (justTimedOut r).periods) ∧ ((justTimedOut r).session 0).lastEndReason = r) ∧
    (justTimedOut (some .timeout)).key.timedOut ≠ some (0, ((justTimedOut (some .timeout)).passTime 1).periods) ∧
    opened.key.timedOut ≠ some (0, opened.periods) ∧ opened.grantOf 0 = none ∧ opened.entryOf 0 = none ∧ queued.grantOf 0 = none ∧ (queued.entryOf 0).isSome = true ∧
    (∀ st ∈ [GrantState.changeover, .waitClear, .gap1, .gap2, .prebuffer, .keyed, .drain, .tail],
      (granting (grantIn st)).grantOf 0 = some (grantIn st) ∧ (placed 1 0x22 [1, 0] (granting (grantIn st))).mem.wf = true ∧
      (placed 1 0x22 [1, 0] (granting (grantIn st))).nextCell = some (Slot.cell 0) ∧
      (placed 1 0x22 [1, 0] (granting (grantIn st))).requestIn (Slot.cell 0) = .release) := by decide +kernel

/-- PREEMPT by the holder, by a control operator with another's grant in force, and while STOPPED. -/
theorem test_witness_PreemptEndsTheGrantAndTakesTheFront :
    (granting (grantIn .keyed)).holds 0 = true ∧ readied.holds 0 = false ∧ readied.supervisor.running = false ∧
    (granting { grantIn .keyed with session := some 1, member := some 1 }).holds 0 = false ∧
    ((placed 1 0x23 [0] opened).argument (Slot.cell 0) 0).toNat = (0 : ChannelIx).val ∧
    privileged ((placed 1 0x23 [0] opened).member 0) ((placed 1 0x23 [0] opened).channel 0) 0 = true ∧
    1 ≤ ((placed 1 0x23 [0] opened).member 0).remaining := by decide +kernel

/-! ## The hypotheses of the statements can be met: the inputs, the samples and the page -/

/-- DETECTOR HOLD and RELEASE with the request source there and not there. -/
theorem test_witness_DetectorHoldAndReleaseMoveTheRequestSource :
    opened.detector.holds.request = false ∧
    (opened.withHolds { opened.detector.holds with request := true }).detector.holds.request = true := by decide

/-- A keyed part with the fault qualify time `q`. -/
def faulty (q : Nat) : State :=
  let s := granting (grantIn .keyed)
  { s with params := { s.params with faultQualify := q } }

/-- TXFAULT: held, clearing, and ready with PTT released, then asserted with a qualify time of 10 ms and of 0. -/
theorem test_witness_TxfaultChangeIsJudgedAndQualifies :
    ({ State.reset with phase := .held } : State).memoryLaw ∧ clearing.phase = .clearing ∧ clearing.key.ptt = false ∧
    clearing.supervisor.qualification = none ∧ opened.ready = true ∧ opened.key.ptt = false ∧ (faulty 10).memoryLaw ∧
    (faulty 10).ready = true ∧
    (((true != (faulty 10).params.txfaultLowActive) && (faulty 10).key.ptt && !(faulty 10).supervisor.qualifiedThisKeying &&
      (faulty 10).supervisor.qualification.isNone) = true) ∧ (faulty 10).params.faultQualify ≠ 0 ∧
    (faulty 0).params.faultQualify = 0 := by unfold State.memoryLaw; decide +kernel

/-- A qualification one sample period from its end. -/
theorem test_witness_QualificationExpiryIsAQualifiedFault :
    let s := (faulty 10).withSupervisor
      { (faulty 10).supervisor with txfaultActive := true, qualification := some { since := 0, left := 1 } };
    s.memoryLaw ∧ s.comesNext (fun x => x.supervisor.qualification.map (·.left)) 1 := by
  dsimp only [State.memoryLaw, State.comesNext]; decide +kernel

/-- DISABLE in each of its three states, and a release one sample period from its end. -/
theorem test_witness_DisableStopsAndReleasesTheTransmitter :
    (granting (grantIn .keyed)).memoryLaw ∧ (granting (grantIn .keyed)).ready = true ∧
    (granting (grantIn .keyed)).supervisor.disable = .released ∧ State.reset.ready = false ∧
    (∀ d ∈ [DisableState.asserted, .releasing], (opened.withSupervisor { opened.supervisor with disable := d }).ready = true) ∧
    (let s := opened.withSupervisor { opened.supervisor with disable := .releasing, releaseTimer := some 1 };
      s.memoryLaw ∧ s.comesNext (fun x => x.supervisor.releaseTimer) 1) := by
  dsimp only [State.memoryLaw, State.comesNext]; decide +kernel

/-- A collection of `k` samples, with debounced busy one differing sample from a change. -/
def collecting (k : Nat) : State :=
  { opened with
    receive := { opened.receive with collection := List.replicate k 0 }
    detector := { listening with speech := 676000, noise := 80060, s2 := true, run := some 111 } }

/-- A sample in each of its three rows: with 0, 158 and 159 samples collected. -/
theorem test_witness_samples :
    (∀ k ∈ [0, 158, 159], (collecting k).memoryLaw ∧ (collecting k).collectionLaw ∧
      (collecting k).comesNext (fun y => some y.sampleLeft) 1) ∧
    completesDebounce 8000 false (collecting 0) = true ∧ 159 ≤ (collecting 159).receive.collection.length ∧
    (collecting 159).read (rxBase 0) = 0 ∧ ((collecting 159).write (rxBase 0) 1).read (rxBase 0) ≠ 0 := by
  dsimp only [State.memoryLaw, State.comesNext, State.collectionLaw]; decide +kernel

theorem test_witness_StatusPageRewriteShowsTheBlocks :
    let s : State := { opened with periods := 159 };
    s.memoryLaw ∧ s.comesNext (fun x => some x.pageLeft) 1 := by
  dsimp only [State.memoryLaw, State.comesNext]; decide +kernel

/-! ## The hypotheses of the statements can be met: the floor and the course of a grant -/

theorem test_witness_ArbitrationGrantsTheFirstClaimant :
    let s := queued.withFloor { queued.floor with courtesy := some 1 };
    s.memoryLaw ∧ s.comesNext (fun x => x.floor.courtesy) 1 := by dsimp only [State.memoryLaw, State.comesNext]; decide +kernel

/-- A grant in CHANGEOVER, GAP1 and GAP2, each one sample period from the end of its timer. -/
theorem test_witness_TurnaroundTimersTakeTheGrantOn :
    (let s := granting { grantIn .changeover with changeoverLeft := some 1 };
      s.memoryLaw ∧ s.comesNext (fun x => x.grantLeft (·.changeoverLeft)) 1) ∧
    (let s := granting { grantIn .gap1 with gap1Left := some 1 };
      s.memoryLaw ∧ s.comesNext (fun x => x.grantLeft (·.gap1Left)) 1) ∧
    (let s := granting { grantIn .gap2 with gap2Left := some 1 };
      s.memoryLaw ∧ s.comesNext (fun x => x.grantLeft (·.gap2Left)) 1) := by
  dsimp only [State.memoryLaw, State.comesNext]; decide +kernel

theorem test_witness_BusyWaitExpiryEndsTheWait :
    ∀ st ∈ [GrantState.waitClear, .gap1, .gap2],
      let g : Grant := { grantIn st with busyWait := .running 1 }
      (granting g).memoryLaw ∧ (granting g).key.grant = some g ∧ (granting g).comesNext (fun x => x.grantLeft (·.busyWait.left)) 1 := by
  dsimp only [State.memoryLaw, State.comesNext]; decide +kernel

/-- Grant 1 with its first four blocks in place but for block 0's state word. -/
def prebuffering (g : Grant) : State :=
  ((granting g).writeAll (txBase 0 + 1) [1, 0]) |> filled 1 |> filled 2 |> filled 3

/-- Grant 1 in PREBUFFER, held after a key-up event that was not made. -/
def heldGrant : Grant := { grantIn .prebuffer with keyUpHeld := true }

/-- R71: the key-up that a complete prebuffer brings is made; with the station STOPPED it is not, and the grant is held; and held, or
with STOPPED on its way, it is not made by a later write either, though the station is RUNNING again. -/
theorem test_key_up_not_made_is_held :
    after (.hostMemoryWrite 0x1000 1) (prebuffering (grantIn .prebuffer)) (fun t => t.key.ptt) = true ∧
    (∀ s ∈ [(prebuffering (grantIn .prebuffer)).withSupervisor
          { (prebuffering (grantIn .prebuffer)).supervisor with running := false },
        prebuffering heldGrant, (prebuffering (grantIn .prebuffer)).withNotices [.cause 1 .stopped]],
      after (.hostMemoryWrite 0x1000 1) s (fun t => t.key.grant == some heldGrant && !t.key.ptt && !t.log.reserved) = true) := by
  decide +kernel

/-- R71: the prebuffer limit leaves a held grant in PREBUFFER, with blocks and without, and the Supervisor's end cause then ends it. -/
theorem test_held_grant_waits_for_its_cause :
    (∀ s ∈ [granting { heldGrant with prebufferLeft := some 1 }, filled 0 (granting { heldGrant with prebufferLeft := some 1 })],
      after .prebufferLimitExpiry s (fun t => t.key.grant == some heldGrant && !t.key.ptt) = true) ∧
    after (.endCause 1 .stopped) ((granting heldGrant).withNotices [.cause 1 .stopped])
      (fun t => t.key.grant.isNone && t.notices == [.ended .member 1 (some 0) .stopped]) = true := by decide +kernel

/-- The first four blocks of grant 1 but for block 0's state word, in PREBUFFER, held and not; and a prebuffer limit one sample period
from its end, with and without a block, held and not. -/
theorem test_witness_PrebufferEndsInKeyUpOrNoAudio :
    (∀ g ∈ [grantIn .prebuffer, heldGrant],
      let s := prebuffering g
      s.memoryLaw ∧ s.ready = true ∧ isTxState (0x1000 : Word).toNat = true ∧ s.key.grant = some g ∧
      ∀ i, i < 4 → (s.write (0x1000 : Word).toNat 1).read (txBase i) = 1 ∧
        (s.write (0x1000 : Word).toNat 1).read (txBase i + 1) = 1 ∧ (s.write (0x1000 : Word).toNat 1).read (txBase i + 2) = word i) ∧
    (∀ g ∈ [grantIn .prebuffer, heldGrant],
      let s := granting { g with prebufferLeft := some 1 }
      s.memoryLaw ∧ s.comesNext (fun x => x.grantLeft (·.prebufferLeft)) 1 ∧ (filled 0 s).read (txBase 0) = 1) := by
  dsimp only [State.memoryLaw, State.comesNext]; decide +kernel

/-- A boundary at block 0, in KEYED and DRAIN, and one that reaches the drain limit. -/
theorem test_witness_ABlockInItsPlaceIsPlayed :
    (∀ st ∈ [GrantState.keyed, .drain],
      (filled 0 (granting (grantIn st))).memoryLaw ∧ (filled 0 (granting (grantIn st))).key.grant = some (grantIn st) ∧
      (filled 0 (granting (grantIn st))).comesNext State.boundaryLeft 1 ∧ (filled 0 (granting (grantIn st))).holdsBlock 1) ∧
    (let s := (granting (grantIn .drain)).withPlayout { (granting (grantIn .drain)).playout with drainCount := 19 };
      s.params.drainLimit ≤ s.playout.drainCount + 1) := by
  dsimp only [State.memoryLaw, State.comesNext, State.holdsBlock]; decide +kernel

/-- A boundary with no block: in KEYED before and at the audio-loss limit of 25, and in DRAIN with and without a final count. -/
theorem test_witness_AMissingBlockIsReplacedOrEndsTheGrant :
    (∀ g ∈ [grantIn .keyed, grantIn .drain, { grantIn .drain with finalCount := some 1 }], ∀ k ∈ [0, 23, 24],
      let s := (granting g).withPlayout { (granting g).playout with missingRun := k };
      s.memoryLaw ∧ s.key.grant = some g ∧ s.comesNext State.boundaryLeft 1 ∧ ¬ s.holdsBlock g.tag ∧
      (s.params.audioLoss ≤ min 65535 (s.playout.missingRun + 1) ↔ k = 24)) := by
  dsimp only [State.memoryLaw, State.comesNext, State.holdsBlock]; decide +kernel

/-- Three blocks stand ahead of position 0 with a max depth of 2 and a prebuffer target of 1. -/
def deep : State :=
  let s := granting (grantIn .keyed)
  filled 0 (filled 1 (filled 2 (filled 3 { s with params := { s.params with prebufferTarget := 1, maxDepth := 2 } })))

theorem test_witness_RecentringLeavesTheTargetDepth :
    deep.memoryLaw ∧ deep.key.grant = some (grantIn .keyed) ∧ deep.comesNext State.boundaryLeft 1 ∧ deep.holdsBlock 1 ∧
    deep.params.prebufferTarget < deep.params.maxDepth ∧
    (∀ i, i < 64 → ∀ j, j < 64 → deep.read (txBase i) = 1 → deep.read (txBase j) = 1 →
      deep.read (txBase i + 2) = deep.read (txBase j + 2) → i = j) ∧
    deep.params.maxDepth < ((List.range 64).filter fun i =>
      i != deep.playout.position % 64 && deep.counts 1 (deep.playout.position + 1) i).length := by
  dsimp only [State.memoryLaw, State.comesNext, State.holdsBlock]; decide +kernel

/-- A tick one sample period away, with a budget of 1 left; and a tail one sample period from its end. -/
theorem test_witness_TicksChargeTheHolderAndTheTailUnkeys :
    (let s := (granting { grantIn .keyed with keySamples := 799 }).withMember 0 { operator with remaining := 1 };
      s.memoryLaw ∧ s.comesNext (fun x => x.grantLeft (·.tickLeft)) 1 ∧ (s.member 0).remaining ≤ 1) ∧
    (let s := granting { grantIn .tail with tailLeft := some 1 };
      s.memoryLaw ∧ s.comesNext (fun x => x.grantLeft (·.tailLeft)) 1) := by
  dsimp only [State.memoryLaw, State.comesNext]; decide +kernel

/-- A key limit one sample period away; and a notice of a changed max key time with no grant, with a limit already passed, and with one ahead. -/
theorem test_witness_KeyLimitUnkeysTheGrant :
    (let s := granting { grantIn .keyed with keyLimit := some 1, keySamples := 7 };
      s.memoryLaw ∧ s.comesNext (fun x => x.grantLeft (·.limitLeft)) 1) ∧
    opened.key.grant = none ∧ (grantIn .keyed).kind = .member ∧ (grantIn .keyed).member = some 0 ∧
    (∀ k ∈ [479999, 480000], ∃ s : State, s = (granting { grantIn .keyed with keySamples := k, ticks := 599 }).withNotices [.keyLimit 0] ∧
      s.memoryLaw ∧ s.ready = true ∧ .keyLimit 0 ∈ s.notices ∧
      (1000 * min (s.member 0).maxKeyTime (s.channel 0).maxKeyTime ≤ ({ grantIn .keyed with keySamples := k } : Grant).keyTime ↔
        k = 480000)) := by
  refine ⟨by dsimp only [State.memoryLaw, State.comesNext]; decide +kernel, rfl, rfl, rfl, fun k hk => ⟨_, rfl, ?_⟩⟩
  revert k
  unfold State.memoryLaw; decide +kernel

theorem test_witness_RecoveryExpiryLiftsTheHold :
    let s := granting (grantIn .waitClear);
    let t := s.withKey { s.key with recovery := some 1 };
    t.memoryLaw ∧ t.comesNext (fun x => x.key.recovery) 1 := by dsimp only [State.memoryLaw, State.comesNext]; decide +kernel

/-! ## The hypotheses of the statements can be met: deadlines, identification, notices and the laws -/

theorem test_witness_SurveillanceExpiryLosesTheSession :
    let s : State := { opened with periods := 23999 };
    s.memoryLaw ∧ s.pttLaw ∧ s.comesNext (fun x => x.deadlineLeft 0) 1 :=
  ⟨by unfold State.memoryLaw; decide, pttLaw_of rfl, by unfold State.comesNext; decide +kernel⟩

theorem test_witness_PenaltyEndsAndIdentificationFallsDue :
    (let s : State := { opened.withMember 0 { operator with penaltyEnd := some 1 } with periods := 7 };
      s.memoryLaw ∧ s.comesNext (fun x => x.penaltyLeft 0) 1) ∧
    (let s : State := { readied with periods := 4799999 };
      s.memoryLaw ∧ s.comesNext State.intervalLeft 1) ∧
    (let s := opened.withIdent { opened.ident with quiet := .running 1, owed := true };
      s.memoryLaw ∧ s.comesNext (fun x => x.ident.quiet.left) 1) := by
  dsimp only [State.memoryLaw, State.comesNext]; decide +kernel

/-- The pattern about to start, sounding, in the fall of its last element, and about to end; a first element and the gap after it;
and an IDENT grant whose pattern has not begun. -/
theorem test_witness_TheIdentificationPatternIsSentToTheDac :
    (let s := granting { identIn .idSending with keySamples := 319 };
      s.comesNext State.patternStartLeft 1) ∧
    (let s := sounding 18751 0;
      (granting { identIn .idSending with keySamples := 19071 }).key.ptt = true ∧
      ({ s with key := (granting { identIn .idSending with keySamples := 19071 }).key } : State).comesNext State.patternEndLeft 1) ∧
    ((sounding 1439 0).key.ptt = true ∧ ∃ x back, pattern (sounding 1439 0).params.idText = x :: back ∧ x.tone = true ∧
      1439 < x.units * (8 * (sounding 1439 0).params.idUnit)) ∧ opened.key.ptt = false ∧
    (∃ front, pattern (sounding 18751 0).params.idText = front ++ [⟨true, 3⟩] ∧
      (sounding 18751 0).ident.position =
        some (patternUnits (pattern (sounding 18751 0).params.idText) * (8 * (sounding 18751 0).params.idUnit) + 31)) ∧
    (granting (identIn .idSending)).ident.position = none ∧ (granting (identIn .idSending)).key.grant = some (identIn .idSending) ∧
    (∀ c ∈ [26, 9, 37, 29], c ≤ 37) ∧
    (∀ st ∈ [GrantState.keyed, .drain, .tail], (granting (grantIn st)).key.ptt = true ∧
      (granting (grantIn st)).key.grant = some (grantIn st)) := by
  refine ⟨by unfold State.comesNext; decide +kernel, by unfold State.comesNext; decide +kernel,
    ⟨by decide, ⟨true, 3⟩, _, rfl, rfl, by decide⟩, by decide, ⟨(pattern [26, 9, 29]).dropLast, by decide, by decide⟩, rfl, rfl,
    by decide, by decide⟩

/-- The end notice of a claim that lives on, and of one that does not. -/
theorem test_witness_TheEndNoticeFreesTheFloor :
    let s := ({ opened with
      floor := { opened.floor with
        idle := false, granted := some { session := 0, member := 0, channel := 0, retries := some 1 } } } : State).withNotices
          [.ended .member 1 (some 0) .channelBusy];
    s.memoryLaw ∧ s.ready = true ∧ s.notices = [] ++ Notice.ended .member 1 (some 0) .channelBusy :: [] ∧
    ([] : List Notice).any isEnded = false ∧ (s.session 0).state = .opened ∧ s.entryOf 0 = none := by
  unfold State.memoryLaw; decide +kernel

/-- A state with one session OPEN keeps R18's and R19's law. -/
theorem bindingLaw_of {s : State} (h : ∀ n, (s.session n).state = if n = 0 then SessionState.opened else .free)
    (hm : ∀ n, (s.session n).member = if n = 0 then some 0 else none)
    (hd : ∀ n, n ≠ 0 → (s.session n).deadline = none) : s.bindingLaw := by
  refine ⟨fun n => ?_, fun n hn => ?_, fun n k hnk hn hk => ?_⟩
  · rw [h, hm]; split <;> simp
  · rw [h]; by_cases e : n = 0
    · rw [if_pos e]
    · exact absurd (hd n e) hn
  · rw [h] at hn hk
    by_cases e : n = 0 <;> by_cases e' : k = 0 <;> simp_all

/-- A member waiting to key, with revocation and privilege notices of it and of a member that is bound to no session. -/
def noticed : State := (granting (grantIn .waitClear)).withNotices [.revocation 0, .revocation 63, .privilege 0, .privilege 63]

theorem test_witness_RevocationAndPrivilegeNoticesAreTaken :
    noticed.memoryLaw ∧ noticed.pttLaw ∧ noticed.bindingLaw ∧ noticed.ready = true ∧
    (∀ m ∈ [(0 : MemberIx), 63], .revocation m ∈ noticed.notices ∧ .privilege m ∈ noticed.notices) ∧
    (noticed.session 0).state ≠ .free ∧ (noticed.session 0).member = some 0 ∧
    (∀ k, (noticed.session k).state ≠ .free → (noticed.session k).member ≠ some 63) :=
  ⟨by unfold State.memoryLaw; decide, pttLaw_of (by decide),
    bindingLaw_of (by decide +kernel) (by decide +kernel) (by decide +kernel), by decide, by decide, by decide, by decide,
    by decide +kernel⟩

/-- Both clear notices with an entry queued, and every cause that is sent as a notice, of the grant it names and of another. -/
theorem test_witness_ClearNoticesAndEndCausesAreTaken :
    (∀ r : ClearReason, (queued.withNotices [.clear r]).memoryLaw ∧ (queued.withNotices [.clear r]).ready = true ∧
      .clear r ∈ (queued.withNotices [.clear r]).notices) ∧
    (∀ tag r, ((granting (grantIn .keyed)).withNotices [.cause tag r]).memoryLaw ∧
      .cause tag r ∈ ((granting (grantIn .keyed)).withNotices [.cause tag r]).notices) ∧
    (∀ r ∈ [EndReason.preempted, .killed, .fault, .disabled, .stopped], r.sentAsNotice = true) ∧
    (granting (grantIn .keyed)).key.grant = some (grantIn .keyed) ∧ (grantIn .keyed).tag = 1 :=
  ⟨fun _ => ⟨(by decide : queued.mem.wf = true), (by decide : queued.ready = true), List.mem_singleton.2 rfl⟩,
    fun _ _ => ⟨(by decide : (granting (grantIn .keyed)).mem.wf = true), List.mem_singleton.2 rfl⟩, by decide, rfl, rfl⟩

/-- The arguments of the level arithmetic at the ends of its ranges. -/
theorem test_witness_TheLevelArithmetic :
    isSample 32767 ∧ isSample (-32768) ∧ (-12 : Int) ≤ 95 ∧ (95 : Int) < 96 ∧ (96 : Int) ≤ 96 := by unfold isSample; decide

/-- A keyed station with a well-formed command that goes on. -/
theorem test_witness_EveryCommandPublishesTheRecords :
    (filled 0 (granting (grantIn .keyed))).memoryLaw ∧ (filled 0 (granting (grantIn .keyed))).ready = true ∧
    Instr.blockBoundary.wellFormed = true ∧ ∃ t, exec .blockBoundary (filled 0 (granting (grantIn .keyed))) = .next t :=
  ⟨by unfold State.memoryLaw; decide +kernel, by decide, by decide, next_of (by decide +kernel)⟩

/-- Words of the host's: the read mark, plain storage, a host tag and a block's sequence. -/
theorem test_witness_TheHostsWordsAreTheHosts :
    hostWord markAddress ∧ hostWord 0x7FFF ∧ hostWord (cellBase 0 + 2) ∧ hostWord 0x1001 ∧ opened.memoryLaw ∧ opened.collectionLaw ∧
    opened.ready = true :=
  ⟨.inr (.inl rfl), .inl (by unfold plainStorage inArea; decide), .inr (.inr (.inl ⟨0, .inl (by unfold inArea; decide)⟩)),
    .inr (.inr (.inr ⟨by unfold inArea; decide, by decide⟩)), by unfold State.memoryLaw; decide,
    by unfold State.collectionLaw; decide, by decide⟩

/-- Full metered budgets keep R1's law. -/
theorem budgetLaw_of {s : State}
    (h : ∀ m, (s.member m).unmetered = false ∧ (s.member m).allowance = some (s.member m).remaining) : s.budgetLaw := fun m => by
  unfold Member.budgetLaw
  rw [if_neg (by rw [(h m).1]; decide)]
  exact ⟨_, (h m).2, Nat.le_refl _⟩

/-- A keyed station with a block boundary as its next command. -/
def keyedUp : State := { granting (grantIn .keyed) with pending := [.blockBoundary] }

theorem keyedUp_grant {g : Grant} (h : keyedUp.key.grant = some g) : g = grantIn .keyed := (Option.some.inj h).symm

/-- A keyed station has every law, and its next boundary is a step to a next state. -/
theorem test_witness_EveryStepKeepsTheLaws :
    keyedUp.Sound ∧ keyedUp.Lawful ∧ keyedUp.keyLimitLaw ∧ ∃ t, step keyedUp = .next t := by
  refine ⟨?_, ?_, fun g l h _ hl => ?_, next_of (by decide +kernel)⟩
  · constructor
    · unfold State.memoryLaw; decide
    · unfold State.detectorLaw; decide
    · unfold State.collectionLaw; decide
    · exact budgetLaw_of (by decide)
    · exact bindingLaw_of (by decide) (by decide) (by decide)
    · exact fun y h => by cases h
    · exact fun g h => by rw [keyedUp_grant h]; decide
  · constructor
    · unfold State.floorLaw; decide
    · exact fun g h => by rw [keyedUp_grant h]; unfold Grant.lawful; decide
    · exact fun _ => ⟨⟨_, rfl, rfl⟩, by decide⟩
    · unfold State.queueLaw; decide
    · unfold State.holderLaw; decide
    · exact ⟨by decide, fun _ => ⟨_, rfl, rfl⟩, fun _ => rfl⟩
  · rw [keyedUp_grant h] at hl ⊢; cases hl; decide

/-- A station with a held grant and STOPPED on its way to it, and a host write as its next command. -/
def heldUp : State := { granting heldGrant with notices := [.cause 1 .stopped], pending := [.hostMemoryWrite 0x1000 1] }

theorem heldUp_grant {g : Grant} (h : heldUp.key.grant = some g) : g = heldGrant := (Option.some.inj h).symm

/-- A station with a held grant has every law too, and goes on. -/
theorem test_witness_EveryStepKeepsTheLaws_held :
    heldUp.Sound ∧ heldUp.Lawful ∧ heldUp.keyLimitLaw ∧ heldUp.key.grant = some heldGrant ∧ heldGrant.keyUpHeld = true ∧
      ∃ t, step heldUp = .next t := by
  refine ⟨?_, ?_, fun g l h _ hl => ?_, rfl, rfl, next_of (by decide +kernel)⟩
  · constructor
    · unfold State.memoryLaw; decide
    · unfold State.detectorLaw; decide
    · unfold State.collectionLaw; decide
    · exact budgetLaw_of (by decide)
    · exact bindingLaw_of (by decide) (by decide) (by decide)
    · exact fun y h => by cases h
    · exact fun g h => by rw [heldUp_grant h]; decide
  · constructor
    · unfold State.floorLaw; decide
    · exact fun g h => by rw [heldUp_grant h]; unfold Grant.lawful; decide
    · exact fun h => absurd h (by decide)
    · unfold State.queueLaw; decide
    · unfold State.holderLaw; decide
    · exact ⟨by decide, fun h => absurd h (by decide), fun ⟨g, h, ho⟩ => by rw [heldUp_grant h] at ho; exact absurd ho (by decide)⟩
  · rw [heldUp_grant h] at hl ⊢; cases hl; decide

end Sys2Proof.Tests
end

section
/-! Certificates of the member and channel table requests READ MEMBER, READ CHANNEL and SET CHANNEL (R7, R9, R11): their
arguments and word forms first, then each request's outcome, then the statements. -/

namespace Sys2Proof.Machine

/-! ## Arguments -/

theorem memberArg_eq_some {w : Word} {m : MemberIx} (h : w.toNat = m.val) : memberArg w = some m := by
  unfold memberArg
  rw [dif_pos (h ▸ m.isLt)]
  exact congrArg some (Fin.ext h)

theorem memberArg_eq_none {w : Word} (h : 64 ≤ w.toNat) : memberArg w = none := dif_neg (Nat.not_lt.2 h)

theorem channelArg_eq_some {w : Word} {c : ChannelIx} (h : w.toNat = c.val) : channelArg w = some c := by
  unfold channelArg
  rw [dif_pos (h ▸ c.isLt)]
  exact congrArg some (Fin.ext h)

theorem channelArg_eq_none {w : Word} (h : 16 ≤ w.toNat) : channelArg w = none := dif_neg (Nat.not_lt.2 h)

theorem yesNo_eq_some {w : Word} {b : Bool} (h : w.toNat = b.toNat) : yesNo w = some b := by
  obtain rfl : w = BitVec.ofNat 16 b.toNat := by rw [← h, BitVec.ofNat_toNat, BitVec.setWidth_eq]
  cases b <;> rfl

theorem yesNo_eq_none {w : Word} (h : 2 ≤ w.toNat) : yesNo w = none := by
  have h0 : w ≠ 0 := by rintro rfl; exact absurd h (by decide)
  have h1 : w ≠ 1 := by rintro rfl; exact absurd h (by decide)
  unfold yesNo
  rw [if_neg h0, if_neg h1]

/-- The defined codes of a yes/no argument are those of the two flags. -/
theorem exists_flag_of_lt_two {n : Nat} (h : n < 2) : ∃ b : Bool, n = b.toNat := by
  obtain rfl | rfl : n = 0 ∨ n = 1 := by omega
  · exact ⟨false, rfl⟩
  · exact ⟨true, rfl⟩

/-! ## Word forms -/

/-- One more flag in front of a word of flags: it takes bit 0, and the others move up by one. -/
theorem flagWord_or_shift (b : Bool) (n : Nat) : flagWord b ||| (word n <<< 1) = word (b.toNat + 2 * n) := by
  have hw : word n <<< 1 = word (2 * n) := by
    apply BitVec.eq_of_toNat_eq
    simp only [word, BitVec.toNat_shiftLeft, BitVec.toNat_ofNat, Nat.shiftLeft_eq]
    omega
  have hd : flagWord b &&& word (2 * n) = 0 := by
    rw [← hw]
    ext i hi
    cases b <;> cases i <;> simp [flagWord]
  rw [hw, ← BitVec.add_eq_or_of_and_eq_zero _ _ hd]
  cases b <;> simp [flagWord, word, BitVec.ofNat_add]

/-- Flags as a number, the first with weight 1 and each further one with twice the weight of the one before. -/
def flagsValue : List Bool → Nat
  | [] => 0
  | b :: rest => b.toNat + 2 * flagsValue rest

theorem flagsWord_eq (bs : List Bool) : flagsWord bs = word (flagsValue bs) := by
  induction bs with
  | nil => rfl
  | cons b rest ih => rw [flagsWord, ih, flagWord_or_shift, flagsValue]

theorem flagsWord_three (a b c : Bool) : flagsWord [a, b, c] = word (a.toNat + 2 * b.toNat + 4 * c.toNat) := by
  rw [flagsWord_eq]
  congr 1
  simp only [flagsValue]
  omega

theorem flagsWord_five (a b c d e : Bool) :
    flagsWord [a, b, c, d, e] = word (a.toNat + 2 * b.toNat + 4 * c.toNat + 8 * d.toNat + 16 * e.toNat) := by
  rw [flagsWord_eq]
  congr 1
  simp only [flagsValue]
  omega

theorem lowWord_eq (t : Clock) : lowWord t = t.extractLsb' 0 16 := by
  ext i hi; simp [lowWord]

theorem highWord_eq (t : Clock) : highWord t = t.extractLsb' 16 16 := by
  ext i hi; simp [highWord]

theorem penaltyInForce_eq (s : State) (m : MemberIx) :
    s.penaltyInForce m = ((s.member m).penaltyEnd.isSome &&
      !decide ((s.clock - (s.member m).penaltyEnd.getD 0).toNat < 2 ^ 31)) := by
  unfold State.penaltyInForce reached
  cases (s.member m).penaltyEnd <;> rfl

theorem channelInUse_iff {s : State} {c : ChannelIx} :
    s.channelInUse c = true ↔ ∃ g, s.key.grant = some g ∧ g.channel = c := by
  unfold State.channelInUse
  cases s.key.grant <;> simp

/-! ## Each row is the service of the station cell with its request -/

section rows
variable {s : State}

theorem exec_readMember_of_serves (h : s.serves 0 .readMember) :
    exec .readMember s = .next (event (serve 0 readMemberRequest) s) :=
  congrArg Host.Outcome.next (stationService_eq h)

theorem exec_readChannel_of_serves (h : s.serves 0 .readChannel) :
    exec .readChannel s = .next (event (serve 0 readChannelRequest) s) :=
  congrArg Host.Outcome.next (stationService_eq h)

theorem exec_setChannel_of_serves (h : s.serves 0 .setChannel) :
    exec .setChannel s = .next (event (serve 0 setChannelRequest) s) :=
  congrArg Host.Outcome.next (stationService_eq h)

end rows

/-! ## READ MEMBER (R7) -/

theorem readMemberRequest_of_index {s : State} {m : MemberIx} {ws : List Word} (h : (s.argument 0 0).toNat = m.val)
    (hw : s.memberWords m = ws) : readMemberRequest s = (s, { code := .done, clamped := false, words := ws }) := by
  unfold readMemberRequest
  rw [memberArg_eq_some h, ← hw]

theorem readMemberRequest_of_badIndex {s : State} (h : 64 ≤ (s.argument 0 0).toNat) :
    readMemberRequest s = (s, .plain .badValue) := by
  unfold readMemberRequest
  rw [memberArg_eq_none h]
  rfl

/-- Settles O22: either answer leaves the state alone, and the words of 11.2 are the model's, field by field. -/
theorem readMemberAnswersTheRecord : Obligations.ReadMemberAnswersTheRecord := by
  unfold Obligations.ReadMemberAnswersTheRecord
  intro s hs h
  refine ⟨fun m hm => ⟨_, exec_readMember_of_serves h,
      only_answers hs (readMemberRequest_of_index hm ?_) (show 13 ≤ 16 by decide)⟩,
    fun hm => ⟨_, exec_readMember_of_serves h, only_answers hs (readMemberRequest_of_badIndex hm) (Nat.zero_le _)⟩⟩
  unfold State.memberWords
  dsimp only
  rw [flagsWord_five, penaltyInForce_eq, lowWord_eq, highWord_eq]
  -- what is left are the two fields with a marker: the allowance, absent or not, and the trim, MUTED or not
  cases (s.member m).allowance <;> cases (s.member m).trim <;> rfl

/-! ## READ CHANNEL (R11) -/

theorem readChannelRequest_of_index {s : State} {c : ChannelIx} {ws : List Word} (h : (s.argument 0 0).toNat = c.val)
    (hw : s.channelWords c = ws) : readChannelRequest s = (s, { code := .done, clamped := false, words := ws }) := by
  unfold readChannelRequest
  rw [channelArg_eq_some h, ← hw]

theorem readChannelRequest_of_badIndex {s : State} (h : 16 ≤ (s.argument 0 0).toNat) :
    readChannelRequest s = (s, .plain .badValue) := by
  unfold readChannelRequest
  rw [channelArg_eq_none h]
  rfl

/-- Settles O23: either answer leaves the state alone, and the words of 11.2 are the model's, with a grant and without. -/
theorem readChannelAnswersTheRecord : Obligations.ReadChannelAnswersTheRecord := by
  unfold Obligations.ReadChannelAnswersTheRecord
  intro s hs h
  refine ⟨fun c hc => ⟨_, exec_readChannel_of_serves h,
      only_answers hs (readChannelRequest_of_index hc ?_) (show 6 ≤ 16 by decide)⟩,
    fun hc => ⟨_, exec_readChannel_of_serves h, only_answers hs (readChannelRequest_of_badIndex hc) (Nat.zero_le _)⟩⟩
  unfold State.channelWords State.channelInUse
  dsimp only
  rw [flagsWord_three]
  cases s.key.grant <;> rfl

/-! ## SET CHANNEL (R9) -/

theorem setChannelRequest_of_badIndex {s : State} (h : 16 ≤ (s.argument 0 0).toNat) :
    setChannelRequest s = (s, .plain .badValue) := by
  unfold setChannelRequest
  rw [channelArg_eq_none h]
  rfl

section setChannel
variable {s : State} {c : ChannelIx} (h : (s.argument 0 0).toNat = c.val)
include h

theorem setChannelRequest_of_inUse (hu : s.channelInUse c = true) : setChannelRequest s = (s, .plain .busy) := by
  unfold setChannelRequest
  rw [channelArg_eq_some h]
  exact if_pos hu

/-- Past the check for a channel in use, the present word decides, and with present yes the busy check word. -/
theorem setChannelRequest_of_free (hu : ¬ s.channelInUse c = true) :
    setChannelRequest s =
      match yesNo (s.argument 0 1) with
      | none => refuse .badValue s
      | some false => done (s.withChannel c Channel.reset)
      | some true =>
        match yesNo (s.argument 0 6) with
        | none => refuse .badValue s
        | some b => (s.withChannel c (s.channelArgs b).1, { code := .done, clamped := (s.channelArgs b).2, words := [] }) := by
  unfold setChannelRequest
  rw [channelArg_eq_some h]
  exact if_neg hu

theorem setChannelRequest_of_badCode (hu : ¬ s.channelInUse c = true)
    (hr : 2 ≤ (s.argument 0 1).toNat ∨ ((s.argument 0 1).toNat = 1 ∧ 2 ≤ (s.argument 0 6).toNat)) :
    setChannelRequest s = (s, .plain .badValue) := by
  rw [setChannelRequest_of_free h hu]
  rcases hr with hp | ⟨hp, hb⟩
  · rw [yesNo_eq_none hp]; rfl
  · rw [yesNo_eq_some (b := true) hp, yesNo_eq_none hb]; rfl

theorem setChannelRequest_of_absent (hu : ¬ s.channelInUse c = true) (hp : (s.argument 0 1).toNat = 0) :
    setChannelRequest s = (s.withChannel c Channel.reset, .plain .done) := by
  rw [setChannelRequest_of_free h hu, yesNo_eq_some (b := false) hp]; rfl

theorem setChannelRequest_of_present (hu : ¬ s.channelInUse c = true) (hp : (s.argument 0 1).toNat = 1) {b : Bool}
    (hb : (s.argument 0 6).toNat = b.toNat) :
    setChannelRequest s =
      (s.withChannel c (s.channelArgs b).1, { code := .done, clamped := (s.channelArgs b).2, words := [] }) := by
  rw [setChannelRequest_of_free h hu, yesNo_eq_some (b := true) hp, yesNo_eq_some hb]

end setChannel

/-- A clamp changes an argument exactly where it lies outside the range. -/
theorem clamp_ne_iff {lo hi x : Nat} (h : lo ≤ hi) : clamp lo hi x ≠ x ↔ x < lo ∨ hi < x := by
  unfold clamp; omega

/-- The record that SET CHANNEL writes, field by field. -/
theorem channelArgs_record (s : State) (b : Bool) :
    (s.channelArgs b).1 =
      { present := true, radioMemory := min 63 (s.argument 0 2).toNat, minGrade := max 1 (min 3 (s.argument 0 3).toNat),
        maxKeyTime := max 10 (min 600 (s.argument 0 4).toNat), attenuation := min 60 (s.argument 0 5).toNat,
        busyCheck := b } := by
  simp only [State.channelArgs, clamp, Nat.zero_max]

/-- CLAMPED is set exactly where one of the four numbers lies outside its range. -/
theorem channelArgs_clamped (s : State) (b : Bool) :
    (s.channelArgs b).2 = true ↔
      63 < (s.argument 0 2).toNat ∨ (s.argument 0 3).toNat = 0 ∨ 3 < (s.argument 0 3).toNat ∨ (s.argument 0 4).toNat < 10 ∨
        600 < (s.argument 0 4).toNat ∨ 60 < (s.argument 0 5).toNat := by
  simp only [State.channelArgs, Bool.or_eq_true, bne_iff_ne, clamp_ne_iff (Nat.zero_le _),
    clamp_ne_iff (show 1 ≤ 3 by decide), clamp_ne_iff (show 10 ≤ 600 by decide)]
  omega

/-- What the host sees of a station-cell request whose whole work is one channel record written. -/
theorem served_withChannel {body : State → State × Answer} {s : State} {c : ChannelIx} {r : Channel} {a : Answer}
    (hs : s.memoryLaw) (hb : body s = (s.withChannel c r, a)) (hw : a.words.length ≤ 16) :
    let t := event (serve 0 body) s
    t.channel c = r ∧ (∀ k, k ≠ c → t.channel k = s.channel k) ∧ Served s t 0 a ∧ ServiceFrame 0 [.channels] noWord s t ∧
      t.bus.events = s.bus.events ||| bitWord 0 := by
  intro t
  have hv := serve_event (ps := [.channels]) (Q := noWord) (c := 0) (body := body) (s := s)
    (by rw [hb]; exact withChannel_frame) (by rw [hb]; exact hs) (by rw [hb]; exact .of_mem rfl) (by rw [hb]; exact hw)
  rw [hb] at hv
  obtain ⟨hserved, hframe, -, hrest, hevents⟩ := hv
  have hchannels : t.channels = (s.withChannel c r).channels := hrest .channels (by decide)
  have hchannel : ∀ k, t.channel k = if k = c then r else s.channel k := fun k => by
    rw [← State.withChannel_channel, State.channel, hchannels, State.channel]
  exact ⟨by rw [hchannel, if_pos rfl], fun k hk => by rw [hchannel, if_neg hk], hserved, hframe, hevents⟩

/-- Settles O24: one outcome of the request for each check in R9's order, then the record written with either present code. -/
theorem setChannelWritesTheRecord : Obligations.SetChannelWritesTheRecord := by
  unfold Obligations.SetChannelWritesTheRecord
  intro s hs h a
  refine ⟨fun h0 => ⟨_, exec_setChannel_of_serves h,
    only_answers hs (setChannelRequest_of_badIndex h0) (Nat.zero_le _)⟩, ?_⟩
  intro c hc inUse refused
  refine ⟨_, exec_setChannel_of_serves h, fun hu => ?_, fun hu hr => ?_, fun hu hr => ?_⟩
  · exact only_answers hs (setChannelRequest_of_inUse hc (channelInUse_iff.2 hu)) (Nat.zero_le _)
  · exact only_answers hs (setChannelRequest_of_badCode hc (mt channelInUse_iff.1 hu) hr) (Nat.zero_le _)
  · have hfree : ¬ s.channelInUse c = true := mt channelInUse_iff.1 hu
    obtain ⟨hpresent, hbusy⟩ : a 1 < 2 ∧ (a 1 = 1 → a 6 < 2) := by
      refine ⟨?_, fun h1 => ?_⟩ <;> by_contra hge
      · exact hr (.inl (Nat.not_lt.1 hge))
      · exact hr (.inr ⟨h1, Nat.not_lt.1 hge⟩)
    by_cases h0 : a 1 = 0
    · have h1 : ¬ a 1 = 1 := by omega
      rw [if_pos h0, decide_eq_false fun hx => h1 hx.1]
      exact served_withChannel hs (setChannelRequest_of_absent hc hfree h0) (Nat.zero_le _)
    · have h1 : a 1 = 1 := by omega
      obtain ⟨b, hb⟩ := exists_flag_of_lt_two (hbusy h1)
      have hflag : decide (a 6 = 1) = b := by rw [hb]; cases b <;> rfl
      have hclamped : (s.channelArgs b).2 = decide (a 1 = 1 ∧
          (63 < a 2 ∨ a 3 = 0 ∨ 3 < a 3 ∨ a 4 < 10 ∨ 600 < a 4 ∨ 60 < a 5)) := by
        rw [Bool.eq_iff_iff, decide_eq_true_iff, channelArgs_clamped]
        exact (and_iff_right h1).symm
      rw [if_neg h0, hflag, ← hclamped, ← channelArgs_record]
      exact served_withChannel hs (setChannelRequest_of_present hc hfree h1 hb) (Nat.zero_le _)

end Sys2Proof.Machine
end

section
/-! Certificates of the session requests CLOSE SESSION and EJECT, of NOP and KEEPALIVE, and of requests with no defined kind (R23,
R24, R26, R166): the slot argument and the tables of codes first, then each request's outcome, then the statements. -/

namespace Sys2Proof.Machine

theorem slotArg_eq_some {w : Word} {k : Slot} (h : w.toNat = k.number) : slotArg w = some k := by
  have hk : w.toNat = k.val + 1 := h
  have hlt := k.isLt
  unfold slotArg
  rw [dif_pos (by omega)]
  exact congrArg some (Fin.ext (by simp only [hk, Nat.add_sub_cancel]))

theorem slotArg_eq_none {w : Word} (h : w.toNat = 0 ∨ 16 < w.toNat) : slotArg w = none := dif_neg (by omega)

theorem cell_ne_zero (n : Slot) : n.cell ≠ 0 := Fin.succ_ne_zero n

/-! ## What the gate leaves alone -/

theorem gated_argument (s : State) (n : Slot) (c : Cell) (i : Nat) : (s.gated n).argument c i = s.argument c i := by
  unfold State.argument State.read
  rw [gated_mem]

theorem gated_periodFor (s : State) (n : Slot) : (s.gated n).periodFor n = s.periodFor n := by
  have hkey : (s.gated n).key = s.key := gated_frame s n .key (by decide)
  have hparams : (s.gated n).params = s.params := gated_frame s n .params (by decide)
  unfold State.periodFor State.holdsOnAir
  rw [hkey, hparams]

theorem gated_state {s : State} {n : Slot} (h : (s.session n).state = .opened) (k : Slot) :
    ((s.gated n).session k).state = (s.session k).state := by
  rw [gated_session s n k h]
  split
  · next hk => rw [hk]
  · rfl

theorem gated_pttLaw {s : State} (n : Slot) (h : s.pttLaw) : (s.gated n).pttLaw := by
  have hkey : (s.gated n).key = s.key := gated_frame s n .key (by decide)
  have hsupervisor : (s.gated n).supervisor = s.supervisor := gated_frame s n .supervisor (by decide)
  have hphase : (s.gated n).phase = s.phase := gated_frame s n .phase (by decide)
  unfold State.pttLaw State.pttForbidden State.ready at *
  rwa [hkey, hsupervisor, hphase]

/-! ## Each row is the service of its cell with its request -/

section rows
variable {s : State}

theorem exec_nop_of_serves (h : s.serves 0 .nop) : exec .nop s = .next (event (serve 0 done) s) :=
  congrArg Host.Outcome.next (stationService_eq h)

theorem exec_closeSession_of_serves (h : s.serves 0 .closeSession) :
    exec .closeSession s = .next (event (serve 0 closeSessionRequest) s) :=
  congrArg Host.Outcome.next (stationService_eq h)

theorem exec_undefinedRequest_of_serves_station (h : s.serves 0 .undefinedRequest) :
    exec .undefinedRequest s = .next (event (serve 0 (refuse .badRequest)) s) :=
  (if_pos h.2.1).trans (congrArg Host.Outcome.next (stationService_eq h))

variable {n : Slot}

theorem exec_undefinedRequest_of_serves_session (h : s.serves n.cell .undefinedRequest) :
    exec .undefinedRequest s = .next (event (serve n.cell (gate n (refuse .badRequest))) s) := by
  have hcell : s.nextCell ≠ some 0 := fun h0 => cell_ne_zero n (Option.some.inj (h.2.1.symm.trans h0))
  exact (if_neg hcell).trans (congrArg Host.Outcome.next (sessionService_eq h))

theorem exec_keepalive_of_serves (h : s.serves n.cell .keepalive) :
    exec .keepalive s = .next (event (serve n.cell (gate n (keepaliveRequest n))) s) :=
  congrArg Host.Outcome.next (sessionService_eq h)

theorem exec_eject_of_serves (h : s.serves n.cell .eject) :
    exec .eject s = .next (event (serve n.cell (gate n (ejectRequest n))) s) :=
  congrArg Host.Outcome.next (sessionService_eq h)

end rows

/-! ## The close of the slot that an argument word names (R23, R24) -/

/-- What CLOSE SESSION and EJECT have in common: the slot of the argument word `w` closed with the reason `r`. -/
def closeSlot (w : Word) (r : EndReason) (s : State) : State × Answer :=
  match slotArg w with
  | none => refuse .badValue s
  | some k => if (s.session k).state = .free then refuse .already s else done (closeSession k r s)

theorem closeSessionRequest_eq (s : State) : closeSessionRequest s = closeSlot (s.argument 0 0) .closed s := rfl

theorem ejectRequest_of_operator {s : State} {n : Slot} (h : s.isOperator n = true) :
    ejectRequest n s = closeSlot (s.argument n.cell 0) .ejected s := by
  unfold ejectRequest
  rw [h]
  rfl

theorem closeSlot_of_badSlot {w : Word} (r : EndReason) (s : State) (h : w.toNat = 0 ∨ 16 < w.toNat) :
    closeSlot w r s = (s, .plain .badValue) := by
  unfold closeSlot
  rw [slotArg_eq_none h]
  rfl

section slot
variable {w : Word} {k : Slot} {s : State} (r : EndReason) (h : w.toNat = k.number)
include h

theorem closeSlot_of_free (hk : (s.session k).state = .free) : closeSlot w r s = (s, .plain .already) := by
  unfold closeSlot
  rw [slotArg_eq_some h]
  exact if_pos hk

theorem closeSlot_of_bound (hk : ¬ (s.session k).state = .free) :
    closeSlot w r s = (closeSession k r s, .plain .done) := by
  unfold closeSlot
  rw [slotArg_eq_some h]
  exact if_neg hk

end slot

/-- The service of a request whose work is, after the gate's work on the session records, the close of slot `k`. -/
theorem serves_closeSession {c : Cell} {body : State → State × Answer} {s u : State} {k : Slot} {r : EndReason}
    (hs : s.memoryLaw) (hu : OnlyChanges [.sessions] s u) (hb : body s = (closeSession k r u, .plain .done)) :
    ServesTo c (.plain .done) closeParts (endStores s) s (closeSession k r u) (event (serve c body) s) := by
  have hframe : OnlyChanges closeParts s (closeSession k r u) := hu.mono.trans (closeSession_frame k r u)
  have hstores : Stores (logPlace s.log) s (closeSession k r u) :=
    (Stores.of_mem (hu .mem (by decide))).trans ((closeSession_stores k r u).at (hu .log (by decide)))
  exact serve_to hb hframe hstores hs (Nat.zero_le _)

/-- Settles O27: CLOSE SESSION from the state as it stands, and EJECT from the state that the gate leaves. -/
theorem closeSessionAndEjectCloseTheSlot : Obligations.CloseSessionAndEjectCloseTheSlot := by
  unfold Obligations.CloseSessionAndEjectCloseTheSlot
  refine ⟨fun s hs hp h => ⟨fun hx => ?badSlot, fun k hx => ?slot⟩,
    fun s n hs hp ⟨h, ho⟩ hop => ⟨fun hx => ?ejectBadSlot, fun k hx => ?ejectSlot⟩⟩
  case badSlot =>
    exact ⟨_, exec_closeSession_of_serves h, only_answers hs (closeSlot_of_badSlot _ s hx) (Nat.zero_le _)⟩
  case slot =>
    refine ⟨_, exec_closeSession_of_serves h, ?_⟩
    split
    · next hk => exact only_answers hs (closeSlot_of_free _ hx hk) (Nat.zero_le _)
    · next hk =>
      exact ⟨_, closeSession_spec k .closed s hs hp rfl,
        serves_closeSession hs (.refl _ s) (closeSlot_of_bound .closed hx hk)⟩
  all_goals
    have heject : ejectRequest n (s.gated n) = closeSlot (s.argument n.cell 0) .ejected (s.gated n) := by
      rw [ejectRequest_of_operator (gated_operator.trans (isOperator_iff.2 hop)), gated_argument]
  case ejectBadSlot =>
    exact ⟨_, exec_eject_of_serves h,
      only_noted hs ho (heject.trans (closeSlot_of_badSlot _ _ hx)) (Nat.zero_le _)⟩
  case ejectSlot =>
    refine ⟨_, exec_eject_of_serves h, ?_⟩
    rw [← gated_state ho k]
    split
    · next hk => exact only_noted hs ho (heject.trans (closeSlot_of_free _ hx hk)) (Nat.zero_le _)
    · next hk =>
      have hmem : (s.gated n).memoryLaw := (Stores.of_mem (P := noWord) (gated_mem s n)).law hs
      exact ⟨_, closeSession_spec k .ejected _ hmem (gated_pttLaw n hp) rfl,
        serves_closeSession hs (gated_frame s n)
          ((gate_open ho).trans (heject.trans (closeSlot_of_bound .ejected hx hk)))⟩

/-! ## The tables of 11.2 -/

theorem stationKind_eq (x : Nat) : stationKind x =
    [.undefinedRequest, .nop, .start, .stop, .holdFloor, .resumeFloor, .setStation, .setMember, .readMember, .setChannel,
      .readChannel, .refill, .openSession, .closeSession, .clearLockout, .kill, .detectorHold, .detectorRelease].getD
      x .undefinedRequest := by
  by_cases h : x < 18
  · revert x; decide
  · obtain ⟨j, rfl⟩ := Nat.exists_eq_add_of_le' (Nat.not_lt.1 h)
    rfl

theorem sessionKind_of_lt {x : Nat} (h : x < 0x20) : sessionKind x = .undefinedRequest := by revert x; decide

theorem sessionKind_add (j : Nat) : sessionKind (j + 0x20) =
    [.keepalive, .key, .release, .preempt, .killFromSession, .clearLockoutFromSession, .eject, .holdFloorFromSession,
      .resumeFloorFromSession].getD j .undefinedRequest := by
  by_cases h : j < 9
  · revert j; decide
  · obtain ⟨i, rfl⟩ := Nat.exists_eq_add_of_le' (Nat.not_lt.1 h)
    rfl

theorem requestIn_station (s : State) : s.requestIn 0 = stationKind (s.read 0x101).toNat := rfl

theorem requestIn_session (s : State) (n : Slot) :
    s.requestIn n.cell = sessionKind (s.read (0x101 + 64 * n.number)).toNat := by
  have ha : cellBase n.cell + 1 = 0x101 + 64 * n.number := by
    show 0x100 + 64 * (n.val + 1) + 1 = 0x101 + 64 * (n.val + 1)
    omega
  rw [← ha]
  exact if_neg (cell_ne_zero n)

theorem codeWord_eq (a : Answer) : a.codeWord = word (a.code.code + 256 * a.clamped.toNat) := by
  unfold Answer.codeWord
  cases a.clamped <;> rfl

theorem carriesWords_iff (c : AnswerCode) : c.carriesWords = true ↔ c = .done ∨ c = .queued := by
  cases c <;> decide

/-- Settles O9: the four answers, of which the two in a session cell come after the gate, and then the tables row by row. -/
theorem nopKeepaliveAndUndefinedRequestsAreAnswered : Obligations.NopKeepaliveAndUndefinedRequestsAreAnswered := by
  unfold Obligations.NopKeepaliveAndUndefinedRequestsAreAnswered
  refine ⟨fun s hs h => ?nop, fun s hs h => ?undefinedStation, fun s n hs ⟨h, ho⟩ => ?undefinedSession,
    fun s n hs ⟨h, ho⟩ => ?keepalive, fun s => ?stationTable, fun s n => ?sessionTable, fun now => rfl, rfl,
    fun a => ⟨codeWord_eq a, carriesWords_iff a.code⟩⟩
  case nop => exact ⟨_, exec_nop_of_serves h, only_answers hs rfl (Nat.zero_le _)⟩
  case undefinedStation =>
    exact ⟨_, exec_undefinedRequest_of_serves_station h, only_answers hs rfl (Nat.zero_le _)⟩
  case undefinedSession =>
    exact ⟨_, exec_undefinedRequest_of_serves_session h, only_noted hs ho rfl (Nat.zero_le _)⟩
  case keepalive =>
    refine ⟨_, exec_keepalive_of_serves h, only_noted hs ho ?_ (show 1 ≤ 16 by decide)⟩
    unfold keepaliveRequest
    rw [gated_periodFor]
  case stationTable => rw [requestIn_station, stationKind_eq]
  case sessionTable =>
    intro kind
    rw [requestIn_session]
    show sessionKind kind = _
    split
    · next hlt => exact sessionKind_of_lt hlt
    · next hge =>
      obtain ⟨j, hj⟩ := Nat.exists_eq_add_of_le' (Nat.not_lt.1 hge)
      rw [hj, Nat.add_sub_cancel]
      exact sessionKind_add j

end Sys2Proof.Machine
end

section
/-! Certificate of the level arithmetic (R104). Its idea: up to saturation, every stage but the doubling of c = −1 multiplies by a
positive fraction of at most 1 and rounds toward minus infinity, and such a stage keeps the sign of the sample and never takes it
further from 0 (`Attenuates`). -/

namespace Sys2Proof.Machine

/-! ## A sample moved toward 0 with its sign kept -/

/-- `y` has the sign of `x` and is no larger in magnitude; a negative `x` does not reach 0 (R104, the text below its table). -/
def Attenuates (x y : Int) : Prop := (0 ≤ x → 0 ≤ y ∧ y ≤ x) ∧ (x < 0 → x ≤ y ∧ y < 0)

namespace Attenuates

variable {x y z : Int}

theorem trans (hxy : Attenuates x y) (hyz : Attenuates y z) : Attenuates x z := by
  unfold Attenuates at *
  omega

theorem isSample (h : Attenuates x y) (hx : isSample x) : isSample y := by
  unfold Attenuates at h
  unfold Machine.isSample at *
  omega

theorem natAbs_le (h : Attenuates x y) : y.natAbs ≤ x.natAbs := by
  unfold Attenuates at h
  omega

theorem neg (h : Attenuates x y) (hx : x < 0) : y < 0 := (h.2 hx).2

/-- −1 is the negative sample nearest to 0, so it stays. -/
theorem eq_neg_one (h : Attenuates (-1) y) : y = -1 := by
  unfold Attenuates at h
  omega

end Attenuates

/-- Multiplying by `m / d` with 0 < `m` ≤ `d`, rounded toward minus infinity. -/
theorem attenuates_mul_ediv (x : Int) {m d : Int} (hm : 0 < m) (hmd : m ≤ d) : Attenuates x (x * m / d) := by
  have hd : 0 < d := Int.lt_of_lt_of_le hm hmd
  refine ⟨fun hx => ⟨?_, ?_⟩, fun hx => ⟨?_, ?_⟩⟩
  · exact Int.ediv_nonneg (Int.mul_nonneg hx hm.le) hd.le
  · exact Int.ediv_le_of_le_mul hd (Int.mul_le_mul_of_nonneg_left hmd hx)
  · exact (Int.le_ediv_iff_mul_le hd).2 (Int.mul_le_mul_of_nonpos_left hx.le hmd)
  · exact Int.ediv_neg_of_neg_of_pos (Int.mul_neg_of_neg_of_pos hx hm) hd

/-! ## The stages -/

theorem fine_range : ∀ f ≤ 11, 0 < fine f ∧ fine f ≤ 2 ^ 15 := by decide

/-- F[f] is 32768 · 10^(−f/40) rounded to the nearest integer: the bounds F[f] ± 1/2, doubled and raised to the 40th power. -/
theorem fine_rounds : ∀ f ≤ 11,
    ((2 * fine f).toNat - 1) ^ 40 * 10 ^ f ≤ 65536 ^ 40 ∧ 65536 ^ 40 ≤ ((2 * fine f).toNat + 1) ^ 40 * 10 ^ f := by decide

theorem fineStage_attenuates (x : Int) {f : Nat} (hf : f ≤ 11) : Attenuates x (x * fine f / 2 ^ 15) :=
  attenuates_mul_ediv x (fine_range f hf).1 (fine_range f hf).2

theorem product_range {x : Int} (hx : isSample x) {f : Nat} (hf : f ≤ 11) :
    -(2 ^ 30) ≤ x * fine f ∧ x * fine f ≤ 2 ^ 30 := by
  obtain ⟨hpos, hle⟩ := fine_range f hf
  obtain ⟨hlow, hhigh⟩ := hx
  constructor <;> nlinarith only [hpos, hle, hlow, hhigh]

theorem coarse_neg_one (y : Int) : coarse (-1) y = 2 * y := rfl

theorem coarse_of_nonneg {c : Int} (hc : 0 ≤ c) (y : Int) : coarse c y = y / 2 ^ c.toNat := if_neg hc.not_gt

theorem coarse_attenuates {c : Int} (hc : 0 ≤ c) (y : Int) : Attenuates y (coarse c y) := by
  have h := attenuates_mul_ediv y (m := 1) (d := 2 ^ c.toNat) one_pos (one_le_pow₀ (by decide))
  rwa [mul_one, ← coarse_of_nonneg hc] at h

/-- The coarse stage in the conventions' own shift. -/
theorem coarse_eq_shift {c : Int} (hc : -1 ≤ c) (y : Int) : coarse c y = if c = -1 then 2 * y else y >>> c.toNat := by
  split
  · next h => rw [h, coarse_neg_one]
  · next h => rw [coarse_of_nonneg (by omega), Int.shiftRight_eq_div_pow, Nat.cast_pow, Nat.cast_ofNat]

theorem saturateSample_of_isSample {y : Int} (h : isSample y) : saturateSample y = y := by
  rw [saturateSample, min_eq_right h.2, max_eq_right h.1]

theorem saturateSample_of_gt {y : Int} (h : 32767 < y) : saturateSample y = 32767 := by
  rw [saturateSample, min_eq_left h.le]
  rfl

theorem saturateSample_of_lt {y : Int} (h : y < -32768) : saturateSample y = -32768 :=
  max_eq_left ((min_le_right _ _).trans h.le)

theorem saturateSample_neg {y : Int} (h : y < 0) : saturateSample y < 0 :=
  max_lt (by decide) ((min_le_right _ _).trans_lt h)

/-! ## The level before saturation -/

/-- What step 4 of R104 leaves, which step 5 saturates. -/
def unsaturatedLevel (x a : Int) : Int := coarse (a / 12) (x * fine (a % 12).toNat / 2 ^ 15)

theorem level_of_ge (x : Int) {a : Int} (ha : 96 ≤ a) : level x a = 0 := if_pos ha

theorem level_of_lt (x : Int) {a : Int} (ha : a < 96) : level x a = saturateSample (unsaturatedLevel x a) := if_neg ha.not_ge

theorem fineIndex_le (a : Int) : (a % 12).toNat ≤ 11 := by omega

/-- From 0 on there is nothing for the saturation to do. -/
theorem unsaturatedLevel_attenuates (x : Int) {a : Int} (ha : 0 ≤ a) : Attenuates x (unsaturatedLevel x a) :=
  (fineStage_attenuates x (fineIndex_le a)).trans (coarse_attenuates (by omega) _)

/-- Below 0 the fine stage is doubled. -/
theorem unsaturatedLevel_doubled (x : Int) {a : Int} (hlow : -12 ≤ a) (hneg : a < 0) :
    unsaturatedLevel x a = 2 * (x * fine (a % 12).toNat / 2 ^ 15) := by
  have hc : a / 12 = -1 := by omega
  rw [unsaturatedLevel, hc, coarse_neg_one]

theorem unsaturatedLevel_neg {x a : Int} (hx : x < 0) (ha : -12 ≤ a) : unsaturatedLevel x a < 0 := by
  rcases lt_or_ge a 0 with hneg | hnonneg
  · have := (fineStage_attenuates x (fineIndex_le a)).neg hx
    rw [unsaturatedLevel_doubled x ha hneg]
    omega
  · exact (unsaturatedLevel_attenuates x hnonneg).neg hx

/-- The steps 2 to 4 in R104's own words: floor division, A − 12·c and the shifts. -/
theorem unsaturatedLevel_eq_shifts (x : Int) {a : Int} (ha : -12 ≤ a) :
    unsaturatedLevel x a =
      let c := Int.fdiv a 12
      let step3 := (x * fine (a - 12 * c).toNat) >>> (15 : Nat)
      if c = -1 then 2 * step3 else step3 >>> c.toNat := by
  have hc : Int.fdiv a 12 = a / 12 := Int.fdiv_eq_ediv_of_nonneg a (by decide)
  have hf : a - 12 * (a / 12) = a % 12 := (Int.emod_def a 12).symm
  simp only [hc, hf]
  rw [unsaturatedLevel, coarse_eq_shift (by omega), Int.shiftRight_eq_div_pow _ 15]
  rfl

/-! ## An input of −1 -/

theorem level_neg_one_of_nonneg {a : Int} (ha : 0 ≤ a) (h96 : a < 96) : level (-1) a = -1 := by
  rw [level_of_lt _ h96, (unsaturatedLevel_attenuates (-1) ha).eq_neg_one]
  rfl

theorem level_neg_one_of_neg {a : Int} (hlow : -12 ≤ a) (hneg : a < 0) : level (-1) a = -2 := by
  rw [level_of_lt _ (by omega), unsaturatedLevel_doubled _ hlow hneg, (fineStage_attenuates (-1) (fineIndex_le a)).eq_neg_one]
  rfl

/-- Settles O55: the stages one by one, the table by evaluation, and the consequences from what attenuating keeps. -/
theorem theLevelArithmetic : Obligations.TheLevelArithmetic := by
  unfold Obligations.TheLevelArithmetic
  refine ⟨fun x A _ => level_of_ge x, fun x A hx hlow hA => ?stages, fine_rounds, fun x A _ hneg hlow hA => ?negative,
    ⟨1, 12, by unfold isSample; decide, by decide, by decide, by decide⟩,
    fun A => ⟨fun h0 h95 => level_neg_one_of_nonneg h0 (by omega), fun hlow h1 => level_neg_one_of_neg hlow (by omega)⟩⟩
  case stages =>
    intro c f product step3 y
    have hdiv : c = A / 12 := Int.fdiv_eq_ediv_of_nonneg A (by decide)
    have hc : -1 ≤ c ∧ c ≤ 7 := by omega
    have hf : 0 ≤ f ∧ f ≤ 11 := by omega
    have hy : unsaturatedLevel x A = y := unsaturatedLevel_eq_shifts x hlow
    rw [level_of_lt x hA, hy]
    refine ⟨hc, hf, product_range hx (by omega), saturateSample_of_gt, saturateSample_of_lt, saturateSample_of_isSample, fun h0 => ?_⟩
    have hatt : Attenuates x y := hy ▸ unsaturatedLevel_attenuates x h0
    exact ⟨hatt.isSample hx, hatt.natAbs_le⟩
  case negative =>
    rw [level_of_lt x hA]
    exact Int.le_sub_one_of_lt (saturateSample_neg (unsaturatedLevel_neg hneg hlow))

end Sys2Proof.Machine
end

section
/-! What each request of a cell can do, said once: it is refused with no effect, or it makes its one change. -/

set_option Elab.async false

namespace Sys2Proof.Machine

section requests
variable (s : State)

theorem startRequest_cases : (∃ c, startRequest s = refuse c s) ∨ (s.supervisor.running = false ∧
    startRequest s = done (arbitrate (s.withSupervisor { s.supervisor with running := true }))) := by
  unfold startRequest
  split
  · exact .inl ⟨_, rfl⟩
  · next h => exact .inr ⟨Bool.eq_false_iff.2 h, rfl⟩

theorem stopRequest_cases (now : Bool) : (∃ c, stopRequest now s = refuse c s) ∨
    stopRequest now s = done (stopStation now s) := by
  unfold stopRequest
  split
  · exact .inr rfl
  · exact .inl ⟨_, rfl⟩

theorem holdRequest_cases : (∃ c, holdRequest s = refuse c s) ∨
    holdRequest s = done (s.withFloor { s.floor with hold := true }) := by
  unfold holdRequest
  split
  · exact .inl ⟨_, rfl⟩
  · exact .inr rfl

theorem resumeRequest_cases : (∃ c, resumeRequest s = refuse c s) ∨
    resumeRequest s = done (arbitrate (s.withFloor { s.floor with hold := false })) := by
  unfold resumeRequest
  split
  · exact .inr rfl
  · exact .inl ⟨_, rfl⟩

theorem clearLockoutRequest_cases : (∃ c, clearLockoutRequest s = refuse c s) ∨
    clearLockoutRequest s = done (clearLockout s) := by
  unfold clearLockoutRequest
  split
  · exact .inr rfl
  · exact .inl ⟨_, rfl⟩

theorem setStationRequest_cases : (∃ c, setStationRequest s = refuse c s) ∨ (s.key.grant = none ∧ ∃ k,
    s.stationCodes 0 = some k ∧ setStationRequest s = (stationActs (s.withParams (s.stationParams 0 k)),
      { code := .done, clamped := s.stationClamped 0 (s.stationParams 0 k), words := [] })) := by
  unfold setStationRequest
  split
  · exact .inl ⟨_, rfl⟩
  · next hg =>
    split
    · exact .inl ⟨_, rfl⟩
    · next k hk => exact .inr ⟨by simpa using hg, k, hk, rfl⟩

theorem setMemberRequest_cases : (∃ c, setMemberRequest s = refuse c s) ∨
    (∃ m, setMemberRequest s = done (removeMember m s)) ∨
    ∃ m operator unmetered, setMemberRequest s = (writeMember m (s.memberArgs (s.member m) operator unmetered).1 s,
      { code := .done, clamped := (s.memberArgs (s.member m) operator unmetered).2, words := [] }) := by
  unfold setMemberRequest
  split
  · exact .inr (.inl ⟨_, rfl⟩)
  · split
    · exact .inr (.inr ⟨_, _, _, rfl⟩)
    · exact .inl ⟨_, rfl⟩
  · exact .inl ⟨_, rfl⟩

theorem readMemberRequest_cases : (∃ c, readMemberRequest s = refuse c s) ∨
    ∃ m, readMemberRequest s = (s, { code := .done, clamped := false, words := s.memberWords m }) := by
  unfold readMemberRequest
  split
  · exact .inl ⟨_, rfl⟩
  · exact .inr ⟨_, rfl⟩

theorem readChannelRequest_cases : (∃ c, readChannelRequest s = refuse c s) ∨
    ∃ c, readChannelRequest s = (s, { code := .done, clamped := false, words := s.channelWords c }) := by
  unfold readChannelRequest
  split
  · exact .inl ⟨_, rfl⟩
  · exact .inr ⟨_, rfl⟩

theorem setChannelRequest_cases : (∃ c, setChannelRequest s = refuse c s) ∨
    ∃ c r clamped, setChannelRequest s = (s.withChannel c r, { code := .done, clamped := clamped, words := [] }) := by
  unfold setChannelRequest
  split
  · exact .inl ⟨_, rfl⟩
  · split
    · exact .inl ⟨_, rfl⟩
    · split
      · exact .inl ⟨_, rfl⟩
      · exact .inr ⟨_, _, _, rfl⟩
      · split
        · exact .inl ⟨_, rfl⟩
        · exact .inr ⟨_, _, _, rfl⟩

theorem refillRequest_cases : (∃ c, refillRequest s = refuse c s) ∨
    ∃ (ms : List MemberIx) (w : Word), refillRequest s = (ms.foldl refillOne s, { code := .done, clamped := false, words := [w] }) := by
  unfold refillRequest
  split
  · exact .inl ⟨_, rfl⟩
  · exact .inr ⟨_, _, rfl⟩

theorem openSessionRequest_cases : (∃ c, openSessionRequest s = refuse c s) ∨ ∃ n m, (s.session n).state = .free ∧
    s.slotOf m = none ∧ openSessionRequest s = done (openSession n m s) := by
  unfold openSessionRequest
  split
  · next n m _ _ =>
    split
    · exact .inl ⟨_, rfl⟩
    · next hf =>
      split
      · exact .inl ⟨_, rfl⟩
      · split
        · exact .inl ⟨_, rfl⟩
        · next hd => exact .inr ⟨n, m, Decidable.not_not.1 hf, by simpa using hd, rfl⟩
  · exact .inl ⟨_, rfl⟩

theorem closeSlot_cases (w : Word) (r : EndReason) : (∃ c, closeSlot w r s = refuse c s) ∨
    ∃ k, (s.session k).state ≠ .free ∧ closeSlot w r s = done (closeSession k r s) := by
  unfold closeSlot
  split
  · exact .inl ⟨_, rfl⟩
  · split
    · exact .inl ⟨_, rfl⟩
    · next h => exact .inr ⟨_, h, rfl⟩

theorem ejectRequest_cases (n : Slot) : (∃ c, ejectRequest n s = refuse c s) ∨
    ∃ k, (s.session k).state ≠ .free ∧ ejectRequest n s = done (closeSession k .ejected s) := by
  cases h : s.isOperator n with
  | false => exact .inl ⟨.notPermitted, if_pos (by rw [h]; rfl)⟩
  | true => rw [ejectRequest_of_operator h]; exact closeSlot_cases s _ _

theorem detectorHoldRequest_cases : (∃ c, detectorHoldRequest s = refuse c s) ∨
    detectorHoldRequest s = done (reportDetector (s.detector.restart s.params) s) := by
  unfold detectorHoldRequest
  split
  · exact .inl ⟨_, rfl⟩
  · exact .inr rfl

theorem detectorReleaseRequest_cases : (∃ c, detectorReleaseRequest s = refuse c s) ∨
    detectorReleaseRequest s = done (s.withHolds { s.detector.holds with request := false }) := by
  unfold detectorReleaseRequest
  split
  · exact .inr rfl
  · exact .inl ⟨_, rfl⟩

/-- A KEY or PREEMPT that is admitted: the session has a member, no grant and, for KEY, no entry. -/
theorem keyRequest_cases (n : Slot) : (∃ c, keyRequest n s = refuse c s) ∨ ∃ m c retries,
    s.entryOf n = none ∧ s.holds n = false ∧ (s.session n).member = some m ∧
    keyRequest n s = admitEntry n (s.newEntry n m c retries false) s := by
  unfold keyRequest
  split
  · exact .inl ⟨_, rfl⟩
  · split
    · exact .inl ⟨_, rfl⟩
    · split
      · exact .inl ⟨_, rfl⟩
      · split
        · exact .inl ⟨_, rfl⟩
        · next hc =>
          rw [Bool.or_eq_true, not_or] at hc
          split
          · exact .inl ⟨_, rfl⟩
          · exact .inl ⟨_, rfl⟩
          · split
            · next hm _ => exact .inr ⟨_, _, _, by simpa using hc.1, by simpa using hc.2, hm, rfl⟩
            · exact .inl ⟨_, rfl⟩

theorem preemptRequest_cases (now : Bool) (n : Slot) : (∃ c, preemptRequest now n s = refuse c s) ∨ ∃ m c,
    s.holds n = false ∧ (s.session n).member = some m ∧
    preemptRequest now n s =
      admitEntry n (s.newEntry n m c none true) ((sendCause .preempted now s).removeEntry n) := by
  unfold preemptRequest
  split
  · exact .inl ⟨_, rfl⟩
  · split
    · exact .inl ⟨_, rfl⟩
    · next hh =>
      split
      · exact .inl ⟨_, rfl⟩
      · split
        · exact .inl ⟨_, rfl⟩
        · split
          · exact .inl ⟨_, rfl⟩
          · exact .inl ⟨_, rfl⟩
          · split
            · next hm _ => exact .inr ⟨_, _, by simpa using hh, hm, rfl⟩
            · exact .inl ⟨_, rfl⟩

/-- A RELEASE works on the session's own grant, on its own entry, or not at all. -/
theorem releaseRequest_cases (n : Slot) : (∃ c, releaseRequest n s = refuse c s) ∨
    (∃ g, s.grantOf n = some g ∧ g.state.onAir = false ∧ releaseRequest n s = done (preKeyEnd g .cancelled s)) ∨
    (∃ g final, s.grantOf n = some g ∧ g.state = .keyed ∧ releaseRequest n s = done (beginDrain final g s)) ∨
    releaseRequest n s = done (departEntry n .cancelled s) := by
  unfold releaseRequest
  split
  · next g hg =>
    unfold releaseGrant
    cases hst : g.state with
    | changeover | waitClear | gap1 | gap2 | prebuffer => exact .inr (.inl ⟨g, hg, by rw [hst]; rfl, rfl⟩)
    | keyed => exact .inr (.inr (.inl ⟨g, _, hg, hst, rfl⟩))
    | drain | tail | idSending => exact .inl ⟨_, rfl⟩
  · split
    · exact .inr (.inr (.inr rfl))
    · split
      · exact .inl ⟨_, rfl⟩
      · exact .inl ⟨_, rfl⟩

theorem operatorOnly_cases (n : Slot) (body : State → State × Answer) :
    operatorOnly n body s = refuse .notPermitted s ∨ operatorOnly n body s = body s := by
  unfold operatorOnly
  split
  · exact .inr rfl
  · exact .inl rfl

/-- A request of a session cell passes the gate of an OPEN session, or changes nothing. -/
theorem gate_cases (n : Slot) (body : State → State × Answer) :
    (∃ c, gate n body s = refuse c s) ∨ ((s.session n).state = .opened ∧ gate n body s = body (s.gated n)) := by
  cases h : (s.session n).state with
  | free => exact .inl ⟨.sessionFree, by unfold gate; rw [h]; rfl⟩
  | lost => exact .inl ⟨.sessionLost, by unfold gate; rw [h]; rfl⟩
  | opened => exact .inr ⟨rfl, gate_open h⟩

end requests

end Sys2Proof.Machine
end

section
/-! Every command of a ready part is one event: it begins at the state as it stands, or once time has passed or a notice is taken;
its own work reaches neither a change count nor NEWS and stores to none of the host's words; and then the records are published.
From that the host's words (R87, R153, R161, R162) and the publication (R30, R32, R33) follow for every command at once. -/

set_option Elab.async false

namespace Sys2Proof.Machine

/-! ## The host's words lie apart from the part's -/

theorem isTxState_of_hostWord {a : Nat} (h : hostWord a) : isTxState a = false := by
  rcases h with h | h | ⟨c, h⟩ | ⟨-, h⟩
  · refine isTxState_outside ?_
    unfold plainStorage inArea at h
    omega
  · exact isTxState_outside (.inl (by unfold markAddress at h; omega))
  · have := c.isLt
    unfold inArea cellBase at h
    exact isTxState_outside (.inl (by omega))
  · exact h

/-- A word of the host's is the read mark or lies in one of these ranges; within a cell it is neither the holder word nor a word
of the answer. -/
theorem hostWord_ranges {a : Nat} (h : hostWord a) :
    (0x40 ≤ a ∧ a < 0x100) ∨ (0x100 ≤ a ∧ a < 0x540 ∧ (a - 0x100) % 64 ≠ 0 ∧ ¬ (43 ≤ (a - 0x100) % 64 ∧ (a - 0x100) % 64 < 61)) ∨
      (0x540 ≤ a ∧ a < 0x600) ∨ (0xC00 ≤ a ∧ a < 0x4000) ∨ 0x5500 ≤ a := by
  rcases h with h | h | ⟨c, h⟩ | ⟨h, -⟩
  · unfold plainStorage inArea at h; omega
  · unfold markAddress at h; omega
  · have := c.isLt
    unfold inArea cellBase at h
    omega
  · unfold inArea at h; omega

theorem logPlace_not_hostWord {l : StationLog} {a : Nat} (h : logPlace l a) : ¬ hostWord a := fun hh => by
  have := hostWord_ranges hh
  unfold logPlace inArea logBase at h
  omega

theorem rxPlace_not_hostWord {r : Receive} {a : Nat} (h : rxPlace r a) : ¬ hostWord a := fun hh => by
  have := hostWord_ranges hh
  unfold rxPlace inArea rxBase at h
  omega

theorem inAnswer_not_hostWord {c : Cell} {a : Nat} (h : inAnswer c a) : ¬ hostWord a := fun hh => by
  have := hostWord_ranges hh
  have := c.isLt
  unfold inAnswer inArea cellBase at h
  omega

theorem inRecords_not_hostWord {a : Nat} (h : inRecords a) : ¬ hostWord a := fun hh => by
  obtain ⟨n, hn⟩ := h
  have := hostWord_ranges hh
  have := n.isLt
  unfold inRecord inArea recordBase at hn
  omega

theorem page_not_hostWord {a : Nat} (h : inArea 0 64 a) : ¬ hostWord a := fun hh => by
  have := hostWord_ranges hh
  unfold inArea at h
  omega

theorem holderWord_not_hostWord (c : Cell) : ¬ hostWord (cellBase c) := inAnswer_not_hostWord (.inl rfl)

/-! ## What an event's own work may do -/

/-- The parts that an event's own work can reach: it makes no change count, sets no NEWS bit, and moves neither the phase, the
clock nor the inputs. -/
def ownParts : List Part :=
  [.members, .channels, .sessions, .floor, .key, .playout, .receive, .detector, .ident, .supervisor, .log, .cells, .answered,
    .events, .bus, .params, .mem, .notices, .samplesOwed, .pagesOwed]

/-- An event's own work from `u` to `v`, which stores to no word of the host's outside `stored`. -/
structure OwnWork (stored : Nat → Prop) (u v : State) : Prop where
  frame : OnlyChanges ownParts u v
  law : u.memoryLaw → v.memoryLaw
  kept : u.memoryLaw → u.collectionLaw → ∀ a, hostWord a → ¬ stored a → v.read a = u.read a

theorem Stores.hostWord_kept {P : Nat → Prop} {u v : State} (h : Stores P u v) (hu : u.memoryLaw)
    (hP : ∀ a, P a → ¬ hostWord a) {a : Nat} (ha : hostWord a) : v.read a = u.read a :=
  (h hu).2.1 a (fun hp => hP a hp ha) (isTxState_of_hostWord ha)

theorem OwnWork.of_stores {ps : List Part} {P stored : Nat → Prop} {u v : State} (hf : OnlyChanges ps u v) (hs : Stores P u v)
    (hP : ∀ a, P a → ¬ hostWord a) (sub : ∀ p ∈ ps, p ∈ ownParts := by decide) : OwnWork stored u v :=
  ⟨hf.mono sub, hs.law, fun hu _ _ ha _ => hs.hostWord_kept hu hP ha⟩

/-- Work that stores only to the next log place, as every grant's end does. -/
theorem OwnWork.of_log {ps : List Part} {stored : Nat → Prop} {u v : State} (hf : OnlyChanges ps u v)
    (hs : Stores (logPlace u.log) u v) (sub : ∀ p ∈ ps, p ∈ ownParts := by decide) : OwnWork stored u v :=
  .of_stores hf hs (fun _ => logPlace_not_hostWord) sub

theorem OwnWork.refl {stored : Nat → Prop} (s : State) : OwnWork stored s s :=
  .of_log (OnlyChanges.refl [] s) (.refl s)

theorem OwnWork.of_mem {ps : List Part} {stored : Nat → Prop} {u v : State} (hf : OnlyChanges ps u v) (hm : v.mem = u.mem)
    (sub : ∀ p ∈ ps, p ∈ ownParts := by decide) : OwnWork stored u v := .of_log hf (.of_mem hm) sub

/-! ## Where an event begins -/

/-- An event that a command makes of `s` begins at `u`: the records, the memory and the collection are as they were. -/
structure Begins (s u : State) : Prop where
  record : ∀ n, u.recordState n = s.recordState n
  news_state : ∀ n, u.newsState n = s.newsState n
  count : ∀ n, (u.session n).changeCount = (s.session n).changeCount
  news : u.bus.news = s.bus.news
  mem : u.mem = s.mem
  receive : u.receive = s.receive

theorem Begins.refl (s : State) : Begins s s := ⟨fun _ => rfl, fun _ => rfl, fun _ => rfl, rfl, rfl, rfl⟩

theorem Begins.of_frame {ps : List Part} {s u : State} (h : OnlyChanges ps s u)
    (hd : ∀ p ∈ [Part.sessions, .members, .floor, .key, .playout, .changeCounts, .news, .mem, .receive], p ∉ ps := by decide) :
    Begins s u := by
  have hr : ∀ n, u.recordState n = s.recordState n := fun n => h.recordState n fun p hp => hd p (by revert p; decide)
  exact ⟨hr, fun n => newsState_congr (hr n), h .changeCounts (hd _ (by decide)), h .news (hd _ (by decide)),
    h .mem (hd _ (by decide)), h .receive (hd _ (by decide))⟩

theorem passTime_grantOf (s : State) (m : Nat) (n : Slot) :
    (s.passTime m).grantOf n = (s.grantOf n).map (·.passTime m) := by
  cases hg : s.key.grant with
  | none =>
    have hp : (s.passTime m).key.grant = none := by rw [State.passTime, hg]; rfl
    unfold State.grantOf
    rw [hg, hp]; rfl
  | some g =>
    unfold State.grantOf
    rw [hg, passTime_grant m hg]
    exact (apply_ite (Option.map (·.passTime m)) (g.session = some n) (some g) none).symm

theorem passTime_keyedGrantOf (s : State) (m : Nat) (n : Slot) :
    (s.passTime m).keyedGrantOf n = (s.keyedGrantOf n).map (·.passTime m) := by
  unfold State.keyedGrantOf
  rw [passTime_grantOf]
  cases s.grantOf n with
  | none => rfl
  | some g => exact (apply_ite (Option.map (·.passTime m)) (g.state.memberOnAir = true) (some g) none).symm

/-- No field of a status record is a timer: the passing of time shows in none. -/
theorem passTime_recordState (s : State) (m : Nat) (n : Slot) : (s.passTime m).recordState n = s.recordState n := by
  have hfields : (s.passTime m).recordFields n = s.recordFields n := by
    have hentry : (s.passTime m).entryOf n = s.entryOf n := rfl
    unfold State.recordFields State.floorState State.channelOf
    rw [passTime_grantOf, passTime_keyedGrantOf, hentry]
    cases s.grantOf n <;> cases s.entryOf n <;> cases s.keyedGrantOf n <;> rfl
  exact Prod.ext hfields rfl

theorem Begins.passTime (s : State) (m : Nat) : Begins s (s.passTime m) :=
  ⟨passTime_recordState s m, fun n => newsState_congr (passTime_recordState s m n), fun _ => rfl, rfl, rfl, rfl⟩

/-! ## A whole event -/

/-- `t` is `s` after one event whose own work stores to no word of the host's outside `stored`. -/
def EventOf (stored : Nat → Prop) (s t : State) : Prop := ∃ u v, Begins s u ∧ OwnWork stored u v ∧ t = publish u v

section events
variable {stored : Nat → Prop} {s : State}

theorem EventOf.of_event {f : State → State} {u : State} (hu : Begins s u) (h : OwnWork stored u (f u)) :
    EventOf stored s (event f u) := ⟨u, f u, hu, h, rfl⟩

/-- A command that finds nothing to do. -/
theorem EventOf.of_begins {t : State} (h : Begins s t) : EventOf stored s t :=
  ⟨t, t, h, .refl t, (publish_unchanged fun _ => rfl).symm⟩

theorem EventOf.none : EventOf stored s s := .of_begins (.refl s)

theorem EventOf.ite {c : Prop} [Decidable c] {t u : State} (h1 : EventOf stored s t) (h2 : EventOf stored s u) :
    EventOf stored s (if c then t else u) := by split <;> assumption

theorem EventOf.mono {P : Nat → Prop} {t : State} (h : EventOf stored s t) (sub : ∀ a, stored a → P a) : EventOf P s t := by
  obtain ⟨u, v, hu, hv, rfl⟩ := h
  exact ⟨u, v, hu, ⟨hv.frame, hv.law, fun hm hc a ha hn => hv.kept hm hc a ha fun hs => hn (sub a hs)⟩, rfl⟩

theorem timed_eventOf {left : State → Option Nat} {f : State → State} (h : ∀ u, OwnWork stored u (f u)) :
    EventOf stored s (timed left f s) := by
  unfold timed
  split
  · exact .none
  · exact .ite (.of_event (.passTime s _) (h _)) .none

theorem takeNotice_eventOf {x : Notice} {f : State → State} (h : ∀ u, OwnWork stored u (f u)) :
    EventOf stored s (takeNotice x f s) :=
  .ite (.of_event (.of_frame (ps := [.notices]) withNotices_frame) (h _)) .none

theorem whenReady_eventOf {u : State} {f : State → State} (hu : Begins s u) (h : OwnWork stored u (f u)) :
    EventOf stored s (whenReady f u) := .ite (.of_event hu h) (.of_begins hu)

theorem EventOf.published {t : State} (h : EventOf stored s t) (hs : s.memoryLaw) : Published s t := by
  obtain ⟨u, v, hu, hv, rfl⟩ := h
  have hp : Published u (publish u v) :=
    publish_published (hv.law (by rw [State.memoryLaw, hu.mem]; exact hs)) (hv.frame .changeCounts (by decide))
      (hv.frame .news (by decide))
  intro n
  have hn := hp n
  unfold PublishedFor at hn ⊢
  rwa [hu.record, hu.count, hu.news, hu.news_state] at hn

theorem EventOf.hostWord_kept {t : State} (h : EventOf stored s t) (hs : s.memoryLaw) (hc : s.collectionLaw) {a : Nat}
    (ha : hostWord a) (hn : ¬ stored a) : t.read a = s.read a := by
  obtain ⟨u, v, hu, hv, rfl⟩ := h
  have hum : u.memoryLaw := by rw [State.memoryLaw, hu.mem]; exact hs
  have huc : u.collectionLaw := by rw [State.collectionLaw, hu.receive]; exact hc
  calc (publish u v).read a
      = v.read a := (publish_stores u v).hostWord_kept (hv.law hum) (fun _ => inRecords_not_hostWord) ha
    _ = u.read a := hv.kept hum huc a ha hn
    _ = s.read a := congrArg (·.read a) hu.mem

end events

/-! ## The requests -/

/-- The parts that the work of a request can reach. -/
def requestParts : List Part :=
  [.members, .channels, .sessions, .floor, .key, .playout, .detector, .ident, .supervisor, .log, .events, .params, .mem, .notices]

/-- The work of a request, and an answer that fits its cell. -/
structure RequestWork (s : State) (r : State × Answer) : Prop where
  frame : OnlyChanges requestParts s r.1
  stores : Stores (logPlace s.log) s r.1
  words : r.2.words.length ≤ 16

theorem RequestWork.plain {ps : List Part} {s t : State} {a : Answer} (hf : OnlyChanges ps s t) (hs : Stores (logPlace s.log) s t)
    (hw : a.words.length ≤ 16) (sub : ∀ p ∈ ps, p ∈ requestParts := by decide) : RequestWork s (t, a) := ⟨hf.mono sub, hs, hw⟩

theorem RequestWork.done {ps : List Part} {s t : State} (hf : OnlyChanges ps s t) (hs : Stores (logPlace s.log) s t)
    (sub : ∀ p ∈ ps, p ∈ requestParts := by decide) : RequestWork s (Machine.done t) := .plain hf hs (Nat.zero_le _) sub

theorem RequestWork.refuse (c : AnswerCode) (s : State) : RequestWork s (Machine.refuse c s) :=
  .plain (OnlyChanges.refl [] s) (.refl s) (Nat.zero_le _)

theorem serve_ownWork {stored : Nat → Prop} {c : Cell} {body : State → State × Answer} {s : State}
    (h : RequestWork s (body s)) : OwnWork stored s (serve c body s) := by
  have hstores : Stores (fun a => logPlace s.log a ∨ inAnswer c a) s (serve c body s) :=
    (h.stores.mono fun _ => .inl).trans ((writeAnswer_stores c _ _ _ h.words).mono fun _ => .inr)
  exact .of_stores (h.frame.mono (qs := ownParts) |>.trans (writeAnswer_frame c _ _ _).mono) hstores
    fun a ha => ha.elim logPlace_not_hostWord inAnswer_not_hostWord

theorem gate_work {n : Slot} {body : State → State × Answer} {s : State} (h : ∀ u, RequestWork u (body u)) :
    RequestWork s (gate n body s) := by
  rcases gate_cases s n body with ⟨c, hc⟩ | ⟨-, hb⟩
  · rw [hc]; exact .refuse c s
  · have hg := gated_frame s n
    rw [hb]
    exact ⟨hg.mono.trans (h _).frame, (Stores.of_mem (gated_mem s n)).trans ((h _).stores.at (hg .log (by decide))), (h _).words⟩

theorem operatorOnly_work {n : Slot} {body : State → State × Answer} {s : State} (h : RequestWork s (body s)) :
    RequestWork s (operatorOnly n body s) := by
  rcases operatorOnly_cases s n body with hc | hb
  · rw [hc]; exact .refuse _ s
  · rw [hb]; exact h

theorem stationService_eventOf {stored : Nat → Prop} {r : Request} {body : State → State × Answer} {s : State}
    (h : ∀ u, RequestWork u (body u)) : EventOf stored s (stationService r body s) :=
  .ite (.of_event (.refl s) (serve_ownWork (h s))) .none

theorem sessionService_eventOf {stored : Nat → Prop} {r : Request} {body : Slot → State → State × Answer} {s : State}
    (h : ∀ n u, RequestWork u (body n u)) : EventOf stored s (sessionService r body s) := by
  unfold sessionService
  split
  · exact .none
  · exact .ite (.of_event (.refl s) (serve_ownWork (gate_work (h _)))) .none

theorem foldl_refillOne_mem (ms : List MemberIx) (s : State) : (ms.foldl refillOne s).mem = s.mem :=
  foldl_frame (ps := [.members]) (fun _ _ => .ite withMember_frame (.refl _ _)) ms s .mem (by decide)

section requests
variable (s : State)

theorem startRequest_work : RequestWork s (startRequest s) := by
  rcases startRequest_cases s with ⟨c, h⟩ | ⟨-, h⟩ <;> rw [h]
  · exact .refuse c s
  · exact .done (ps := .supervisor :: arbitrationParts) (OnlyChanges.trans withSupervisor_frame (arbitrate_frame _).mono)
      (Stores.after (arbitrate_stores _) withSupervisor_stores)

theorem stopRequest_work (now : Bool) : RequestWork s (stopRequest now s) := by
  rcases stopRequest_cases s now with ⟨c, h⟩ | h <;> rw [h]
  · exact .refuse c s
  · exact .done (stopStation_frame now s) (stopStation_stores now s)

theorem holdRequest_work : RequestWork s (holdRequest s) := by
  rcases holdRequest_cases s with ⟨c, h⟩ | h <;> rw [h]
  · exact .refuse c s
  · exact .done (ps := [.floor]) withFloor_frame withFloor_stores

theorem resumeRequest_work : RequestWork s (resumeRequest s) := by
  rcases resumeRequest_cases s with ⟨c, h⟩ | h <;> rw [h]
  · exact .refuse c s
  · exact .done (ps := arbitrationParts) (OnlyChanges.trans withFloor_frame (arbitrate_frame _))
      (Stores.after (arbitrate_stores _) withFloor_stores)

theorem killRequest_work (now : Bool) : RequestWork s (killRequest now s) := .done (kill_frame now s) (kill_stores now s)

theorem clearLockoutRequest_work : RequestWork s (clearLockoutRequest s) := by
  rcases clearLockoutRequest_cases s with ⟨c, h⟩ | h <;> rw [h]
  · exact .refuse c s
  · exact .done (clearLockout_frame s) (clearLockout_stores s)

theorem stationActs_frame : OnlyChanges (.supervisor :: .floor :: endParts) s (stationActs s) := by
  unfold stationActs
  extract_lets t i t1 now j t2 u
  have h1 : OnlyChanges (.supervisor :: .floor :: endParts) s t1 :=
    (judgeTxfault_frame false s).mono.trans (.ite withIdent_frame (.refl _ _))
  have h2 : OnlyChanges (.supervisor :: .floor :: endParts) s u :=
    (h1.trans (.ite withIdent_frame (.refl _ _))).trans (makeDue_frame _ _).mono
  exact .ite (h2.trans (arbitrate_frame _).mono) h2

theorem stationActs_stores : Stores (logPlace s.log) s (stationActs s) := by
  unfold stationActs
  extract_lets t i t1 now j t2 u
  have h1 : Stores (logPlace s.log) s t1 := (judgeTxfault_stores false s).trans (.ite withIdent_stores (.refl _))
  have h2 : Stores (logPlace s.log) s u := (h1.trans (.ite withIdent_stores (.refl _))).trans (makeDue_stores _ _)
  exact .ite (h2.trans (arbitrate_stores _)) h2

theorem setStationRequest_work : RequestWork s (setStationRequest s) := by
  rcases setStationRequest_cases s with ⟨c, h⟩ | ⟨-, k, -, h⟩ <;> rw [h]
  · exact .refuse c s
  · exact .plain (ps := .params :: .supervisor :: .floor :: endParts) (OnlyChanges.trans withParams_frame (stationActs_frame _).mono)
      (withParams_stores.trans (stationActs_stores _)) (Nat.zero_le _)

theorem noteKeyTime_frame (m : MemberIx) (old new : Member) : OnlyChanges [.notices] s (noteKeyTime m old new s) :=
  .ite notify_frame (.refl _ _)

theorem writeMember_frame (m : MemberIx) (new : Member) : OnlyChanges [.members, .notices] s (writeMember m new s) :=
  (OnlyChanges.trans withMember_frame (.ite notify_frame (.refl _ _))).trans (noteKeyTime_frame _ m _ _).mono

theorem removeMember_frame (m : MemberIx) : OnlyChanges [.members, .notices] s (removeMember m s) :=
  (OnlyChanges.trans withMember_frame (.ite notify_frame (.refl _ _))).trans (noteKeyTime_frame _ m _ _).mono

theorem setMemberRequest_work : RequestWork s (setMemberRequest s) := by
  rcases setMemberRequest_cases s with ⟨c, h⟩ | ⟨m, h⟩ | ⟨m, o, u, h⟩ <;> rw [h]
  · exact .refuse c s
  · exact .done (removeMember_frame s m) (.of_mem (removeMember_frame s m .mem (by decide)))
  · exact .plain (writeMember_frame s m _) (.of_mem (writeMember_frame s m _ .mem (by decide))) (Nat.zero_le _)

theorem readMemberRequest_work : RequestWork s (readMemberRequest s) := by
  rcases readMemberRequest_cases s with ⟨c, h⟩ | ⟨m, h⟩ <;> rw [h]
  · exact .refuse c s
  · exact .plain (OnlyChanges.refl [] s) (.refl s) (show 13 ≤ 16 by decide)

theorem setChannelRequest_work : RequestWork s (setChannelRequest s) := by
  rcases setChannelRequest_cases s with ⟨c, h⟩ | ⟨c, r, b, h⟩ <;> rw [h]
  · exact .refuse c s
  · exact .plain (ps := [.channels]) withChannel_frame withChannel_stores (Nat.zero_le _)

theorem readChannelRequest_work : RequestWork s (readChannelRequest s) := by
  rcases readChannelRequest_cases s with ⟨c, h⟩ | ⟨c, h⟩ <;> rw [h]
  · exact .refuse c s
  · exact .plain (OnlyChanges.refl [] s) (.refl s) (show 6 ≤ 16 by decide)

theorem foldl_refillOne_frame (ms : List MemberIx) : OnlyChanges [.members] s (ms.foldl refillOne s) :=
  foldl_frame (fun _ _ => .ite withMember_frame (.refl _ _)) ms s

theorem refillRequest_work : RequestWork s (refillRequest s) := by
  rcases refillRequest_cases s with ⟨c, h⟩ | ⟨ms, w, h⟩ <;> rw [h]
  · exact .refuse c s
  · exact .plain (foldl_refillOne_frame s ms) (.of_mem (foldl_refillOne_frame s ms .mem (by decide))) (show 1 ≤ 16 by decide)

theorem openSessionRequest_work : RequestWork s (openSessionRequest s) := by
  rcases openSessionRequest_cases s with ⟨c, h⟩ | ⟨n, m, -, -, h⟩ <;> rw [h]
  · exact .refuse c s
  · exact .done (openSession_frame n m s) (openSession_stores n m s)

theorem closeSlot_work (w : Word) (r : EndReason) : RequestWork s (closeSlot w r s) := by
  rcases closeSlot_cases s w r with ⟨c, h⟩ | ⟨k, -, h⟩ <;> rw [h]
  · exact .refuse c s
  · exact .done (closeSession_frame k r s) (closeSession_stores k r s)

theorem ejectRequest_work (n : Slot) : RequestWork s (ejectRequest n s) := by
  rcases ejectRequest_cases s n with ⟨c, h⟩ | ⟨k, -, h⟩ <;> rw [h]
  · exact .refuse c s
  · exact .done (closeSession_frame k _ s) (closeSession_stores k _ s)

theorem detectorHoldRequest_work : RequestWork s (detectorHoldRequest s) := by
  rcases detectorHoldRequest_cases s with ⟨c, h⟩ | h <;> rw [h]
  · exact .refuse c s
  · exact .done (reportDetector_frame _ s) (reportDetector_stores _ s)

theorem detectorReleaseRequest_work : RequestWork s (detectorReleaseRequest s) := by
  rcases detectorReleaseRequest_cases s with ⟨c, h⟩ | h <;> rw [h]
  · exact .refuse c s
  · exact .done (ps := [.detector]) withHolds_frame withHolds_stores

theorem keepaliveRequest_work (n : Slot) : RequestWork s (keepaliveRequest n s) :=
  .plain (OnlyChanges.refl [] s) (.refl s) (show 1 ≤ 16 by decide)

theorem admitEntry_work {ps : List Part} {u : State} (n : Slot) (e : Entry) (hf : OnlyChanges ps s u)
    (hs : Stores (logPlace s.log) s u) (sub : ∀ p ∈ ps, p ∈ requestParts := by decide) :
    RequestWork s (admitEntry n e u) :=
  .plain (ps := requestParts) ((hf.mono sub).trans ((joinQueue_frame e u).mono.trans (arbitrate_frame _).mono))
    (hs.trans ((joinQueue_stores e u).trans (arbitrate_stores _))) (show 2 ≤ 16 by decide)

theorem keyRequest_work (n : Slot) : RequestWork s (keyRequest n s) := by
  rcases keyRequest_cases s n with ⟨c, h⟩ | ⟨m, c, r, -, -, -, h⟩ <;> rw [h]
  · exact .refuse c s
  · exact admitEntry_work s n _ (OnlyChanges.refl [] s) (.refl s)

theorem preemptRequest_work (now : Bool) (n : Slot) : RequestWork s (preemptRequest now n s) := by
  rcases preemptRequest_cases s now n with ⟨c, h⟩ | ⟨m, c, -, -, h⟩ <;> rw [h]
  · exact .refuse c s
  · exact admitEntry_work s n _ (ps := closeParts) ((sendCause_frame _ _ s).mono.trans (removeEntry_frame _ n).mono)
      ((sendCause_stores _ _ s).trans (removeEntry_stores _ n))

theorem releaseRequest_work (n : Slot) : RequestWork s (releaseRequest n s) := by
  rcases releaseRequest_cases s n with ⟨c, h⟩ | ⟨g, -, -, h⟩ | ⟨g, f, -, -, h⟩ | h <;> rw [h]
  · exact .refuse c s
  · exact .done (preKeyEnd_frame g _ s) (preKeyEnd_stores g _ s)
  · exact .done (beginDrain_frame f g s) (beginDrain_stores f g s)
  · exact .done (departEntry_frame n _ s) (departEntry_stores n _ s)

end requests

end Sys2Proof.Machine
end

section
/-! Every row of the table as one event (`exec_event`), and the statements O56 and O57 that follow from it. -/

set_option Elab.async false

namespace Sys2Proof.Machine

/-! ## Host accesses -/

/-- The parts that a host's register access can reach, NEWS apart. -/
theorem withBus_frame {ps : List Part} {s : State} {b : Bus} (hn : b.news = s.bus.news := by rfl)
    (h : ∀ p ∈ [Part.answered, .events, .bus], p ∈ ps := by decide) : OnlyChanges ps s (s.withBus b) := by
  intro p hp
  cases p
  case news => exact hn
  case answered | events | bus => exact absurd (h _ (by decide)) hp
  all_goals first | rfl | exact fun _ => rfl

/-- The same, where no summary register is reached. -/
theorem withBus_plain_frame {ps : List Part} {s : State} {b : Bus} (ha : b.answered = s.bus.answered := by rfl)
    (hn : b.news = s.bus.news := by rfl) (he : b.events = s.bus.events := by rfl) (h : Part.bus ∈ ps := by decide) :
    OnlyChanges ps s (s.withBus b) := by
  intro p hp
  cases p
  case answered => exact ha
  case news => exact hn
  case events => exact he
  case bus => exact absurd h hp
  all_goals first | rfl | exact fun _ => rfl

theorem callCell_frame (c : Cell) (s : State) : OnlyChanges [.cells, .events, .mem] s (callCell c s) :=
  .ite (OnlyChanges.trans withCells_frame raise_frame) (OnlyChanges.trans withCells_frame write_frame)

theorem callCell_stores (c : Cell) (s : State) : Stores (fun a => ∃ c, a = cellBase c) s (callCell c s) :=
  .ite (.of_mem rfl) (Stores.after (write_stores ⟨c, rfl⟩ (isTxState_outside (.inl (inAnswer_outside (.inl rfl))))) withCells_stores)

theorem callSessions_frame (v : Word) (s : State) : OnlyChanges [.cells, .events, .mem] s (callSessions v s) :=
  foldl_frame (fun _ _ => .ite (callCell_frame _ _) (.refl _ _)) allSlots s

theorem callSessions_stores (v : Word) (s : State) : Stores (fun a => ∃ c, a = cellBase c) s (callSessions v s) :=
  Stores.foldl allSlots (fun _ _ _ => .ite (callCell_stores _ _) (.refl _)) s

theorem writeControl_frame (v : Word) (s : State) :
    OnlyChanges [.answered, .cells, .events, .bus, .mem] s (writeControl v s) :=
  have hb : OnlyChanges [.answered, .cells, .events, .bus, .mem] s
    (s.withBus { s.bus with answerEnable := v.getLsbD 1, newsEnable := v.getLsbD 2 }) := withBus_frame
  .ite (hb.trans (callCell_frame _ _).mono) hb

theorem writeControl_stores (v : Word) (s : State) : Stores (fun a => ∃ c, a = cellBase c) s (writeControl v s) :=
  have hb : Stores (fun a => ∃ c, a = cellBase c) s
    (s.withBus { s.bus with answerEnable := v.getLsbD 1, newsEnable := v.getLsbD 2 }) := .of_mem rfl
  .ite (hb.trans (callCell_stores _ _)) hb

theorem examinePrebuffer_frame (s : State) : OnlyChanges courseParts s (examinePrebuffer s) := by
  unfold examinePrebuffer
  split
  · exact .refl _ _
  · exact .ite (keyUp_frame _ _) (.refl _ _)

theorem examinePrebuffer_stores {P : Nat → Prop} (s : State) : Stores P s (examinePrebuffer s) := by
  unfold examinePrebuffer
  split
  · exact .refl _
  · exact .ite (keyUp_stores _ _) (.refl _)

theorem callSessions_work {stored : Nat → Prop} (v : Word) (s : State) : OwnWork stored s (callSessions v s) :=
  .of_stores (callSessions_frame v s) (callSessions_stores v s) fun _ ⟨c, h⟩ => h ▸ holderWord_not_hostWord c

theorem writeControl_work {stored : Nat → Prop} (v : Word) (s : State) : OwnWork stored s (writeControl v s) :=
  .of_stores (writeControl_frame v s) (writeControl_stores v s) fun _ ⟨c, h⟩ => h ▸ holderWord_not_hostWord c

theorem writeMemory_work (a : Nat) (v : Word) (s : State) : OwnWork (· = a) s (writeMemory a v s) := by
  have hexamined : OwnWork (· = a) (s.write a v) (writeMemory a v s) :=
    .of_log (ps := courseParts) (.ite (examinePrebuffer_frame _) (.refl _ _)) (.ite (examinePrebuffer_stores _) (.refl _))
  have hlaw : s.memoryLaw → (s.write a v).memoryLaw := Memory.write_wf _ _ _
  refine ⟨OnlyChanges.trans write_frame hexamined.frame, fun h => hexamined.law (hlaw h), fun h hc b hb hn => ?_⟩
  exact (hexamined.kept (hlaw h) hc b hb hn).trans (Memory.read_write_other _ _ _ _ hn)

/-- A host write is ignored, or it is the write of one register or word; a soft reset is a write to CONTROL. -/
theorem hostWrite_cases (a v : Word) (s : State) :
    hostWrite a v s = s ∨ s.ready = true ∧
      (hostWrite a v s = event writeReadOnly s ∨
        (a = 0x8002 ∧ v.getLsbD 15 = true ∧ hostWrite a v s = s.resetBlocks .clearing) ∨
        hostWrite a v s = event (writeControl v) s ∨ hostWrite a v s = event (callSessions v) s ∨
        hostWrite a v s = event (clearEvents v) s ∨ hostWrite a v s = event (writeEventEnable v) s ∨
        (a.toNat < 0x8000 ∧ hostWrite a v s = event (writeMemory a.toNat v) s)) := by
  unfold hostWrite
  cases hr : s.ready with
  | false => exact .inl rfl
  | true =>
    simp only [Bool.not_true, Bool.false_eq_true, if_false, true_and]
    split
    case h_5 h =>
      split
      · next hv => exact .inr (.inr (.inl ⟨BitVec.eq_of_toNat_eq h, hv, rfl⟩))
      · exact .inr (.inr (.inr (.inl rfl)))
    case h_6 => exact .inr (.inr (.inr (.inr (.inl rfl))))
    case h_7 => exact .inr (.inr (.inr (.inr (.inr (.inl rfl)))))
    case h_8 => exact .inr (.inr (.inr (.inr (.inr (.inr (.inl rfl))))))
    case h_9 =>
      split
      · next h => exact .inr (.inr (.inr (.inr (.inr (.inr (.inr ⟨h, rfl⟩))))))
      · exact .inl rfl
    case h_1 | h_2 | h_3 | h_4 => exact .inr (.inl rfl)

theorem hostWrite_eventOf {a v : Word} {s : State} (h15 : a = 0x8002 → v.getLsbD 15 = false) :
    EventOf (fun b => a.toNat < 0x8000 ∧ b = a.toNat) s (hostWrite a v s) := by
  have hregister : ∀ {b : Bus}, b.news = s.bus.news → OwnWork (fun b => a.toNat < 0x8000 ∧ b = a.toNat) s (s.withBus b) :=
    fun h => .of_mem (ps := [.answered, .events, .bus]) (withBus_frame h) rfl
  rcases hostWrite_cases a v s with h | ⟨-, h | ⟨ha, hv, -⟩ | h | h | h | h | ⟨ha, h⟩⟩
  case inr.inr.inl => rw [h15 ha] at hv; cases hv
  all_goals rw [h]
  · exact .none
  · exact .of_event (.refl s) (hregister rfl)
  · exact .of_event (.refl s) (writeControl_work v s)
  · exact .of_event (.refl s) (callSessions_work v s)
  · exact .of_event (.refl s) (hregister rfl)
  · exact .of_event (.refl s) (hregister rfl)
  · exact (EventOf.of_event (.refl s) (writeMemory_work a.toNat v s)).mono fun b hb => ⟨ha, hb⟩

theorem answeredRead_begins (s : State) : Begins s (hostRead 0x8004 s) := by
  have hb : ∀ {b : Bus}, b.news = s.bus.news → Begins s (s.withBus b) := fun h =>
    .of_frame (ps := [.answered, .events, .bus]) (withBus_frame h)
  unfold hostRead
  dsimp only
  split
  · exact hb rfl
  · exact hb rfl

/-! ## The receive samples -/

theorem captureBlock_law (block : List Word) (keyed : Bool) {s : State} (h : s.memoryLaw) :
    (captureBlock block keyed s).memoryLaw := by
  unfold captureBlock
  extract_lets base r t
  show t.memoryLaw
  by_cases hb : s.read base = 0
  · rw [show t = _ from if_pos hb]; exact Memory.writeAll_wf _ _ _ h
  · rw [show t = _ from if_neg hb]; exact h

theorem receiveSample_law (x : Word) {s : State} (h : s.memoryLaw) : (receiveSample x s).memoryLaw := by
  unfold receiveSample
  extract_lets block keyed
  split
  · exact captureBlock_law _ _ h
  · exact h

theorem sampleEvent_work {stored : Nat → Prop} (x : Word) (high : Bool) (s : State) :
    OwnWork stored s (sampleEvent x high s) :=
  ⟨(sampleEvent_frame x high s).mono, fun h => receiveSample_law x ((detectSample_stores (P := noWord) x high s).law h),
    fun h hc _ ha _ => (sampleEvent_stores x high s hc).hostWord_kept h (fun _ => rxPlace_not_hostWord) ha⟩

theorem rewritePage_frame (s : State) : OnlyChanges [.mem, .bus] s s.rewritePage :=
  OnlyChanges.trans (OnlyChanges.trans (OnlyChanges.trans withBus_plain_frame write_frame) writeAll_frame) write_frame

theorem length_pageFields (s : State) : s.pageFields.length = 30 := rfl

theorem rewritePage_stores (s : State) : Stores (inArea 0 64) s s.rewritePage := by
  have hlow : ∀ {a : Nat}, inArea 0 64 a → isTxState a = false := fun h => isTxState_outside (.inl (by unfold inArea at h; omega))
  have hfirst : inArea 0 64 0 := ⟨Nat.le_refl 0, by decide⟩
  have hrest : ∀ b, 1 ≤ b → b < 1 + (padTo 63 s.pageFields).length → inArea 0 64 b := fun b h1 h2 => by
    rw [length_padTo _ _ (by rw [length_pageFields]; decide)] at h2
    exact ⟨Nat.zero_le b, by omega⟩
  exact Stores.after (write_stores hfirst (hlow hfirst)) (Stores.after
    (writeAll_stores hrest fun b h1 h2 => hlow (hrest b h1 h2)) (Stores.after (write_stores hfirst (hlow hfirst)) (.of_mem rfl)))


theorem pagesOwed_frame {ps : List Part} {s : State} {k : Nat} (h : Part.pagesOwed ∈ ps := by decide) :
    OnlyChanges ps s { s with pagesOwed := k } := by
  intro p hp
  cases p
  case pagesOwed => exact absurd h hp
  all_goals first | rfl | exact fun _ => rfl

theorem pagesOwed_stores {P : Nat → Prop} {s : State} {k : Nat} : Stores P s { s with pagesOwed := k } := .of_mem rfl

theorem rewritePageOnce_frame (s : State) : OnlyChanges [.mem, .bus, .pagesOwed] s (rewritePageOnce s) :=
  (rewritePage_frame s).mono.trans pagesOwed_frame

theorem rewritePageOnce_stores (s : State) : Stores (inArea 0 64) s (rewritePageOnce s) :=
  (rewritePage_stores s).trans pagesOwed_stores

/-! ## The timed events and the notices -/

section work
variable {stored : Nat → Prop} (s : State)

theorem arbitrate_work : OwnWork stored s (arbitrate s) := .of_log (arbitrate_frame s) (arbitrate_stores s)

theorem onGrant_work {f : Grant → State → State} (h : ∀ g u, OwnWork stored u (f g u)) : OwnWork stored s (onGrant f s) := by
  unfold onGrant
  split
  · exact .refl s
  · exact h _ s

theorem dueThenArbitrate_work (c : Bool) (i : Ident) : OwnWork stored s (dueThenArbitrate c (s.withIdent i)) :=
  .of_log (OnlyChanges.trans withIdent_frame (dueThen_frame c _)) (Stores.after (dueThen_stores c _) withIdent_stores)

theorem expireRecovery_work : OwnWork stored s (expireRecovery s) := by
  unfold expireRecovery
  extract_lets k t h t2
  have hf : OnlyChanges courseParts s t2 := OnlyChanges.trans withKey_frame withHolds_frame
  have hs : Stores (logPlace s.log) s t2 := .of_mem rfl
  split
  · exact .of_log hf hs
  · exact .of_log (.ite (hf.trans (enterGap1_frame _ _)) hf) (.ite (hs.trans (enterGap1_stores _ _)) hs)

theorem takeKeyLimit_work (m : MemberIx) : OwnWork stored s (takeKeyLimit m s) := by
  have hgrant : ∀ g, OwnWork stored s (s.withGrant (some g)) := fun g =>
    .of_mem (ps := [.key]) withGrant_frame rfl
  have hunkey : ∀ g, OwnWork stored s (unkey g s) := fun g => .of_log (unkey_frame g s) (unkey_stores g s)
  unfold takeKeyLimit
  split
  · exact .refl s
  · dsimp only
    split
    · split
      · split
        · exact hunkey _
        · exact hunkey _
      · exact hgrant _
    · exact .refl s

theorem revokeGrant_frame (m : MemberIx) : OnlyChanges endParts s (revokeGrant m s) := by
  unfold revokeGrant
  split
  · exact .refl _ s
  · exact .ite (takeCause_frame _ _ s) (.refl _ s)

theorem revokeGrant_stores (m : MemberIx) : Stores (logPlace s.log) s (revokeGrant m s) := by
  unfold revokeGrant
  split
  · exact .refl s
  · exact .ite (takeCause_stores _ _ s) (.refl s)

theorem revokeEntry_frame (m : MemberIx) : OnlyChanges [.floor, .ident, .sessions] s (revokeEntry m s) := by
  unfold revokeEntry
  split
  · exact .refl _ s
  · exact .ite (.refl _ s) (departEntry_frame _ _ s)

theorem revokeEntry_stores {P : Nat → Prop} (m : MemberIx) : Stores P s (revokeEntry m s) := by
  unfold revokeEntry
  split
  · exact .refl s
  · exact .ite (.refl s) (departEntry_stores _ _ s)

theorem takeRevocation_work (m : MemberIx) : OwnWork stored s (takeRevocation m s) := by
  unfold takeRevocation
  split
  · exact .refl s
  · exact .of_log (closeSession_frame _ _ s) (closeSession_stores _ _ s)

theorem takeEndNotice_eventOf : EventOf stored s (takeEndNotice s) := by
  unfold takeEndNotice
  split
  · exact takeNotice_eventOf fun u => .of_log (takeEnded_frame _ _ u) (takeEnded_stores _ _ u)
  · exact .none

theorem beginDisableRelease_frame : OnlyChanges [.supervisor] s (beginDisableRelease s) := by
  unfold beginDisableRelease
  split
  · exact withSupervisor_frame
  · exact .refl _ s
  · exact .refl _ s

end work


/-! ## Every row -/

/-- The word that a row's own operands store to: a host write of the exchange memory, no other. -/
def storesTo (c : Instr) (a : Nat) : Prop := ∃ b v, c = .hostMemoryWrite b v ∧ b.toNat = a

section rows
variable {stored : Nat → Prop} {s : State}

theorem sampleRow_eventOf (x : Word) (high : Bool) :
    EventOf stored s (timed (fun t => some t.sampleLeft) (sampleEvent x high) s) :=
  timed_eventOf fun u => sampleEvent_work x high u

theorem boundaryRow_eventOf : EventOf stored s (timed State.boundaryLeft boundaryEvent s) :=
  timed_eventOf fun u => .of_log (boundaryEvent_frame u) (boundaryEvent_stores u)

/-- A row that moves the current grant on its course, before a key-up. -/
theorem courseRow_eventOf {left : State → Option Nat} {f : Grant → State → State}
    (hf : ∀ g u, OnlyChanges courseParts u (f g u)) (hs : ∀ g u, Stores (logPlace u.log) u (f g u)) :
    EventOf stored s (timed left (onGrant f) s) :=
  timed_eventOf fun u => onGrant_work u fun g w => .of_log (hf g w) (hs g w)

/-- A row that can end the current grant. -/
theorem endRow_eventOf {left : State → Option Nat} {f : Grant → State → State}
    (hf : ∀ g u, OnlyChanges endParts u (f g u)) (hs : ∀ g u, Stores (logPlace u.log) u (f g u)) :
    EventOf stored s (timed left (onGrant f) s) :=
  timed_eventOf fun u => onGrant_work u fun g w => .of_log (hf g w) (hs g w)

theorem pin_begins {high : Bool} : Begins s { s with txfaultPin := high } :=
  ⟨fun _ => rfl, fun _ => rfl, fun _ => rfl, rfl, rfl, rfl⟩

theorem disablePin_begins {active : Bool} : Begins s { s with disablePin := active } :=
  ⟨fun _ => rfl, fun _ => rfl, fun _ => rfl, rfl, rfl, rfl⟩

theorem changeTxfault_eventOf (high now : Bool) (hr : s.ready = true) : EventOf stored s (changeTxfault high now s) := by
  have hp : s.phase = .ready := by simpa [State.ready] using hr
  have h : changeTxfault high now s = event (judgeTxfault now) { s with txfaultPin := high } := by
    unfold changeTxfault
    split
    · next h => rw [hp] at h; cases h
    · next h => rw [hp] at h; cases h
    · rfl
  rw [h]
  exact .of_event pin_begins (.of_log (judgeTxfault_frame now _) (judgeTxfault_stores now _))

theorem phase_ne_of_ready {p : Phase} (hr : s.ready = true) (hp : p ≠ .ready := by decide) : s.phase ≠ p := fun h => by
  rw [State.ready, h] at hr
  exact hp (by simpa using hr)

theorem execUndefinedRequest_eventOf : ∃ t, execUndefinedRequest s = .next t ∧ EventOf stored s t := by
  unfold execUndefinedRequest
  split
  · exact ⟨_, rfl, stationService_eventOf fun u => .refuse _ u⟩
  · exact ⟨_, rfl, sessionService_eventOf fun _ u => .refuse _ u⟩

end rows

/-- Every command but a reset and a read of NEWS is one event of the ready part. -/
theorem exec_event {s : State} {c : Instr} (hr : s.ready = true) (hw : c.wellFormed = true) (hreset : c ≠ .hardwareReset)
    (hnews : c ≠ .newsRead) (hsoft : ∀ v, c ≠ .softReset v) :
    ∃ t, exec c s = .next t ∧ EventOf (storesTo c) s t := by
  have hnone : ∀ {a v : Word} {P : Nat → Prop}, a.toNat ≥ 0x8000 → (a = 0x8002 → v.getLsbD 15 = false) →
      EventOf P s (hostWrite a v s) := fun ha h15 => (hostWrite_eventOf h15).mono fun _ hb => absurd hb.1 (Nat.not_lt.2 ha)
  cases c
  case hardwareReset => exact absurd rfl hreset
  case newsRead => exact absurd rfl hnews
  case softReset v => exact absurd rfl (hsoft v)
  case undefinedRequest => exact execUndefinedRequest_eventOf
  all_goals refine ⟨_, rfl, ?_⟩
  -- the requests of the station cell
  case nop => exact stationService_eventOf fun u => .done (OnlyChanges.refl [] u) (.refl u)
  case start => exact stationService_eventOf startRequest_work
  case stop now => exact stationService_eventOf fun u => stopRequest_work u now
  case holdFloor => exact stationService_eventOf holdRequest_work
  case resumeFloor => exact stationService_eventOf resumeRequest_work
  case setStation => exact stationService_eventOf setStationRequest_work
  case setMember => exact stationService_eventOf setMemberRequest_work
  case readMember => exact stationService_eventOf readMemberRequest_work
  case setChannel => exact stationService_eventOf setChannelRequest_work
  case readChannel => exact stationService_eventOf readChannelRequest_work
  case refill => exact stationService_eventOf refillRequest_work
  case openSession => exact stationService_eventOf openSessionRequest_work
  case closeSession => exact stationService_eventOf fun u => closeSlot_work u _ _
  case clearLockout => exact stationService_eventOf clearLockoutRequest_work
  case kill now => exact stationService_eventOf fun u => killRequest_work u now
  case detectorHold => exact stationService_eventOf detectorHoldRequest_work
  case detectorRelease => exact stationService_eventOf detectorReleaseRequest_work
  -- the requests of the session cells
  case keepalive => exact sessionService_eventOf fun n u => keepaliveRequest_work u n
  case key => exact sessionService_eventOf fun n u => keyRequest_work u n
  case release => exact sessionService_eventOf fun n u => releaseRequest_work u n
  case preempt now => exact sessionService_eventOf fun n u => preemptRequest_work u now n
  case eject => exact sessionService_eventOf fun n u => ejectRequest_work u n
  case killFromSession now => exact sessionService_eventOf fun _ u => operatorOnly_work (killRequest_work u now)
  case clearLockoutFromSession => exact sessionService_eventOf fun _ u => operatorOnly_work (clearLockoutRequest_work u)
  case holdFloorFromSession => exact sessionService_eventOf fun _ u => operatorOnly_work (holdRequest_work u)
  case resumeFloorFromSession => exact sessionService_eventOf fun _ u => operatorOnly_work (resumeRequest_work u)
  -- the host's accesses
  case attentionWrite v => exact hnone (by decide) fun h => absurd h (by decide)
  case stationCellCall v => exact hnone (by decide) fun _ => by simpa [Instr.wellFormed] using (Bool.and_eq_true_iff.1 hw).2
  case interruptEnableWrite v => exact hnone (by decide) fun _ => by simpa [Instr.wellFormed] using (Bool.and_eq_true_iff.1 hw).2
  case eventEnableWrite v => exact hnone (by decide) fun h => absurd h (by decide)
  case eventsClear v => exact hnone (by decide) fun h => absurd h (by decide)
  case answeredRead => exact .of_begins (answeredRead_begins s)
  case readOnlyRegisterWrite a v =>
    have ha : readOnlyAddress a = true := hw
    simp only [readOnlyAddress, Bool.or_eq_true, beq_iff_eq, decide_eq_true_eq] at ha
    exact hnone (by rcases ha with (((rfl | rfl) | rfl) | rfl) | h <;> first | decide | omega)
      fun h => absurd ha (by rw [h]; decide)
  case hostMemoryWrite a v =>
    have ha : a.toNat < 0x8000 := of_decide_eq_true hw
    refine (hostWrite_eventOf fun h => ?_).mono fun b hb => ⟨a, v, rfl, hb.2.symm⟩
    rw [h] at ha; exact absurd ha (by decide)
  -- reset, the inputs and the samples
  case resetRelease => rw [if_neg (phase_ne_of_ready hr (p := .held))]; exact .none
  case startUpClearingDone => rw [if_neg (phase_ne_of_ready hr (p := .clearing))]; exact .none
  case txfaultChange high now => exact changeTxfault_eventOf high now hr
  case disableAssert now =>
    exact whenReady_eventOf disablePin_begins (.of_log (assertDisable_frame now _) (assertDisable_stores now _))
  case disableReleaseBegin =>
    exact whenReady_eventOf disablePin_begins
      (.of_mem (beginDisableRelease_frame _) (beginDisableRelease_frame _ .mem (by decide)))
  case releaseTimerExpiry =>
    exact timed_eventOf fun u => .of_log (completeDisableRelease_frame u) (completeDisableRelease_stores u)
  case adcSample x high => exact sampleRow_eventOf x high
  case debounceComplete x high => exact .ite (sampleRow_eventOf x high) .none
  case captureBoundary x high => exact .ite (sampleRow_eventOf x high) .none
  case statusPageRewrite =>
    exact timed_eventOf fun u => .of_stores (rewritePageOnce_frame u) (rewritePageOnce_stores u) fun _ => page_not_hostWord
  -- the timers
  case courtesyExpiry =>
    exact timed_eventOf fun u => .of_log (ps := arbitrationParts) (OnlyChanges.trans withFloor_frame (arbitrate_frame _))
      (Stores.after (arbitrate_stores _) withFloor_stores)
  case changeoverExpiry => exact courseRow_eventOf leaveChangeover_frame fun g u => leaveChangeover_stores g u
  case busyWaitExpiry => exact courseRow_eventOf expireBusyWait_frame fun g u => expireBusyWait_stores g u
  case gap1Expiry => exact courseRow_eventOf enterGap2_frame fun g u => enterGap2_stores g u
  case gap2Expiry => exact courseRow_eventOf leaveGap2_frame fun g u => leaveGap2_stores g u
  case prebufferLimitExpiry => exact courseRow_eventOf expirePrebuffer_frame fun g u => expirePrebuffer_stores g u
  case blockBoundary => exact boundaryRow_eventOf
  case audioLost => exact .ite boundaryRow_eventOf .none
  case drainLimit => exact .ite boundaryRow_eventOf .none
  case tailExpiry => exact endRow_eventOf unkey_frame unkey_stores
  case accountingTick => exact endRow_eventOf accountTick_frame accountTick_stores
  case keyLimitReached => exact endRow_eventOf endAtKeyLimit_frame endAtKeyLimit_stores
  case receiverRecoveryExpiry => exact timed_eventOf expireRecovery_work
  case surveillanceExpiry n => exact timed_eventOf fun u => .of_log (expireSession_frame n u) (expireSession_stores n u)
  case penaltyEnd m =>
    exact timed_eventOf fun u => .of_log (ps := .members :: arbitrationParts)
      (OnlyChanges.trans withMember_frame (arbitrate_frame _).mono) (Stores.after (arbitrate_stores _) withMember_stores)
  case intervalReached => exact timed_eventOf fun u => dueThenArbitrate_work u _ _
  case quietTimerExpiry => exact timed_eventOf fun u => dueThenArbitrate_work u _ _
  case idPatternStart => exact timed_eventOf fun u => .of_mem (ps := [.ident]) withIdent_frame rfl
  case idPatternComplete => exact endRow_eventOf (fun g u => applyCause_frame g _ u) fun g u => applyCause_stores g _ u
  case qualificationExpiry now =>
    exact timed_eventOf fun u => .of_log (qualifiedFault_frame now u) (qualifiedFault_stores now u)
  -- the notices
  case keyLimitNotice m => exact takeNotice_eventOf fun u => takeKeyLimit_work u m
  case endNotice => exact takeEndNotice_eventOf s
  case revocationNotice m => exact takeNotice_eventOf fun u => takeRevocation_work u m
  case privilegeNotice m =>
    exact takeNotice_eventOf fun u => .of_log (ps := closeParts) ((revokeGrant_frame u m).mono.trans (revokeEntry_frame _ m).mono)
      ((revokeGrant_stores u m).trans (revokeEntry_stores _ m))
  case clearNotice r => exact takeNotice_eventOf fun u => .of_log (clearQueue_frame _ u) (clearQueue_stores _ u)
  case endCause tag r => exact takeNotice_eventOf fun u => .of_log (takeCause_frame tag r u) (takeCause_stores tag r u)

/-! ## The statements -/

theorem hostRead_mem (a : Word) (s : State) : (hostRead a s).mem = s.mem := by
  unfold hostRead
  dsimp only
  split
  · rfl
  · split <;> rfl

theorem exec_softReset {s : State} {v : Word} (hr : s.ready = true) (hv : v.getLsbD 15 = true) :
    exec (.softReset v) s = .next (s.resetBlocks .clearing) := by
  show Host.Outcome.next (hostWrite 0x8002 v s) = _
  unfold hostWrite
  rw [hr]
  exact congrArg Host.Outcome.next (if_pos hv)

/-- Settles O57: a host's word is stored to by no event of the part, a host write of that very word apart. A reset leaves the
memory to the start-up clearing, and a read of NEWS reaches no word of it. -/
theorem theHostsWordsAreTheHosts : Obligations.TheHostsWordsAreTheHosts := by
  unfold Obligations.TheHostsWordsAreTheHosts
  intro s t c a hs hc hr hw ha hn h
  by_cases hreset : c = .hardwareReset ∨ c = .newsRead ∨ ∃ v, c = .softReset v
  · rcases hreset with rfl | rfl | ⟨v, rfl⟩
    · cases h; rfl
    · cases h
      exact congrArg (Memory.read · a) (hostRead_mem 0x8005 s)
    · rw [exec_softReset hr hw] at h
      cases h; rfl
  · simp only [not_or, not_exists] at hreset
    obtain ⟨u, hu, he⟩ := exec_event hr hw hreset.1 hreset.2.1 hreset.2.2
    cases hu.symm.trans h
    exact he.hostWord_kept hs hc ha fun ⟨b, v, hb, hab⟩ => hn b v hb hab

/-! ### What a status record shows (R31, 11.4) -/

theorem grantOf_eq_filter (s : State) (n : Slot) : s.grantOf n = s.key.grant.filter (·.session == some n) := by
  unfold State.grantOf
  cases s.key.grant with
  | none => rfl
  | some g => by_cases h : g.session = some n <;> simp [Option.filter, h]

theorem memberOnAir_eq_mem (x : GrantState) : x.memberOnAir = decide (x ∈ [GrantState.keyed, .drain, .tail]) := by
  cases x <;> rfl

theorem floorState_code (s : State) (n : Slot) :
    word (s.floorState n).code = (match s.entryOf n, s.grantOf n with
      | some _, _ => 1
      | none, some g => if g.state ∈ [GrantState.keyed, .idSending] then 3 else if g.state ∈ [GrantState.drain, .tail] then 4 else 2
      | none, none => 0) := by
  unfold State.floorState
  cases s.entryOf n with
  | some e => rfl
  | none =>
    cases s.grantOf n with
    | none => rfl
    | some g => cases h : g.state <;> simp only [h] <;> rfl

theorem channelOf_word (s : State) (n : Slot) :
    channelWord (s.channelOf n) = (match s.entryOf n, s.grantOf n with
      | some e, _ => word e.channel.val | none, some g => word g.channel.val | none, none => 0xFFFF) := by
  unfold State.channelOf
  cases s.entryOf n <;> cases s.grantOf n <;> rfl

theorem positionOf_word (s : State) (n : Slot) :
    word ((s.positionOf n).getD 0) =
      (match s.floor.queue.findIdx? (·.session == n) with | none => 0 | some i => word (i + 1)) := by
  unfold State.positionOf Floor.positionOf
  cases s.floor.queue.findIdx? (·.session == n) <;> rfl

theorem budgetOf_word (s : State) (n : Slot) :
    word (s.budgetOf n) = (match (s.session n).member with
      | none => 0
      | some m => if (s.session n).state = .free ∨ (s.member m).unmetered = true then 0 else word (s.member m).remaining) := by
  unfold State.budgetOf
  cases (s.session n).member with
  | none => cases (s.session n).state <;> rfl
  | some m => cases (s.session n).state <;> cases h : (s.member m).unmetered <;> simp [h, word]

theorem flagsWord_two (a b : Bool) : flagsWord [a, b] = word (a.toNat + 2 * b.toNat) := by
  rw [flagsWord_eq]; rfl

theorem sessionState_word (x : SessionState) :
    word x.code = (match x with | .free => 0 | .opened => 1 | .lost => 2) := by
  cases x <;> rfl

theorem orZero_eq_getD (w : Option Word) : orZero w = w.getD 0 := by
  cases w <;> rfl

/-- Settles O56: every such command is one event, which publishes; and the record's words are the owning blocks' fields. -/
theorem everyCommandPublishesTheRecords : Obligations.EveryCommandPublishesTheRecords := by
  unfold Obligations.EveryCommandPublishesTheRecords
  refine ⟨fun s t c hs hr hw h1 h2 h3 h => ?published, ?record, by decide⟩
  case published =>
    obtain ⟨u, hu, he⟩ := exec_event hr hw h1 h2 h3
    cases hu.symm.trans h
    exact he.published hs
  case record =>
    intro s n r e g k shown
    have hg : s.grantOf n = g := grantOf_eq_filter s n
    have hk : s.keyedGrantOf n = k := by
      unfold State.keyedGrantOf
      rw [hg]
      exact congrArg (Option.filter · g) (funext fun x => memberOnAir_eq_mem x.state)
    refine ⟨?_, rfl, rfl, rfl⟩
    unfold State.recordFields
    rw [hk]
    extract_lets _ keyed
    rw [sessionState_word, floorState_code, channelOf_word, positionOf_word, budgetOf_word, flagsWord_two, orZero_eq_getD,
      orZero_eq_getD, hg]
    rfl

end Sys2Proof.Machine
end

section
/-! The resets, the start-up, the registers and the interrupt (O2–O4, O6–O8, O60). -/

set_option Elab.async false

namespace Sys2Proof.Machine

/-! ## The state after reset -/

theorem reset_member (m : MemberIx) : State.reset.member m = Member.reset := by
  simp [State.reset, State.member]

theorem reset_channel (c : ChannelIx) : State.reset.channel c = Channel.reset := by
  simp [State.reset, State.channel]

theorem reset_session (n : Slot) : State.reset.session n = Session.reset := by
  simp [State.reset, State.session]

theorem reset_sound : State.reset.Sound where
  memoryLaw := reset_memory_wf
  detectorLaw := by unfold State.detectorLaw; decide
  collectionLaw := by unfold State.collectionLaw; decide
  budgetLaw m := by rw [reset_member]; exact ⟨0, rfl, Nat.le_refl 0⟩
  bindingLaw := by simp [State.bindingLaw, reset_session, Session.reset]
  dacLaw := by simp [State.dacLaw, State.reset, Playout.reset]
  tagLaw := by simp [State.tagLaw, State.reset, KeyController.reset]

theorem reset_lawful : State.reset.Lawful where
  floorLaw := by unfold State.floorLaw; decide
  grantLaw := by simp [State.grantLaw, State.reset, KeyController.reset]
  pttLaw := by simp [State.pttLaw, State.reset, KeyController.reset]
  queueLaw := by simp [State.queueLaw, State.reset, Floor.reset]
  holderLaw := by simp [State.holderLaw, State.holds, State.reset, KeyController.reset]
  logLaw := by simp [State.logLaw, State.reset, StationLog.reset, StationLog.unread, KeyController.reset]

/-- Settles O60: the reset state has no grant, no queue and no bound slot, so each law is a closed fact. -/
theorem resetIsSoundAndLawful : Obligations.ResetIsSoundAndLawful :=
  ⟨reset_sound, reset_lawful, by simp [State.keyLimitLaw, State.reset, KeyController.reset]⟩

/-! ## Resets -/

theorem resetBlocks_holds (s : State) (p : Phase) : HoldsResetValues (s.resetBlocks p) where
  members := reset_member
  channels := reset_channel
  sessions := reset_session
  floor := rfl
  key := rfl
  playout := rfl
  receive := rfl
  detector := rfl
  ident := rfl
  supervisor := rfl
  log := rfl
  waiting c := by simp [State.resetBlocks, State.reset, Cells.reset]
  pointer := rfl
  attentionHeld := rfl
  bus := rfl
  params := rfl
  periods := rfl
  notices := rfl
  owed := ⟨rfl, rfl⟩

theorem resetBlocks_keeps (s : State) (p : Phase) : ResetKeeps s (s.resetBlocks p) := ⟨rfl, rfl, rfl, rfl, rfl⟩

/-- Settles O2: both resets end in the state that `State.resetBlocks` gives. -/
theorem resetGivesEveryBlockItsResetValues : Obligations.ResetGivesEveryBlockItsResetValues :=
  ⟨fun s => ⟨_, rfl, resetBlocks_holds s .held, rfl, resetBlocks_keeps s .held⟩,
    fun s _ hr hv => ⟨_, exec_softReset hr hv, resetBlocks_holds s .clearing, rfl, resetBlocks_keeps s .clearing⟩⟩

/-! ## Accesses before READY -/

theorem hostWrite_notReady {s : State} (hr : s.ready = false) (a v : Word) : hostWrite a v s = s := by
  simp [hostWrite, hr]

theorem readWord_notReady {s : State} (hr : s.ready = false) {a : Word} (h0 : a ≠ 0x8000) (h1 : a ≠ 0x8001) :
    s.readWord a = 0 := by
  have h0' : a.toNat ≠ 0x8000 := fun h => h0 (BitVec.eq_of_toNat_eq h)
  have h1' : a.toNat ≠ 0x8001 := fun h => h1 (BitVec.eq_of_toNat_eq h)
  unfold State.readWord
  split <;> simp_all [State.ready]

theorem hostRead_notReady {s : State} (hr : s.ready = false) {a : Word} (h0 : a ≠ 0x8000) (h1 : a ≠ 0x8001) :
    hostRead a s = s.withBus { s.bus with data := 0 } := by
  simp [hostRead, hr, readWord_notReady hr h0 h1]

/-- Settles O4: a host write before READY is the identity, and a read drives 0. -/
theorem accessesBeforeReadyAreIgnored : Obligations.AccessesBeforeReadyAreIgnored := by
  intro s hr
  refine ⟨?_, congrArg Host.Outcome.next (hostRead_notReady hr (by decide) (by decide)),
    congrArg Host.Outcome.next (hostRead_notReady hr (by decide) (by decide))⟩
  rintro c ⟨v, rfl | rfl | rfl | rfl | rfl | rfl | ⟨a, rfl | rfl⟩⟩ <;>
    exact congrArg Host.Outcome.next (hostWrite_notReady hr _ v)

end Sys2Proof.Machine
end

section
/-! The exchange memory and the registers at the bus (O6–O8). -/

set_option Elab.async false

namespace Sys2Proof.Machine

/-! ## Host writes by address -/

theorem hostWrite_memory {s : State} {a : Word} (hr : s.ready = true) (ha : a.toNat < 0x8000) (v : Word) :
    hostWrite a v s = event (writeMemory a.toNat v) s := by
  unfold hostWrite
  simp only [hr, Bool.not_true, Bool.false_eq_true, if_false]
  split
  case h_9 => exact if_pos ha
  all_goals next h => rw [h] at ha; exact absurd ha (by decide)

theorem hostWrite_above {s : State} {a : Word} (hr : s.ready = true) (ha : 0x8007 < a.toNat) (v : Word) :
    hostWrite a v s = s := by
  unfold hostWrite
  simp only [hr, Bool.not_true, Bool.false_eq_true, if_false]
  split
  case h_9 => exact if_neg (by unfold memorySize; omega)
  all_goals next h => rw [h] at ha; exact absurd ha (by decide)

theorem hostWrite_readOnly {s : State} {a : Word} (hr : s.ready = true)
    (ha : a ∈ [(0x8000 : Word), 0x8001, 0x8004, 0x8005]) (v : Word) : hostWrite a v s = event writeReadOnly s := by
  simp only [List.mem_cons, List.not_mem_nil, or_false] at ha
  rcases ha with rfl | rfl | rfl | rfl <;> exact if_neg (by simp [hr])

theorem hostWrite_control {s : State} {v : Word} (hr : s.ready = true) (hv : v.getLsbD 15 = false) :
    hostWrite 0x8002 v s = event (writeControl v) s :=
  (if_neg (by simp [hr])).trans (if_neg (by rw [hv]; decide))

theorem hostWrite_attention {s : State} (hr : s.ready = true) (v : Word) :
    hostWrite 0x8003 v s = event (callSessions v) s := if_neg (by simp [hr])

theorem hostWrite_events {s : State} (hr : s.ready = true) (v : Word) : hostWrite 0x8006 v s = event (clearEvents v) s :=
  if_neg (by simp [hr])

theorem hostWrite_eventEnable {s : State} (hr : s.ready = true) (v : Word) :
    hostWrite 0x8007 v s = event (writeEventEnable v) s := if_neg (by simp [hr])

/-- A change of the registers alone publishes no record. -/
theorem event_withBus {f : State → State} {s : State} {b : Bus} (h : f s = s.withBus b) : event f s = s.withBus b := by
  have hframe : OnlyChanges [.answered, .news, .events, .bus] s (f s) := by
    rw [h]
    intro p hp
    cases p
    case answered | news | events | bus => simp at hp
    all_goals first | rfl | exact fun _ => rfl
  rw [event_unchanged hframe, h]

/-! ## A word of the exchange memory (O8) -/

theorem isTxState_iff (a : Nat) : isTxState a = true ↔ ∃ i, i < 64 ∧ a = 0x1000 + 168 * i := by
  simp only [isTxState, Bool.and_eq_true, decide_eq_true_eq, beq_iff_eq]
  exact ⟨fun ⟨⟨h1, h2⟩, h3⟩ => ⟨(a - 0x1000) / 168, by omega⟩, fun ⟨i, hi, ha⟩ => by omega⟩

/-- A host write that completes no PREBUFFER stores its word and goes no further. -/
theorem writeMemory_plain {s : State} {a : Nat} {v : Word} (h : isTxState a = true → ∀ g, s.key.grant = some g →
    g.state = .prebuffer → ¬ (s.write a v).prebuffered g.tag) : writeMemory a v s = s.write a v := by
  refine ite_eq_right_iff.mpr fun htx => ?_
  unfold examinePrebuffer
  split
  · rfl
  · next g hg => exact if_neg fun ⟨hp, hc⟩ => h htx g hg hp ((prebufferComplete_iff _ _).mp hc)

/-- Settles O8: the write, the memory laws of one store, and the places' addresses. -/
theorem hostMemoryWritesStoreOneWord : Obligations.HostMemoryWritesStoreOneWord := by
  refine ⟨fun s a v hr ha h => ?_, fun s a b v hs => ⟨Memory.write_wf _ _ _ hs, Memory.read_write _ _ _ _ hs, write_frame⟩,
    isTxState_iff⟩
  have hplain : writeMemory a.toNat v s = s.write a.toNat v := writeMemory_plain h
  have hunchanged : event (writeMemory a.toNat v) s = writeMemory a.toNat v s :=
    event_unchanged (ps := [.mem]) (hplain ▸ write_frame)
  exact congrArg Host.Outcome.next ((hostWrite_memory hr ha v).trans (hunchanged.trans hplain))

/-! ## The STATUS bits and INT# (O7) -/

theorem getLsbD_flagWord_shift (b : Bool) (k i : Nat) (hk : k < 16) :
    (flagWord b <<< k).getLsbD i = (decide (i = k) && b) := by
  have hone : (1#16).getLsbD (i - k) = decide (i - k = 0) := by simp
  cases b
  · simp [flagWord]
  · by_cases h : i = k
    · subst h; simp [flagWord, hk]
    · simp [flagWord, h]; omega

theorem getLsbD_flagWord (b : Bool) (i : Nat) : (flagWord b).getLsbD i = (decide (i = 0) && b) := by
  simpa using getLsbD_flagWord_shift b 0 i (by decide)

theorem status_getLsbD (s : State) (i : Nat) : s.status.getLsbD i =
    ((decide (i = 0) && s.ready) || (decide (i = 1) && s.supervisor.running) ||
      (decide (i = 2) && s.supervisor.lockout.isSome) || (decide (i = 3) && (s.supervisor.disable != .released)) ||
      (decide (i = 4) && s.key.ptt) || (decide (i = 5) && s.floor.hold) || (decide (i = 6) && s.supervisor.txfaultActive) ||
      (decide (i = 7) && s.interrupt)) := by
  simp only [State.status, BitVec.getLsbD_or, getLsbD_flagWord, getLsbD_flagWord_shift _ _ _ (show 1 < 16 by decide),
    getLsbD_flagWord_shift _ _ _ (show 2 < 16 by decide), getLsbD_flagWord_shift _ _ _ (show 3 < 16 by decide),
    getLsbD_flagWord_shift _ _ _ (show 4 < 16 by decide), getLsbD_flagWord_shift _ _ _ (show 5 < 16 by decide),
    getLsbD_flagWord_shift _ _ _ (show 6 < 16 by decide), getLsbD_flagWord_shift _ _ _ (show 7 < 16 by decide)]

theorem word_ne_zero_iff (x : Word) : x ≠ 0 ↔ ∃ i, i < 16 ∧ x.getLsbD i = true := by
  refine ⟨fun h => ?_, fun ⟨i, _, hi⟩ h0 => by simp [h0] at hi⟩
  by_contra hn
  exact h (BitVec.eq_of_getLsbD_eq fun i hi => by
    simpa using Bool.eq_false_iff.mpr fun ht => hn ⟨i, hi, ht⟩)

theorem interrupt_iff (s : State) : s.interrupt = true ↔
    (∃ i, i < 16 ∧ s.bus.events.getLsbD i = true ∧ s.bus.eventEnable.getLsbD i = true) ∨
      (s.bus.answered ≠ 0 ∧ s.bus.answerEnable = true) ∨ (s.bus.news ≠ 0 ∧ s.bus.newsEnable = true) := by
  simp only [State.interrupt, Bool.or_eq_true, Bool.and_eq_true, bne_iff_ne, or_assoc]
  rw [word_ne_zero_iff (s.bus.events &&& s.bus.eventEnable)]
  simp only [BitVec.getLsbD_and, Bool.and_eq_true]

theorem ready_iff (s : State) : s.ready = true ↔ s.phase = .ready := beq_iff_eq

/-- Settles O7: STATUS bit by bit, INT# and the ban on PTT from their definitions. -/
theorem interruptAndStatusFollowTheirOwners : Obligations.InterruptAndStatusFollowTheirOwners := by
  intro s
  have hdisable : (s.supervisor.disable != .released) = true ↔
      s.supervisor.disable = .asserted ∨ s.supervisor.disable = .releasing := by
    cases s.supervisor.disable <;> decide
  refine ⟨interrupt_iff s, ?_, ?_, ?_, ?_, ?_, ?_, ?_, ?_, ?_, ?_⟩
  case refine_9 => intro i hi; rw [status_getLsbD]; simp; omega
  case refine_10 =>
    simp [State.pttForbidden, ← ready_iff, Option.isSome_iff_ne_none, or_assoc]
  all_goals rw [status_getLsbD]
  · simpa using ready_iff s
  · simp
  · simp [Option.isSome_iff_ne_none]
  · simpa using hdisable
  all_goals simp

/-! ## The registers (O6) -/

theorem readWord_memory {s : State} (h : s.phase = .ready) {a : Word} (ha : a.toNat < 0x8000) :
    s.readWord a = s.read a.toNat := by
  unfold State.readWord
  rw [h]
  split
  case h_11 => exact if_pos ha
  case h_1 | h_4 => contradiction
  all_goals omega

theorem readWord_above {s : State} (h : s.phase = .ready) {a : Word} (ha : 0x8007 < a.toNat) : s.readWord a = 0 := by
  unfold State.readWord
  rw [h]
  split
  case h_11 => exact if_neg (by unfold memorySize; omega)
  case h_1 | h_4 => contradiction
  all_goals omega

theorem readWord_control {s : State} (h : s.phase = .ready) :
    s.readWord 0x8002 = word (2 * s.bus.answerEnable.toNat + 4 * s.bus.newsEnable.toNat) := by
  have hword : s.readWord 0x8002 = flagsWord [false, s.bus.answerEnable, s.bus.newsEnable] := by
    unfold State.readWord; rw [h]; rfl
  rw [hword, flagsWord_three]
  simp

theorem hostRead_answered {s : State} (hr : s.ready = true) :
    hostRead 0x8004 s = s.withBus { s.bus with data := s.bus.answered, answered := 0 } := by
  have hword : s.readWord 0x8004 = s.bus.answered := by
    unfold State.readWord; rw [(ready_iff s).mp hr]; rfl
  unfold hostRead
  rw [hword]
  refine (if_neg (by simp [hr])).trans ?_
  exact congrArg (fun w => s.withBus { s.bus with data := s.bus.answered, answered := w }) (BitVec.and_not_self _)

theorem hostRead_news {s : State} (hr : s.ready = true) :
    hostRead 0x8005 s = s.withBus { s.bus with data := s.bus.news, news := 0 } := by
  have hword : s.readWord 0x8005 = s.bus.news := by
    unfold State.readWord; rw [(ready_iff s).mp hr]; rfl
  unfold hostRead
  rw [hword]
  refine (if_neg (by simp [hr])).trans ?_
  exact congrArg (fun w => s.withBus { s.bus with data := s.bus.news, news := w }) (BitVec.and_not_self _)

/-- Settles O6: each register access by its address. -/
theorem registersActAsTheRegisterTableSays : Obligations.RegistersActAsTheRegisterTableSays := by
  refine ⟨fun s v hr => ⟨fun h0 h15 => ?_, ?_, ?_, fun a ha => ?_, fun a ha => ?_, ?_, ?_⟩,
    fun s => ⟨fun h a => ?_, fun h => ?_, fun h a h0 h1 => ?_, fun h => ⟨readWord_control h, ?_, ?_, ?_, ?_, ?_,
      fun a => readWord_memory h, fun a => readWord_above h⟩⟩⟩
  · refine congrArg Host.Outcome.next ((hostWrite_control hr h15).trans (event_withBus ?_))
    exact if_neg (by rw [h0]; decide)
  · exact congrArg Host.Outcome.next ((hostWrite_eventEnable hr v).trans (event_withBus rfl))
  · exact congrArg Host.Outcome.next ((hostWrite_events hr v).trans (event_withBus rfl))
  · exact congrArg Host.Outcome.next ((hostWrite_readOnly hr ha v).trans (event_withBus rfl))
  · exact congrArg Host.Outcome.next (hostWrite_above hr ha v)
  · exact congrArg Host.Outcome.next (hostRead_answered hr)
  · exact congrArg Host.Outcome.next (hostRead_news hr)
  · unfold State.readWord; rw [h]
  · unfold State.readWord
    cases hp : s.phase
    case held => exact absurd hp h
    all_goals exact ⟨rfl, rfl⟩
  · exact readWord_notReady (by simp [State.ready, h]) h0 h1
  all_goals unfold State.readWord; rw [h]; rfl

end Sys2Proof.Machine
end

section
/-! The step, what is due, and the passing of time (O1). -/

set_option Elab.async false

namespace Sys2Proof.Machine

/-! ## The running timers and their rows -/

theorem mem_dueIf {left : Option Nat} {c x : Instr} : c ∈ dueIf left x ↔ left = some 0 ∧ c = x := by
  unfold dueIf
  split <;> simp_all

theorem grantLeft_eq_some {s : State} {f : Grant → Option Nat} {k : Nat} :
    s.grantLeft f = some k ↔ ∃ g, s.key.grant = some g ∧ f g = some k := Option.bind_eq_some_iff

theorem busyWait_left_eq_some {b : BusyWait} {k : Nat} : b.left = some k ↔ b = .running k := by
  cases b <;> simp [BusyWait.left]

theorem quiet_left_eq_some {q : QuietTimer} {k : Nat} : q.left = some k ↔ q = .running k := by
  cases q <;> simp [QuietTimer.left]

theorem mem_dueTimers {s : State} {now : Bool} {c : Instr} : c ∈ s.dueTimers now ↔ TimedRow s now 0 c := by
  simp only [State.dueTimers, List.mem_append, List.mem_flatMap, mem_dueIf, grantLeft_eq_some, busyWait_left_eq_some,
    quiet_left_eq_some, allSlots, allMembers, List.mem_finRange, true_and, Option.map_eq_some_iff, or_assoc]
  constructor
  · rintro (⟨h, rfl⟩ | ⟨⟨g, hg, h⟩, rfl⟩ | ⟨⟨g, hg, h⟩, rfl⟩ | ⟨⟨g, hg, h⟩, rfl⟩ | ⟨⟨g, hg, h⟩, rfl⟩ | ⟨⟨g, hg, h⟩, rfl⟩ |
      ⟨h, rfl⟩ | ⟨⟨g, hg, h⟩, rfl⟩ | ⟨⟨g, hg, h⟩, rfl⟩ | ⟨⟨g, hg, h⟩, rfl⟩ | ⟨h, rfl⟩ | ⟨n, h, rfl⟩ | ⟨m, h, rfl⟩ |
      ⟨h, rfl⟩ | ⟨h, rfl⟩ | ⟨h, rfl⟩ | ⟨h, rfl⟩ | ⟨⟨q, hq, h⟩, rfl⟩ | ⟨h, rfl⟩)
    · exact .courtesy h
    · exact .changeover hg h
    · exact .busyWait hg h
    · exact .gap1 hg h
    · exact .gap2 hg h
    · exact .prebuffer hg h
    · exact .boundary h
    · exact .tail hg h
    · exact .tick hg h
    · exact .limit hg h
    · exact .recovery h
    · exact .deadline h
    · exact .penalty h
    · exact .interval h
    · exact .quiet h
    · exact .patternStart h
    · exact .patternEnd h
    · exact h ▸ .qualification hq
    · exact .release h
  · intro h
    generalize hk : 0 = k at h
    cases h <;> grind

/-- A running timer keeps time from passing further than the moment of its row. -/
theorem mem_timersLeft {s : State} {k : Nat} (now : Bool) :
    k ∈ s.timersLeft ↔ k = s.sampleLeft ∨ k = s.pageLeft ∨ ∃ c, TimedRow s now k c := by
  simp only [State.timersLeft, List.mem_cons, List.mem_filterMap, List.mem_append, List.mem_map, List.not_mem_nil, or_false,
    allSlots, allMembers, List.mem_finRange, true_and, id_eq, exists_eq_right, or_assoc]
  simp only [eq_comm (a := some k), grantLeft_eq_some, busyWait_left_eq_some, quiet_left_eq_some, Option.map_eq_some_iff]
  refine or_congr_right (or_congr_right ⟨?_, ?_⟩)
  · rintro (h | ⟨g, hg, h⟩ | ⟨g, hg, h⟩ | ⟨g, hg, h⟩ | ⟨g, hg, h⟩ | ⟨g, hg, h⟩ | h | ⟨g, hg, h⟩ | ⟨g, hg, h⟩ |
      ⟨g, hg, h⟩ | h | h | h | h | h | ⟨q, hq, h⟩ | h | ⟨n, h⟩ | ⟨m, h⟩)
    · exact ⟨_, .courtesy h⟩
    · exact ⟨_, .changeover hg h⟩
    · exact ⟨_, .busyWait hg h⟩
    · exact ⟨_, .gap1 hg h⟩
    · exact ⟨_, .gap2 hg h⟩
    · exact ⟨_, .prebuffer hg h⟩
    · exact ⟨_, .boundary h⟩
    · exact ⟨_, .tail hg h⟩
    · exact ⟨_, .tick hg h⟩
    · exact ⟨_, .limit hg h⟩
    · exact ⟨_, .recovery h⟩
    · exact ⟨_, .interval h⟩
    · exact ⟨_, .quiet h⟩
    · exact ⟨_, .patternStart h⟩
    · exact ⟨_, .patternEnd h⟩
    · exact ⟨_, h ▸ TimedRow.qualification (now := now) hq⟩
    · exact ⟨_, .release h⟩
    · exact ⟨_, .deadline h⟩
    · exact ⟨_, .penalty h⟩
  · rintro ⟨c, h⟩
    cases h <;> grind

/-! ## What is due -/

theorem mem_dueService {s : State} {now : Bool} {c : Instr} :
    c ∈ s.dueService now ↔ ∃ x, s.nextCell = some x ∧ c = (s.requestIn x).command now := by
  unfold State.dueService
  split <;> simp_all

theorem mem_dueSampling {s : State} {c : Instr} : c ∈ s.dueSampling ↔
    (s.samplesOwed ≠ 0 ∧ c = .adcSample (Config.rxSample s.choices) (Config.cosLevel s.choices)) ∨
      (s.pagesOwed ≠ 0 ∧ c = .statusPageRewrite) := by
  unfold State.dueSampling
  split <;> split <;> simp_all

theorem mem_dueCommands {s : State} (h : s.phase = .ready) (c : Instr) : c ∈ s.dueCommands ↔ IsDue s c := by
  simp only [State.dueCommands, h, List.mem_append, mem_dueService, mem_dueTimers, mem_dueSampling, List.mem_map, or_assoc]
  constructor
  · rintro (⟨x, hx, rfl⟩ | ⟨x, hx, rfl⟩ | ht | ⟨hs, rfl⟩ | ⟨hp, rfl⟩)
    · exact .service hx
    · cases x
      · exact .ended hx
      · exact .cause hx
      · exact .revocation hx
      · exact .privilege hx
      · exact .keyLimit hx
      · exact .clear hx
    · exact .timed ht
    · exact .sample hs
    · exact .page hp
  · intro hd
    cases hd with
    | service hx => exact .inl ⟨_, hx, rfl⟩
    | timed ht => exact .inr (.inr (.inl ht))
    | sample hs => exact .inr (.inr (.inr (.inl ⟨hs, rfl⟩)))
    | page hp => exact .inr (.inr (.inr (.inr ⟨hp, rfl⟩)))
    | ended hx | cause hx | revocation hx | privilege hx | keyLimit hx | clear hx => exact .inr (.inl ⟨_, hx, rfl⟩)

/-- Time may pass while nothing that takes no time is outstanding, up to the earliest moment. -/
theorem mayPass_iff (s : State) (n : Nat) : s.mayPass n = true ↔ n = 0 ∨
    (s.nextCell = none ∧ (∀ x ∈ s.notices, ∃ tag r, x = .cause tag r) ∧ n ≤ s.sampleLeft ∧ n ≤ s.pageLeft ∧
      ∀ now k c, TimedRow s now k c → n ≤ k) := by
  have hcause : ∀ x : Notice, x.isCause = true ↔ ∃ tag r, x = .cause tag r := fun x => by
    cases x <;> simp [Notice.isCause]
  have htimers : (∀ k ∈ s.timersLeft, n ≤ k) ↔
      n ≤ s.sampleLeft ∧ n ≤ s.pageLeft ∧ ∀ now k c, TimedRow s now k c → n ≤ k := by
    constructor
    · intro h
      exact ⟨h _ ((mem_timersLeft true).mpr (.inl rfl)), h _ ((mem_timersLeft true).mpr (.inr (.inl rfl))),
        fun now k c hr => h k ((mem_timersLeft now).mpr (.inr (.inr ⟨c, hr⟩)))⟩
    · rintro ⟨h1, h2, h3⟩ k hk
      obtain rfl | rfl | ⟨c, hr⟩ := (mem_timersLeft true).mp hk
      exacts [h1, h2, h3 _ _ _ hr]
  simp only [State.mayPass, State.outstanding, Bool.or_eq_true, beq_iff_eq, Bool.and_eq_true, Bool.not_eq_true',
    Bool.or_eq_false_iff, List.any_eq_false, List.all_eq_true, decide_eq_true_eq, htimers, ← hcause]
  simp [and_assoc, and_left_comm]

/-- Where nothing is due, one sample period may pass. -/
theorem mayPass_one {s : State} (hr : s.phase = .ready) (h : s.dueCommands = []) : s.mayPass 1 = true := by
  have hnone : ∀ c, ¬ IsDue s c := fun c hd => by
    have hmem := (mem_dueCommands hr c).mpr hd
    rw [h] at hmem
    cases hmem
  have hnotices : ∀ x, x ∉ s.notices := fun x hx => by
    cases x
    · exact hnone _ (.ended hx)
    · exact hnone _ (.cause hx)
    · exact hnone _ (.revocation hx)
    · exact hnone _ (.privilege hx)
    · exact hnone _ (.keyLimit hx)
    · exact hnone _ (.clear hx)
  have hsample : 1 ≤ s.sampleLeft := by
    unfold State.sampleLeft
    split
    · exact Nat.le_refl 1
    · next ho => exact absurd (.sample ho) (hnone _)
  have hpage : 1 ≤ s.pageLeft := by
    unfold State.pageLeft
    split
    · omega
    · next ho => exact absurd (.page ho) (hnone _)
  refine (mayPass_iff s 1).mpr (.inr ⟨?_, fun x hx => absurd hx (hnotices x), hsample, hpage, fun now k c hrow => ?_⟩)
  · exact Option.eq_none_iff_forall_ne_some.mpr fun x hx => hnone _ (.service hx)
  · have hk := (mem_timersLeft now).mpr (.inr (.inr ⟨c, hrow⟩))
    obtain rfl | rfl | ⟨d, hd⟩ := (mem_timersLeft (Config.causeAtOnce s.choices)).mp hk
    · exact hsample
    · exact hpage
    · rcases Nat.eq_zero_or_pos k with rfl | hpos
      · exact absurd (.timed hd) (hnone d)
      · exact hpos

/-! ## The idle step -/

theorem chooseDue_mem {α : Type} (k : Nat) {l : List α} (h : l ≠ []) : ∃ x ∈ l, chooseDue k l = some x := by
  have hlt : k % l.length < l.length := Nat.mod_lt _ (List.length_pos_iff.mpr h)
  exact ⟨l[k % l.length], List.getElem_mem hlt, List.getElem?_eq_getElem hlt⟩

/-- With no command waiting, the step is one of the choices that stand open. -/
theorem step_idle {s : State} (hp : s.pending = []) (h : s.idleChoices ≠ []) :
    (∃ c ∈ s.dueCommands, step s = exec c s.drawn) ∨
      (s.ready = true ∧ s.mayPass 1 = true ∧ step s = .next (s.drawn.passTime 1)) := by
  obtain ⟨x, hx, hc⟩ := chooseDue_mem (Config.eventChoice s.choices) h
  have hnone : x = none → step s = .next (s.drawn.passTime 1) := by
    rintro rfl; unfold step idleStep; simp only [hp, hc]
  have hsome : ∀ c, x = some c → step s = exec c s.drawn := by
    rintro c rfl; unfold step idleStep; simp only [hp, hc]
  simp only [State.idleChoices, List.mem_append, List.mem_map] at hx
  rcases hx with ⟨c, hmem, rfl⟩ | hx
  · exact .inl ⟨c, hmem, hsome c rfl⟩
  · split at hx
    · next hpass =>
      obtain rfl := List.mem_singleton.mp hx
      obtain ⟨hr, hm⟩ := Bool.and_eq_true_iff.mp hpass
      exact .inr ⟨hr, hm, hnone rfl⟩
    · cases hx

theorem idleChoices_ne_nil {s : State} (h : s.dueCommands ≠ []) : s.idleChoices ≠ [] := by
  simp [State.idleChoices, h]

theorem step_held {s : State} (hp : s.pending = []) (h : s.phase = .held) : step s = .next s := by
  have hnone : s.idleChoices = [] := by simp [State.idleChoices, State.dueCommands, State.ready, h]
  unfold step idleStep
  rw [hp]
  dsimp only
  rw [hnone]
  rfl

theorem passTime_eq (s : State) (n : Nat) : s.passTime n =
    { s with
      periods := s.periods + n
      samplesOwed := s.samplesOwed + n
      pagesOwed := s.pagesOwed + (s.periods % 160 + n) / 160
      floor := { s.floor with courtesy := s.floor.courtesy.map (· - n) }
      key := { s.key with
        recovery := s.key.recovery.map (· - n)
        grant := s.key.grant.map fun g =>
          { g with
            keySamples := if g.state ∈ [.keyed, .drain, .tail, .idSending] then g.keySamples + n else g.keySamples
            changeoverLeft := g.changeoverLeft.map (· - n), gap1Left := g.gap1Left.map (· - n)
            gap2Left := g.gap2Left.map (· - n), prebufferLeft := g.prebufferLeft.map (· - n)
            tailLeft := g.tailLeft.map (· - n)
            busyWait := match g.busyWait with | .running k => .running (k - n) | .off => .off | .expired => .expired } }
      playout := { s.playout with boundary := s.playout.boundary.map (· - n), dacBlock := s.playout.dacBlock.drop n }
      ident := { s.ident with
        quiet := match s.ident.quiet with | .running k => .running (k - n) | .stopped => .stopped | .expired => .expired
        position := s.ident.position.map (· + n)
        phase := if s.ident.position = none then s.ident.phase
          else s.ident.phase + BitVec.ofNat 16 (n * ((8192 * s.params.idTone + 500) / 1000)) }
      supervisor := { s.supervisor with
        qualification := s.supervisor.qualification.map fun q => { q with left := q.left - n }
        releaseTimer := s.supervisor.releaseTimer.map (· - n) } } := by
  have hair : ∀ x : GrantState, x.onAir = decide (x ∈ [GrantState.keyed, .drain, .tail, .idSending]) := fun x => by
    cases x <;> rfl
  have hgrant : (fun g : Grant => g.passTime n) = fun g : Grant =>
      { g with
        keySamples := if g.state ∈ [.keyed, .drain, .tail, .idSending] then g.keySamples + n else g.keySamples
        changeoverLeft := g.changeoverLeft.map (· - n), gap1Left := g.gap1Left.map (· - n)
        gap2Left := g.gap2Left.map (· - n), prebufferLeft := g.prebufferLeft.map (· - n)
        tailLeft := g.tailLeft.map (· - n)
        busyWait := match g.busyWait with | .running k => .running (k - n) | .off => .off | .expired => .expired } := by
    funext g
    simp only [Grant.passTime, hair, decide_eq_true_eq]
    rfl
  have hphase : (s.ident.passTime s.params n).phase = if s.ident.position = none then s.ident.phase
      else s.ident.phase + BitVec.ofNat 16 (n * ((8192 * s.params.idTone + 500) / 1000)) := by
    simp only [Ident.passTime, phaseStep, Nat.mul_comm s.params.idTone, word]
    cases s.ident.position <;> rfl
  rw [← hgrant, ← hphase]
  rfl

/-- Settles O1: the front command, or one of the idle choices; what is due; and the passing of time. -/
theorem stepRunsTheFrontCommand : Obligations.StepRunsTheFrontCommand := by
  refine ⟨fun s c rest h => ?_, fun s hp hd hr => ?_, fun s hp hd _ _ => ?_, fun s hp hd hr => ?_, fun s => step_held,
    fun s => rfl, fun s => ⟨fun h => ?_, fun h => ?_, mem_dueCommands⟩, mayPass_iff, fun s => rfl, passTime_eq⟩
  · unfold step
    rw [h]
  · rcases step_idle hp (idleChoices_ne_nil hd) with h | ⟨hready, hpass, -⟩
    · exact h
    · rcases hr with hr | hr <;> simp_all
  · exact (step_idle hp (idleChoices_ne_nil hd)).imp_right fun h => h.2.2
  · have hpass := mayPass_one ((ready_iff s).mp hr) hd
    rcases step_idle hp (by simp [State.idleChoices, hr, hpass]) with ⟨c, hc, -⟩ | ⟨-, -, h⟩
    · rw [hd] at hc; cases hc
    · exact h
  · simp [State.dueCommands, h]
  · simp [State.dueCommands, h]

end Sys2Proof.Machine
end

section
/-! Attention and the next cell (O5), and the end of the start-up (O3). -/

set_option Elab.async false

namespace Sys2Proof.Machine

/-! ## Attention -/

/-- The cells of a list called one after another. -/
def callAll (l : List Cell) (s : State) : State := l.foldl (fun t c => callCell c t) s

theorem callCell_waiting (c : Cell) (s : State) (d : Cell) :
    (callCell c s).cells.waiting[d] = (s.cells.waiting[d] || decide (d = c)) := by
  unfold callCell
  split
  · next h =>
    by_cases hd : d = c
    · subst hd; simp [h]
    · simp [hd]
  · simp only [State.write_cells, State.withCells_cells]
    by_cases hd : d = c
    · subst hd; simp
    · have hne : c.val ≠ d.val := fun h => hd (Fin.ext h.symm)
      simp [hd, hne]

theorem callCell_pending {c : Cell} {s : State} (h : s.cells.waiting[c] = true) : callCell c s =
    (s.withCells { s.cells with attentionHeld := saturate 65535 s.cells.attentionHeld 1 }).raise .abnormal := if_pos h

theorem callCell_new {c : Cell} {s : State} (h : s.cells.waiting[c] = false) : callCell c s =
    (s.withCells { s.cells with waiting := s.cells.waiting.set c true }).write (cellBase c) 1 :=
  if_neg (by rw [h]; decide)

theorem cellBase_inj {c d : Cell} (h : cellBase c = cellBase d) : c = d := by
  unfold cellBase at h; exact Fin.ext (by omega)

/-- How the calls of different cells add up (R163). -/
theorem callAll_spec (l : List Cell) : ∀ s : State, l.Nodup → s.memoryLaw →
    (∀ c, (callAll l s).cells.waiting[c] = (s.cells.waiting[c] || decide (c ∈ l))) ∧
    (callAll l s).cells.pointer = s.cells.pointer ∧
    (callAll l s).cells.attentionHeld = (if (l.filter fun c => s.cells.waiting[c]).length = 0 then s.cells.attentionHeld
      else min 65535 (s.cells.attentionHeld + (l.filter fun c => s.cells.waiting[c]).length)) ∧
    (∀ c, c ∈ l → s.cells.waiting[c] = false → (callAll l s).read (cellBase c) = 1) ∧
    (callAll l s).bus.events =
      (if l.any fun c => s.cells.waiting[c] then s.bus.events ||| bitWord 10 else s.bus.events) ∧
    MemoryKept (fun a => ∃ c, c ∈ l ∧ s.cells.waiting[c] = false ∧ a = cellBase c) s (callAll l s) := by
  induction l with
  | nil => intro s _ _; simp [callAll, MemoryKept]
  | cons x rest ih =>
    intro s hl hs
    obtain ⟨hx, hrest⟩ := List.nodup_cons.mp hl
    obtain ⟨hwait, hptr, hheld, hread, hevents, hkept⟩ := ih (callCell x s) hrest ((callCell_stores x s).law hs)
    have hstep : callAll (x :: rest) s = callAll rest (callCell x s) := rfl
    have hsame : ∀ c ∈ rest, (callCell x s).cells.waiting[c] = s.cells.waiting[c] := fun c hc => by
      rw [callCell_waiting]
      simp [show c ≠ x from fun h => hx (h ▸ hc)]
    have hfilter : (rest.filter fun c => (callCell x s).cells.waiting[c]) = rest.filter fun c => s.cells.waiting[c] :=
      List.filter_congr hsame
    have hany : (rest.any fun c => (callCell x s).cells.waiting[c]) = rest.any fun c => s.cells.waiting[c] := by
      rw [Bool.eq_iff_iff]; simp only [List.any_eq_true]
      exact exists_congr fun c => and_congr_right fun hc => by rw [hsame c hc]
    rw [hfilter] at hheld
    rw [hany] at hevents
    have hothers : MemoryKept (fun a => ∃ c, c ∈ x :: rest ∧ s.cells.waiting[c] = false ∧ a = cellBase c) (callCell x s)
        (callAll rest (callCell x s)) :=
      hkept.mono fun a ⟨c, hc, hw, ha⟩ => ⟨c, List.mem_cons_of_mem _ hc, (hsame c hc) ▸ hw, ha⟩
    rw [hstep]
    refine ⟨fun c => ?_, ?_, ?_, fun c hc hw => ?_, ?_, ?_⟩
    · rw [hwait, callCell_waiting]
      simp [Bool.or_assoc]
    · rw [hptr]
      unfold callCell
      split <;> rfl
    · rw [hheld]
      cases hw : s.cells.waiting[x] with
      | true =>
        rw [callCell_pending hw, List.filter_cons_of_pos (p := fun c => s.cells.waiting[c]) hw]
        simp only [State.raise_cells, State.withCells_cells, saturate, List.length_cons]
        generalize (rest.filter fun c => s.cells.waiting[c]).length = k
        rw [if_neg (Nat.succ_ne_zero k)]
        split <;> omega
      | false =>
        rw [callCell_new hw, List.filter_cons_of_neg (p := fun c => s.cells.waiting[c]) (by rw [hw]; decide)]
        rfl
    · rcases List.mem_cons.mp hc with rfl | hc
      · rw [hkept _ (fun ⟨d, hd, _, he⟩ => hx ((cellBase_inj he) ▸ hd)), callCell_new hw]
        exact Memory.read_write_same _ _ _ hs
      · exact hread c hc ((hsame c hc).trans hw)
    · rw [hevents]
      cases hw : s.cells.waiting[x] with
      | true =>
        rw [callCell_pending hw, List.any_cons, hw]
        simp [EventBit.index, BitVec.or_assoc]
      | false => rw [callCell_new hw, List.any_cons, hw]; rfl
    · refine MemoryKept.trans (fun a ha => ?_) hothers
      cases hw : s.cells.waiting[x] with
      | true => rw [callCell_pending hw]; rfl
      | false =>
        rw [callCell_new hw]
        exact Memory.read_write_other _ _ _ _ fun he => ha ⟨x, List.mem_cons_self, hw, he⟩

theorem nodup_called (called : Cell → Bool) : (allCells.filter called).Nodup := (List.nodup_finRange 17).filter _

theorem callAll_calls {called : Cell → Bool} {s : State} (hs : s.memoryLaw) :
    CallsCells called s (callAll (allCells.filter called) s) := by
  obtain ⟨hwait, hptr, hheld, hread, hevents, hkept⟩ := callAll_spec _ s (nodup_called called) hs
  have hmem : ∀ c, c ∈ allCells.filter called ↔ called c = true := by simp [allCells]
  have hfilter : ((allCells.filter called).filter fun c => s.cells.waiting[c]) =
      allCells.filter fun c => called c && s.cells.waiting[c] := by
    rw [List.filter_filter]
    exact congrArg (List.filter · allCells) (funext fun c => Bool.and_comm _ _)
  have hany : ((allCells.filter called).any fun c => s.cells.waiting[c]) =
      allCells.any fun c => called c && s.cells.waiting[c] := List.any_filter
  rw [hfilter] at hheld
  rw [hany] at hevents
  refine ⟨fun c => ?_, hptr, fun held h => h ▸ hheld, fun c hc => hread c ((hmem c).mpr hc), hevents,
    hkept.mono fun a ⟨c, hc, hw⟩ => ⟨c, (hmem c).mp hc, hw⟩⟩
  rw [hwait]
  simp [hmem]

/-- The session cells that a write to ATTENTION names. -/
theorem callSessions_eq (v : Word) (s : State) : callSessions v s =
    callAll (allCells.filter fun c => match cellSlot c with | none => false | some n => v.getLsbD n.val) s := by
  have hfold : ∀ (l : List Slot) (t : State), l.foldl (fun t n => if v.getLsbD n.val then callCell n.cell t else t) t =
      callAll ((l.filter fun n => v.getLsbD n.val).map Slot.cell) t := by
    intro l
    induction l with
    | nil => intro t; rfl
    | cons n rest ih =>
      intro t
      cases h : v.getLsbD n.val with
      | true =>
        rw [List.foldl_cons, if_pos h, ih, List.filter_cons_of_pos (p := fun n : Slot => v.getLsbD n.val) h]
        rfl
      | false =>
        rw [List.foldl_cons, if_neg (by rw [h]; decide), ih,
          List.filter_cons_of_neg (p := fun n : Slot => v.getLsbD n.val) (by rw [h]; decide)]
  refine (hfold allSlots s).trans (congrArg (callAll · s) ?_)
  unfold allCells
  rw [List.finRange_succ, List.filter_cons_of_neg (by rw [cellSlot_zero]; exact Bool.false_ne_true), List.filter_map]
  refine congrArg _ (List.filter_congr fun n _ => ?_)
  show _ = match cellSlot n.cell with | none => false | some n => v.getLsbD n.val
  rw [cellSlot_cell]

/-! ## The cell served next (R164) -/

theorem slot_from_pointer : ∀ p k : Slot, p + 1 + ⟨(k.val + 15 - p.val) % 16, Nat.mod_lt _ (by decide)⟩ = k := by decide

theorem slot_ahead : ∀ p i : Slot, ((p + 1 + i).val + 15 - p.val) % 16 = i.val := by decide

theorem Slot.cell_inj {n k : Slot} (h : n.cell = k.cell) : n = k := Fin.succ_inj.mp h

theorem nextCell_of_zero {s : State} (h : s.cells.waiting[(0 : Cell)] = true) : s.nextCell = some 0 := if_pos h

theorem nextCell_of_not_zero {s : State} (h : s.cells.waiting[(0 : Cell)] = false) : s.nextCell =
    ((allSlots.find? fun k => s.cells.waiting[(s.cells.pointer + 1 + k).cell]).map fun k =>
      (s.cells.pointer + 1 + k).cell) := by
  refine (if_neg (by rw [h]; decide)).trans ?_
  rw [List.find?_map, Option.map_map]
  rfl

theorem nextCell_none_iff (s : State) : s.nextCell = none ↔ ∀ c : Cell, s.cells.waiting[c] = false := by
  cases h0 : s.cells.waiting[(0 : Cell)] with
  | true =>
    rw [nextCell_of_zero h0]
    exact ⟨fun h => (nomatch h), fun h => absurd (h 0) (by rw [h0]; decide)⟩
  | false =>
    rw [nextCell_of_not_zero h0, Option.map_eq_none_iff, List.find?_eq_none]
    constructor
    · intro h c
      cases c using Fin.cases with
      | zero => exact h0
      | succ n =>
        obtain ⟨k, rfl⟩ : ∃ k : Slot, s.cells.pointer + 1 + k = n := ⟨_, slot_from_pointer _ n⟩
        exact Bool.eq_false_iff.mpr (h k (List.mem_finRange _))
    · intro h k _
      rw [h]; decide

theorem nextCell_zero_iff (s : State) : s.nextCell = some 0 ↔ s.cells.waiting[(0 : Cell)] = true := by
  cases h0 : s.cells.waiting[(0 : Cell)] with
  | true => simp [nextCell_of_zero h0]
  | false =>
    rw [nextCell_of_not_zero h0]
    simp only [Option.map_eq_some_iff, Bool.false_eq_true, iff_false]
    exact fun ⟨k, _, h⟩ => Fin.succ_ne_zero _ h

theorem nextCell_slot_iff (s : State) (n : Slot) : s.nextCell = some n.cell ↔
    s.cells.waiting[(0 : Cell)] = false ∧ s.cells.waiting[n.cell] = true ∧
      ∀ k : Slot, s.cells.waiting[k.cell] = true →
        (n.val + 15 - s.cells.pointer.val) % 16 ≤ (k.val + 15 - s.cells.pointer.val) % 16 := by
  cases h0 : s.cells.waiting[(0 : Cell)] with
  | true =>
    rw [nextCell_of_zero h0]
    simp only [Bool.true_eq_false, false_and, iff_false, Option.some.injEq]
    exact fun h => Fin.succ_ne_zero _ h.symm
  | false =>
    rw [nextCell_of_not_zero h0]
    simp only [Option.map_eq_some_iff, true_and, List.find?_eq_some_iff_getElem]
    constructor
    · rintro ⟨i, ⟨hw, j, hj, hij, hbefore⟩, hn⟩
      obtain rfl := Slot.cell_inj hn
      have hji : j = i.val := by rw [← hij]; simp [allSlots]
      refine ⟨hw, fun k hk => ?_⟩
      rw [slot_ahead]
      by_contra hlt
      obtain ⟨m, rfl⟩ : ∃ m : Slot, s.cells.pointer + 1 + m = k := ⟨_, slot_from_pointer _ k⟩
      rw [slot_ahead] at hlt
      have hm := hbefore m.val (by omega)
      simp only [allSlots, List.getElem_finRange, Fin.cast_mk, Fin.eta, hk] at hm
      cases hm
    · obtain ⟨i, rfl⟩ : ∃ i : Slot, s.cells.pointer + 1 + i = n := ⟨_, slot_from_pointer _ n⟩
      rintro ⟨hw, hfirst⟩
      refine ⟨i, ⟨hw, i.val, by simp [allSlots], by simp [allSlots], fun j hj => ?_⟩, rfl⟩
      rw [slot_ahead] at hfirst
      have hlength : j < allSlots.length := by simp [allSlots]; omega
      cases hk : s.cells.waiting[(s.cells.pointer + 1 + allSlots[j]).cell] with
      | false => rfl
      | true =>
        have := hfirst _ hk
        rw [slot_ahead] at this
        simp [allSlots] at this
        omega

/-- Settles O5: a write calls its cells one by one, and publishes nothing. -/
theorem attentionCallsTheNamedCells : Obligations.AttentionCallsTheNamedCells := by
  refine ⟨fun s v hr hs => ?_, fun s v hr hs h0 h15 => ?_,
    fun s => ⟨nextCell_none_iff s, nextCell_zero_iff s, nextCell_slot_iff s⟩⟩
  · refine ⟨callSessions v s, congrArg Host.Outcome.next ((hostWrite_attention hr v).trans
      (event_unchanged (callSessions_frame v s))), ?_, callSessions_frame v s⟩
    rw [callSessions_eq]
    exact callAll_calls hs
  · have hcalls : writeControl v s =
        callCell 0 (s.withBus { s.bus with answerEnable := v.getLsbD 1, newsEnable := v.getLsbD 2 }) := if_pos h0
    have hone : (allCells.filter fun c : Cell => c == 0) = [0] := by decide
    have hframe := callCell_frame 0 (s.withBus { s.bus with answerEnable := v.getLsbD 1, newsEnable := v.getLsbD 2 })
    have hcalled : CallsCells (fun c => c == 0)
        (s.withBus { s.bus with answerEnable := v.getLsbD 1, newsEnable := v.getLsbD 2 }) (writeControl v s) := by
      have := callAll_calls (called := fun c => c == 0)
        (s := s.withBus { s.bus with answerEnable := v.getLsbD 1, newsEnable := v.getLsbD 2 }) hs
      rw [hone] at this
      exact hcalls ▸ this
    refine ⟨writeControl v s, congrArg Host.Outcome.next ((hostWrite_control hr h15).trans
      (event_unchanged (writeControl_frame v s))), hcalled, ?_, ?_⟩
    · rw [hcalls]
      exact hframe .bus (by decide)
    · rw [hcalls]
      exact OnlyChanges.trans withBus_plain_frame hframe.mono

end Sys2Proof.Machine
end

section
/-! The release of RESET# and the end of the start-up clearing (O3). -/

set_option Elab.async false

namespace Sys2Proof.Machine

/-! ## The records rewritten one after another -/

theorem inRecord_unique {n k : Slot} {a : Nat} (h : inRecord n a) (h' : inRecord k a) : n = k := by
  unfold inRecord inArea recordBase at h h'
  exact Fin.ext (by omega)

/-- A rewrite of every record of a list (R34): the change counts rise by 2 and the records show their sessions' fields. -/
theorem rewriteRecords_spec (l : List Slot) : ∀ s : State, l.Nodup → s.memoryLaw →
    (l.foldl State.rewriteRecord s).memoryLaw ∧ (l.foldl State.rewriteRecord s).bus = s.bus ∧
    (∀ n, ((l.foldl State.rewriteRecord s).session n).changeCount =
      if n ∈ l then (s.session n).changeCount + 2 else (s.session n).changeCount) ∧
    (∀ n ∈ l, (l.foldl State.rewriteRecord s).read (recordBase n) = (s.session n).changeCount + 2 ∧
      ∀ i, i < 31 → (l.foldl State.rewriteRecord s).read (recordBase n + 1 + i) = (s.recordFields n).getD i 0) ∧
    MemoryKept (fun a => ∃ n ∈ l, inRecord n a) s (l.foldl State.rewriteRecord s) := by
  induction l with
  | nil => intro s _ hs; simp [hs, MemoryKept]
  | cons k rest ih =>
    intro s hl hs
    obtain ⟨hk, hrest⟩ := List.nodup_cons.mp hl
    have hlaw : (s.rewriteRecord k).memoryLaw := (rewriteRecord_stores s k).law hs
    obtain ⟨hlaw', hbus, hcount, hread, hkept⟩ := ih (s.rewriteRecord k) hrest hlaw
    have hsession : ∀ n ∈ rest, (s.rewriteRecord k).session n = s.session n := fun n hn => by
      rw [rewriteRecord_session]
      exact if_neg (show ¬ n = k from fun h => hk (h ▸ hn))
    have hfields : ∀ n, (s.rewriteRecord k).recordFields n = s.recordFields n := (rewriteRecord_frame s k).recordFields
    have houtside : ∀ a, inRecord k a →
        (rest.foldl State.rewriteRecord (s.rewriteRecord k)).read a = (s.rewriteRecord k).read a := fun a ha =>
      hkept a fun ⟨n, hn, hna⟩ => hk (inRecord_unique hna ha ▸ hn)
    rw [List.foldl_cons]
    refine ⟨hlaw', hbus.trans (rewriteRecord_news s k), fun n => ?_, fun n hn => ?_, ?_⟩
    · rw [hcount, rewriteRecord_session]
      by_cases hnk : n = k
      · subst hnk; simp [hk]
      · simp [hnk]
    · rcases List.mem_cons.mp hn with rfl | hn
      · have hin : ∀ j, j < 32 → inRecord n (recordBase n + j) := fun j hj => ⟨by omega, by omega⟩
        refine ⟨(houtside _ (hin 0 (by omega))).trans (rewriteRecord_read_first s n hs), fun i hi => ?_⟩
        rw [show recordBase n + 1 + i = recordBase n + (1 + i) by omega, houtside _ (hin (1 + i) (by omega)),
          show recordBase n + (1 + i) = recordBase n + 1 + i by omega, rewriteRecord_read s n i hi hs]
      · obtain ⟨h1, h2⟩ := hread n hn
        rw [hsession n hn] at h1
        exact ⟨h1, fun i hi => (h2 i hi).trans (by rw [hfields])⟩
    · exact (rewriteRecord_kept s k).mono (fun a ha => ⟨k, List.mem_cons_self, ha⟩) |>.trans
        (hkept.mono fun a ⟨n, hn, ha⟩ => ⟨n, List.mem_cons_of_mem _ hn, ha⟩)

theorem rewritePage_mem (s : State) : s.rewritePage.mem =
    ((s.mem.write 0 (s.bus.pageCount + 1)).writeAll 1 (padTo 63 s.pageFields)).write 0 (s.bus.pageCount + 2) := by
  simp only [State.rewritePage, State.write_mem, State.writeAll_mem, State.withBus_mem]

theorem rewritePage_bus (s : State) : s.rewritePage.bus = { s.bus with pageCount := s.bus.pageCount + 2 } := by
  simp only [State.rewritePage, State.write_bus, State.writeAll_bus, State.withBus_bus]

theorem length_paddedPage (s : State) : (padTo 63 s.pageFields).length = 63 := by
  unfold padTo; rw [List.length_append, List.length_replicate, length_pageFields]

theorem rewritePage_read (s : State) (hs : s.memoryLaw) :
    s.rewritePage.read 0 = s.bus.pageCount + 2 ∧ ∀ i, i < 63 → s.rewritePage.read (1 + i) = s.pageFields.getD i 0 := by
  have hfirst : (s.mem.write 0 (s.bus.pageCount + 1)).wf = true := Memory.write_wf _ _ _ hs
  have hlength := length_paddedPage s
  refine ⟨?_, fun i hi => ?_⟩
  · show s.rewritePage.mem.read 0 = _
    rw [rewritePage_mem]
    exact Memory.read_write_same _ _ _ (Memory.writeAll_wf _ _ _ hfirst)
  · show s.rewritePage.mem.read (1 + i) = _
    rw [rewritePage_mem, Memory.read_write_other _ _ _ _ (by omega), Memory.read_writeAll _ _ _ _ hfirst (by omega), getD_padTo]

theorem rewritePage_kept (s : State) {a : Nat} (ha : 64 ≤ a) : s.rewritePage.read a = s.read a := by
  have hlength := length_paddedPage s
  show s.rewritePage.mem.read a = s.mem.read a
  rw [rewritePage_mem, Memory.read_write_other _ _ _ _ (by omega), Memory.read_writeAll_other _ _ _ _ (by omega),
    Memory.read_write_other _ _ _ _ (by omega)]

/-! ## The words that the start-up leaves -/

/-- A record of a session with nothing recorded shows nothing but an absent channel. -/
theorem recordFields_reset {s : State} (h : HoldsResetValues s) (n : Slot) :
    s.recordFields n = [0, 0, 0, 0, 0xFFFF, 0, 0, 0, 0, 0, 0, 0, 0, 0, 0, 0, 0, 0] := by
  have hgrant : s.grantOf n = none := by simp [State.grantOf, h.key]
  have hentry : s.entryOf n = none := by simp [State.entryOf, h.floor]
  have hposition : s.positionOf n = none := by simp [State.positionOf, Floor.positionOf, h.floor]
  simp [State.recordFields, State.keyedGrantOf, State.floorState, State.channelOf, State.budgetOf, hgrant, hentry, hposition,
    h.sessions, SessionState.code, FloorState.code, orZero, channelWord, reasonWord]
  decide

theorem pageFields_reset {s : State} (h : HoldsResetValues s) :
    s.pageFields = [1, 0, 0, 0, 0, 0, 0, 0, 0xFFFF, 0xFFFF, 0, 0, 0, 0, 0, 0, 0, 0, 0, 0, 0, 0, 0, 0, 0, 0, 0, 0, 0, 0] := by
  have hclock : s.clock = 0 := by simp [State.clock, h.periods]
  simp [State.pageFields, h.key, h.floor, h.supervisor, h.detector, h.ident, h.playout, h.receive, h.attentionHeld, h.log, h.bus,
    hclock, Config.pageRevision, lockoutCode, DisableState.code, orZero, slotWord, memberWord, channelWord, StationLog.unread,
    lowWord, highWord, flagWord]
  decide

theorem pageFields_congr {s t : State} (h : OnlyChanges [.changeCounts, .mem] s t) : t.pageFields = s.pageFields := by
  have hplain : t.bus.plain = s.bus.plain := h .bus (by decide)
  have hwrites : t.bus.plain.writeToReadOnly = s.bus.plain.writeToReadOnly := congrArg Bus.writeToReadOnly hplain
  change t.bus.writeToReadOnly = s.bus.writeToReadOnly at hwrites
  simp only [State.pageFields, hwrites, h.clock, show t.key = s.key from h .key (by decide),
    show t.detector = s.detector from h .detector (by decide), show t.supervisor = s.supervisor from h .supervisor (by decide),
    show t.floor = s.floor from h .floor (by decide), show t.ident = s.ident from h .ident (by decide),
    show t.playout = s.playout from h .playout (by decide), show t.receive = s.receive from h .receive (by decide),
    show t.cells = s.cells from h .cells (by decide), show t.log = s.log from h .log (by decide)]

theorem rewriteRecords_frame (l : List Slot) (s : State) : OnlyChanges [.changeCounts, .mem] s (l.foldl State.rewriteRecord s) :=
  foldl_frame rewriteRecord_frame l s

/-- Where a record's word stands among the start-up's words. -/
theorem startUpWord_record (n : Slot) (j : Nat) (hj : j < 32) :
    startUpWord (recordBase n + j) = if j = 0 then 2 else if j = 5 then 0xFFFF else 0 := by
  unfold startUpWord recordBase
  have hn := n.isLt
  rw [if_neg (by omega), if_neg (by omega), if_neg (by omega), if_pos (by omega)]
  have hmod : (0x600 + 32 * n.val + j) % 32 = j := by omega
  rw [hmod]

/-- The page's words among the start-up's words. -/
theorem startUpWord_page {i : Nat} (hi : i < 63) : startUpWord (1 + i) =
    ([1, 0, 0, 0, 0, 0, 0, 0, 0xFFFF, 0xFFFF, 0, 0, 0, 0, 0, 0, 0, 0, 0, 0, 0, 0, 0, 0, 0, 0, 0, 0, 0, 0] : List Word).getD i 0 := by
  revert i
  decide

/-- The exchange memory, cleared, with the records and the page of the reset contents written (R34, R172, R173). -/
theorem startUp_read {s : State} (h : HoldsResetValues s) (hm : s.mem = []) (a : Nat) :
    (allSlots.foldl State.rewriteRecord s).rewritePage.read a = startUpWord a := by
  have hs : s.memoryLaw := by unfold State.memoryLaw; rw [hm]; rfl
  have hslots : ∀ n, n ∈ allSlots := List.mem_finRange
  obtain ⟨hlaw, hbus, -, hread, hkept⟩ := rewriteRecords_spec allSlots s (List.nodup_finRange 16) hs
  obtain ⟨hpage0, hpage⟩ := rewritePage_read _ hlaw
  have hbeyond : 64 ≤ a → (allSlots.foldl State.rewriteRecord s).rewritePage.read a =
      (allSlots.foldl State.rewriteRecord s).read a := rewritePage_kept _
  rcases Nat.lt_or_ge a 64 with ha | ha
  · rcases Nat.eq_zero_or_pos a with rfl | hpos
    · rw [hpage0, hbus, h.bus]; rfl
    · obtain ⟨i, rfl⟩ : ∃ i, a = 1 + i := ⟨a - 1, by omega⟩
      rw [hpage i (by omega), pageFields_congr (rewriteRecords_frame allSlots s), pageFields_reset h,
        startUpWord_page (by omega)]
  · rw [hbeyond ha]
    by_cases hrec : ∃ n, inRecord n a
    · obtain ⟨n, hn⟩ := hrec
      obtain ⟨j, hj, rfl⟩ : ∃ j, j < 32 ∧ a = recordBase n + j := ⟨a - recordBase n, by
        obtain ⟨h1, h2⟩ := hn; omega, by obtain ⟨h1, h2⟩ := hn; omega⟩
      obtain ⟨hfirst, hrest⟩ := hread n (hslots n)
      rw [startUpWord_record n j hj]
      rcases Nat.eq_zero_or_pos j with rfl | hpos
      · rw [Nat.add_zero, hfirst, h.sessions]; rfl
      · obtain ⟨i, rfl⟩ : ∃ i, j = 1 + i := ⟨j - 1, by omega⟩
        rw [show recordBase n + (1 + i) = recordBase n + 1 + i by omega, hrest i (by omega), recordFields_reset h]
        have hi : i < 31 := by omega
        clear hrest hfirst hn ha hbeyond hpos hj
        revert i
        decide
    · rw [hkept a (fun ⟨n, _, hn⟩ => hrec ⟨n, hn⟩)]
      have hzero : s.read a = 0 := by unfold State.read; rw [hm]; rfl
      rw [hzero]
      unfold startUpWord
      rw [if_neg (by omega), if_neg (by omega), if_neg (by omega), if_neg]
      intro ⟨h1, h2⟩
      exact hrec ⟨⟨(a - 0x600) / 32, by omega⟩, by unfold inRecord inArea recordBase; dsimp only; omega⟩

/-- The exchange memory cleared and the clock at 0: what the end of the start-up begins with (R172, R173). -/
def State.cleared (s : State) : State := { s with mem := [], periods := 0, samplesOwed := 0, pagesOwed := 0 }

/-- The 16 records written into the cleared memory (R34). -/
def State.recorded (s : State) : State := allSlots.foldl State.rewriteRecord s.cleared

theorem finishStartUp_eq (s : State) : s.finishStartUp =
    { s.recorded.rewritePage.withSupervisor { s.recorded.rewritePage.supervisor with
        disable := if s.recorded.rewritePage.disablePin then .asserted else .released } with phase := .ready } := rfl

theorem cleared_holds {s : State} (h : HoldsResetValues s) : HoldsResetValues s.cleared :=
  ⟨h.members, h.channels, h.sessions, h.floor, h.key, h.playout, h.receive, h.detector, h.ident, h.supervisor, h.log,
    h.waiting, h.pointer, h.attentionHeld, h.bus, h.params, rfl, h.notices, rfl, rfl⟩

theorem cleared_frame {s : State} (h : HoldsResetValues s) : OnlyChanges [.mem] s s.cleared := by
  obtain ⟨hsamples, hpages⟩ := h.owed
  intro p hp
  cases p
  case mem => exact absurd (by decide) hp
  case periods => exact h.periods.symm
  case samplesOwed => exact hsamples.symm
  case pagesOwed => exact hpages.symm
  all_goals first | rfl | exact fun _ => rfl

theorem recorded_frame {s : State} (h : HoldsResetValues s) : OnlyChanges [.mem, .changeCounts, .bus] s s.recorded.rewritePage :=
  OnlyChanges.trans (OnlyChanges.trans (cleared_frame h).mono (rewriteRecords_frame allSlots s.cleared).mono)
    (rewritePage_frame _).mono

theorem recorded_spec (s : State) : s.recorded.memoryLaw ∧ s.recorded.bus = s.bus ∧
    ∀ n, (s.recorded.session n).changeCount = (s.session n).changeCount + 2 := by
  obtain ⟨hlaw, hbus, hcount, -, -⟩ := rewriteRecords_spec allSlots s.cleared (List.nodup_finRange 16) rfl
  exact ⟨hlaw, hbus, fun n => (hcount n).trans (if_pos (List.mem_finRange n))⟩

theorem endOfClearing_frame (u : State) (v : Supervisor) :
    OnlyChanges [.phase, .supervisor] u { u.withSupervisor v with phase := .ready } := by
  intro p hp
  cases p
  case phase | supervisor => simp at hp
  all_goals first | rfl | exact fun _ => rfl

theorem finishStartUp_spec {s : State} (h : HoldsResetValues s) :
    s.finishStartUp.bus = { s.bus with pageCount := 2 } ∧
    s.finishStartUp.supervisor = { s.supervisor with disable := if s.disablePin then .asserted else .released } ∧
    OnlyChanges [.phase, .supervisor, .mem, .changeCounts, .bus] s s.finishStartUp := by
  obtain ⟨-, hbus, -⟩ := recorded_spec s
  have hcount : s.bus.pageCount + 2 = 2 := by rw [h.bus]; rfl
  have hpage : s.recorded.rewritePage.bus = { s.bus with pageCount := s.bus.pageCount + 2 } :=
    (rewritePage_bus _).trans (congrArg (fun b : Bus => { b with pageCount := b.pageCount + 2 }) hbus)
  rw [hcount] at hpage
  have hframe := recorded_frame h
  rw [finishStartUp_eq]
  generalize s.recorded.rewritePage = u at hframe hpage ⊢
  have hsup : u.supervisor = s.supervisor := hframe .supervisor (by decide)
  have hpin : u.disablePin = s.disablePin := hframe .disablePin (by decide)
  rw [hsup, hpin]
  exact ⟨hpage, rfl, OnlyChanges.trans hframe.mono (endOfClearing_frame _ _).mono⟩

theorem finishStartUp_mem (s : State) : s.finishStartUp.mem = s.recorded.rewritePage.mem := by
  rw [finishStartUp_eq]
  generalize s.recorded.rewritePage = u
  rfl

theorem finishStartUp_session (s : State) (n : Slot) : s.finishStartUp.session n = s.recorded.session n := by
  have hpage : s.recorded.rewritePage.session n = s.recorded.session n := (rewritePage_frame s.recorded).session n
  rw [finishStartUp_eq]
  generalize s.recorded.rewritePage = u at hpage ⊢
  exact hpage

/-- The exchange memory that the start-up leaves. -/
theorem finishStartUp_read {s : State} (h : HoldsResetValues s) (a : Nat) : s.finishStartUp.read a = startUpWord a := by
  have hread : s.finishStartUp.read a = s.recorded.rewritePage.read a := congrArg (Memory.read · a) (finishStartUp_mem s)
  exact hread.trans (startUp_read (cleared_holds h) rfl a)

/-- Settles O3: the release of RESET#, and the end of the clearing on the reset values. -/
theorem startUpMakesThePartReady : Obligations.StartUpMakesThePartReady := by
  refine ⟨fun s h => congrArg Host.Outcome.next (if_pos h), fun s h hr => ?_⟩
  obtain ⟨hlaw, -, hcount⟩ := recorded_spec s
  obtain ⟨hbus, hsup, hframe⟩ := finishStartUp_spec hr
  have hperiods : s.finishStartUp.periods = 0 := (hframe .periods (by decide)).trans hr.periods
  have hphase : s.finishStartUp.phase = .ready := by rw [finishStartUp_eq]
  have hmemory : s.finishStartUp.memoryLaw := by
    unfold State.memoryLaw
    rw [finishStartUp_mem]
    exact (rewritePage_stores s.recorded).law hlaw
  have hcounts : ∀ n, (s.finishStartUp.session n).changeCount = 2 := fun n => by
    rw [finishStartUp_session, hcount, hr.sessions]
    rfl
  have hexec : exec .startUpClearingDone s = .next s.finishStartUp := congrArg Host.Outcome.next (if_pos h)
  exact ⟨_, hexec, hphase, hperiods, hmemory, finishStartUp_read hr, hcounts, hbus, hsup, hframe⟩

end Sys2Proof.Machine
end

section
/-! The gate of a session cell, and the requests on the floor's hold flag, the run state and the lockout (O10–O17). -/

set_option Elab.async false

namespace Sys2Proof.Machine

/-! ## The gate (O10, O11) -/

theorem gate_free {n : Slot} {s : State} (body : State → State × Answer) (h : (s.session n).state = .free) :
    gate n body s = (s, .plain .sessionFree) := by
  unfold gate
  rw [h]

theorem gate_lost {n : Slot} {s : State} (body : State → State × Answer) (h : (s.session n).state = .lost) :
    gate n body s = (s, .plain .sessionLost) := by
  unfold gate
  rw [h]

theorem gated_changeCount (s : State) (n k : Slot) : ((s.gated n).session k).changeCount = (s.session k).changeCount :=
  gated_frame s n .changeCounts (by decide) k

theorem holdsOnAir_iff (s : State) (n : Slot) : s.holdsOnAir n = true ↔
    ∃ g, s.key.grant = some g ∧ g.session = some n ∧ g.state ∈ [GrantState.keyed, .drain, .tail] := by
  unfold State.holdsOnAir
  cases s.key.grant with
  | none => simp
  | some g =>
    rw [Bool.and_eq_true, memberOnAir_eq_mem, beq_iff_eq, decide_eq_true_eq]
    exact ⟨fun h => ⟨g, rfl, h⟩, fun ⟨_, hg, h⟩ => Option.some.inj hg ▸ h⟩

theorem periodFor_eq (s : State) (n : Slot) : s.periodFor n =
    if ∃ g, s.key.grant = some g ∧ g.session = some n ∧ g.state ∈ [GrantState.keyed, .drain, .tail] then
      s.params.holderSurveillance
    else s.params.surveillance := by
  unfold State.periodFor
  exact if_congr (holdsOnAir_iff s n) rfl rfl

/-- Settles O10: the gate's three cases, and the period it applies. -/
theorem theGateTurnsAwayFreeAndLostSessions : Obligations.TheGateTurnsAwayFreeAndLostSessions := by
  refine ⟨fun s n r now hr hs h => ?_, fun s n ho => ⟨noted_of ho fun _ => rfl, gated_changeCount s n, gated_frame s n⟩,
    periodFor_eq⟩
  obtain ⟨body, hexec, -⟩ := session_exec s n r now hr h
  exact ⟨fun hfree => ⟨_, hexec, only_answers hs (gate_free _ hfree) (Nat.zero_le _)⟩,
    fun hlost => ⟨_, hexec, only_answers hs (gate_lost _ hlost) (Nat.zero_le _)⟩⟩

theorem Request.ofSession_of_ofOperator {r : Request} (h : r.ofOperator = true) : r.ofSession = true := by
  cases r <;> first | rfl | cases h

/-- Settles O11: every operator request first asks who places it. -/
theorem operatorRequestsAreRefusedToOtherMembers : Obligations.OperatorRequestsAreRefusedToOtherMembers := by
  rintro s n r now hr hs ⟨h, ho⟩ hop
  obtain ⟨body, hexec, hrefused⟩ := session_exec s n r now (Request.ofSession_of_ofOperator hr) h
  have hnot : (s.gated n).isOperator n = false := by
    rw [gated_operator]
    exact Bool.eq_false_iff.mpr fun h' => hop (isOperator_iff.mp h')
  exact ⟨_, hexec, only_noted hs ho (hrefused hr _ hnot) (Nat.zero_le _)⟩

/-! ## Services that store nothing of their own, and those that can end a grant -/

section services
variable {c : Cell} {ps : List Part} {body : State → State × Answer} {s v : State} {a : Answer}

/-- A service whose work can free transmit places, and stores no other word. -/
theorem serve_filled (hb : body s = (v, a)) (hf : OnlyChanges ps s v) (hs : Stores noWord s v) (hl : s.memoryLaw)
    (hw : a.words.length ≤ 16 := by exact Nat.zero_le _)
    (hd : ∀ p ∈ [Part.cells, .answered, .changeCounts, .news], p ∉ ps := by decide) :
    ServesTo c a ps (inFilled s) s v (event (serve c body) s) :=
  (serve_to hb hf hs hl hw hd).mono (fun _ h => h) fun _ h => h.resolve_left id

/-- A service whose work can end a grant. -/
theorem serve_ends (hb : body s = (v, a)) (hf : OnlyChanges ps s v) (hs : Stores (logPlace s.log) s v) (hl : s.memoryLaw)
    (hw : a.words.length ≤ 16 := by exact Nat.zero_le _)
    (hd : ∀ p ∈ [Part.cells, .answered, .changeCounts, .news], p ∉ ps := by decide) :
    ServesTo c a ps (endStores s) s v (event (serve c body) s) := serve_to hb hf hs hl hw hd

theorem ServesTo.served {stored : Nat → Prop} {t : State} (h : ServesTo c a ps stored s v t) : Served s t c a := h.2.2.1

/-- What a service leaves as its own work made it. -/
theorem ServesTo.kept {stored : Nat → Prop} {t : State} (h : ServesTo c a ps stored s v t) : OnlyChanges serviceParts v t :=
  h.2.2.2.1

end services

/-- The gate of an operator's session passes the request on. -/
theorem gate_operator {n : Slot} {body : State → State × Answer} {s : State} (ho : (s.session n).state = .opened)
    (hop : s.operatorSession n) : gate n (operatorOnly n body) s = body (s.gated n) :=
  (gate_open ho).trans (operatorOnly_gated hop)

theorem gated_law {s : State} (n : Slot) (hs : s.memoryLaw) : (s.gated n).memoryLaw := by
  unfold State.memoryLaw
  rw [gated_mem]
  exact hs

theorem gated_stores {P : Nat → Prop} (s : State) (n : Slot) : Stores P s (s.gated n) := .of_mem (gated_mem s n)

theorem gated_floor (s : State) (n : Slot) : (s.gated n).floor = s.floor := gated_frame s n .floor (by decide)

theorem gated_supervisor (s : State) (n : Slot) : (s.gated n).supervisor = s.supervisor :=
  gated_frame s n .supervisor (by decide)

theorem gated_log (s : State) (n : Slot) : (s.gated n).log = s.log := gated_frame s n .log (by decide)

/-! ## The hold flag (O12, O13) -/

theorem holdRequest_set {s : State} (h : s.floor.hold = true) : holdRequest s = (s, .plain .already) := if_pos h

theorem holdRequest_clear {s : State} (h : s.floor.hold = false) :
    holdRequest s = (s.withFloor { s.floor with hold := true }, .plain .done) := if_neg (by rw [h]; decide)

/-- A service whose work leaves the memory alone. -/
theorem served_silent {c : Cell} {ps : List Part} {body : State → State × Answer} {s v : State} {a : Answer}
    (hb : body s = (v, a)) (hf : OnlyChanges ps s v) (hm : v.mem = s.mem) (hl : s.memoryLaw)
    (hw : a.words.length ≤ 16 := by exact Nat.zero_le _)
    (hd : ∀ p ∈ [Part.cells, .answered, .changeCounts, .news], p ∉ ps := by decide) :
    Served s (event (serve c body) s) c a ∧ ServiceFrame c ps noWord s (event (serve c body) s) ∧
      OnlyChanges serviceParts v (event (serve c body) s) ∧ (event (serve c body) s).bus.events =
        (match cellSlot c with | none => v.bus.events ||| bitWord 0 | some _ => v.bus.events) := by
  have hlaw : v.memoryLaw := by unfold State.memoryLaw; rw [hm]; exact hl
  have h := serve_event (Q := noWord) (c := c) (body := body) (s := s) (by rw [hb]; exact hf) (by rw [hb]; exact hlaw)
    (by rw [hb]; exact .of_mem hm) (by rw [hb]; exact hw) hd
  rw [hb] at h
  obtain ⟨hserved, hframe, -, hkept, hevents⟩ := h
  exact ⟨hserved, hframe, hkept, hevents⟩

/-- Settles O12: the flag set where it is clear, in the state that the gate has left. -/
theorem holdFloorSetsTheHoldFlag : Obligations.HoldFloorSetsTheHoldFlag := by
  refine ⟨fun s hs h => ⟨_, congrArg Host.Outcome.next (stationService_eq h), ?_⟩,
    fun s n hs ⟨h, ho⟩ hop => ⟨_, congrArg Host.Outcome.next (sessionService_eq h), ?_⟩⟩
  · cases hf : s.floor.hold with
    | true => exact only_answers hs (holdRequest_set hf) (Nat.zero_le _)
    | false =>
      obtain ⟨hserved, hframe, hkept, hevents⟩ :=
        served_silent (c := 0) (holdRequest_clear hf) (withFloor_frame (ps := [.floor])) rfl hs
      exact ⟨hserved, hkept .floor (by decide), hframe, hevents⟩
  · cases hf : s.floor.hold with
    | true =>
      have hf' : (s.gated n).floor.hold = true := by rw [gated_floor]; exact hf
      exact only_noted hs ho ((operatorOnly_gated hop).trans (holdRequest_set hf')) (Nat.zero_le _)
    | false =>
      have hf' : (s.gated n).floor.hold = false := by rw [gated_floor]; exact hf
      obtain ⟨hserved, hframe, hkept, hevents⟩ := served_silent (c := n.cell) (ps := [.sessions, .floor])
        ((gate_operator ho hop).trans (holdRequest_clear hf'))
        (OnlyChanges.trans (gated_frame s n).mono withFloor_frame) (gated_mem s n) hs
      have hbus : (s.gated n).bus.events = s.bus.events := gated_frame s n .events (by decide)
      have hfloor := hkept .floor (by decide)
      rw [cellSlot_cell] at hevents
      refine ⟨hserved, noted_of ho (hkept .sessions (by decide)), hfloor.trans ?_, hframe, hevents.trans hbus⟩
      show ({ (s.gated n).floor with hold := true } : Floor) = _
      rw [gated_floor]

/-! ## What an arbitration keeps of the floor's figures -/

theorem departEntry_hold (n : Slot) (r : EndReason) (s : State) : (departEntry n r s).floor.hold = s.floor.hold := by
  obtain ⟨hfloor, -⟩ := departEntry_spec n r s
  rw [hfloor, Floor.without_hold]

theorem takeMemberGrant_floor (tag : Word) (n : Slot) (m : MemberIx) (c : ChannelIx) (s : State) :
    (takeMemberGrant tag n m c s).floor = s.floor := takeMemberGrant_frame tag n m c s .floor (by decide)

theorem takeIdentGrant_floor (tag : Word) (c : ChannelIx) (s : State) : (takeIdentGrant tag c s).floor = s.floor :=
  takeIdentGrant_frame tag c s .floor (by decide)

theorem grantEntry_hold (e : Entry) (s : State) : (grantEntry e s).floor.hold = s.floor.hold := by
  unfold grantEntry
  rw [takeMemberGrant_floor]
  rfl

theorem grantIdent_hold (s : State) : (grantIdent s).1.floor.hold = s.floor.hold := by
  unfold grantIdent
  split
  · rfl
  · show (takeIdentGrant _ _ s.openGrant).floor.hold = _
    rw [takeIdentGrant_floor]
    rfl

theorem tryEntries_hold (skip : State → Entry → Bool) (l : List Entry) :
    ∀ s, (tryEntries skip l s).1.floor.hold = s.floor.hold := by
  induction l with
  | nil => intro s; rfl
  | cons e rest ih =>
    intro s
    unfold tryEntries
    split
    · exact ih s
    · split
      · exact grantEntry_hold e s
      · rw [ih, departEntry_hold]
      · rw [ih, departEntry_hold]

theorem arbitrate_hold (s : State) : (arbitrate s).floor.hold = s.floor.hold := by
  have hmarked : (tryMarked s).1.floor.hold = s.floor.hold := tryEntries_hold _ _ s
  have hident : ∀ u, (tryIdent u).1.floor.hold = u.floor.hold := fun u => by
    unfold tryIdent
    split
    · exact grantIdent_hold u
    · rfl
  have hunmarked : ∀ u, (tryUnmarked u).1.floor.hold = u.floor.hold := fun u => by
    unfold tryUnmarked
    split
    · exact tryEntries_hold _ _ u
    · rfl
  unfold arbitrate
  split
  · rfl
  · dsimp only
    split
    · exact hmarked
    · split
      · exact (hident _).trans hmarked
      · exact (hunmarked _).trans ((hident _).trans hmarked)

theorem resumeRequest_clear {s : State} (h : s.floor.hold = false) : resumeRequest s = (s, .plain .already) :=
  if_neg (by rw [h]; decide)

theorem resumeRequest_set {s : State} (h : s.floor.hold = true) :
    resumeRequest s = (arbitrate (s.withFloor { s.floor with hold := false }), .plain .done) := if_pos h

/-- Settles O13: the flag cleared where it is set, and the arbitration keeps it clear. -/
theorem resumeFloorClearsTheHoldFlagAndArbitrates : Obligations.ResumeFloorClearsTheHoldFlagAndArbitrates := by
  refine ⟨fun s hs h => ⟨_, congrArg Host.Outcome.next (stationService_eq h), ?_⟩,
    fun s n hs ⟨h, ho⟩ hop => ⟨_, congrArg Host.Outcome.next (sessionService_eq h), ?_⟩⟩
  · cases hf : s.floor.hold with
    | false => exact only_answers hs (resumeRequest_clear hf) (Nat.zero_le _)
    | true =>
      have hto := serve_filled (c := 0) (ps := arbitrationParts) (resumeRequest_set hf)
        (OnlyChanges.trans withFloor_frame (arbitrate_frame _)) (Stores.after (arbitrate_stores _) (.of_mem rfl)) hs
      exact ⟨(congrArg Floor.hold (hto.kept .floor (by decide))).trans (arbitrate_hold _), hto⟩
  · have hfloor := gated_floor s n
    cases hf : s.floor.hold with
    | false => exact only_noted hs ho ((operatorOnly_gated hop).trans (resumeRequest_clear (hfloor ▸ hf))) (Nat.zero_le _)
    | true =>
      have hbody := (gate_operator ho hop).trans (resumeRequest_set (hfloor ▸ hf))
      rw [hfloor] at hbody
      have hto := serve_filled (c := n.cell) (ps := arbitrationParts) hbody
        (OnlyChanges.trans (gated_frame s n).mono (OnlyChanges.trans withFloor_frame (arbitrate_frame _)))
        (Stores.after (arbitrate_stores _) (.of_mem (gated_mem s n))) hs
      exact ⟨(congrArg Floor.hold (hto.kept .floor (by decide))).trans (arbitrate_hold _), hto⟩

/-! ## The run state (O14) -/

/-- Settles O14. -/
theorem startRunsTheStationAndArbitrates : Obligations.StartRunsTheStationAndArbitrates := by
  refine fun s hs h => ⟨_, congrArg Host.Outcome.next (stationService_eq h), ?_⟩
  cases hr : s.supervisor.running with
  | true => exact only_answers hs (if_pos hr) (Nat.zero_le _)
  | false =>
    have hbody : startRequest s = (arbitrate (s.withSupervisor { s.supervisor with running := true }), .plain .done) :=
      if_neg (by rw [hr]; decide)
    have hto := serve_filled (c := 0) (ps := .supervisor :: arbitrationParts) hbody
      (OnlyChanges.trans withSupervisor_frame (arbitrate_frame _).mono) (Stores.after (arbitrate_stores _) (.of_mem rfl)) hs
    exact ⟨(hto.kept .supervisor (by decide)).trans (arbitrate_frame _ .supervisor (by decide)), hto⟩

/-! ## Lockout lifted (O17) -/

theorem clearLockoutRequest_clear {s : State} (h : s.supervisor.lockout = none) :
    clearLockoutRequest s = (s, .plain .already) := if_neg (by rw [h]; decide)

theorem clearLockoutRequest_set {s : State} (h : s.supervisor.lockout ≠ none) : clearLockoutRequest s =
    (arbitrate (s.withSupervisor { s.supervisor with lockout := none, history := [] }), .plain .done) :=
  if_pos (Option.isSome_iff_ne_none.mpr h)

/-- Settles O17. -/
theorem clearLockoutLiftsTheLockout : Obligations.ClearLockoutLiftsTheLockout := by
  refine ⟨fun s hs h => ⟨_, congrArg Host.Outcome.next (stationService_eq h), ?_⟩,
    fun s n hs ⟨h, ho⟩ hop => ⟨_, congrArg Host.Outcome.next (sessionService_eq h), ?_⟩⟩
  · split
    · next hl => exact only_answers hs (clearLockoutRequest_clear hl) (Nat.zero_le _)
    · next hl =>
      have hto := serve_filled (c := 0) (ps := .supervisor :: arbitrationParts) (clearLockoutRequest_set hl)
        (OnlyChanges.trans withSupervisor_frame (arbitrate_frame _).mono) (Stores.after (arbitrate_stores _) (.of_mem rfl)) hs
      exact ⟨(hto.kept .supervisor (by decide)).trans (arbitrate_frame _ .supervisor (by decide)), hto⟩
  · have hsup := gated_supervisor s n
    split
    · next hl => exact only_noted hs ho ((operatorOnly_gated hop).trans (clearLockoutRequest_clear (hsup ▸ hl))) (Nat.zero_le _)
    · next hl =>
      have hbody := (gate_operator ho hop).trans (clearLockoutRequest_set (hsup ▸ hl))
      rw [hsup] at hbody
      have hto := serve_filled (c := n.cell) (ps := .supervisor :: arbitrationParts) hbody
        (OnlyChanges.trans (gated_frame s n).mono (OnlyChanges.trans withSupervisor_frame (arbitrate_frame _).mono))
        (Stores.after (arbitrate_stores _) (.of_mem (gated_mem s n))) hs
      exact ⟨(hto.kept .supervisor (by decide)).trans (arbitrate_frame _ .supervisor (by decide)), hto⟩

end Sys2Proof.Machine
end

section
/-! STOP and KILL (O15, O16): an end cause sent to whatever grant exists, the PTT report and the clear notice. -/

set_option Elab.async false

namespace Sys2Proof.Machine

theorem sendCause_law (r : EndReason) (now : Bool) {s : State} (hs : s.memoryLaw) : (sendCause r now s).memoryLaw :=
  (sendCause_stores r now s).law hs

/-- The run state, the lockout and the fault figures: what an end cause leaves of the Supervisor's state with or without PTT. -/
def Supervisor.standing (v : Supervisor) : Supervisor := { v with qualification := none, qualifiedThisKeying := false }

theorem dropPtt_standing (s : State) : s.dropPtt.supervisor.standing = s.supervisor.standing := by
  rw [(dropPtt_spec s).2.1]
  split <;> rfl

theorem sendCause_standing (r : EndReason) (now : Bool) (s : State) (hs : s.memoryLaw) (hc : causeClass r = .abrupt) :
    (sendCause r now s).supervisor.standing = s.supervisor.standing := by
  rw [(sendCause_supervisor r now s hs hc).2]
  split <;> rfl

/-! ## STOP (O15) -/

theorem stopRequest_stopped {s : State} (h : s.supervisor.running = false) (now : Bool) :
    stopRequest now s = (s, .plain .already) := if_neg (by rw [h]; decide)

theorem stopRequest_running {s : State} (h : s.supervisor.running = true) (now : Bool) :
    stopRequest now s = (stopStation now s, .plain .done) := if_pos h

/-- STOP leaves the Supervisor STOPPED, and keeps what else stands with it; PTT is released. -/
theorem stopStation_standing (now : Bool) (s : State) (hs : s.memoryLaw) :
    (stopStation now s).supervisor.standing = { s.supervisor.standing with running := false } ∧
      (stopStation now s).key.ptt = false := by
  have hlaw : (s.withSupervisor { s.supervisor with running := false }).dropPtt.memoryLaw :=
    (dropPtt_stores (P := noWord) (s.withSupervisor { s.supervisor with running := false })).law hs
  obtain ⟨hptt, -⟩ := sendCause_supervisor .stopped now _ hlaw rfl
  exact ⟨(sendCause_standing .stopped now _ hlaw rfl).trans (dropPtt_standing _), hptt (dropPtt_ptt _)⟩

theorem stopStation_course (now : Bool) (s : State) (hs : s.memoryLaw) :
    ∃ v, EndsGrantBy .stopped now (s.withSupervisor { s.supervisor with running := false }).pttReleased v ∧
      stopStation now s = v.withNotices (v.notices ++ [.clear .stopped]) := by
  refine ⟨sendCause .stopped now (s.withSupervisor { s.supervisor with running := false }).pttReleased, ?_, ?_⟩
  · refine sendCause_spec _ _ _ ?_ rfl
    rw [← dropPtt_eq]
    exact (dropPtt_stores (P := noWord) _).law hs
  · rw [← dropPtt_eq]
    rfl

/-- Settles O15. -/
theorem stopStopsTheStation : Obligations.StopStopsTheStation := by
  refine fun s now hs h => ⟨_, congrArg Host.Outcome.next (stationService_eq h), ?_⟩
  cases hr : s.supervisor.running with
  | false => exact only_answers hs (stopRequest_stopped hr now) (Nat.zero_le _)
  | true =>
    have hb := stopRequest_running hr now
    have hto := serve_ends (c := 0) hb (stopStation_frame now s) (stopStation_stores now s) hs
    obtain ⟨hserved, hframe, hkept, -⟩ :=
      served_effect 0 hb (stopStation_frame now s) (stopStation_stores now s) hs (Nat.zero_le _)
    obtain ⟨v, hends, hv⟩ := stopStation_course now s hs
    obtain ⟨hstand, hptt⟩ := stopStation_standing now s hs
    have hsup : (event (serve 0 (stopRequest now)) s).supervisor.standing = { s.supervisor.standing with running := false } :=
      (congrArg Supervisor.standing (hkept .supervisor (by decide))).trans hstand
    have hkey : (event (serve 0 (stopRequest now)) s).key = (stopStation now s).key := hkept .key (by decide)
    exact ⟨⟨v, hends, hv ▸ hto⟩, hserved, (congrArg Supervisor.running hsup :), hkey ▸ hptt, (congrArg Supervisor.lockout hsup :),
      (congrArg Supervisor.history hsup :), (congrArg Supervisor.faultCount hsup :), (congrArg Supervisor.disable hsup :),
      (congrArg Supervisor.releaseTimer hsup :), (congrArg Supervisor.txfaultActive hsup :), hframe⟩

/-! ## KILL (O16) -/

theorem enterLockout_standing (r : LockoutReason) (s : State) :
    (enterLockout r s).supervisor.standing = { s.supervisor.standing with lockout := some r } :=
  dropPtt_standing ((s.withSupervisor { s.supervisor with lockout := some r }).raise .lockout)

theorem enterLockout_events (r : LockoutReason) (s : State) : (enterLockout r s).bus.events.getLsbD 3 = true := by
  show (((s.withSupervisor { s.supervisor with lockout := some r }).raise .lockout).dropPtt).bus.events.getLsbD 3 = true
  obtain ⟨-, -, hevents⟩ := dropPtt_spec ((s.withSupervisor { s.supervisor with lockout := some r }).raise .lockout)
  have hraised : ((s.withSupervisor { s.supervisor with lockout := some r }).raise .lockout).bus.events.getLsbD 3 = true := by
    rw [State.raise_bus, BitVec.getLsbD_or, show (bitWord EventBit.lockout.index).getLsbD 3 = true by decide, Bool.or_true]
  rw [hevents, BitVec.getLsbD_or, hraised, Bool.true_or]

theorem kill_standing (now : Bool) (s : State) (hs : s.memoryLaw) :
    (kill now s).supervisor.standing = { s.supervisor.standing with lockout := some .killed } := by
  unfold kill
  rw [enterLockout_standing, sendCause_standing .killed now s hs rfl]

/-- KILL served in a cell, from the state `u` that the gate, if any, has left. -/
theorem kill_served {c : Cell} {s u : State} {body : State → State × Answer} (now : Bool) (hs : s.memoryLaw)
    (hb : body s = killRequest now u) (hu : OnlyChanges [.sessions] s u) (hm : u.mem = s.mem) :
    let t := event (serve c body) s
    ∃ v, EndsGrantBy .killed now u v ∧ ServesTo c (.plain .done) endParts (endStores s) s (v.lockedOut .killed) t ∧
      Served s t c (.plain .done) ∧ t.supervisor.lockout = some .killed ∧ t.bus.events.getLsbD 3 = true ∧
      t.key.ptt = false ∧ t.supervisor.running = s.supervisor.running ∧ t.supervisor.history = s.supervisor.history ∧
      t.supervisor.faultCount = s.supervisor.faultCount ∧
      ServiceFrame c endParts (fun a => logPlace s.log a ∨ inFilled s a) s t := by
  have hlaw : u.memoryLaw := by unfold State.memoryLaw; rw [hm]; exact hs
  have hlog : u.log = s.log := hu .log (by decide)
  have hsup : u.supervisor = s.supervisor := hu .supervisor (by decide)
  have hframe := OnlyChanges.trans hu.mono (kill_frame now u)
  have hstores : Stores (logPlace s.log) s (kill now u) := Stores.after (.at (kill_stores now u) hlog) (.of_mem hm)
  have hto := serve_ends (c := c) hb hframe hstores hs
  obtain ⟨hserved, hservice, hkept, hevents⟩ := served_effect c hb hframe hstores hs (Nat.zero_le _)
  have hstand : (event (serve c body) s).supervisor.standing = { s.supervisor.standing with lockout := some .killed } := by
    rw [hkept .supervisor (by decide), kill_standing now u hlaw, hsup]
  have hkey : (event (serve c body) s).key = (kill now u).key := hkept .key (by decide)
  have hbit : (event (serve c body) s).bus.events.getLsbD 3 = true := by
    rw [hevents]
    split
    · rw [BitVec.getLsbD_or, kill, enterLockout_events, Bool.true_or]
    · rw [kill, enterLockout_events]
  refine ⟨sendCause .killed now u, sendCause_spec _ _ _ hlaw rfl, ?_, hserved, (congrArg Supervisor.lockout hstand :), hbit, ?_,
    (congrArg Supervisor.running hstand :), (congrArg Supervisor.history hstand :), (congrArg Supervisor.faultCount hstand :), hservice⟩
  · rw [← enterLockout_eq]
    exact hto
  · rw [hkey]
    exact dropPtt_ptt _

/-- Settles O16. -/
theorem killLocksTheStationOut : Obligations.KillLocksTheStationOut := by
  refine ⟨fun s now hs h => ?_, fun s n now hs ⟨h, ho⟩ hop => ?_⟩
  · obtain ⟨v, hends, hrest⟩ := kill_served (c := 0) now hs rfl (.refl _ s) rfl
    exact ⟨_, v, congrArg Host.Outcome.next (stationService_eq h), hends, hrest⟩
  · obtain ⟨v, hends, hrest⟩ :=
      kill_served (c := n.cell) now hs (gate_operator (body := killRequest now) ho hop) (gated_frame s n) (gated_mem s n)
    exact ⟨_, v, congrArg Host.Outcome.next (sessionService_eq h), hends, hrest⟩

end Sys2Proof.Machine
end

section
/-! The member table and OPEN SESSION (O20, O21, O25, O26): records written, budgets refilled, a slot opened. -/

set_option Elab.async false

namespace Sys2Proof.Machine

/-! ## SET MEMBER: its notices (R6, R17) -/

theorem noteKeyTime_notices (m : MemberIx) (old new : Member) (s : State) : (noteKeyTime m old new s).notices = s.notices ++
    if (s.key.grant.any fun g => g.member == some m) ∧ new.maxKeyTime ≠ old.maxKeyTime then [.keyLimit m] else [] := by
  have hholds : s.memberHolds m = s.key.grant.any fun g => g.member == some m := by
    unfold State.memberHolds
    cases s.key.grant <;> rfl
  unfold noteKeyTime
  simp only [hholds, Bool.and_eq_true, bne_iff_ne]
  split
  · rfl
  · exact (List.append_nil _).symm

theorem noteKeyTime_members (m : MemberIx) (old new : Member) (s : State) : (noteKeyTime m old new s).members = s.members := by
  unfold noteKeyTime
  split <;> rfl

/-- A SET MEMBER narrows where it takes a permitted channel away or lowers the grade (R6). -/
theorem narrows_iff (old new : Member) : narrows old new = true ↔
    ((List.range 16).any fun i => old.permitted.getLsbD i && !new.permitted.getLsbD i) = true ∨ new.grade < old.grade := by
  have hbits : (old.permitted &&& ~~~new.permitted) ≠ 0 ↔
      ((List.range 16).any fun i => old.permitted.getLsbD i && !new.permitted.getLsbD i) = true := by
    rw [word_ne_zero_iff, List.any_eq_true]
    refine exists_congr fun i => ?_
    rw [List.mem_range]
    refine and_congr_right fun hi => ?_
    rw [BitVec.getLsbD_and, BitVec.getLsbD_not, decide_eq_true hi, Bool.true_and]
  unfold narrows
  rw [Bool.or_eq_true, bne_iff_ne, decide_eq_true_iff]
  exact or_congr hbits Iff.rfl

theorem writeMember_notices (m : MemberIx) (new : Member) (s : State) : (writeMember m new s).notices = s.notices ++
    (if ((List.range 16).any fun i => (s.member m).permitted.getLsbD i && !new.permitted.getLsbD i) = true ∨
        new.grade < (s.member m).grade then [.privilege m] else []) ++
    if (s.key.grant.any fun g => g.member == some m) ∧ new.maxKeyTime ≠ (s.member m).maxKeyTime then [.keyLimit m] else [] := by
  unfold writeMember
  dsimp only
  rw [noteKeyTime_notices, if_congr (narrows_iff (s.member m) new) rfl rfl]
  split
  · rfl
  · rw [List.append_nil]; rfl

theorem writeMember_members (m : MemberIx) (new : Member) (s : State) : (writeMember m new s).members = s.members.set m new := by
  unfold writeMember
  dsimp only
  rw [noteKeyTime_members]
  split <;> rfl

theorem slotOf_isSome_iff (s : State) (m : MemberIx) : (s.slotOf m).isSome = true ↔
    ∃ n, (s.session n).state ≠ .free ∧ (s.session n).member = some m := by
  constructor
  · intro h
    obtain ⟨k, hk⟩ := Option.isSome_iff_exists.1 h
    exact ⟨k, slotOf_bound hk⟩
  · rintro ⟨n, hstate, hmember⟩
    by_contra hnone
    have hfind := List.find?_eq_none.1 (Option.not_isSome_iff_eq_none.1 hnone) n (List.mem_finRange n)
    simp [hstate, hmember] at hfind

theorem removeMember_notices (m : MemberIx) (s : State) : (removeMember m s).notices = s.notices ++
    (if (s.member m).present ∧ ∃ n, (s.session n).state ≠ .free ∧ (s.session n).member = some m then [.revocation m] else []) ++
    if (s.key.grant.any fun g => g.member == some m) ∧ (s.member m).maxKeyTime ≠ 10 then [.keyLimit m] else [] := by
  have hslot := slotOf_isSome_iff s m
  unfold removeMember
  dsimp only
  rw [noteKeyTime_notices]
  simp only [Bool.and_eq_true, hslot, ne_comm (a := Member.reset.maxKeyTime)]
  split
  · rfl
  · rw [List.append_nil]; rfl

theorem removeMember_members (m : MemberIx) (s : State) : (removeMember m s).members = s.members.set m .reset := by
  unfold removeMember
  dsimp only
  rw [noteKeyTime_members]
  split <;> rfl

/-! ## SET MEMBER: its arguments (R3, R4) -/

theorem trimArg_cases (w : Word) : (w = 0x8000 ∧ trimArg w = .muted) ∨ (w ≠ 0x8000 ∧ trimArg w = .steps w.toInt) := by
  by_cases h : w = 0x8000
  · exact .inl ⟨h, if_pos h⟩
  · exact .inr ⟨h, if_neg h⟩

theorem memberArgs_record (s : State) (old : Member) (operator unmetered : Bool) :
    (s.memberArgs old operator unmetered).1 =
      { present := true, grade := max 1 (min 3 (s.argument 0 2).toNat), controlOperator := operator,
        permitted := s.argument 0 4, priority := min 3 (s.argument 0 5).toNat,
        maxKeyTime := max 10 (min 600 (s.argument 0 6).toNat), unmetered := unmetered,
        allowance := if unmetered then none else some (min 36000 (s.argument 0 8).toNat),
        remaining := if unmetered then 0
          else if old.present ∧ old.unmetered = false then min old.remaining (min 36000 (s.argument 0 8).toNat)
          else min 36000 (s.argument 0 8).toNat,
        trim := if s.argument 0 9 = 0x8000 then .muted else .steps (max (-12) (min 36 (s.argument 0 9).toInt)),
        penaltyEnd := old.penaltyEnd, grantCount := old.grantCount, lostCount := old.lostCount } := by
  unfold State.memberArgs
  obtain ⟨hw, htrim⟩ | ⟨hw, htrim⟩ := trimArg_cases (s.argument 0 9)
  · simp only [htrim, if_pos hw, clamp, Nat.zero_max, Bool.and_eq_true, Bool.not_eq_true']
  · simp only [htrim, if_neg hw, clamp, clampInt, Nat.zero_max, Bool.and_eq_true, Bool.not_eq_true']

/-- CLAMPED is set exactly where one of the numbers lies outside its range (R3). -/
theorem memberArgs_clamped (s : State) (old : Member) (operator unmetered : Bool) :
    (s.memberArgs old operator unmetered).2 = true ↔
      (s.argument 0 2).toNat = 0 ∨ 3 < (s.argument 0 2).toNat ∨ 3 < (s.argument 0 5).toNat ∨ (s.argument 0 6).toNat < 10 ∨
        600 < (s.argument 0 6).toNat ∨ (unmetered = false ∧ 36000 < (s.argument 0 8).toNat) ∨
        (s.argument 0 9 ≠ 0x8000 ∧ ((s.argument 0 9).toInt < -12 ∨ 36 < (s.argument 0 9).toInt)) := by
  have hclampInt : clampInt (-12) 36 (s.argument 0 9).toInt = (s.argument 0 9).toInt ↔
      ¬ ((s.argument 0 9).toInt < -12 ∨ 36 < (s.argument 0 9).toInt) := by unfold clampInt; omega
  simp only [State.memberArgs, Bool.or_eq_true, Bool.and_eq_true, Bool.not_eq_true', bne_iff_ne,
    clamp_ne_iff (Nat.zero_le _), clamp_ne_iff (show 1 ≤ 3 by decide), clamp_ne_iff (show 10 ≤ 600 by decide)]
  obtain ⟨hw, htrim⟩ | ⟨hw, htrim⟩ := trimArg_cases (s.argument 0 9)
  · simp only [htrim, ne_eq, not_true_eq_false, or_false]
    simp only [hw, not_true_eq_false, false_and, or_false, Nat.lt_one_iff, Nat.not_lt_zero, false_or, or_assoc]
  · simp only [htrim, ne_eq, Trim.steps.injEq, hclampInt, hw, not_false_eq_true, true_and, not_not, Nat.lt_one_iff,
      Nat.not_lt_zero, false_or, or_assoc]

/-! ## SET MEMBER (O20, O21) -/

section setMember
variable {s : State} {m : MemberIx}

theorem setMemberRequest_remove (hm : (s.argument 0 0).toNat = m.val) (hp : (s.argument 0 1).toNat = 0) :
    setMemberRequest s = (removeMember m s, .plain .done) := by
  unfold setMemberRequest
  rw [memberArg_eq_some hm, yesNo_eq_some (b := false) hp]
  rfl

theorem setMemberRequest_write (hm : (s.argument 0 0).toNat = m.val) (hp : (s.argument 0 1).toNat = 1) {b d : Bool}
    (hb : (s.argument 0 3).toNat = b.toNat) (hd : (s.argument 0 7).toNat = d.toNat) :
    setMemberRequest s = (writeMember m (s.memberArgs (s.member m) b d).1 s,
      { code := .done, clamped := (s.memberArgs (s.member m) b d).2, words := [] }) := by
  unfold setMemberRequest
  rw [memberArg_eq_some hm, yesNo_eq_some (b := true) hp, yesNo_eq_some hb, yesNo_eq_some hd]

theorem setMemberRequest_badValue (h : 64 ≤ (s.argument 0 0).toNat ∨ 2 ≤ (s.argument 0 1).toNat ∨
    ((s.argument 0 1).toNat = 1 ∧ (2 ≤ (s.argument 0 3).toNat ∨ 2 ≤ (s.argument 0 7).toNat))) :
    setMemberRequest s = (s, .plain .badValue) := by
  unfold setMemberRequest
  rcases h with h | h | ⟨hp, h | h⟩
  · rw [memberArg_eq_none h]; rfl
  · rw [yesNo_eq_none h]; cases memberArg (s.argument 0 0) <;> rfl
  · rw [yesNo_eq_some (b := true) hp, yesNo_eq_none h]; cases memberArg (s.argument 0 0) <;> rfl
  · rw [yesNo_eq_some (b := true) hp, yesNo_eq_none h]
    cases memberArg (s.argument 0 0) <;> cases yesNo (s.argument 0 3) <;> rfl

end setMember

/-- What the host sees of a station-cell request whose work is one member record written, with its notices. -/
theorem served_member {body : State → State × Answer} {s v : State} {m : MemberIx} {r : Member} {a : Answer}
    (hs : s.memoryLaw) (hb : body s = (v, a)) (hf : OnlyChanges [.members, .notices] s v) (hm : v.members = s.members.set m r)
    (hw : a.words.length ≤ 16 := by exact Nat.zero_le _) :
    let t := event (serve 0 body) s
    t.member m = r ∧ (∀ k, k ≠ m → t.member k = s.member k) ∧ t.notices = v.notices ∧ Served s t 0 a ∧
      ServiceFrame 0 [.members, .notices] noWord s t ∧ t.bus.events = s.bus.events ||| bitWord 0 := by
  obtain ⟨hserved, hframe, hkept, hevents⟩ := served_silent (c := 0) hb hf (hf .mem (by decide)) hs hw
  generalize event (serve 0 body) s = t at hserved hframe hkept hevents
  dsimp only
  have hmembers : t.members = s.members.set m r := (hkept .members (by decide)).trans hm
  have hmember : ∀ k, t.member k = if k = m then r else s.member k := fun k => by
    rw [← State.withMember_member, State.member, hmembers, State.member]; rfl
  have hbus : v.bus.events = s.bus.events := hf .events (by decide)
  exact ⟨by rw [hmember, if_pos rfl], fun k hk => by rw [hmember, if_neg hk], hkept .notices (by decide), hserved, hframe,
    by rw [← hbus]; exact hevents⟩

/-- Settles O20: the record of the clamped arguments, and the two notices in their order. -/
theorem setMemberWritesTheRecord : Obligations.SetMemberWritesTheRecord := by
  intro s m hs h a trim old allowance hm hp hoperator hunmetered
  obtain ⟨b, hb⟩ := exists_flag_of_lt_two (Nat.lt_succ_of_le hoperator)
  obtain ⟨d, hd⟩ := exists_flag_of_lt_two (Nat.lt_succ_of_le hunmetered)
  have hflag : ∀ {n : Nat} {x : Bool}, n = x.toNat → (n = 1 ↔ x = true) ∧ (n = 0 ↔ x = false) := by
    rintro _ x rfl
    cases x <;> decide
  obtain ⟨hmember, hothers, hnotices, hserved, hframe, hevents⟩ :=
    served_member hs (setMemberRequest_write hm hp hb hd) (writeMember_frame s m _) (writeMember_members m _ s)
  refine ⟨_, congrArg Host.Outcome.next (stationService_eq h), ?_, hothers, ?_, ?_, hframe, hevents⟩
  · rw [hmember, memberArgs_record]
    simp only [(hflag hb).1, (hflag hd).1, Bool.decide_eq_true]
    rfl
  · rw [hnotices, writeMember_notices, memberArgs_record]
  · have hclamped : (s.memberArgs (s.member m) b d).2 = decide (a 2 = 0 ∨ 3 < a 2 ∨ 3 < a 5 ∨ a 6 < 10 ∨ 600 < a 6 ∨
        (a 7 = 0 ∧ 36000 < a 8) ∨ (trim ≠ 0x8000 ∧ (trim.toInt < -12 ∨ 36 < trim.toInt))) := by
      rw [Bool.eq_iff_iff, decide_eq_true_iff, memberArgs_clamped, (hflag hd).2]
    rw [← hclamped]
    exact hserved

/-- Settles O21: the reset record with its two notices, or a refusal. -/
theorem setMemberRemovesOrRefuses : Obligations.SetMemberRemovesOrRefuses := by
  intro s hs h a
  refine ⟨fun m hm hp => ?_, fun hbad => ⟨_, congrArg Host.Outcome.next (stationService_eq h),
    only_answers hs (setMemberRequest_badValue hbad) (Nat.zero_le _)⟩⟩
  obtain ⟨hmember, hothers, hnotices, hserved, hframe, hevents⟩ :=
    served_member hs (setMemberRequest_remove hm hp) (removeMember_frame s m) (removeMember_members m s)
  exact ⟨_, congrArg Host.Outcome.next (stationService_eq h), hmember, hothers, hnotices.trans (removeMember_notices m s),
    hserved, hframe, hevents⟩

/-! ## REFILL (O25) -/

theorem refillOne_member (s : State) (m k : MemberIx) : (refillOne s m).member k =
    if k = m ∧ (s.member k).refillable then { s.member k with remaining := (s.member k).allowance.getD 0 } else s.member k := by
  unfold refillOne
  dsimp only
  by_cases hk : k = m
  · subst hk
    by_cases hr : (s.member k).refillable = true
    · rw [if_pos hr, if_pos ⟨rfl, hr⟩, State.withMember_member, if_pos rfl]
    · rw [if_neg hr, if_neg fun h => hr h.2]
  · rw [if_neg (c := k = m ∧ _) fun h => hk h.1]
    split
    · rw [State.withMember_member, if_neg hk]
    · rfl

/-- A refill of some members, each listed once: exactly the refillable ones among them have their budgets restored. -/
theorem refill_member {ms : List MemberIx} (hnodup : ms.Nodup) (k : MemberIx) : ∀ s : State, (ms.foldl refillOne s).member k =
    if k ∈ ms ∧ (s.member k).refillable then { s.member k with remaining := (s.member k).allowance.getD 0 }
    else s.member k := by
  induction ms with
  | nil => exact fun s => (if_neg fun h => absurd h.1 List.not_mem_nil).symm
  | cons m rest ih =>
    intro s
    obtain ⟨hm, hrest⟩ := List.nodup_cons.1 hnodup
    rw [List.foldl_cons, ih hrest, refillOne_member]
    by_cases hk : k = m
    · subst hk
      simp [hm]
    · simp [hk]

theorem refillRequest_of_arg {s : State} {ms : List MemberIx} (h : refillArg (s.argument 0 0) = some ms) :
    refillRequest s = (ms.foldl refillOne s,
      { code := .done, clamped := false, words := [word (ms.filter fun m => (s.member m).refillable).length] }) := by
  unfold refillRequest
  rw [h]

/-- The members that an argument of REFILL names, each once: those that the argument's own test picks. -/
theorem refillArg_spec {x : Word} (h : x = 0xFFFF ∨ x.toNat < 64) : ∃ ms, refillArg x = some ms ∧ ms.Nodup ∧
    (∀ m, m ∈ ms ↔ (x == 0xFFFF || x.toNat == m.val) = true) ∧
    ∀ p : MemberIx → Bool, ms.filter p = allMembers.filter fun m => (x == 0xFFFF || x.toNat == m.val) && p m := by
  by_cases hall : x = 0xFFFF
  · refine ⟨allMembers, if_pos hall, List.nodup_finRange 64, fun m => ?_, fun p => ?_⟩
    · simp [hall, allMembers]
    · simp [hall]
  · have hx : x.toNat < 64 := h.resolve_left hall
    have hpick : ∀ m : MemberIx, (x == 0xFFFF || x.toNat == m.val) = (m == ⟨x.toNat, hx⟩) := fun m => by
      rw [beq_false_of_ne hall, Bool.false_or, Bool.eq_iff_iff, beq_iff_eq, beq_iff_eq, Fin.ext_iff, eq_comm]
    refine ⟨[⟨x.toNat, hx⟩], ?_, List.nodup_singleton _, fun m => ?_, fun p => ?_⟩
    · unfold refillArg
      rw [if_neg hall, memberArg_eq_some (m := ⟨x.toNat, hx⟩) rfl]
      rfl
    · rw [hpick, beq_iff_eq, List.mem_singleton]
    · simp only [hpick]
      have honce : allMembers.filter (fun m => m == ⟨x.toNat, hx⟩) = [⟨x.toNat, hx⟩] := by
        rw [List.filter_beq, allMembers, List.count_eq_one_of_mem (List.nodup_finRange 64) (List.mem_finRange _)]
        rfl
      rw [← honce, List.filter_filter]
      exact List.filter_congr fun m _ => Bool.and_comm _ _

/-- Settles O25. -/
theorem refillRestoresBudgets : Obligations.RefillRestoresBudgets := by
  intro s hs h x refilled
  refine ⟨fun hx => ?_, fun hall hx => ?_⟩
  · obtain ⟨ms, harg, hnodup, hmem, hfilter⟩ := refillArg_spec hx
    have hb := refillRequest_of_arg harg
    have hf := foldl_refillOne_frame s ms
    have hcount : ms.filter (fun m => (s.member m).refillable) = allMembers.filter refilled := by
      rw [hfilter]
      exact List.filter_congr fun m _ => (Bool.and_assoc _ _ _).symm
    rw [hcount] at hb
    obtain ⟨hserved, hframe, hkept, hevents⟩ := served_silent (c := 0) hb hf (hf .mem (by decide)) hs (show 1 ≤ 16 by decide)
    refine ⟨_, congrArg Host.Outcome.next (stationService_eq h), fun m => ?_, hserved, hframe, ?_⟩
    · have hmember : (event (serve 0 refillRequest) s).member m = (ms.foldl refillOne s).member m :=
        congrArg (fun l : Vector Member 64 => l[m]) (hkept .members (by decide))
      have htest : (m ∈ ms ∧ (s.member m).refillable = true) ↔ refilled m = true := by
        rw [hmem, ← Bool.and_eq_true, Member.refillable, ← Bool.and_assoc]
      rw [hmember, refill_member hnodup, if_congr htest rfl rfl]
    · rw [hevents, hf .events (by decide)]
      rfl
  · have hb : refillRequest s = (s, .plain .badValue) := by
      unfold refillRequest refillArg
      rw [if_neg hall, memberArg_eq_none hx]
      rfl
    exact ⟨_, congrArg Host.Outcome.next (stationService_eq h), only_answers hs hb (Nat.zero_le _)⟩

/-! ## OPEN SESSION (O26) -/

section openSession
variable {s : State} {n : Slot} {m : MemberIx}

theorem openSessionRequest_badValue
    (h : (s.argument 0 0).toNat = 0 ∨ 16 < (s.argument 0 0).toNat ∨ 64 ≤ (s.argument 0 1).toNat) :
    openSessionRequest s = (s, .plain .badValue) := by
  unfold openSessionRequest
  rcases h with h | h | h
  · rw [slotArg_eq_none (.inl h)]; rfl
  · rw [slotArg_eq_none (.inr h)]; rfl
  · rw [memberArg_eq_none h]; cases slotArg (s.argument 0 0) <;> rfl

variable (hn : (s.argument 0 0).toNat = n.number) (hm : (s.argument 0 1).toNat = m.val)
include hn hm

/-- The checks of OPEN SESSION in their order (R21), once its two arguments name a slot and a member. -/
theorem openSessionRequest_of_args : openSessionRequest s =
    if (s.session n).state ≠ .free then (s, .plain .inUse)
    else if (s.member m).present = false then (s, .plain .notPermitted)
    else if ∃ k, (s.session k).state ≠ .free ∧ (s.session k).member = some m then (s, .plain .duplicate)
    else (openSession n m s, .plain .done) := by
  unfold openSessionRequest
  rw [slotArg_eq_some hn, memberArg_eq_some hm]
  simp only [Bool.not_eq_true', slotOf_isSome_iff]
  rfl

end openSession

theorem newsState_ne_of_state {s t : State} {n : Slot} (h : (t.session n).state ≠ (s.session n).state) :
    t.newsState n ≠ s.newsState n := by
  intro heq
  have hword : some (word (t.session n).state.code) = some (word (s.session n).state.code) :=
    congrArg (fun x : List Word × Nat => x.1.head?) heq
  revert h hword
  cases (t.session n).state <;> cases (s.session n).state <;> decide

/-- A session record that an event has changed in one of R33's fields is published with NEWS. -/
theorem PublishedFor.news {s t : State} {n : Slot} (h : PublishedFor s t n) (hne : t.newsState n ≠ s.newsState n) :
    t.bus.news.getLsbD n.val = true := by
  unfold PublishedFor at h
  rw [if_neg fun e => hne (newsState_congr e)] at h
  obtain ⟨-, -, -, hnews⟩ := h
  rw [hnews, decide_eq_true hne, Bool.or_true]

/-- Settles O26. -/
theorem openSessionOpensTheSlot : Obligations.OpenSessionOpensTheSlot := by
  intro s hs h a
  refine ⟨fun hbad => ⟨_, congrArg Host.Outcome.next (stationService_eq h),
    only_answers hs (openSessionRequest_badValue hbad) (Nat.zero_le _)⟩, fun n m hn hm => ?_⟩
  have hb := openSessionRequest_of_args hn hm
  refine ⟨_, congrArg Host.Outcome.next (stationService_eq h), ?_⟩
  split
  · next hused => exact only_answers hs (hb.trans (if_pos hused)) (Nat.zero_le _)
  next hfree =>
  rw [if_neg hfree] at hb
  split
  · next habsent => exact only_answers hs (hb.trans (if_pos habsent)) (Nat.zero_le _)
  next hpresent =>
  rw [if_neg hpresent] at hb
  split
  · next hbound => exact only_answers hs (hb.trans (if_pos hbound)) (Nat.zero_le _)
  next hunbound =>
  rw [if_neg hunbound] at hb
  have hf := openSession_frame n m s
  obtain ⟨-, -, -, -, -, hpublished, -⟩ := serve_filled (c := 0) hb hf (.of_mem rfl) hs
  obtain ⟨hserved, hframe, hkept, hevents⟩ := served_silent (c := 0) hb hf rfl hs
  have hsession : ∀ k, ((event (serve 0 openSessionRequest) s).session k).uncounted =
      (if k = n then { Session.reset with state := .opened, member := some m
                                          deadline := some (Clock.plus s.clock s.params.surveillance)
                                          changeCount := (s.session n).changeCount }
        else s.session k).uncounted := fun k => by
    rw [hkept .sessions (by decide) k, openSession, State.withSession_session]
  have hself := (hsession n).trans (congrArg Session.uncounted (if_pos rfl))
  have hopened : ((event (serve 0 openSessionRequest) s).session n).state = .opened := (congrArg Session.state hself :)
  have hnews : (event (serve 0 openSessionRequest) s).newsState n ≠ s.newsState n :=
    newsState_ne_of_state (by rw [hopened, not_not.mp hfree]; decide)
  exact ⟨hself, fun k hk => by rw [hsession, if_neg hk], (hpublished n).news hnews, hserved, hframe, hevents⟩

end Sys2Proof.Machine
end

section
/-! SET STATION (O18, O19): its codes, its clamped parameters, and what they bring about in the event. -/

set_option Elab.async false

namespace Sys2Proof.Machine

/-! ## The codes of the option word and of the ID text (R167 step 2, R175) -/

theorem getLsbD_eq_decide (w : Word) (i : Nat) : w.getLsbD i = decide (w.toNat / 2 ^ i % 2 = 1) := by
  rw [BitVec.getLsbD, Nat.testBit_eq_decide_div_mod_eq]

/-- An on/off code of the option word: its two bits, the high one 0. -/
theorem optionFlag_field (w : Word) (low : Nat) :
    optionFlag (optionField w low) = if w.getLsbD (low + 1) then none else some (w.getLsbD low) := by
  have hhigh : w.toNat / 2 ^ (low + 1) = w.toNat / 2 ^ low / 2 := by rw [Nat.pow_succ, Nat.div_div_eq_div_mul]
  rw [getLsbD_eq_decide, getLsbD_eq_decide, optionField, Nat.shiftRight_eq_div_pow, hhigh]
  generalize w.toNat / 2 ^ low = q
  obtain h | h | h | h : q % 4 = 0 ∨ q % 4 = 1 ∨ q % 4 = 2 ∨ q % 4 = 3 := by omega
  · rw [h, if_neg (by simp; omega), decide_eq_false (by omega)]; rfl
  · rw [h, if_neg (by simp; omega), decide_eq_true (by omega)]; rfl
  · rw [h, if_pos (by simp; omega)]; rfl
  · rw [h, if_pos (by simp; omega)]; rfl

theorem busySourceArg_field (w : Word) : busySourceArg (optionField w 0) =
    if w.toNat % 4 ≤ 2 then some (if w.toNat % 4 = 0 then .s0 else if w.toNat % 4 = 1 then .s1 else .s2) else none := by
  rw [optionField, Nat.shiftRight_zero]
  obtain h | h | h | h : w.toNat % 4 = 0 ∨ w.toNat % 4 = 1 ∨ w.toNat % 4 = 2 ∨ w.toNat % 4 = 3 := by omega
  all_goals rw [h]; rfl

theorem textCharacter_eq (s : State) (c : Cell) (i : Nat) :
    s.textCharacter c i = (s.argument c (31 + i / 2)).toNat / 256 ^ (i % 2) % 256 := by
  have hbound := (s.argument c (31 + i / 2)).isLt
  unfold State.textCharacter
  obtain h | h : i % 2 = 0 ∨ i % 2 = 1 := by omega
  · rw [h]; simp
  · rw [h]; simp; omega

theorem idTextArg_eq (s : State) (c : Cell) : s.idTextArg c =
    if (s.argument c 30).toNat ≤ 16 ∧ ∀ i, i < (s.argument c 30).toNat → s.textCharacter c i ≤ 37 then
      some ((List.range (s.argument c 30).toNat).map (s.textCharacter c))
    else none := by
  have hall : ((List.range (s.argument c 30).toNat).map (s.textCharacter c)).all (· ≤ 37) = true ↔
      ∀ i, i < (s.argument c 30).toNat → s.textCharacter c i ≤ 37 := by simp
  unfold State.idTextArg
  dsimp only
  split
  · next h =>
    rw [if_congr hall rfl rfl]
    exact if_congr (and_iff_right h).symm rfl rfl
  · next h => rw [if_neg fun hx => h hx.1]

/-- The codes of SET STATION, as 11.3 lays them out; there are none where a code is undefined. -/
theorem stationCodes_eq (s : State) (c : Cell) : s.stationCodes c =
    let o := s.argument c 29
    if (o.toNat % 4 ≤ 2 ∧ o.getLsbD 3 = false ∧ o.getLsbD 5 = false ∧ o.getLsbD 7 = false ∧ o.getLsbD 9 = false ∧
        (s.argument c 30).toNat ≤ 16 ∧ ∀ i, i < (s.argument c 30).toNat → s.textCharacter c i ≤ 37) then
      some { busySource := if o.toNat % 4 = 0 then .s0 else if o.toNat % 4 = 1 then .s1 else .s2
             autoIntegrate := o.getLsbD 2, cosUse := o.getLsbD 4, cosLowActive := o.getLsbD 6
             txfaultLowActive := o.getLsbD 8
             idText := (List.range (s.argument c 30).toNat).map (s.textCharacter c) }
    else none := by
  unfold State.stationCodes
  simp only [busySourceArg_field, optionFlag_field, idTextArg_eq]
  split
  · next source auto use cosLow faultLow text hsource hauto huse hcos hfault htext =>
    simp only [Option.ite_none_right_eq_some, Option.ite_none_left_eq_some, Bool.not_eq_true, Option.some.injEq]
      at hsource hauto huse hcos hfault htext
    obtain ⟨h0, rfl⟩ := hsource
    obtain ⟨h3, rfl⟩ := hauto
    obtain ⟨h5, rfl⟩ := huse
    obtain ⟨h7, rfl⟩ := hcos
    obtain ⟨h9, rfl⟩ := hfault
    obtain ⟨⟨hlength, hcharacters⟩, rfl⟩ := htext
    exact (if_pos ⟨h0, h3, h5, h7, h9, hlength, hcharacters⟩).symm
  · next hundefined =>
    rw [if_neg]
    rintro ⟨h0, h3, h5, h7, h9, htext⟩
    exact hundefined _ _ _ _ _ _ (if_pos h0) (if_neg (Bool.eq_false_iff.mp h3)) (if_neg (Bool.eq_false_iff.mp h5))
      (if_neg (Bool.eq_false_iff.mp h7)) (if_neg (Bool.eq_false_iff.mp h9)) (if_pos htext)

/-! ## What the new parameters bring about (R125, R127, R142) -/

/-- With PTT released, the judging of TXFAULT can only abandon a qualification. -/
theorem judgeTxfault_unkeyed {s : State} (hptt : s.key.ptt = false) (now : Bool) : judgeTxfault now s =
    s.withSupervisor { s.supervisor with
      txfaultActive := s.txfaultJudged, qualification := if s.txfaultJudged then s.supervisor.qualification else none } := by
  unfold judgeTxfault
  cases h : s.txfaultJudged with
  | false => rfl
  | true =>
    dsimp only
    rw [if_neg (by decide), if_neg (by simp [hptt])]
    rfl

theorem withIdent_self (s : State) : s.withIdent s.ident = s := rfl

theorem makeDue_eq (s : State) (c : Bool) :
    s.makeDue c = s.withIdent { s.ident with due := s.ident.due || (c && !s.params.idTextEmpty) } := by
  have hor : ∀ b due : Bool, (due || b) = if b && !due then true else due := by decide
  unfold State.makeDue
  rw [hor]
  split <;> rfl

/-- What SET STATION brings about with PTT released. -/
theorem stationActs_eq {s : State} (hptt : s.key.ptt = false) :
    let due := !s.params.idTextEmpty && (s.ident.due ||
      (s.ident.owed && (s.ident.intervalReached || reached s.clock s.intervalTime || s.ident.quiet == .expired)))
    let u : State := { s with
      supervisor := { s.supervisor with
        txfaultActive := s.txfaultJudged, qualification := if s.txfaultJudged then s.supervisor.qualification else none }
      ident := { s.ident with
        intervalReached := s.ident.intervalReached || reached s.clock s.intervalTime, due := due } }
    stationActs s = if due && !s.ident.due then arbitrate u else u := by
  have hcleared : ∀ t : State, (if t.params.idTextEmpty then t.withIdent { t.ident with due := false } else t) =
      t.withIdent { t.ident with due := !t.params.idTextEmpty && t.ident.due } := fun t => by
    cases h : t.params.idTextEmpty <;> rfl
  have hreached : ∀ t : State, (if !t.ident.intervalReached && reached t.clock t.intervalTime then
        t.withIdent { t.ident with intervalReached := true } else t) =
      t.withIdent { t.ident with intervalReached := t.ident.intervalReached || reached t.clock t.intervalTime } := fun t => by
    have hor : ∀ a b : Bool, (a || b) = if !a && b then true else a := by decide
    rw [hor]
    split <;> rfl
  have hdue : ∀ e d c : Bool, (!e && d || (c && !e)) = (!e && (d || c)) := by decide
  have hbecomes : ∀ e d c : Bool, ((!e && d || (c && !e)) && !(!e && d)) = ((!e && (d || c)) && !d) := by decide
  have hsame : ∀ {a b : Bool} {x y : State}, a = b → x = y →
      (if a then arbitrate x else x) = if b then arbitrate y else y := by
    rintro _ _ _ _ rfl rfl
    rfl
  unfold stationActs
  simp only [judgeTxfault_unkeyed hptt, hcleared, hreached, makeDue_eq]
  refine hsame (hbecomes s.params.idTextEmpty s.ident.due _)
    (congrArg (fun d => ({ s with
      supervisor := { s.supervisor with
        txfaultActive := s.txfaultJudged, qualification := if s.txfaultJudged then s.supervisor.qualification else none }
      ident := { s.ident with
        intervalReached := s.ident.intervalReached || reached s.clock s.intervalTime, due := d } } : State))
      (hdue s.params.idTextEmpty s.ident.due _))

/-! ## SET STATION (O18, O19) -/

theorem setStationRequest_busy {s : State} (h : s.key.grant ≠ none) : setStationRequest s = (s, .plain .busy) :=
  if_pos (Option.isSome_iff_ne_none.mpr h)

theorem setStationRequest_badValue {s : State} (h : s.key.grant = none) (hk : s.stationCodes 0 = none) :
    setStationRequest s = (s, .plain .badValue) := by
  unfold setStationRequest
  rw [h, hk]
  rfl

theorem setStationRequest_of_codes {s : State} {k : StationCodes} (h : s.key.grant = none) (hk : s.stationCodes 0 = some k) :
    setStationRequest s = (stationActs (s.withParams (s.stationParams 0 k)),
      { code := .done, clamped := s.stationClamped 0 (s.stationParams 0 k), words := [] }) := by
  unfold setStationRequest
  rw [h, hk]
  rfl

theorem stationClamped_eq (s : State) (p : Params) :
    s.stationClamped 0 p = decide (p.numbers ≠ (List.range 29).map fun i => (s.argument 0 i).toNat) := by
  rw [Bool.eq_iff_iff, decide_eq_true_iff]
  exact bne_iff_ne

theorem setStation_frame (s : State) (p : Params) :
    OnlyChanges (.params :: .supervisor :: .floor :: endParts) s (stationActs (s.withParams p)) :=
  OnlyChanges.after (stationActs_frame _).mono withParams_frame

/-- Settles O18: the checks in R167's order, then every parameter as its argument clamped. -/
theorem setStationWritesEveryParameter : Obligations.SetStationWritesEveryParameter := by
  intro s hs h a within o character defined
  have hcodes := stationCodes_eq s 0
  rw [show s.textCharacter 0 = character from funext (textCharacter_eq s 0)] at hcodes
  refine ⟨_, congrArg Host.Outcome.next (stationService_eq h), fun hg => only_answers hs (setStationRequest_busy hg) (Nat.zero_le _),
    fun hg hundefined => only_answers hs (setStationRequest_badValue hg (hcodes.trans (if_neg hundefined))) (Nat.zero_le _),
    fun hg hdefined => ?_⟩
  have hk := hcodes.trans (if_pos hdefined)
  have hb := setStationRequest_of_codes hg hk
  obtain ⟨hserved, -, hkept, -⟩ := served_effect 0 hb (setStation_frame s _)
    (Stores.after (.at (stationActs_stores _) rfl) (.of_mem rfl)) hs (Nat.zero_le _)
  have hparams : (event (serve 0 setStationRequest) s).params = s.stationParams 0 _ :=
    (hkept .params (by decide)).trans (stationActs_frame _ .params (by decide))
  rw [stationClamped_eq, ← hparams] at hserved
  refine ⟨?_, ?_, ?_, ?_, ?_, ?_, ?_, hserved⟩
  all_goals rw [hparams]; rfl

/-- Settles O19. -/
theorem setStationActsOnFaultAndIdentification : Obligations.SetStationActsOnFaultAndIdentification := by
  intro s k hs hp h hg hk p active reached due u
  have hptt : s.key.ptt = false := Bool.eq_false_iff.mpr fun hptt => by
    obtain ⟨⟨g, hgrant, -⟩, -⟩ := hp hptt
    exact absurd (hg.symm.trans hgrant) (by simp)
  have hb := setStationRequest_of_codes hg hk
  have hacts : stationActs (s.withParams p) = if due && !s.ident.due then arbitrate u else u :=
    stationActs_eq (s := s.withParams p) hptt
  rw [hacts, stationClamped_eq] at hb
  have hu : OnlyChanges ([.params, .supervisor] ++ arbitrationParts) s u :=
    OnlyChanges.trans (t := (s.withParams p).withSupervisor u.supervisor)
      (OnlyChanges.trans withParams_frame withSupervisor_frame) (withIdent_frame (x := u.ident))
  refine ⟨_, congrArg Host.Outcome.next (stationService_eq h), serve_filled (c := 0) hb ?_ ?_ hs⟩
  · exact .ite (OnlyChanges.trans hu (arbitrate_frame u).mono) hu
  · exact .ite (Stores.after (arbitrate_stores u) (.of_mem rfl)) (.of_mem rfl)

end Sys2Proof.Machine
end

section
/-! KEY, RELEASE and PREEMPT (O28–O31): the checks in their order, and the claims they make and end. -/

set_option Elab.async false

namespace Sys2Proof.Machine

/-! ## What the gate leaves of the figures a claim asks about -/

section gated
variable (s : State) (n : Slot)

theorem gated_key : (s.gated n).key = s.key := gated_frame s n .key (by decide)

theorem gated_member (m : MemberIx) : (s.gated n).member m = s.member m :=
  congrArg (fun l : Vector Member 64 => l[m]) (gated_frame s n .members (by decide))

theorem gated_channel (c : ChannelIx) : (s.gated n).channel c = s.channel c :=
  congrArg (fun l : Vector Channel 16 => l[c]) (gated_frame s n .channels (by decide))

theorem gated_entryOf (k : Slot) : (s.gated n).entryOf k = s.entryOf k := by
  unfold State.entryOf
  rw [gated_floor]

theorem gated_holds (k : Slot) : (s.gated n).holds k = s.holds k := by
  unfold State.holds
  rw [gated_key]

theorem gated_grantOf (k : Slot) : (s.gated n).grantOf k = s.grantOf k := by
  unfold State.grantOf
  rw [gated_key]

theorem gated_mayKey (m : MemberIx) (c : ChannelIx) : (s.gated n).mayKey m c ↔ s.mayKey m c := by
  unfold State.mayKey
  rw [gated_member, gated_channel]

theorem gated_hasBudget (m : MemberIx) : (s.gated n).hasBudget m ↔ s.hasBudget m := by
  unfold State.hasBudget
  rw [gated_member]

variable {s n}

theorem gated_session_member (ho : (s.session n).state = .opened) :
    ((s.gated n).session n).member = (s.session n).member := by
  rw [gated_session s n n ho, if_pos rfl]

theorem gated_lastEndReason (ho : (s.session n).state = .opened) :
    ((s.gated n).session n).lastEndReason = (s.session n).lastEndReason := by
  rw [gated_session s n n ho, if_pos rfl]

theorem gated_timedOutNow (ho : (s.session n).state = .opened) : (s.gated n).timedOutNow n = s.timedOutNow n := by
  unfold State.timedOutNow
  rw [gated_key, gated_lastEndReason ho, gated_frame s n .periods (by decide)]

end gated

/-! ## The arguments and the eligibility of KEY and PREEMPT (R12, R40) -/

/-- The member of session n may key on the channel that the argument names. -/
def State.mayKeyArg (s : State) (n : Slot) (w : Word) : Prop :=
  ∃ m c, (s.session n).member = some m ∧ w.toNat = c.val ∧ s.mayKey m c

/-- The member of session n has budget left. -/
def State.hasBudgetArg (s : State) (n : Slot) : Prop := ∃ m, (s.session n).member = some m ∧ s.hasBudget m

section eligibility
variable {s : State} {n : Slot} {w : Word}

theorem channelArg_eq_some_iff {c : ChannelIx} : channelArg w = some c ↔ w.toNat = c.val := by
  refine ⟨fun h => ?_, channelArg_eq_some⟩
  unfold channelArg at h
  split at h
  · rw [← Option.some.inj h]
  · cases h

theorem keyEligibility_eq {m : MemberIx} {c : ChannelIx} (hm : (s.session n).member = some m) (hc : w.toNat = c.val) :
    s.keyEligibility n w = s.eligibility m c := by
  unfold State.keyEligibility
  rw [hm, channelArg_eq_some hc]

theorem keyEligibility_notPermitted (h : ¬ s.mayKeyArg n w) : s.keyEligibility n w = .notPermitted := by
  unfold State.keyEligibility
  split
  · next m c hm hc =>
    obtain ⟨-, hrefused, -⟩ := eligibility_spec s m c
    exact hrefused fun hk => h ⟨m, c, hm, channelArg_eq_some_iff.1 hc, hk⟩
  · rfl

theorem keyEligibility_noBudget (h : s.mayKeyArg n w) (hb : ¬ s.hasBudgetArg n) : s.keyEligibility n w = .noBudget := by
  obtain ⟨m, c, hm, hc, hk⟩ := h
  obtain ⟨-, -, hrefused⟩ := eligibility_spec s m c
  rw [keyEligibility_eq hm hc]
  exact hrefused hk fun hbudget => hb ⟨m, hm, hbudget⟩

theorem keyEligibility_pass {m : MemberIx} {c : ChannelIx} (hm : (s.session n).member = some m) (hc : w.toNat = c.val)
    (hk : s.mayKey m c) (hb : s.hasBudget m) : s.keyEligibility n w = .pass := by
  obtain ⟨hpass, -, -⟩ := eligibility_spec s m c
  rw [keyEligibility_eq hm hc]
  exact hpass hk hb

theorem gated_mayKeyArg (ho : (s.session n).state = .opened) : (s.gated n).mayKeyArg n w ↔ s.mayKeyArg n w := by
  unfold State.mayKeyArg
  simp only [gated_session_member ho, gated_mayKey]

theorem gated_hasBudgetArg (ho : (s.session n).state = .opened) : (s.gated n).hasBudgetArg n ↔ s.hasBudgetArg n := by
  unfold State.hasBudgetArg
  simp only [gated_session_member ho, gated_hasBudget]

end eligibility

theorem persistArg_none {flag retries : Word} (h : 2 ≤ flag.toNat ∨ (flag.toNat = 1 ∧ 7 < retries.toNat)) :
    persistArg flag retries = none := by
  unfold persistArg
  rcases h with h | ⟨h, hr⟩
  · rw [yesNo_eq_none h]
  · rw [yesNo_eq_some (b := true) h]
    exact if_neg (Nat.not_le.mpr hr)

theorem persistArg_some {flag retries : Word} (h : flag.toNat = 0 ∨ (flag.toNat = 1 ∧ retries.toNat ≤ 7)) :
    persistArg flag retries = some (if flag = 1 then some retries.toNat else none) := by
  unfold persistArg
  rcases h with h | ⟨h, hr⟩
  · have hflag : ¬ flag = 1 := by rintro rfl; exact absurd h (by decide)
    rw [yesNo_eq_some (b := false) h, if_neg hflag]
  · have hflag : flag = 1 := BitVec.eq_of_toNat_eq h
    rw [yesNo_eq_some (b := true) h, if_pos hflag]
    exact if_pos hr

/-! ## KEY's checks (O28) -/

section key
variable {u : State} {n : Slot}

theorem keyRequest_badValue (h : persistArg (u.argument n.cell 1) (u.argument n.cell 2) = none) :
    keyRequest n u = (u, .plain .badValue) := by
  unfold keyRequest
  rw [h]
  rfl

/-- KEY once its persist arguments are defined: the other checks in their order. -/
theorem keyRequest_of_persist {r : Option Nat} (h : persistArg (u.argument n.cell 1) (u.argument n.cell 2) = some r) :
    keyRequest n u =
      if u.supervisor.running = false then (u, .plain .stopped)
      else if u.supervisor.lockout ≠ none then (u, .plain .lockedOut)
      else if (u.entryOf n).isSome ∨ u.holds n = true then (u, .plain .already)
      else
        match u.keyEligibility n (u.argument n.cell 0) with
        | .notPermitted => (u, .plain .notPermitted)
        | .noBudget => (u, .plain .noBudget)
        | .pass =>
          match (u.session n).member, channelArg (u.argument n.cell 0) with
          | some m, some c => admitEntry n (u.newEntry n m c r false) u
          | _, _ => (u, .plain .notPermitted) := by
  unfold keyRequest
  rw [h]
  simp only [Bool.not_eq_true', Option.isSome_iff_ne_none, Bool.or_eq_true]
  rfl

end key

/-- Settles O28: one refusal for each check, in the state that the gate has left. -/
theorem keyIsRefusedInItsOrder : Obligations.KeyIsRefusedInItsOrder := by
  intro s n hs ⟨h, ho⟩ persist mayKey budget
  have refused : ∀ {a : AnswerCode}, keyRequest n (s.gated n) = (s.gated n, .plain a) →
      OnlyNotedAndAnswers n (.plain a) s (event (serve n.cell (gate n (keyRequest n))) s) :=
    fun hb => only_noted hs ho hb (Nat.zero_le _)
  refine ⟨_, congrArg Host.Outcome.next (sessionService_eq h), fun hbad => refused (keyRequest_badValue ?_), fun hpersist => ?_⟩
  · rw [gated_argument, gated_argument]
    exact persistArg_none hbad
  have hb := keyRequest_of_persist (u := s.gated n) (n := n) (r := _) (by
    rw [gated_argument, gated_argument]
    exact persistArg_some hpersist)
  rw [gated_supervisor, gated_entryOf, gated_holds, gated_argument _ _ _ 0] at hb
  refine ⟨fun hstopped => refused (hb.trans (if_pos hstopped)), fun hrunning => ?_⟩
  rw [if_neg (by rw [hrunning]; decide)] at hb
  refine ⟨fun hlocked => refused (hb.trans (if_pos hlocked)), fun hunlocked => ?_⟩
  rw [if_neg (not_not.mpr hunlocked)] at hb
  refine ⟨fun hclaims => refused (hb.trans (if_pos hclaims)), fun hentry hholds => ?_⟩
  rw [if_neg (by rw [hentry, hholds]; decide)] at hb
  refine ⟨fun hmay => refused (hb.trans ?_), fun hmay hbudget => refused (hb.trans ?_)⟩
  · rw [keyEligibility_notPermitted (mt (gated_mayKeyArg ho).1 hmay)]
  · rw [keyEligibility_noBudget ((gated_mayKeyArg ho).2 hmay) (mt (gated_hasBudgetArg ho).1 hbudget)]

/-! ## An admitted claim (O29) -/

/-- The position of a session that has one entry, counted from the entries before it. -/
theorem positionOf_split {f : Floor} {n : Slot} {e : Entry} {front back : List Entry} (hq : f.queue = front ++ e :: back)
    (he : e.session = n) (hfront : ∀ x ∈ front, x.session ≠ n) : f.positionOf n = some (front.length + 1) := by
  have hnone : front.findIdx? (fun e => e.session == n) = none := by
    rw [List.findIdx?_eq_none_iff]
    exact fun x hx => beq_false_of_ne (hfront x hx)
  unfold Floor.positionOf
  rw [hq, List.findIdx?_append, hnone, List.findIdx?_cons, if_pos (beq_iff_eq.mpr he)]
  simp

/-- The answer to an admitted claim, by the place its entry has taken. -/
theorem queuedAnswer_of_joins {e : Entry} {n : Slot} {u j : State} (hj : Joins e u j) (he : e.session = n)
    (hentry : u.entryOf n = none) : ∃ front back, u.floor.queue = front ++ back ∧
      j.floor = { u.floor.withQueue (front ++ { e with arrival := u.floor.arrival + 1 } :: back) with
        arrival := u.floor.arrival + 1 } ∧
      (e.marked = true → front = []) ∧
      j.queuedAnswer n = { code := .queued, clamped := false, words := [word (front.length + 1), u.floor.arrival + 1] } := by
  obtain ⟨⟨front, back, hsplit, hfloor, hmarked, -⟩, -, -⟩ := hj
  refine ⟨front, back, hsplit, hfloor, hmarked, ?_⟩
  have hposition : j.positionOf n = some (front.length + 1) := by
    refine positionOf_split (e := { e with arrival := u.floor.arrival + 1 }) (back := back) (by rw [hfloor]; rfl) he fun x hx => ?_
    have hmem : x ∈ u.floor.queue := hsplit ▸ List.mem_append_left back hx
    simpa using List.find?_eq_none.1 hentry x hmem
  unfold State.queuedAnswer
  rw [hposition, hfloor]
  rfl

/-- Settles O29. -/
theorem keyJoinsTheQueueAndArbitrates : Obligations.KeyJoinsTheQueueAndArbitrates := by
  intro s n m c hs ⟨h, ho⟩ hpersist hrunning hunlocked hentry hholds hm hc hk hbudget e
  have hflag : (s.argument n.cell 1).toNat = 0 ∨
      ((s.argument n.cell 1).toNat = 1 ∧ (s.argument n.cell 2).toNat ≤ 7) :=
    hpersist.imp (fun h0 => congrArg BitVec.toNat h0) (And.imp_left fun h1 => congrArg BitVec.toNat h1)
  have hadmit : keyRequest n (s.gated n) = admitEntry n e (s.gated n) := by
    have hb := keyRequest_of_persist (u := s.gated n) (n := n) (r := _) (by
      rw [gated_argument, gated_argument]
      exact persistArg_some hflag)
    have hmember := (gated_session_member ho).trans hm
    rw [gated_supervisor, gated_entryOf, gated_holds, gated_argument _ _ _ 0, if_neg (by rw [hrunning]; decide),
      if_neg (not_not.mpr hunlocked), if_neg (by rw [hentry, hholds]; decide),
      keyEligibility_pass hmember hc ((gated_mayKey s n m c).2 hk) ((gated_hasBudget s n m).2 hbudget), hmember,
      channelArg_eq_some hc] at hb
    refine hb.trans ?_
    show admitEntry n { e with arrival := 0, priority := ((s.gated n).member m).entryPriority } _ = _
    rw [gated_member]
    rfl
  have hjoins : Joins e (s.gated n) (joinQueue e (s.gated n)) := joinQueue_spec e _
  have hnotifies : Floor.Notifies s.floor (joinQueue e (s.gated n)).floor := gated_floor s n ▸ joinQueue_notifies e (s.gated n)
  obtain ⟨front, back, -, hfloor, -, hanswer⟩ := queuedAnswer_of_joins hjoins rfl ((gated_entryOf s n n).trans hentry)
  have hbody : gate n (keyRequest n) s = (arbitrate (joinQueue e (s.gated n)), (joinQueue e (s.gated n)).queuedAnswer n) :=
    (gate_open ho).trans hadmit
  rw [hanswer, gated_floor] at hbody
  have hto := serve_filled (c := n.cell) (ps := .sessions :: arbitrationParts) hbody
    (OnlyChanges.trans (gated_frame s n).mono
      (OnlyChanges.trans (joinQueue_frame e _).mono (arbitrate_frame _).mono))
    (Stores.after (arbitrate_stores _) (Stores.after (joinQueue_stores e _) (gated_stores s n))) hs (show 2 ≤ 16 by decide)
  refine ⟨_, joinQueue e (s.gated n), front, back, congrArg Host.Outcome.next (sessionService_eq h), hjoins, ?_, hto,
    hto.newsOfMoved (.of_same rfl rfl) hnotifies (arbitrate_notifies _), hto.newsOfMoved hnotifies ?_ ?_⟩
  · rw [hfloor, gated_floor]
    rfl
  · rw [hto.kept .floor (by decide)]
    exact arbitrate_notifies _
  · rw [hto.kept .floor (by decide)]
    exact .of_same rfl rfl

/-! ## RELEASE (O30) -/

section release
variable {u : State} {n : Slot}

theorem releaseRequest_none (hg : u.grantOf n = none) : releaseRequest n u =
    if (u.entryOf n).isSome then (departEntry n .cancelled u, .plain .done)
    else if u.timedOutNow n then (u, .plain .already) else (u, .plain .notHolding) := by
  unfold releaseRequest
  rw [hg]
  rfl

theorem releaseRequest_some {g : Grant} (hg : u.grantOf n = some g) : releaseRequest n u =
    releaseGrant g (if u.argument n.cell 0 = 1 then some (u.argument n.cell 1) else none) u := by
  unfold releaseRequest
  rw [hg]
  rfl

theorem releaseGrant_preKey {g : Grant} (hair : g.state.onAir = false) (final : Option Word) :
    releaseGrant g final u = (preKeyEnd g .cancelled u, .plain .done) := by
  unfold releaseGrant
  cases hstate : g.state <;> rw [hstate] at hair <;> first | rfl | cases hair

theorem releaseGrant_keyed {g : Grant} (hstate : g.state = .keyed) (final : Option Word) :
    releaseGrant g final u = (beginDrain final g u, .plain .done) := by
  unfold releaseGrant
  rw [hstate]
  rfl

theorem releaseGrant_over {g : Grant} (hstate : g.state = .drain ∨ g.state = .tail) (final : Option Word) :
    releaseGrant g final u = (u, .plain .already) := by
  unfold releaseGrant
  rcases hstate with hstate | hstate <;> rw [hstate] <;> rfl

end release

/-- The drain that a RELEASE begins (R77, R78). -/
theorem beginDrain_spec (final : Option Word) (g : Grant) {s : State} (hs : s.memoryLaw) :
    let d : Grant := { g with state := .drain, finalCount := final, endReason := some (g.endReason.getD .released) }
    let u := s.withPlayout { s.playout with drainCount := 0 }
    if ∃ f, final = some f ∧ atOrBehind f s.playout.position = true then EntersTail false d u (beginDrain final g s)
    else beginDrain final g s = u.withGrant (some d) := by
  intro d u
  cases final with
  | none =>
    rw [if_neg (by simp)]
    rfl
  | some f =>
    by_cases hbehind : atOrBehind f s.playout.position = true
    · have htail : beginDrain (some f) g s = enterTail false d u := if_pos hbehind
      rw [if_pos ⟨f, rfl, hbehind⟩, htail]
      exact enterTail_spec false d u hs
    · have hdrain : beginDrain (some f) g s = u.withGrant (some d) := if_neg hbehind
      rw [if_neg (by simp [hbehind]), hdrain]

theorem quietAfter_congr {s u : State} (hf : u.floor = s.floor) (hp : u.params = s.params) (hi : u.ident = s.ident)
    (q : List Entry) : quietAfter u q = quietAfter s q := by
  unfold quietAfter
  rw [hf, hp, hi]

/-- Settles O30: the claim of the session in each of its states, in the state that the gate has left. -/
theorem releaseEndsTheClaimInEveryState : Obligations.ReleaseEndsTheClaimInEveryState := by
  intro s n hs ⟨h, ho⟩ final timedOutNow
  have hgate : gate n (releaseRequest n) s = releaseRequest n (s.gated n) := gate_open ho
  have hlaw := gated_law n hs
  have hnow : (s.gated n).timedOutNow n = true ↔ timedOutNow := by rw [gated_timedOutNow ho, timedOutNow_iff]
  have noGrant := fun hg => releaseRequest_none ((gated_grantOf s n n).trans hg)
  rw [gated_entryOf] at noGrant
  refine ⟨_, congrArg Host.Outcome.next (sessionService_eq h), fun hg hentry hnot => ?_, fun hg hentry htimed => ?_,
    fun hg hentry => ?_, fun g hg => ?_⟩
  · refine only_noted hs ho ((noGrant hg).trans ?_) (Nat.zero_le _)
    rw [if_neg (by rw [hentry]; decide), if_neg (mt hnow.1 hnot)]
  · refine only_noted hs ho ((noGrant hg).trans ?_) (Nat.zero_le _)
    rw [if_neg (by rw [hentry]; decide), if_pos (hnow.2 htimed)]
  · have hdeparts := departs n .cancelled (s.gated n) (by rw [gated_entryOf]; exact hentry)
    have hbody := hgate.trans ((noGrant hg).trans (if_pos hentry))
    have hf : OnlyChanges [.sessions, .floor, .ident] s (departEntry n .cancelled (s.gated n)) :=
      OnlyChanges.trans (gated_frame s n).mono (departEntry_frame n .cancelled _).mono
    obtain ⟨hframe, -, hrest⟩ := serve_filled (c := n.cell) (ps := [.sessions, .floor, .ident]) hbody hf
      (Stores.after (departEntry_stores _ _ _) (gated_stores s n)) hs
    obtain ⟨hfloor, hident, -⟩ := hdeparts
    rw [gated_floor] at hfloor
    rw [gated_frame s n .ident (by decide),
      quietAfter_congr (gated_floor s n) (gated_frame s n .params (by decide)) (gated_frame s n .ident (by decide)),
      State.queueWithout, gated_floor] at hident
    exact ⟨_, departs n .cancelled _ (by rw [gated_entryOf]; exact hentry), hfloor, by rw [hfloor]; rfl, hident, hframe,
      .of_mem (hf .mem (by decide)), hrest⟩
  · have hgrant := (gated_grantOf s n n).trans hg
    have hrelease := hgate.trans (releaseRequest_some hgrant)
    rw [gated_argument, gated_argument] at hrelease
    refine ⟨fun hair => ?_, fun hkeyed => ?_, fun hover => ?_⟩
    · obtain ⟨hends, hlog, hevents⟩ := preKeyEnd_spec g .cancelled (s.gated n) hlaw
      have hto := serve_filled (c := n.cell) (ps := .sessions :: endParts) (hrelease.trans (releaseGrant_preKey hair _))
        (OnlyChanges.trans (gated_frame s n).mono (preKeyEnd_frame g .cancelled _).mono)
        (Stores.after (preKeyEnd_stores g _ _) (gated_stores s n)) hs
      exact ⟨_, hends, hlog.trans (gated_log s n), hevents.trans (gated_frame s n .events (by decide)),
        hto.mono (fun _ h => h) fun _ h => .inr h⟩
    · have hdrain := beginDrain_spec final g hlaw
      rw [gated_frame s n .playout (by decide)] at hdrain
      exact ⟨_, serve_ends (c := n.cell) (hrelease.trans (releaseGrant_keyed hkeyed _))
        (OnlyChanges.trans (gated_frame s n).mono (beginDrain_frame final g _).mono)
        (Stores.after (.at (beginDrain_stores final g _) (gated_log s n)) (gated_stores s n)) hs, hdrain⟩
    · exact only_noted hs ho ((gate_open ho).symm.trans (hrelease.trans (releaseGrant_over hover _))) (Nat.zero_le _)

/-! ## PREEMPT (O31) -/

section preempt
variable {u : State} {n : Slot}

/-- PREEMPT of a control operator's session: the other checks in their order. -/
theorem preemptRequest_of_operator (h : u.isOperator n = true) (now : Bool) : preemptRequest now n u =
    if u.holds n = true then (u, .plain .already)
    else if u.supervisor.running = false then (u, .plain .stopped)
    else if u.supervisor.lockout ≠ none then (u, .plain .lockedOut)
    else
      match u.keyEligibility n (u.argument n.cell 0) with
      | .notPermitted => (u, .plain .notPermitted)
      | .noBudget => (u, .plain .noBudget)
      | .pass =>
        match (u.session n).member, channelArg (u.argument n.cell 0) with
        | some m, some c => admitEntry n (u.newEntry n m c none true) ((sendCause .preempted now u).removeEntry n)
        | _, _ => (u, .plain .notPermitted) := by
  unfold preemptRequest
  simp only [h, Bool.not_true, Bool.false_eq_true, if_false, Bool.not_eq_true', Option.isSome_iff_ne_none]
  rfl

end preempt

/-- An admitted PREEMPT: the cause sent to the grant, the session's own entry gone, and the marked entry at the very front. -/
theorem preempt_admitted {s : State} {n : Slot} (now : Bool) (hs : s.memoryLaw) (ho : (s.session n).state = .opened) {e : Entry}
    (hmarked : e.marked = true) (hsession : e.session = n) (harrival : e.arrival = s.floor.arrival + 1)
    (hb : preemptRequest now n (s.gated n) =
      admitEntry n e ((sendCause .preempted now (s.gated n)).removeEntry n)) :
    let t := event (serve n.cell (gate n (preemptRequest now n))) s
    ∃ i j, EndsGrantBy .preempted now (s.gated n) i ∧ OnlyChanges [.floor, .ident] i j ∧
      j.ident = { i.ident with quiet := .stopped } ∧
      j.floor = { (s.floor.without n).withQueue (e :: s.queueWithout n) with arrival := s.floor.arrival + 1 } ∧
      ServesTo n.cell { code := .queued, clamped := false, words := [1, s.floor.arrival + 1] } closeParts (endStores s) s
        (arbitrate j) t ∧
      NewsOfMoved s.floor (s.floor.without n) s t ∧ NewsOfMoved (s.floor.without n) j.floor s t ∧
      NewsOfMoved j.floor t.floor s t := by
  obtain ⟨i, hi⟩ : ∃ i, i = sendCause .preempted now (s.gated n) := ⟨_, rfl⟩
  have hsent : OnlyChanges endParts (s.gated n) i := hi ▸ sendCause_frame _ _ _
  have hends : EndsGrantBy .preempted now (s.gated n) i := hi ▸ sendCause_spec _ _ _ (gated_law n hs) rfl
  have hstores : Stores (logPlace s.log) (s.gated n) i := hi ▸ .at (sendCause_stores _ _ _) (gated_log s n)
  rw [← hi] at hb
  have hifloor : i.floor = s.floor := (hsent .floor (by decide)).trans (gated_floor s n)
  obtain ⟨hwfloor, hwident⟩ := removeEntry_spec i n
  rw [hifloor] at hwfloor
  have hentry : (i.removeEntry n).entryOf n = none := by
    unfold State.entryOf
    rw [hwfloor]
    exact List.find?_eq_none.2 fun x hx => by simpa using (List.mem_filter.1 hx).2
  have hjoins : Joins e (i.removeEntry n) (joinQueue e (i.removeEntry n)) := joinQueue_spec e _
  obtain ⟨front, back, hsplit, hfloor, hfront, hanswer⟩ := queuedAnswer_of_joins hjoins hsession hentry
  obtain ⟨-, hident, hjframe⟩ := hjoins
  obtain rfl := hfront hmarked
  have hself : ({ e with arrival := s.floor.arrival + 1 } : Entry) = e := by rw [← harrival]
  have hfloor' : (joinQueue e (i.removeEntry n)).floor =
      { (s.floor.without n).withQueue (e :: s.queueWithout n) with arrival := s.floor.arrival + 1 } := by
    have hback : back = s.queueWithout n := by
      rw [hwfloor] at hsplit
      exact hsplit.symm
    rw [hfloor, hwfloor, hback]
    show ({ (s.floor.without n).withQueue ({ e with arrival := s.floor.arrival + 1 } :: s.queueWithout n) with
      arrival := s.floor.arrival + 1 } : Floor) = _
    rw [hself]
  have hbody : gate n (preemptRequest now n) s = (arbitrate (joinQueue e (i.removeEntry n)),
      { code := .queued, clamped := false, words := [1, s.floor.arrival + 1] }) := by
    refine (gate_open ho).trans (hb.trans ?_)
    show (_, (joinQueue e (i.removeEntry n)).queuedAnswer n) = _
    rw [hanswer, hwfloor]
    rfl
  have hto := serve_ends (c := n.cell) (ps := closeParts) hbody
    (OnlyChanges.trans (gated_frame s n).mono (OnlyChanges.trans hsent.mono (OnlyChanges.trans (removeEntry_frame i n).mono
      (OnlyChanges.trans hjframe.mono (arbitrate_frame _).mono))))
    (Stores.after (arbitrate_stores _) (Stores.after (joinQueue_stores e _) (Stores.after (removeEntry_stores i n)
      (Stores.after hstores (gated_stores s n))))) hs (show 2 ≤ 16 by decide)
  have hremoved : Floor.Notifies s.floor (s.floor.without n) := s.floor.notifies_without n
  have hjoined : Floor.Notifies (s.floor.without n) (joinQueue e (i.removeEntry n)).floor :=
    hwfloor ▸ joinQueue_notifies e (i.removeEntry n)
  have harbitrated := arbitrate_notifies (joinQueue e (i.removeEntry n))
  have htfloor := hto.kept .floor (by decide)
  refine ⟨i, joinQueue e (i.removeEntry n), hends, OnlyChanges.trans (removeEntry_frame i n) hjframe, ?_, hfloor', hto,
    hto.newsOfMoved (.of_same rfl rfl) hremoved (hjoined.trans harbitrated), hto.newsOfMoved hremoved hjoined harbitrated,
    hto.newsOfMoved (hremoved.trans hjoined) ?_ ?_⟩
  · rw [hident, hwident]
    split <;> rfl
  · rw [htfloor]
    exact harbitrated
  · rw [htfloor]
    exact .of_same rfl rfl

/-- Settles O31. -/
theorem preemptEndsTheGrantAndTakesTheFront : Obligations.PreemptEndsTheGrantAndTakesTheFront := by
  intro s n now hs ⟨h, ho⟩ hop mayKey budget
  have refused : ∀ {a : AnswerCode}, preemptRequest now n (s.gated n) = (s.gated n, .plain a) →
      OnlyNotedAndAnswers n (.plain a) s (event (serve n.cell (gate n (preemptRequest now n))) s) :=
    fun hb => only_noted hs ho hb (Nat.zero_le _)
  have hb := preemptRequest_of_operator (u := s.gated n) (n := n) (by rw [gated_operator]; exact isOperator_iff.2 hop) now
  rw [gated_supervisor, gated_holds, gated_argument] at hb
  refine ⟨_, congrArg Host.Outcome.next (sessionService_eq h), fun hholds => refused (hb.trans (if_pos hholds)),
    fun hholds hstopped => ?_, fun hholds hrunning hlocked => ?_, fun hholds hrunning hunlocked => ?_⟩
  all_goals rw [if_neg (by rw [hholds]; decide)] at hb
  · exact refused (hb.trans (if_pos hstopped))
  all_goals rw [if_neg (by rw [hrunning]; decide)] at hb
  · exact refused (hb.trans (if_pos hlocked))
  rw [if_neg (not_not.mpr hunlocked)] at hb
  refine ⟨fun hmay => refused (hb.trans ?_), fun hmay hbudget => refused (hb.trans ?_), fun m c hm hc hk hbudget => ?_⟩
  · rw [keyEligibility_notPermitted (mt (gated_mayKeyArg ho).1 hmay)]
  · rw [keyEligibility_noBudget ((gated_mayKeyArg ho).2 hmay) (mt (gated_hasBudgetArg ho).1 hbudget)]
  · have hmember := (gated_session_member ho).trans hm
    rw [keyEligibility_pass hmember hc ((gated_mayKey s n m c).2 hk) ((gated_hasBudget s n m).2 hbudget), hmember,
      channelArg_eq_some hc] at hb
    exact preempt_admitted (e := ⟨n, m, c, 3, s.floor.arrival + 1, none, true⟩) now hs ho rfl rfl rfl hb

end Sys2Proof.Machine
end

section
/-! DETECTOR HOLD and RELEASE (O32), and the Supervisor's inputs: TXFAULT with its qualification (O33, O34) and DISABLE (O35). -/

set_option Elab.async false

namespace Sys2Proof.Machine

/-! ## DETECTOR HOLD and DETECTOR RELEASE (O32) -/

theorem withHolds_mem (s : State) (x : HoldSources) : (s.withHolds x).mem = s.mem := rfl

theorem detectorHold_served {s : State} (hs : s.memoryLaw) (hheld : s.detector.holds.request = false) :
    let d := s.detector
    let raw := s.params.cosUse && d.cos
    let count := d.run.getD 0
    let flips := raw != d.debounced && decide (8 * s.params.debounce ≤ count)
    let d' : Detector :=
      { speech := 0, noise := 0, levelS := 0, levelN := 0, s0 := false, s1 := false, s2 := false, previousS1 := false,
        cos := d.cos, rawBusy := raw, debounced := if flips then raw else d.debounced,
        run := if raw = d.debounced ∨ flips then none else some count, holds := { d.holds with request := true } }
    ∃ w v, w.detector = d' ∧ OnlyChanges [.detector, .events] s w ∧
      w.bus.events = s.bus.events ||| (if d.s0 ∨ d.s1 ∨ d.s2 then bitWord 7 else 0) ||| (if flips then bitWord 6 else 0) ∧
      (if flips then MeetsBusyChange w v else v = w) ∧
      ServesTo 0 (.plain .done) courseParts (inFilled s) s v (event (serve 0 detectorHoldRequest) s) := by
  intro d raw count flips d'
  have hrestart : d.restart s.params = d' := restart_eq d s.params
  obtain ⟨w, hw, hframe, hevents, hmeets⟩ := reportDetector_spec (d.restart s.params) s hs
  have hbody : detectorHoldRequest s = (reportDetector (d.restart s.params) s, .plain .done) :=
    if_neg (by rw [hheld]; decide)
  have hto := serve_filled (c := 0) (ps := courseParts) hbody (reportDetector_frame _ s) (reportDetector_stores _ s) hs
  have hstands : d'.debounced = s.detector.debounced ↔ flips = false := by
    have hmoves : ∀ b c m : Bool, (if (b != c && m) = true then b else c) = c ↔ (b != c && m) = false := by decide
    exact hmoves raw d.debounced _
  have hlowered : (d'.s0 ≠ d.s0 ∨ d'.s1 ≠ d.s1 ∨ d'.s2 ≠ d.s2) ↔ (d.s0 ∨ d.s1 ∨ d.s2) := by
    have hlower : ∀ a b c : Bool, (false ≠ a ∨ false ≠ b ∨ false ≠ c) ↔ (a ∨ b ∨ c) := by decide
    exact hlower d.s0 d.s1 d.s2
  rw [hrestart] at hw hevents hmeets hto
  refine ⟨w, reportDetector d' s, hw, hframe, ?_, ?_, hto⟩
  · rw [hevents, if_congr hlowered rfl rfl, if_congr hstands rfl rfl]
    cases flips <;> rfl
  · rw [if_congr hstands rfl rfl] at hmeets
    cases hflips : flips with
    | false =>
      rw [if_pos hflips] at hmeets
      exact hmeets
    | true =>
      rw [if_neg (by rw [hflips]; decide)] at hmeets
      exact hmeets

/-- Settles O32. -/
theorem detectorHoldAndReleaseMoveTheRequestSource : Obligations.DetectorHoldAndReleaseMoveTheRequestSource := by
  refine ⟨fun s hs h => ⟨_, congrArg Host.Outcome.next (stationService_eq h), ?_⟩,
    fun s hs h => ⟨_, congrArg Host.Outcome.next (stationService_eq h), ?_⟩⟩
  · cases hheld : s.detector.holds.request with
    | true => exact only_answers hs (if_pos hheld) (Nat.zero_le _)
    | false => exact detectorHold_served hs hheld
  · cases hheld : s.detector.holds.request with
    | false => exact only_answers hs (if_neg (by rw [hheld]; decide)) (Nat.zero_le _)
    | true =>
      obtain ⟨hserved, hframe, hkept, hevents⟩ := served_silent (c := 0) (body := detectorReleaseRequest) (s := s)
        (ps := [.detector]) (if_pos hheld) (withHolds_frame (by decide)) rfl hs
      exact ⟨hkept .detector (by decide), hserved, hframe, hevents⟩

/-! ## Events that change no field of a status record -/

/-- What the publication leaves as the event's own effect made it. -/
theorem EventTo.kept {ps : List Part} {P : Nat → Prop} {u v t : State} (h : EventTo ps P u v t) : OnlyChanges recordParts v t := by
  obtain ⟨-, -, hkept, -⟩ := h
  exact hkept

section events
variable {s : State}

theorem event_supervisor {f : State → State} {x : Supervisor} (h : f s = s.withSupervisor x) :
    event f s = s.withSupervisor x := by
  rw [event_unchanged (ps := [.supervisor]) (by rw [h]; exact withSupervisor_frame), h]

theorem event_same {f : State → State} (h : f s = s) : event f s = s := by
  rw [event_unchanged (ps := []) (by rw [h]; exact .refl _ _), h]

end events

/-! ## TXFAULT (O33) -/

/-- The Supervisor's figures that no fault touches. -/
def Supervisor.untouched (v : Supervisor) : Bool × DisableState × Bool := (v.running, v.disable, v.txfaultActive)

theorem qualifiedFault_form (now : Bool) (s : State) : ∃ u : State, ∃ locks : Bool,
    qualifiedFault now s = (if locks then enterLockout .faults u else u) ∧
    u.supervisor.untouched = (sendCause .fault now
      (s.withSupervisor { s.supervisor with qualification := none, qualifiedThisKeying := true })).supervisor.untouched := by
  unfold qualifiedFault
  extract_lets v t t1 history v1 t2 t3
  exact ⟨t3, decide (t3.params.lockoutCount ≤ history.length), by simp only [decide_eq_true_eq], rfl⟩

theorem qualifiedFault_untouched (now : Bool) (s : State) (hs : s.memoryLaw) :
    (qualifiedFault now s).supervisor.untouched = s.supervisor.untouched := by
  obtain ⟨u, locks, hform, hu⟩ := qualifiedFault_form now s
  have hsent := congrArg Supervisor.untouched (sendCause_standing .fault now
    (s.withSupervisor { s.supervisor with qualification := none, qualifiedThisKeying := true }) hs rfl)
  have hlocked := congrArg Supervisor.untouched (enterLockout_standing .faults u)
  rw [hform]
  cases locks with
  | false => exact hu.trans hsent
  | true => exact Eq.trans hlocked (hu.trans hsent)

/-- The state in which a new TXFAULT level has been judged, and nothing else has happened. -/
def State.faultJudged (s : State) (high : Bool) : State :=
  { s with
    txfaultPin := high
    supervisor := { s.supervisor with txfaultActive := high != s.params.txfaultLowActive } }

section txfault
variable {s : State} {high : Bool}

/-- What follows from TXFAULT judged anew (R142, R143). -/
theorem judgeTxfault_changed (now : Bool) : judgeTxfault now { s with txfaultPin := high } =
    let judged := s.faultJudged high
    if (high != s.params.txfaultLowActive) = false then
      judged.withSupervisor { s.supervisor with txfaultActive := false, qualification := none }
    else if (s.key.ptt && !s.supervisor.qualifiedThisKeying && s.supervisor.qualification.isNone) = true then
      if s.params.faultQualify = 0 then qualifiedFault now judged
      else judged.withSupervisor { s.supervisor with
        txfaultActive := true, qualification := some { since := s.clock, left := 8 * s.params.faultQualify } }
    else judged := by
  unfold judgeTxfault
  have hjudged : ({ s with txfaultPin := high } : State).txfaultJudged = (high != s.params.txfaultLowActive) := rfl
  unfold State.faultJudged
  cases hactive : high != s.params.txfaultLowActive with
  | false =>
    simp only [hjudged, hactive]
    rfl
  | true =>
    simp only [hjudged, hactive]
    rfl

theorem changeTxfault_clearing (now : Bool) (hc : s.phase = .clearing) :
    changeTxfault high now s = judgeTxfault now { s with txfaultPin := high } := by
  unfold changeTxfault
  rw [hc]

theorem changeTxfault_ready (now : Bool) (hr : s.ready = true) :
    changeTxfault high now s = event (judgeTxfault now) { s with txfaultPin := high } := by
  unfold changeTxfault
  rw [(ready_iff s).1 hr]

end txfault

/-- Settles O33. -/
theorem txfaultChangeIsJudgedAndQualifies : Obligations.TxfaultChangeIsJudgedAndQualifies := by
  intro s high now hs active begins judged
  have hjudge := judgeTxfault_changed (s := s) (high := high) now
  have hbegan : begins = true → (high != s.params.txfaultLowActive) = true ∧
      (s.key.ptt && !s.supervisor.qualifiedThisKeying && s.supervisor.qualification.isNone) = true := fun h => by
    simp only [begins, active, Bool.and_eq_true] at h ⊢
    exact ⟨h.1.1.1, ⟨h.1.1.2, h.1.2⟩, h.2⟩
  refine ⟨fun hheld => ?_, fun hclearing hptt hnone => ?_, fun hr hno => ?_, fun hr hbegins hqualify => ?_,
    fun hr hbegins hqualify => ?_⟩
  · exact congrArg Host.Outcome.next (show changeTxfault high now s = _ by unfold changeTxfault; rw [hheld])
  · refine congrArg Host.Outcome.next ((changeTxfault_clearing now hclearing).trans ?_)
    cases hactive : high != s.params.txfaultLowActive with
    | false =>
      have hsame : ({ s.supervisor with txfaultActive := false, qualification := none } : Supervisor) = judged.supervisor := by
        show _ = ({ s.supervisor with txfaultActive := high != s.params.txfaultLowActive } : Supervisor)
        rw [hactive, ← hnone]
      exact (hjudge.trans (if_pos hactive)).trans (congrArg judged.withSupervisor hsame)
    | true => exact hjudge.trans ((if_neg (by rw [hactive]; decide)).trans (if_neg (by simp [hptt])))
  · refine congrArg Host.Outcome.next ((changeTxfault_ready now hr).trans ?_)
    cases hactive : high != s.params.txfaultLowActive with
    | false =>
      rw [if_neg (show ¬ active = true from by simp [active, hactive])]
      exact event_supervisor (hjudge.trans (if_pos hactive))
    | true =>
      have hnot : ¬ (s.key.ptt && !s.supervisor.qualifiedThisKeying && s.supervisor.qualification.isNone) = true := fun h => by
        have hbegins : begins = true := by
          simp only [begins, active, hactive, Bool.true_and]
          exact h
        exact absurd (hno.symm.trans hbegins) (by decide)
      rw [if_pos (show active = true from hactive)]
      exact event_supervisor (x := judged.supervisor)
        (hjudge.trans ((if_neg (by rw [hactive]; decide)).trans (if_neg hnot)))
  · refine congrArg Host.Outcome.next ((changeTxfault_ready now hr).trans ?_)
    obtain ⟨hactive, hqualifies⟩ := hbegan hbegins
    exact event_supervisor (hjudge.trans
      ((if_neg (by rw [hactive]; decide)).trans ((if_pos hqualifies).trans (if_neg hqualify))))
  · obtain ⟨hactive, hqualifies⟩ := hbegan hbegins
    have hfault : judgeTxfault now { s with txfaultPin := high } = qualifiedFault now judged :=
      hjudge.trans ((if_neg (by rw [hactive]; decide)).trans ((if_pos hqualifies).trans (if_pos hqualify)))
    have huntouched := qualifiedFault_untouched now judged hs
    have hevent : event (judgeTxfault now) { s with txfaultPin := high } = event (qualifiedFault now) judged := by
      unfold event
      rw [hfault]
      rfl
    exact ⟨_, qualifiedFault now judged, congrArg Host.Outcome.next ((changeTxfault_ready now hr).trans hevent),
      qualifiedFault_spec now _ hs, (congrArg (fun x : Bool × DisableState × Bool => x.2.2) huntouched).trans hactive,
      event_to (qualifiedFault_frame now _) (.at (qualifiedFault_stores now _) rfl) hs⟩

/-! ## A qualification that runs out (O34) -/

/-- Settles O34. -/
theorem qualificationExpiryIsAQualifiedFault : Obligations.QualificationExpiryIsAQualifiedFault := by
  intro s n now hs hnext
  have huntouched := qualifiedFault_untouched now (s.passTime n) (passTime_law hs)
  exact ⟨_, qualifiedFault now (s.passTime n), congrArg Host.Outcome.next (timed_next hnext),
    qualifiedFault_spec now _ (passTime_law hs), (congrArg Prod.fst huntouched :),
    (congrArg (fun x : Bool × DisableState × Bool => x.2.1) huntouched :),
    moment_ends hs (qualifiedFault_frame now _) (.at (qualifiedFault_stores now _) rfl)⟩

/-! ## DISABLE (O35) -/

section disable
variable {s : State}

theorem assertDisable_asserted (h : s.supervisor.disable = .asserted) (now : Bool) : assertDisable now s = s := by
  unfold assertDisable
  rw [h]

theorem assertDisable_releasing (h : s.supervisor.disable = .releasing) (now : Bool) :
    assertDisable now s = s.withSupervisor { s.supervisor with disable := .asserted, releaseTimer := none } := by
  unfold assertDisable
  rw [h]

theorem assertDisable_released (h : s.supervisor.disable = .released) (now : Bool) : assertDisable now s =
    sendCause .disabled now
      ((s.withSupervisor { s.supervisor with disable := .asserted }).raise .disableChange).dropPtt := by
  unfold assertDisable
  rw [h]

theorem beginDisableRelease_asserted (h : s.supervisor.disable = .asserted) : beginDisableRelease s =
    s.withSupervisor { s.supervisor with disable := .releasing, releaseTimer := some 800 } := by
  unfold beginDisableRelease
  rw [h]
  rfl

theorem beginDisableRelease_other (h : s.supervisor.disable ≠ .asserted) : beginDisableRelease s = s := by
  unfold beginDisableRelease
  cases hd : s.supervisor.disable with
  | asserted => exact absurd hd h
  | released => rfl
  | releasing => rfl

theorem whenReady_not {f : State → State} (hr : s.ready = false) : whenReady f s = s := by
  unfold whenReady
  rw [hr]
  rfl

end disable

theorem raise_getLsbD (s : State) (e : EventBit) : (s.raise e).bus.events.getLsbD e.index = true := by
  rw [State.raise_bus, BitVec.getLsbD_or]
  cases e <;> simp [bitWord, EventBit.index]

/-- The end of a grant lowers no EVENTS bit. -/
theorem EndsGrantBy.keeps_event {r : EndReason} {now : Bool} {u v : State} {k : Nat} (h : EndsGrantBy r now u v)
    (hk : u.bus.events.getLsbD k = true) : v.bus.events.getLsbD k = true := by
  have hunkey : ∀ {g : Grant}, Unkeys g u v → v.bus.events.getLsbD k = true := fun h => by
    rw [h.events, BitVec.getLsbD_or, BitVec.getLsbD_or, BitVec.getLsbD_or, hk]
    rfl
  unfold EndsGrantBy at h
  split at h
  · exact h ▸ hk
  · next g _ =>
    obtain ⟨hends, -⟩ := h
    unfold EndsAbruptly at hends
    cases hstate : g.state <;> simp only [hstate] at hends
    case keyed | idSending | drain | tail => exact hunkey hends
    all_goals
      obtain ⟨-, -, hevents⟩ := hends
      exact hevents ▸ hk
  · exact h ▸ hk

/-! ## An arbitration lowers no EVENTS bit -/

/-- Every EVENTS bit that is set before is set after. -/
def EventsKept (s t : State) : Prop := ∀ k, s.bus.events.getLsbD k = true → t.bus.events.getLsbD k = true

namespace EventsKept
variable {s t u : State}

theorem refl (s : State) : EventsKept s s := fun _ h => h

theorem after (h2 : EventsKept t u) (h1 : EventsKept s t) : EventsKept s u := fun k h => h2 k (h1 k h)

theorem ite {c : Prop} [Decidable c] (h1 : EventsKept s t) (h2 : EventsKept s u) : EventsKept s (if c then t else u) := by
  split <;> assumption

theorem of_frame {ps : List Part} (h : OnlyChanges ps s t) (hd : Part.events ∉ ps := by decide) : EventsKept s t := fun k hk => by
  rw [h .events hd]
  exact hk

theorem raise (s : State) (e : EventBit) : EventsKept s (s.raise e) := fun k hk => by
  rw [State.raise_bus, BitVec.getLsbD_or, hk, Bool.true_or]

theorem withGrant (s : State) (g : Option Grant) : EventsKept s (s.withGrant g) :=
  of_frame (ps := [.key]) withGrant_frame

theorem withHolds (s : State) (h : HoldSources) : EventsKept s (s.withHolds h) :=
  of_frame (ps := [.detector]) (withHolds_frame (by decide))

theorem reserve (s : State) : EventsKept s s.reserve.1 := by
  have hmark : EventsKept s s.judgeMark :=
    ite (of_frame (ps := [.log]) withLog_frame) (after (raise _ _) (of_frame (ps := [.log]) withLog_frame))
  unfold State.reserve
  dsimp only
  split
  · exact after (of_frame (ps := [.log]) withLog_frame) hmark
  · exact after (raise _ _) hmark

theorem keyUpSucceeds (g : Grant) (s : State) : EventsKept s (keyUpSucceeds g s) := by
  unfold Machine.keyUpSucceeds
  extract_lets g' t
  have ht : EventsKept s t :=
    after (raise _ _) (after (withHolds _ _) (after (of_frame (ps := [.key]) withKey_frame) (withGrant _ _)))
  split
  · exact after (of_frame (memberKeyUp_frame _ _)) ht
  · exact ht

theorem keyUp (g : Grant) (s : State) : EventsKept s (keyUp g s) :=
  ite (withGrant _ _) <| ite (of_frame (preKeyEnd_frame _ _ _)) <|
    ite (after (keyUpSucceeds _ _) (reserve s)) (after (of_frame (preKeyEnd_frame _ _ _)) (reserve s))

theorem enterPrebuffer (g : Grant) (s : State) : EventsKept s (enterPrebuffer g s) := ite (keyUp _ _) (withGrant _ _)

theorem leaveGap2 (g : Grant) (s : State) : EventsKept s (leaveGap2 g s) := by
  unfold Machine.leaveGap2
  dsimp only
  split
  · exact enterPrebuffer _ _
  · exact keyUp _ _

theorem enterGap1 (g : Grant) (s : State) : EventsKept s (enterGap1 g s) :=
  ite (ite (leaveGap2 _ _) (withGrant _ _)) (withGrant _ _)

theorem enterWaitClear (g : Grant) (s : State) : EventsKept s (enterWaitClear g s) := by
  have hover : ∀ g : Grant, EventsKept s (busyWaitOver g s) := fun g => by
    unfold busyWaitOver
    split
    · exact of_frame (preKeyEnd_frame _ _ _)
    · exact after (enterGap1 _ _) (of_frame (ps := [.ident]) withIdent_frame)
  exact ite (enterGap1 _ _) (ite (hover _) (withGrant _ _))

theorem enterChangeover (g : Grant) (s : State) : EventsKept s (enterChangeover g s) := by
  have hleave : ∀ (g : Grant) (u : State), EventsKept u (leaveChangeover g u) := fun g u =>
    ite (after (enterWaitClear _ _) (withHolds _ _)) (after (enterPrebuffer _ _) (withHolds _ _))
  have hheld : ∀ k h, EventsKept s ((s.withKey k).withHolds h) := fun k h =>
    after (withHolds _ _) (of_frame (ps := [.key]) withKey_frame)
  exact ite (after (hleave _ _) (hheld _ _)) (after (withGrant _ _) (hheld _ _))

theorem takeMemberGrant (tag : Word) (n : Slot) (m : MemberIx) (c : ChannelIx) (s : State) :
    EventsKept s (takeMemberGrant tag n m c s) := by
  unfold Machine.takeMemberGrant
  extract_lets g0 g k t t1
  have ht : EventsKept s t1 := after (of_frame (startSweep_frame _ _)) (of_frame (ps := [.key]) withKey_frame)
  exact ite (after (enterChangeover _ _) ht) (ite (after (enterWaitClear _ _) ht) (after (enterPrebuffer _ _) ht))

theorem grantIdent (s : State) : EventsKept s (grantIdent s).1 := by
  unfold Machine.grantIdent
  split
  · exact refl s
  · have hswept : ∀ tag, EventsKept s (s.openGrant.startSweep tag) := fun tag =>
      after (of_frame (startSweep_frame _ _)) (of_frame (openGrant_frame s))
    exact ite (after (enterWaitClear _ _) (hswept _)) (after (keyUp _ _) (hswept _))

theorem tryEntries (skip : State → Entry → Bool) (l : List Entry) : ∀ s, EventsKept s (tryEntries skip l s).1 := by
  have hgrant : ∀ (e : Entry) (s : State), EventsKept s (grantEntry e s) := fun e s =>
    after (takeMemberGrant _ _ _ _ _) (after (of_frame (ps := [.floor]) withFloor_frame) (of_frame (openGrant_frame s)))
  induction l with
  | nil => exact refl
  | cons e rest ih =>
    intro s
    unfold Machine.tryEntries
    split
    · exact ih s
    · split
      · exact hgrant e s
      · exact after (ih _) (of_frame (departEntry_frame _ _ _))
      · exact after (ih _) (of_frame (departEntry_frame _ _ _))

theorem arbitrate (s : State) : EventsKept s (arbitrate s) := by
  have hident : ∀ u, EventsKept u (tryIdent u).1 := fun u => by
    unfold tryIdent
    split
    · exact grantIdent u
    · exact refl u
  have hunmarked : ∀ u, EventsKept u (tryUnmarked u).1 := fun u => by
    unfold tryUnmarked
    split
    · exact tryEntries _ _ u
    · exact refl u
  unfold Machine.arbitrate
  extract_lets a b
  have ha : EventsKept s a.1 := tryEntries _ _ s
  have hb : EventsKept s b.1 := after (hident _) ha
  exact ite (refl s) (ite ha (ite hb (after (hunmarked _) hb)))

end EventsKept

/-- DISABLE going active in RELEASED (R146). -/
theorem assertDisable_spec (now : Bool) {u : State} (hs : u.memoryLaw) (h : u.supervisor.disable = .released) :
    let v := assertDisable now u
    v.supervisor.standing = { u.supervisor.standing with disable := .asserted } ∧ v.key.ptt = false ∧
      v.bus.events.getLsbD 5 = true ∧
      EndsGrantBy .disabled now
        ((u.withSupervisor { u.supervisor with disable := .asserted }).raise .disableChange).pttReleased v := by
  intro v
  obtain ⟨w, hw⟩ : ∃ w, w = ((u.withSupervisor { u.supervisor with disable := .asserted }).raise .disableChange).dropPtt :=
    ⟨_, rfl⟩
  have hlaw : w.memoryLaw := hw ▸ (dropPtt_stores (P := noWord) _).law hs
  have hv : v = sendCause .disabled now w := by rw [hw]; exact assertDisable_released h now
  obtain ⟨hptt, -⟩ := sendCause_supervisor .disabled now w hlaw rfl
  refine ⟨?_, ?_, ?_, ?_⟩
  · rw [hv, sendCause_standing .disabled now w hlaw rfl, hw, dropPtt_standing]
    rfl
  · rw [hv]
    exact hptt (by rw [hw]; exact dropPtt_ptt _)
  · rw [hv]
    refine EndsGrantBy.keeps_event (sendCause_spec .disabled now w hlaw rfl) ?_
    obtain ⟨-, -, hevents⟩ := dropPtt_spec ((u.withSupervisor { u.supervisor with disable := .asserted }).raise .disableChange)
    have hraised := raise_getLsbD (u.withSupervisor { u.supervisor with disable := .asserted }) .disableChange
    rw [hw, hevents, BitVec.getLsbD_or]
    exact Bool.or_eq_true_iff.mpr (.inl hraised)
  · rw [hv, ← dropPtt_eq, ← hw]
    exact sendCause_spec _ _ _ hlaw rfl

/-- Settles O35. -/
theorem disableStopsAndReleasesTheTransmitter : Obligations.DisableStopsAndReleasesTheTransmitter := by
  refine ⟨fun s now hs => ?_, fun s => ?_, fun s n hs hnext => ?_⟩
  · intro u
    refine ⟨fun hidle => ?_, fun hr hd => ?_, fun hr hd => ?_⟩
    · refine congrArg Host.Outcome.next ?_
      cases hr : s.ready with
      | false => exact whenReady_not (s := u) hr
      | true =>
        rw [whenReady_next (s := u) hr]
        exact event_same (assertDisable_asserted (s := u) (hidle.resolve_left (by rw [hr]; decide)) now)
    · exact congrArg Host.Outcome.next ((whenReady_next (s := u) hr).trans
        (event_supervisor (assertDisable_releasing (s := u) hd now)))
    · obtain ⟨hstand, hptt, hevent, hends⟩ := assertDisable_spec now (u := u) hs hd
      exact ⟨_, assertDisable now u, congrArg Host.Outcome.next (whenReady_next (s := u) hr),
        (congrArg Supervisor.disable hstand :), hptt, hevent, hends, (congrArg Supervisor.running hstand :),
        (congrArg Supervisor.lockout hstand :), (congrArg Supervisor.history hstand :),
        event_to (assertDisable_frame now u) (assertDisable_stores now u) hs⟩
  · intro u
    refine ⟨fun hidle => ?_, fun hr hd => ?_⟩
    · refine congrArg Host.Outcome.next ?_
      cases hr : s.ready with
      | false => exact whenReady_not (s := u) hr
      | true =>
        rw [whenReady_next (s := u) hr]
        exact event_same (beginDisableRelease_other (s := u) (hidle.resolve_left (by rw [hr]; decide)))
    · exact congrArg Host.Outcome.next ((whenReady_next (s := u) hr).trans
        (event_supervisor (beginDisableRelease_asserted (s := u) hd)))
  · intro u w
    have hto := moment_to hs (completeDisableRelease_frame u) (completeDisableRelease_stores u)
    refine ⟨_, congrArg Host.Outcome.next (timed_next hnext), ?_, ?_, hto⟩
    · exact (hto.kept .supervisor (by decide)).trans (arbitrate_frame w .supervisor (by decide))
    · rw [hto.kept .events (by decide)]
      exact EventsKept.arbitrate w 5 (raise_getLsbD _ .disableChange)

end Sys2Proof.Machine
end

section
/-! The samples and the status page (O36–O38), an arbitration (O39), and the course of a grant up to its key-up (O40–O42). -/

set_option Elab.async false

namespace Sys2Proof.Machine

/-! ## The status page (O38) -/

theorem flagsWord_six (a b c d e f : Bool) : flagsWord [a, b, c, d, e, f] =
    word (a.toNat + 2 * b.toNat + 4 * c.toNat + 8 * d.toNat + 16 * e.toNat + 32 * f.toNat) := by
  rw [flagsWord_eq]
  exact congrArg word (by simp only [flagsValue]; omega)

/-- The words of the page after any passing of time, by the blocks that own them (11.4, 11.5). -/
theorem pageFields_passTime (s : State) (n : Nat) : (s.passTime n).pageFields =
    let g := s.key.grant
    let d := s.detector
    [1, word s.supervisor.running.toNat,
      (match s.supervisor.lockout with | none => 0 | some .faults => 1 | some .killed => 2),
      (match s.supervisor.disable with | .released => 0 | .asserted => 1 | .releasing => 2),
      word s.floor.hold.toNat, (match g with | none => 0 | some g => word g.state.code),
      (match g with | none => 0 | some g => g.tag), slotWord (g.bind (·.session)), memberWord (g.bind (·.member)),
      (match g with | none => 0xFFFF | some g => word g.channel.val), word s.floor.queue.length,
      word (s.ident.owed.toNat + 2 * s.ident.due.toNat), word d.levelS, word d.levelN,
      word (d.s0.toNat + 2 * d.s1.toNat + 4 * d.s2.toNat + 8 * d.rawBusy.toNat + 16 * d.debounced.toNat + 32 * d.cos.toNat),
      word s.playout.released, word s.playout.discarded, word s.playout.slip, word s.receive.overflow,
      word s.ident.forcedCount, word s.supervisor.faultCount, word s.cells.attentionHeld, word s.log.markInvalid,
      word s.bus.writeToReadOnly, s.log.next, word s.log.reserved.toNat, s.log.next - s.log.lastMark, s.log.lastMark,
      (s.passTime n).clock.extractLsb' 0 16, (s.passTime n).clock.extractLsb' 16 16] := by
  have hunread : ∀ l : StationLog, word l.unread = l.next - l.lastMark := fun l =>
    (BitVec.ofNat_toNat 16 (l.next - l.lastMark)).trans (BitVec.setWidth_eq _)
  have hlockout : ∀ r : Option LockoutReason, word (lockoutCode r) =
      (match r with | none => 0 | some .faults => 1 | some .killed => 2) := by
    rintro (_ | _ | _) <;> rfl
  have hdisable : ∀ d : DisableState, word d.code = (match d with | .released => 0 | .asserted => 1 | .releasing => 2) := by
    rintro (_ | _ | _) <;> rfl
  have hgrant : (s.passTime n).key.grant = s.key.grant.map (·.passTime n) := rfl
  have hcode : word (((s.passTime n).key.grant.map (·.state.code)).getD 0) =
      (match s.key.grant with | none => 0 | some g => word g.state.code) := by
    rw [hgrant]
    cases s.key.grant <;> rfl
  have htag : orZero ((s.passTime n).key.grant.map (·.tag)) = (match s.key.grant with | none => 0 | some g => g.tag) := by
    rw [hgrant]
    cases s.key.grant <;> rfl
  have hchannel : channelWord ((s.passTime n).key.grant.map (·.channel)) =
      (match s.key.grant with | none => 0xFFFF | some g => word g.channel.val) := by
    rw [hgrant]
    cases s.key.grant <;> rfl
  have hsession : (s.passTime n).key.grant.bind (·.session) = s.key.grant.bind (·.session) := by
    rw [hgrant]
    cases s.key.grant <;> rfl
  have hmember : (s.passTime n).key.grant.bind (·.member) = s.key.grant.bind (·.member) := by
    rw [hgrant]
    cases s.key.grant <;> rfl
  unfold State.pageFields
  simp only [flagWord_bit, flagsWord_two, flagsWord_six, lowWord_eq, highWord_eq, hunread, hlockout, hdisable, hcode, htag,
    hchannel, hsession, hmember]
  rfl

theorem rewritePageOnce_spec {u : State} (hu : u.memoryLaw) :
    let t := rewritePageOnce u
    t.read 0 = u.bus.pageCount + 2 ∧ t.bus = { u.bus with pageCount := u.bus.pageCount + 2 } ∧
      (∀ i, i < 63 → t.read (1 + i) = u.pageFields.getD i 0) ∧ t.pagesOwed = u.pagesOwed - 1 ∧
      ∀ a, 64 ≤ a → t.read a = u.read a := by
  obtain ⟨hcount, hfields⟩ := rewritePage_read u hu
  have hbus := rewritePage_bus u
  have hkept := fun a => rewritePage_kept u (a := a)
  have howed : u.rewritePage.pagesOwed = u.pagesOwed := rewritePage_frame u .pagesOwed (by decide)
  unfold rewritePageOnce
  generalize u.rewritePage = t at hcount hfields hbus howed hkept
  exact ⟨hcount, hbus, hfields, congrArg (· - 1) howed, hkept⟩

/-- Settles O38. -/
theorem statusPageRewriteShowsTheBlocks : Obligations.StatusPageRewriteShowsTheBlocks := by
  refine ⟨fun s => rfl, by decide, fun s n hs hnext => ?_⟩
  intro u g d
  have hu : u.memoryLaw := passTime_law hs
  obtain ⟨hcount, hbus, hfields, howed, hkept⟩ := rewritePageOnce_spec hu
  have hevent : event rewritePageOnce u = rewritePageOnce u := event_unchanged (rewritePageOnce_frame u)
  refine ⟨rewritePageOnce u, congrArg Host.Outcome.next ((timed_next hnext).trans hevent), hcount, hbus, fun i hi => ?_, howed,
    rewritePageOnce_frame u, fun a ha => ?_⟩
  · rewrite [hfields i hi, pageFields_passTime]
    rfl
  · exact hkept a (by simp only [inArea] at ha; omega)

/-! ## A receive sample (O36, O37) -/

theorem samplesOwed_frame (u : State) (k : Nat) : OnlyChanges [.samplesOwed] u { u with samplesOwed := k } := by
  intro p hp
  cases p <;> first | exact absurd (by decide) hp | rfl | exact fun _ => rfl

/-- The whole sample event: the Busy Detector has taken `u` to `v`, the Receive Path `v` to `w`, and the sample is owed no more. -/
structure SampleCourse (x : Word) (high : Bool) (u v w t : State) : Prop where
  detected : TakesSample x high u v
  frame : OnlyChanges courseParts u v
  filled : MemoryKept (inFilled u) u v
  captured : w = receiveSample x v
  owed : t.samplesOwed = u.samplesOwed - 1
  published : Published u t
  kept : OnlyChanges [.samplesOwed, .changeCounts, .mem, .news] w t
  memory : MemoryKept (inChangedRecord u t) w t

theorem sample_course (x : Word) (high : Bool) {u : State} (hu : u.memoryLaw) (hl : u.receive.collection.length ≤ 159) :
    SampleCourse x high u (detectSample x high u) (receiveSample x (detectSample x high u)) (event (sampleEvent x high) u) := by
  have hdetect : OnlyChanges courseParts u (detectSample x high u) := detectSample_frame x high u
  have hreceive := receiveSample_frame x (detectSample x high u)
  have hstores : Stores noWord u (detectSample x high u) := detectSample_stores x high u
  have hwhole := sampleEvent_frame x high u
  obtain ⟨-, -, hkept, hmemory, hpublished⟩ := event_to hwhole (sampleEvent_stores x high u hl) hu
  refine ⟨detectSample_spec x high u hu, hdetect, (hstores.kept hu).mono fun _ h => h.resolve_left id, rfl, ?_, hpublished, ?_, ?_⟩
  · have howed : (receiveSample x (detectSample x high u)).samplesOwed = u.samplesOwed :=
      (hreceive .samplesOwed (by decide)).trans (hdetect .samplesOwed (by decide))
    rw [hkept .samplesOwed (by decide), sampleEvent]
    exact congrArg (· - 1) howed
  · exact OnlyChanges.trans (samplesOwed_frame (receiveSample x (detectSample x high u)) _).mono hkept.mono
  · exact hmemory

section sampleCourse
variable {x : Word} {high : Bool} {u v w t : State} (h : SampleCourse x high u v w t)
include h

/-- The place that the next block takes reads as before the detector's work: that work frees transmit places alone. -/
theorem SampleCourse.read_rx : v.read (rxBase (u.receive.captureSequence.toNat % 32)) =
    u.read (rxBase (u.receive.captureSequence.toNat % 32)) := by
  refine h.filled _ fun ⟨htx, _⟩ => ?_
  obtain ⟨i, hi, ha⟩ := (isTxState_iff _).1 htx
  unfold rxBase at ha
  omega

theorem SampleCourse.receive_before : v.receive = u.receive := h.frame .receive (by decide)

theorem SampleCourse.receive_frame : OnlyChanges [.receive, .mem, .events] v w := by
  rw [h.captured]
  exact receiveSample_frame x v

/-- What the Receive Path shows of the other blocks is what the event leaves of them. -/
theorem SampleCourse.key_after : t.key = v.key := (h.kept .key (by decide)).trans (h.receive_frame .key (by decide))

theorem SampleCourse.detector_after : t.detector = v.detector :=
  (h.kept .detector (by decide)).trans (h.receive_frame .detector (by decide))

theorem SampleCourse.receive_after : t.receive = w.receive := h.kept .receive (by decide)

theorem SampleCourse.events_after : t.bus.events = w.bus.events := h.kept .events (by decide)

theorem SampleCourse.outcome (hl : u.receive.collection.length ≤ 159) :
    t.bus.events = v.bus.events ||| (if u.receive.collection.length < 159 then 0
      else if u.read (rxBase (u.receive.captureSequence.toNat % 32)) = 0 then bitWord 8 else bitWord 9) ∧
    MemoryKept (rxPlace u.receive) v w ∧
    (u.receive.collection.length < 159 ∨ u.read (rxBase (u.receive.captureSequence.toNat % 32)) ≠ 0 → w.mem = v.mem) := by
  have hreceive := h.receive_before
  obtain ⟨hevents, hplace, hmem⟩ := receiveSample_spec x v (by rw [hreceive]; exact hl)
  rw [← h.captured, hreceive] at hevents hplace hmem
  rw [h.read_rx] at hevents hmem
  exact ⟨h.events_after.trans hevents, hplace, hmem⟩

end sampleCourse

/-- Settles O36. -/
theorem aReceiveSampleIsDetected : Obligations.AReceiveSampleIsDetected := by
  refine ⟨fun s => rfl, fun s x high => ?_, fun s x high n c hs hl hnext hc => ?_⟩
  · rw [completesDebounce, Bool.and_eq_true, Bool.not_eq_true', bne_iff_ne, evaluate_sampled, ← held_iff, Bool.not_eq_true]
  · intro u r
    have hcourse := sample_course x high (u := u) (passTime_law hs) hl
    obtain ⟨hevents, hplace, -⟩ := hcourse.outcome hl
    refine ⟨_, _, sample_next hnext hc, hcourse.detected, hcourse.owed, ?_, hevents, ?_, hcourse.published, ?_, ?_⟩
    · exact OnlyChanges.trans hcourse.receive_frame.mono hcourse.kept.mono
    · exact (hplace.mono fun _ h => .inl h).trans (hcourse.memory.mono fun _ h => .inr h)
    · exact OnlyChanges.trans hcourse.frame.mono (OnlyChanges.trans hcourse.receive_frame.mono hcourse.kept.mono)
    · exact (hcourse.filled.mono fun _ h => .inr (.inl h)).trans
        ((hplace.mono fun _ h => .inl h).trans (hcourse.memory.mono fun _ h => .inr (.inr h)))

theorem receiveSample_collects {x : Word} {v : State} (hl : v.receive.collection.length < 159) :
    receiveSample x v = v.withReceive { v.receive with
      collection := v.receive.collection ++ [if v.key.ptt then 0 else x], keyedMark := v.receive.keyedMark || v.key.ptt } :=
  if_neg (by simp; omega)

theorem receiveSample_completes {x : Word} {v : State} (hl : v.receive.collection.length = 159) :
    receiveSample x v = captureBlock (v.receive.collection ++ [if v.key.ptt then 0 else x])
      (v.receive.keyedMark || v.key.ptt) v :=
  if_pos (by simp [hl])

theorem captureBlock_free {block : List Word} {keyed : Bool} {v : State}
    (h : v.read (rxBase (v.receive.captureSequence.toNat % 32)) = 0) : captureBlock block keyed v =
      ((v.writeAll (rxBase (v.receive.captureSequence.toNat % 32)) (v.receiveWords block keyed)).raise .rxReady).withReceive
        { v.receive with
          captureSequence := v.receive.captureSequence + 1, collection := [], keyedMark := false } := by
  unfold captureBlock
  dsimp only
  rw [if_pos h]
  rfl

theorem captureBlock_taken {block : List Word} {keyed : Bool} {v : State}
    (h : v.read (rxBase (v.receive.captureSequence.toNat % 32)) ≠ 0) : (captureBlock block keyed v).receive =
      { captureSequence := v.receive.captureSequence + 1, collection := [], keyedMark := false
        overflow := min 65535 (v.receive.overflow + 1) } := by
  unfold captureBlock
  dsimp only
  rw [if_neg h]
  rfl

/-- The words of a receive place in the order of 11.4, by the blocks that own them. -/
theorem receiveWords_eq (v : State) (block : List Word) (keyed : Bool) : v.receiveWords block keyed =
    [1, v.receive.captureSequence, word (keyed.toNat + 2 * v.detector.debounced.toNat + 4 * v.detector.s0.toNat +
      8 * v.detector.s1.toNat + 16 * v.detector.s2.toNat), word v.detector.levelS, word v.detector.levelN, 0, 0, 0] ++ block := by
  unfold State.receiveWords
  dsimp only
  rw [flagsWord_five]

section captured
variable {x : Word} {high : Bool} {u v w t : State} (h : SampleCourse x high u v w t)
include h

/-- A sample that completes no block joins the collection (R108). -/
theorem SampleCourse.collects (hl : u.receive.collection.length < 159) : t.receive = { u.receive with
    collection := u.receive.collection ++ [if t.key.ptt then 0 else x], keyedMark := u.receive.keyedMark || t.key.ptt } := by
  rw [h.receive_after, h.captured, receiveSample_collects (by rw [h.receive_before]; exact hl), h.key_after,
    State.withReceive_receive, h.receive_before]

/-- A block whose place is FREE is written into it (R109). -/
theorem SampleCourse.captures (hv : v.memoryLaw) (hl : u.receive.collection.length = 159)
    (hfree : u.read (rxBase (u.receive.captureSequence.toNat % 32)) = 0) :
    t.receive = { u.receive with captureSequence := u.receive.captureSequence + 1, collection := [], keyedMark := false } ∧
    ∀ i, i < 168 → t.read (rxBase (u.receive.captureSequence.toNat % 32) + i) =
      (v.receiveWords (u.receive.collection ++ [if t.key.ptt then 0 else x]) (u.receive.keyedMark || t.key.ptt)).getD i 0 := by
  have hw : w = _ := h.captured.trans ((receiveSample_completes (by rw [h.receive_before]; exact hl)).trans
    (captureBlock_free (by rw [h.receive_before]; exact h.read_rx.trans hfree)))
  rw [h.receive_before] at hw
  rw [h.receive_after, h.key_after]
  refine ⟨by rw [hw]; rfl, fun i hi => ?_⟩
  have hlength : (v.receiveWords (u.receive.collection ++ [if v.key.ptt then 0 else x])
      (u.receive.keyedMark || v.key.ptt)).length = 168 := by
    simp [receiveWords_eq, hl]
  have houtside : ¬ inChangedRecord u t (rxBase (u.receive.captureSequence.toNat % 32) + i) := fun ⟨n, _, hn⟩ => by
    have hslot := n.isLt
    simp only [inRecord, inArea, rxBase, recordBase] at hn
    omega
  rw [h.memory _ houtside, hw]
  exact Memory.read_writeAll _ _ _ _ hv (by omega)

/-- A block whose place is taken is dropped and counted (R110). -/
theorem SampleCourse.drops (hl : u.receive.collection.length = 159)
    (htaken : u.read (rxBase (u.receive.captureSequence.toNat % 32)) ≠ 0) :
    t.receive = { captureSequence := u.receive.captureSequence + 1, collection := [], keyedMark := false
                  overflow := min 65535 (u.receive.overflow + 1) } := by
  rw [h.receive_after, h.captured, receiveSample_completes (by rw [h.receive_before]; exact hl),
    captureBlock_taken (by rw [h.receive_before, h.read_rx]; exact htaken), h.receive_before]

/-- Where the Receive Path stores nothing, the detector's work and the publication alone reach the memory. -/
theorem SampleCourse.silent (hm : w.mem = v.mem) :
    MemoryKept (inChangedRecord u t) v t ∧ MemoryKept (fun a => inFilled u a ∨ inChangedRecord u t a) u t := by
  have hrest := (MemoryKept.of_mem hm).trans h.memory
  exact ⟨hrest, (h.filled.mono fun _ h => .inl h).trans (hrest.mono fun _ h => .inr h)⟩

end captured

/-- Settles O37: the three outcomes of a sample at the Receive Path. -/
theorem aReceiveSampleIsCaptured : Obligations.AReceiveSampleIsCaptured := by
  intro s x high n c hs hl hnext hc u
  have hcourse := sample_course x high (u := u) (passTime_law hs) hl
  have hv : (detectSample x high u).memoryLaw :=
    (detectSample_stores (P := noWord) x high u).law (passTime_law (n := n) hs)
  obtain ⟨hevents, hplace, hmem⟩ := hcourse.outcome hl
  refine ⟨_, _, sample_next hnext hc, hcourse.detected, fun hshort => ?_, fun hfull hfree => ?_, fun hfull htaken => ?_⟩
  · obtain ⟨hkept, hwhole⟩ := hcourse.silent (hmem (.inl hshort))
    refine ⟨hcourse.collects hshort, hevents.trans ?_, hkept, hwhole⟩
    rw [if_pos (show u.receive.collection.length < 159 from hshort)]
    exact BitVec.or_zero ..
  · obtain ⟨hreceive, hwords⟩ := hcourse.captures hv hfull hfree
    refine ⟨hreceive, hevents.trans ?_, (hplace.mono fun _ h => .inl h).trans (hcourse.memory.mono fun _ h => .inr h),
      fun i hi => (hwords i hi).trans ?_⟩
    · have hlong : ¬ u.receive.collection.length < 159 := Nat.not_lt.mpr (Nat.le_of_eq (Eq.symm hfull))
      exact congrArg (_ ||| ·) ((if_neg hlong).trans (if_pos hfree))
    · rw [receiveWords_eq, ← hcourse.detector_after, hcourse.receive_before]
      rfl
  · obtain ⟨hkept, hwhole⟩ := hcourse.silent (hmem (.inr htaken))
    refine ⟨hcourse.drops hfull htaken, hevents.trans ?_, hkept, hwhole⟩
    have hlong : ¬ u.receive.collection.length < 159 := Nat.not_lt.mpr (Nat.le_of_eq (Eq.symm hfull))
    exact congrArg (_ ||| ·) ((if_neg hlong).trans (if_neg htaken))

/-! ## An arbitration (O39) -/

theorem expireCourtesy_frame (u : State) : OnlyChanges arbitrationParts u (expireCourtesy u) :=
  OnlyChanges.trans withFloor_frame (arbitrate_frame _)

/-- Settles O39. -/
theorem arbitrationGrantsTheFirstClaimant : Obligations.ArbitrationGrantsTheFirstClaimant := by
  refine ⟨arbitrate_spec, fun s n hs hnext => ?_⟩
  intro u
  have hu : u.memoryLaw := passTime_law hs
  exact ⟨_, expireCourtesy u, congrArg Host.Outcome.next (timed_next hnext), arbitrate_spec _ hu,
    moment_to hs (expireCourtesy_frame u) (Stores.after (arbitrate_stores _) (.of_mem rfl))⟩

/-! ## The timers of a grant before key-up (O40–O42) -/

/-- An event at a moment of the current grant, whose effect stores to nothing but the state words of FILLED places. -/
theorem grant_moment {ps : List Part} {f : Grant → State → State} {left : Grant → Option Nat} {s : State} {n : Nat} {g : Grant}
    (hs : s.memoryLaw) (hg : s.key.grant = some g) (hnext : s.comesNext (fun x => x.grantLeft left) n)
    (hf : ∀ g u, OnlyChanges ps u (f g u)) (hst : ∀ g u, Stores noWord u (f g u))
    (h1 : Part.changeCounts ∉ ps := by decide) (h2 : Part.news ∉ ps := by decide) :
    timed (fun x => x.grantLeft left) (onGrant f) s = event (onGrant f) (s.passTime n) ∧
      EventTo ps (inFilled s) (s.passTime n) (f (g.passTime n) (s.passTime n)) (event (onGrant f) (s.passTime n)) := by
  have hto := moment_to (f := onGrant f) (n := n) hs (onGrant_frame hf _) (onGrant_stores fun g => hst g _) h1 h2
  rw [onGrant_passTime f n hg] at hto
  exact ⟨timed_next hnext, hto⟩

/-- Settles O40. -/
theorem turnaroundTimersTakeTheGrantOn : Obligations.TurnaroundTimersTakeTheGrantOn := by
  intro s n g hs hg u h
  have hu : u.memoryLaw := passTime_law hs
  refine ⟨fun hnext => ?_, fun hnext => ?_, fun hnext => ?_⟩
  · obtain ⟨hexec, hto⟩ := grant_moment hs hg hnext leaveChangeover_frame leaveChangeover_stores
    exact ⟨_, _, congrArg Host.Outcome.next hexec, leaveChangeover_spec h u hu, hto⟩
  · obtain ⟨hexec, hto⟩ := grant_moment hs hg hnext enterGap2_frame enterGap2_stores
    exact ⟨_, _, congrArg Host.Outcome.next hexec, enterGap2_spec h u hu, hto⟩
  · obtain ⟨hexec, hto⟩ := grant_moment hs hg hnext leaveGap2_frame leaveGap2_stores
    exact ⟨_, _, congrArg Host.Outcome.next hexec, leaveGap2_spec h u hu, hto⟩

/-- Settles O41. -/
theorem busyWaitExpiryEndsTheWait : Obligations.BusyWaitExpiryEndsTheWait := by
  intro s n g hs hg hnext u h
  have hu : u.memoryLaw := passTime_law hs
  obtain ⟨hexec, hto⟩ := grant_moment hs hg hnext expireBusyWait_frame expireBusyWait_stores
  have heq : expireBusyWait (g.passTime n) u = if g.state = .waitClear then busyWaitOver h u else u.withGrant (some h) :=
    expireBusyWait_eq (g.passTime n) u
  refine ⟨_, _, congrArg Host.Outcome.next hexec, ?_, hto⟩
  rw [heq]
  split
  · exact busyWaitOver_spec h u hu
  · exact becomesGrant h u

theorem writeMemory_examined {s : State} {a : Nat} {g : Grant} (ha : isTxState a = true) (v : Word)
    (hg : s.key.grant = some g) (hstate : g.state = .prebuffer) (hw : (s.write a v).prebuffered g.tag) :
    writeMemory a v s = keyUp g (s.write a v) := by
  have hcomplete : (s.write a v).prebufferComplete g.tag = true := (prebufferComplete_iff _ _).2 hw
  have hexamine : examinePrebuffer (s.write a v) = keyUp g (s.write a v) := by
    unfold examinePrebuffer
    rw [State.write_key, hg]
    exact if_pos ⟨hstate, hcomplete⟩
  exact (if_pos ha).trans hexamine

/-- Settles O42. -/
theorem prebufferEndsInKeyUpOrNoAudio : Obligations.PrebufferEndsInKeyUpOrNoAudio := by
  refine ⟨fun s a v g hs hr ha hg hstate => ?_, fun s n g hs hg hnext => ?_⟩
  · intro w hw
    have hbounds : a.toNat < 0x8000 := by
      obtain ⟨i, hi, h⟩ := (isTxState_iff _).1 ha
      omega
    have hwork : writeMemory a.toNat v s = keyUp g w := writeMemory_examined ha v hg hstate hw
    have hexec : exec (.hostMemoryWrite a v) s = .next (event (writeMemory a.toNat v) s) :=
      congrArg Host.Outcome.next (hostWrite_memory hr hbounds v)
    have hwlaw : w.memoryLaw := Memory.write_wf _ _ _ hs
    have hframe : OnlyChanges courseParts s (keyUp g w) := OnlyChanges.trans write_frame (keyUp_frame g w)
    have hstores : Stores noWord w (keyUp g w) := keyUp_stores g w
    refine ⟨_, keyUp g w, hexec, keyUp_spec g w hwlaw, keyUp_frame g w,
      (hstores.kept hwlaw).mono fun _ h => h.resolve_left id, ?_⟩
    unfold event
    rw [hwork]
    exact ⟨publish_frame s _, publish_kept s _, publish_published (hstores.law hwlaw) (hframe .changeCounts (by decide))
      (hframe .news (by decide))⟩
  · intro u
    obtain ⟨hexec, hto⟩ := grant_moment hs hg hnext expirePrebuffer_frame expirePrebuffer_stores
    exact ⟨_, _, congrArg Host.Outcome.next hexec, hto, expirePrebuffer_spec (g.passTime n) u (passTime_law hs)⟩

end Sys2Proof.Machine
end

section
/-! The block boundary (O43–O45). -/

set_option Elab.async false

namespace Sys2Proof.Machine

/-- A final count is at or behind the playout position as R92 has it. -/
theorem atOrBehind_iff (f : Word) (p : Nat) : atOrBehind f p = true ↔ f = word p ∨ 32768 ≤ (f - word p).toNat := by
  have hzero : (f - word p).toNat = 0 ↔ f = word p := by bv_omega
  unfold atOrBehind distance
  rw [Bool.or_eq_true, decide_eq_true_iff, decide_eq_true_iff, hzero]

theorem boundaryLeft_eq (s : State) : s.boundaryLeft = match s.key.grant with
    | none => none
    | some g => if g.state = .keyed ∨ g.state = .drain then s.playout.boundary else none := by
  unfold State.boundaryLeft
  cases s.key.grant <;> rfl

/-- A boundary's event, in the words of the grant it is about. -/
theorem boundary_event {s : State} {n : Nat} {h : Grant} (hs : s.memoryLaw)
    (he : boundaryEvent (s.passTime n) = boundaryOf h (s.passTime n)) :
    EventTo endParts (endStores s) (s.passTime n) (boundaryOf h (s.passTime n)) (event boundaryEvent (s.passTime n)) := by
  have hm := moment_ends (n := n) hs (boundaryEvent_frame _) (.at (boundaryEvent_stores (s.passTime n)) rfl)
  rw [he] at hm
  exact hm

/-- Settles O43. -/
theorem aBlockInItsPlaceIsPlayed : Obligations.ABlockInItsPlaceIsPlayed := by
  refine ⟨boundaryLeft_eq, atOrBehind_iff, fun s n g c hs hg hnext hh hc => ?_⟩
  have hc' : c = .blockBoundary ∨ (c = .audioLost ∧ boundaryLosesAudio s = true) ∨
      (c = .drainLimit ∧ boundaryReachesDrainLimit s = true) :=
    hc.imp id fun ⟨h1, h2⟩ => .inr ⟨h1, (reachesDrainLimit_iff hg).2 h2⟩
  obtain ⟨hexec, heq, -⟩ := boundary_exec hg hnext hc'
  have hu : (s.passTime n).memoryLaw := passTime_law hs
  obtain ⟨w, hplay, hrest⟩ := boundary_play (g.passTime n) (s.passTime n) hu hh
  exact ⟨_, w, _, hexec, hplay, hrest, boundary_event hs heq⟩

/-! ## A missing block (O44) -/

/-- The state after R93's cases 2 to 5: the place cleared and the playout position raised. -/
def State.placeCleared (u : State) (g : Grant) : State :=
  (clearPlace g (u.classify g.tag u.playout.position)
    (u.withPlayout { u.playout with boundary := some (ms 20) })).advance

/-- The boundary of a missing block, in the words of the state with its place cleared. -/
theorem boundaryOf_missing {g : Grant} {u : State} (hmiss : ¬ u.holdsBlock g.tag) :
    boundaryOf g u = missBlock g (u.placeCleared g) :=
  if_neg fun h => hmiss ((classify_spec u g.tag).1.1 h)

theorem ClearsPlace.law {g : Grant} {u w : State} (h : ClearsPlace g u w) (hu : u.memoryLaw) : w.memoryLaw := by
  obtain ⟨-, hmem, -, -⟩ := h
  rw [State.memoryLaw, hmem]
  split
  · exact Memory.write_wf _ _ _ hu
  · exact hu

theorem ClearsPlace.missingRun {g : Grant} {u w : State} (h : ClearsPlace g u w) :
    w.playout.missingRun = u.playout.missingRun := by
  obtain ⟨hplay, -, -, -⟩ := h
  rw [hplay]

theorem ClearsPlace.kept {g : Grant} {u w : State} (h : ClearsPlace g u w) : OnlyChanges [.playout, .mem, .sessions] u w := by
  obtain ⟨-, -, -, hkept⟩ := h
  exact hkept

/-- R96's condition, as the model's boundary judges it. -/
theorem losesAudio_iff (g : Grant) (w : State) :
    losesAudio g w = true ↔ g.state = .keyed ∧ w.params.audioLoss ≤ min 65535 (w.playout.missingRun + 1) := by
  unfold losesAudio saturate
  rw [Bool.and_eq_true, beq_iff_eq, decide_eq_true_iff]

/-- The row audioLost stands where the boundary at hand loses the audio. -/
theorem boundaryLosesAudio_iff {s : State} {g : Grant} (hg : s.key.grant = some g) (hmiss : ¬ s.holdsBlock g.tag) :
    boundaryLosesAudio s = true ↔ g.state = .keyed ∧ s.params.audioLoss ≤ min 65535 (s.playout.missingRun + 1) := by
  have hplay : (s.classify g.tag s.playout.position != .play) = true :=
    bne_iff_ne.2 fun h => hmiss ((classify_spec s g.tag).1.1 h)
  unfold boundaryLosesAudio
  rw [hg]
  dsimp only
  rw [hplay, Bool.true_and, losesAudio_iff]

/-- AUDIO_LOST taken by a grant in KEYED is its unkey (R82, R96). -/
theorem takeCause_audioLost {g : Grant} {w : State} (hg : w.key.grant = some g) (hkeyed : g.state = .keyed) (hw : w.memoryLaw) :
    Unkeys { g with endReason := some (g.endReason.getD .audioLost) } w (takeCause g.tag .audioLost w) := by
  have hends := takeCause_spec .audioLost hw rfl hg
  cases g
  cases hkeyed
  exact hends

/-- The branches of a missing block (R95, R96, R99). -/
theorem missBlock_spec {g : Grant} {w : State} (hg : w.key.grant = some g) (hw : w.memoryLaw) :
    let lost := g.state = .keyed ∧ w.params.audioLoss ≤ min 65535 (w.playout.missingRun + 1)
    (lost → Unkeys { g with endReason := some (g.endReason.getD .audioLost) }
      (w.withPlayout { w.playout with missingRun := min 65535 (w.playout.missingRun + 1) }) (missBlock g w)) ∧
    (g.state = .keyed → ¬ lost → CountsDepth g.tag true (substitute g w) (missBlock g w)) ∧
    (g.state = .drain → g.finalCount = none → DrainsOn g true w (missBlock g w)) ∧
    (g.state = .drain → g.finalCount ≠ none → DrainsOn g true (substitute g w) (missBlock g w)) := by
  intro lost
  have hsub : (substitute g w).memoryLaw := (substitute_stores (P := noWord) g w).law hw
  refine ⟨fun hl => ?_, fun hkeyed hnot => ?_, fun hdrain hnone => ?_, fun hdrain hsome => ?_⟩
  · obtain ⟨hkeyed, -⟩ := id hl
    have hm : missBlock g w = takeCause g.tag .audioLost
        (w.withPlayout { w.playout with missingRun := min 65535 (w.playout.missingRun + 1) }) := by
      unfold missBlock
      rw [if_neg (by rw [hkeyed]; exact fun h => nomatch h.1), if_pos ((losesAudio_iff g w).2 hl)]
      rfl
    rw [hm]
    exact takeCause_audioLost hg hkeyed hw
  · have hm : missBlock g w = finishBoundary g true (substitute g w) := by
      unfold missBlock
      rw [if_neg (by rw [hkeyed]; exact fun h => nomatch h.1), if_neg fun h => hnot ((losesAudio_iff g w).1 h)]
    have hfinish := finishBoundary_spec g true _ hsub
    rw [if_neg (by rw [hkeyed]; decide), ← hm] at hfinish
    exact hfinish
  · have hfinish := finishBoundary_spec g true _ hw
    rw [if_pos hdrain] at hfinish
    rwa [show missBlock g w = finishBoundary g true w from if_pos ⟨hdrain, hnone⟩]
  · have hm : missBlock g w = finishBoundary g true (substitute g w) := by
      have hnot : ¬ losesAudio g w = true := fun h => by
        obtain ⟨hkeyed, -⟩ := (losesAudio_iff g w).1 h
        rw [hdrain] at hkeyed; cases hkeyed
      unfold missBlock
      rw [if_neg fun h => hsome h.2, if_neg hnot]
    have hfinish := finishBoundary_spec g true _ hsub
    rwa [if_pos hdrain, ← hm] at hfinish

/-- Settles O44. -/
theorem aMissingBlockIsReplacedOrEndsTheGrant : Obligations.AMissingBlockIsReplacedOrEndsTheGrant := by
  intro s n g c hs hg hnext hmiss lost hc u h
  have hc' : c = .blockBoundary ∨ (c = .audioLost ∧ boundaryLosesAudio s = true) ∨
      (c = .drainLimit ∧ boundaryReachesDrainLimit s = true) :=
    hc.imp id <| Or.imp (fun ⟨h1, h2⟩ => ⟨h1, (boundaryLosesAudio_iff hg hmiss).2 h2⟩)
      fun ⟨h1, h2⟩ => ⟨h1, (reachesDrainLimit_iff hg).2 h2⟩
  obtain ⟨hexec, heq, -⟩ := boundary_exec hg hnext hc'
  have hu : u.memoryLaw := passTime_law hs
  have hclear : ClearsPlace h u (u.placeCleared h) := clearPlace_spec h u hmiss
  have hgrant : (u.placeCleared h).key.grant = some h := by
    rw [hclear.kept .key (by decide)]; exact passTime_grant n hg
  obtain ⟨hlost, hkeyed, hnone, hsome⟩ := missBlock_spec hgrant (hclear.law hu)
  have hevent := boundary_event hs heq
  rw [← boundaryOf_missing (u := u) (g := h) hmiss] at hlost hkeyed hnone hsome
  have hiff : (h.state = .keyed ∧ (u.placeCleared h).params.audioLoss ≤
      min 65535 ((u.placeCleared h).playout.missingRun + 1)) ↔ lost := by
    rw [hclear.kept .params (by decide), hclear.missingRun]; exact Iff.rfl
  exact ⟨_, u.placeCleared h, boundaryOf h u, hexec, hclear, hevent, fun hl => hlost (hiff.2 hl),
    fun hk hl => ⟨_, substitute_spec _ _, hkeyed hk fun hn => hl (hiff.1 hn)⟩, hnone,
    fun hd hf => ⟨_, substitute_spec _ _, hsome hd hf⟩⟩

/-! ## Re-centring (O45) -/

/-- A boundary that comes with more than the max depth counted leaves the target. The place at the playout position is read
no more, and the rest of the memory stands as it was. -/
theorem recentring_result {g : Grant} {u w v : State} (hu : u.memoryLaw) (hcount : CountsDepth g.tag true w v)
    (hmem : w.mem = u.mem.write (txBase (u.playout.position % 64)) 0 ∨
      (w.mem = u.mem ∧ u.read (txBase (u.playout.position % 64)) ≠ 1))
    (hposition : w.playout.position = u.playout.position + 1) (hparams : w.params = u.params)
    (hslip : w.playout.slip = u.playout.slip) (hdistinct : distinctBlocks u g.tag)
    (htarget : u.params.prebufferTarget < u.params.maxDepth)
    (hdeep : u.params.maxDepth < ((List.range 64).filter fun i =>
      i != u.playout.position % 64 && u.counts g.tag (u.playout.position + 1) i).length) :
    v.playout.depth = u.params.prebufferTarget ∧ v.playout.slip = min 65535 (u.playout.slip + 1) := by
  have hw : w.memoryLaw := by
    rcases hmem with h | ⟨h, -⟩ <;> rw [State.memoryLaw, h]
    · exact Memory.write_wf _ _ _ hu
    · exact hu
  have hdepth := depthOf_after (tag := g.tag) hu hmem w.playout.position
  rw [hposition] at hdepth
  have hresult := countsDepth_target hcount hw (distinctBlocks_after hu hdistinct hmem)
    (by rw [hparams, hposition, hdepth]; exact hdeep) (by rw [hparams]; exact htarget)
  rwa [hparams, hslip] at hresult

theorem Substitutes.kept {g : Grant} {u v : State} (h : Substitutes g u v) :
    OnlyChanges [.playout, .sessions] u v ∧ v.playout.position = u.playout.position ∧ v.playout.slip = u.playout.slip := by
  unfold Substitutes at h
  dsimp only at h
  split at h
  · obtain ⟨hplayout, -, hkept⟩ := h
    exact ⟨hkept, by rw [hplayout], by rw [hplayout]⟩
  · obtain ⟨hplayout, hkept⟩ := h
    exact ⟨hkept.mono, by rw [hplayout], by rw [hplayout]⟩

/-- The memory at a missing block: the place at the playout position was FILLED and is freed, or it was not FILLED. -/
theorem ClearsPlace.mem {g : Grant} {u w : State} (h : ClearsPlace g u w) :
    w.mem = u.mem.write (txBase (u.playout.position % 64)) 0 ∨
      (w.mem = u.mem ∧ u.read (txBase (u.playout.position % 64)) ≠ 1) := by
  obtain ⟨-, hmem, -, -⟩ := h
  by_cases hf : u.read (txBase (u.playout.position % 64)) = 1
  · rw [if_pos hf] at hmem; exact .inl hmem
  · rw [if_neg hf] at hmem; exact .inr ⟨hmem, hf⟩

/-- Settles O45. -/
theorem recentringLeavesTheTargetDepth : Obligations.RecentringLeavesTheTargetDepth := by
  intro s n g hs hg hkeyed hnext hcase htarget hdistinct hdeep
  obtain ⟨hexec, heq, -⟩ := boundary_exec hg hnext (.inl rfl)
  let u := s.passTime n
  let h := g.passTime n
  have hu : u.memoryLaw := passTime_law hs
  have hstate : h.state = .keyed := hkeyed
  have hresult : (boundaryOf h u).playout.depth = u.params.prebufferTarget ∧
      (boundaryOf h u).playout.slip = min 65535 (u.playout.slip + 1) := by
    by_cases hh : s.holdsBlock g.tag
    · obtain ⟨w, ⟨hplayout, hmem, -, hkept⟩, hrest⟩ := boundary_play h u hu hh
      rw [if_neg (by rw [hstate]; decide)] at hrest
      exact recentring_result hu hrest (.inl hmem) (by rw [hplayout]) (hkept .params (by decide)) (by rw [hplayout])
        hdistinct htarget hdeep
    · have hclear : ClearsPlace h u (u.placeCleared h) := clearPlace_spec h u hh
      have hgrant : (u.placeCleared h).key.grant = some h := by
        rw [hclear.kept .key (by decide)]; exact passTime_grant n hg
      have hparams : (u.placeCleared h).params = u.params := hclear.kept .params (by decide)
      have hfew : min 65535 (u.playout.missingRun + 1) < u.params.audioLoss := hcase.resolve_left hh
      obtain ⟨-, hcount, -, -⟩ := missBlock_spec hgrant (hclear.law hu)
      rw [hparams, hclear.missingRun, ← boundaryOf_missing (u := u) (g := h) hh] at hcount
      obtain ⟨hsub, hposition, hslip⟩ := (substitute_spec h (u.placeCleared h)).kept
      have hmem : (substitute h (u.placeCleared h)).mem = (u.placeCleared h).mem := hsub .mem (by decide)
      obtain ⟨hplayout, -, -, -⟩ := id hclear
      exact recentring_result hu (hcount hstate fun hl => absurd hl.2 (by omega)) (by rw [hmem]; exact hclear.mem)
        (by rw [hposition, hplayout]) (by rw [hsub .params (by decide), hparams]) (by rw [hslip, hplayout])
        hdistinct htarget hdeep
  have hplayout := (boundary_event hs heq).kept .playout (by decide)
  obtain ⟨hdepth, hslip⟩ := hresult
  exact ⟨_, hexec, (congrArg Playout.depth hplayout :).trans hdepth, (congrArg Playout.slip hplayout :).trans hslip⟩

end Sys2Proof.Machine
end

section
/-! Key time, the key limit and receiver recovery (O46–O48). -/

set_option Elab.async false

namespace Sys2Proof.Machine

/-! ## Accounting ticks and the tail's end (O46) -/

/-- The event at a grant timer's expiry whose effect can end the grant. -/
theorem grant_ends {f : Grant → State → State} {left : Grant → Option Nat} {s : State} {n : Nat} {g : Grant}
    (hs : s.memoryLaw) (hg : s.key.grant = some g) (hnext : s.comesNext (fun x => x.grantLeft left) n)
    (hf : ∀ g u, OnlyChanges endParts u (f g u)) (hst : ∀ g u, Stores (logPlace u.log) u (f g u)) :
    timed (fun x => x.grantLeft left) (onGrant f) s = event (onGrant f) (s.passTime n) ∧
      EventTo endParts (endStores s) (s.passTime n) (f (g.passTime n) (s.passTime n)) (event (onGrant f) (s.passTime n)) := by
  have hto := moment_ends (f := onGrant f) (n := n) hs (onGrant_frame hf _) (.at (onGrant_stores fun g => hst g _) rfl)
  rw [onGrant_passTime f n hg] at hto
  exact ⟨timed_next hnext, hto⟩

theorem memberOnAir_iff (x : GrantState) : x.memberOnAir = true ↔ x ∈ [GrantState.keyed, .drain, .tail] := by
  cases x <;> decide

theorem Grant.tickLeft_eq (g : Grant) : g.tickLeft =
    if g.state ∈ [.keyed, .drain, .tail] then some (800 * (g.ticks + 1) - g.keySamples) else none := by
  unfold Grant.tickLeft
  simp only [memberOnAir_iff]
  rfl

theorem Grant.limitLeft_eq (g : Grant) : g.limitLeft =
    if g.state ∈ [.keyed, .drain, .tail] then g.keyLimit.map (8 * · - g.keySamples) else none := by
  unfold Grant.limitLeft
  simp only [memberOnAir_iff]
  rfl

/-- One tick is answered exhausted where it takes the last of a metered member's budget (R13). -/
theorem chargeTicks_one_exhausted (s : State) (g : Grant) :
    (s.chargeTicks g 1).2 = true ↔
      ∃ m, g.member = some m ∧ (s.member m).present = true ∧ (s.member m).unmetered = false ∧ (s.member m).remaining ≤ 1 := by
  unfold State.chargeTicks
  cases g.member with
  | none => simp
  | some m => simp [Member.exhaustedBy, Nat.sub_eq_zero_iff_le, and_assoc]

theorem Member.charge_one (r : Member) :
    r.charge 1 = if r.present = true ∧ r.unmetered = false then { r with remaining := r.remaining - 1 } else r := by
  unfold Member.charge
  simp only [Bool.and_eq_true, Bool.not_eq_true']

theorem chargeTicks_one_member (s : State) (g : Grant) (m : MemberIx) :
    (s.chargeTicks g 1).1.member m =
      if g.member = some m ∧ (s.member m).present = true ∧ (s.member m).unmetered = false then
        { s.member m with remaining := (s.member m).remaining - 1 }
      else s.member m := by
  by_cases hm : g.member = some m
  · rw [chargeTicks_member s g 1 m hm, Member.charge_one]
    simp only [hm, true_and]
  · rw [if_neg fun h => hm h.1]
    unfold State.chargeTicks
    cases hg : g.member with
    | none => rfl
    | some k =>
      show (s.withMember k _).member m = s.member m
      rw [State.withMember_member, if_neg fun hk => hm (by rw [hg, hk])]

/-- A tick's effect, with its exhausted answer as a limit end in KEYED (R74). -/
theorem accountTick_spec (g : Grant) {u : State} (hu : u.memoryLaw) : ∃ w x,
    (x = true ↔ ∃ m, g.member = some m ∧ (u.member m).present = true ∧ (u.member m).unmetered = false ∧
      (u.member m).remaining ≤ 1) ∧
    (∀ m, w.member m =
      if g.member = some m ∧ (u.member m).present = true ∧ (u.member m).unmetered = false then
        { u.member m with remaining := (u.member m).remaining - 1 }
      else u.member m) ∧
    let h : Grant := { g with ticks := g.ticks + 1, budgetExhausted := g.budgetExhausted || x }
    w.key = { u.key with grant := some h } ∧ OnlyChanges [.members, .key] u w ∧
      if x = true ∧ g.state = .keyed then EntersTail true { h with endReason := some (g.endReason.getD .budget) } w (accountTick g u)
      else accountTick g u = w := by
  let h : Grant := { g with ticks := g.ticks + 1, budgetExhausted := g.budgetExhausted || (u.chargeTicks g 1).2 }
  let w := (u.chargeTicks g 1).1.withGrant (some h)
  have hcharged := chargeTicks_frame u g 1
  have hkey : w.key = { u.key with grant := some h } := by
    show { (u.chargeTicks g 1).1.key with grant := some h } = _
    rw [hcharged .key (by decide)]
  have hw : w.memoryLaw := (chargeTicks_stores (P := noWord) u g 1).law hu
  refine ⟨w, _, chargeTicks_one_exhausted u g, chargeTicks_one_member u g, hkey,
    OnlyChanges.after (withGrant_frame (by decide)) hcharged.mono, ?_⟩
  rw [accountTick_eq]
  dsimp only
  by_cases hend : (u.chargeTicks g 1).2 = true ∧ g.state = .keyed
  · rw [if_pos hend, if_pos hend]
    exact enterTail_spec true _ w hw
  · rw [if_neg hend, if_neg hend]

/-- Settles O46. -/
theorem ticksChargeTheHolderAndTheTailUnkeys : Obligations.TicksChargeTheHolderAndTheTailUnkeys := by
  refine ⟨Grant.tickLeft_eq, fun s n g hs hg hnext => ?_, fun s n g hs hg hnext => ?_⟩
  · intro u
    obtain ⟨hexec, hto⟩ := grant_ends hs hg hnext accountTick_frame accountTick_stores
    obtain ⟨w, x, hx, hmember, hkey, hkept, hend⟩ := accountTick_spec (g.passTime n) (passTime_law (n := n) hs)
    exact ⟨_, w, _, x, congrArg Host.Outcome.next hexec, hx, hmember, hkey, hkept, hend, hto⟩
  · intro u
    obtain ⟨hexec, hto⟩ := grant_ends hs hg hnext unkey_frame unkey_stores
    exact ⟨_, _, congrArg Host.Outcome.next hexec, unkey_spec _ u (passTime_law hs), hto⟩

/-! ## The key limit (O47) -/

/-- The moment of `limitLeft` is the moment at which key time has reached the limit. -/
theorem atLimit_of_comesNext {s : State} {n : Nat} {g : Grant} (hg : s.key.grant = some g)
    (hnext : s.comesNext (fun x => x.grantLeft (·.limitLeft)) n) :
    (g.passTime n).atLimit ∧ g.state.memberOnAir = true := by
  obtain ⟨hleft, -⟩ := hnext
  have hlimit : g.limitLeft = some n := by
    rw [← hleft]; exact (congrArg (·.bind (·.limitLeft)) hg).symm
  unfold Grant.limitLeft at hlimit
  split at hlimit
  · rename_i hair
    obtain ⟨l, hl, hn⟩ := Option.map_eq_some_iff.1 hlimit
    have hsamples : (g.passTime n).keySamples = g.keySamples + n :=
      if_pos (by revert hair; cases g.state <;> decide)
    exact ⟨⟨l, hl, by rw [hsamples]; simp only [ms] at hn; omega⟩, hair⟩
  · cases hlimit

/-- The limit that a notice of a changed max key time brings (R75). -/
theorem takeKeyLimit_grant {u : State} {m : MemberIx} {g : Grant} (hg : u.key.grant = some g) (hkind : g.kind = .member)
    (hmember : g.member = some m) :
    takeKeyLimit m u =
      if g.state.memberOnAir = true ∧ keyLimitMs (u.member m) (u.channel g.channel) ≤ g.keyTime then
        unkey (if g.state = .keyed then { g with keyLimit := some g.keyTime, endReason := some (g.endReason.getD .timeout) }
          else { g with keyLimit := some g.keyTime }) u
      else u.withGrant (some { g with keyLimit := some (keyLimitMs (u.member m) (u.channel g.channel)) }) := by
  unfold takeKeyLimit
  rw [hg]
  dsimp only
  rw [if_pos ⟨hkind, hmember⟩]
  simp only [Bool.and_eq_true, decide_eq_true_eq]
  by_cases hkeyed : g.state = .keyed
  · rw [if_pos hkeyed, if_pos hkeyed]; rfl
  · rw [if_neg hkeyed, if_neg hkeyed]

/-- A notice of a changed max key time says nothing to another member's grant, to an identification, or to no grant. -/
theorem takeKeyLimit_other {u : State} {m : MemberIx}
    (h : ∀ g, u.key.grant = some g → g.kind = .ident ∨ g.member ≠ some m) : takeKeyLimit m u = u := by
  unfold takeKeyLimit
  cases hg : u.key.grant with
  | none => rfl
  | some g =>
    refine if_neg fun ⟨hkind, hmember⟩ => ?_
    rcases h g hg with hident | hother
    · rw [hkind] at hident; cases hident
    · exact hother hmember

/-- Settles O47. -/
theorem theKeyLimitUnkeysTheGrant : Obligations.TheKeyLimitUnkeysTheGrant := by
  refine ⟨Grant.limitLeft_eq, fun s n g hs hg hnext => ?_, fun s m hs hr hnotice => ?_⟩
  · intro u h
    obtain ⟨hexec, hto⟩ := grant_ends hs hg hnext endAtKeyLimit_frame endAtKeyLimit_stores
    obtain ⟨hlimit, hair⟩ := atLimit_of_comesNext hg hnext
    exact ⟨_, _, congrArg Host.Outcome.next hexec, endAtKeyLimit_spec h u (passTime_law hs) hlimit hair, hto⟩
  · intro u
    have hu : u.memoryLaw := hs
    have hexec : exec (.keyLimitNotice m) s = .next (event (takeKeyLimit m) u) :=
      congrArg Host.Outcome.next (takeNotice_next hr hnotice)
    refine ⟨fun hother => ?_, fun g hg hkind hmember => ?_⟩
    · rw [hexec, event_same (takeKeyLimit_other (u := u) hother)]
    · intro limit h
      have hwork := takeKeyLimit_grant (u := u) hg hkind hmember
      refine ⟨fun hair hle => ?_, fun hnot => ?_⟩
      · rw [if_pos ⟨hair, hle⟩] at hwork
        have hto : EventTo endParts (endStores s) u (takeKeyLimit m u) (event (takeKeyLimit m) u) :=
          (event_to (Q := logPlace s.log) (by rw [hwork]; exact unkey_frame _ u)
            (by rw [hwork]; exact unkey_stores _ u) hu).mono (fun _ h => h) fun _ h => h
        exact ⟨_, takeKeyLimit m u, hexec, by rw [hwork]; exact unkey_spec _ u hu, hto⟩
      · rw [if_neg fun ⟨hair, hle⟩ => hnot.elim (fun hoff => by rw [hoff] at hair; cases hair) fun hlt =>
          absurd hle (Nat.not_le.2 hlt)] at hwork
        have hto : EventTo [.key] noWord u (takeKeyLimit m u) (event (takeKeyLimit m) u) := by
          have hframe : OnlyChanges [.key] u (takeKeyLimit m u) := by rw [hwork]; exact withGrant_frame
          obtain ⟨-, -, hpublishes⟩ := event_to hframe (.of_mem (P := noWord) (hframe .mem (by decide))) hu
          exact ⟨hframe, fun a _ => hframe.read a, hpublishes⟩
        rw [hwork] at hto
        exact ⟨_, hexec, hto⟩

/-! ## Receiver recovery (O48) -/

theorem expireRecovery_frame (s : State) : OnlyChanges courseParts s (expireRecovery s) := by
  unfold expireRecovery
  extract_lets k t h w
  have hw : OnlyChanges courseParts s w := OnlyChanges.trans withKey_frame withHolds_frame
  split
  · exact hw
  · exact .ite (hw.trans (enterGap1_frame _ _)) hw

theorem expireRecovery_stores {P : Nat → Prop} (s : State) : Stores P s (expireRecovery s) := by
  unfold expireRecovery
  extract_lets k t h w
  have hw : Stores P s w := .of_mem rfl
  split
  · exact hw
  · exact .ite (hw.trans (enterGap1_stores _ _)) hw

/-- The recovery being over, a grant that waits on a clear channel goes on (R64, R84). -/
theorem expireRecovery_spec {u : State} (hu : u.memoryLaw) :
    let w := (u.withKey { u.key with recovery := none }).withDetector
      { u.detector with holds := { u.detector.holds with recovery := false } }
    match w.key.grant with
    | none => expireRecovery u = w
    | some h => if h.state = .waitClear ∧ w.detector.debounced = false then EntersGap1 h w (expireRecovery u)
      else expireRecovery u = w := by
  intro w
  have hclear : w.clearCondition = true ↔ w.detector.debounced = false := by
    show (!w.detector.debounced && true) = true ↔ _
    rw [Bool.and_true, Bool.not_eq_true']
  have hwork : expireRecovery u = match w.key.grant with
      | none => w
      | some h => if h.state = .waitClear ∧ w.clearCondition then enterGap1 h w else w := rfl
  rw [hwork]
  cases w.key.grant with
  | none => rfl
  | some h =>
    dsimp only
    split
    · rename_i hwaits
      rw [if_pos ⟨hwaits.1, hclear.2 hwaits.2⟩]
      exact enterGap1_spec h w hu
    · rename_i hnot
      exact if_neg fun hwaits => hnot ⟨hwaits.1, hclear.1 hwaits.2⟩

/-- Settles O48. -/
theorem recoveryExpiryLiftsTheHold : Obligations.RecoveryExpiryLiftsTheHold := by
  intro s n hs hnext u w
  exact ⟨_, _, congrArg Host.Outcome.next (timed_next hnext), expireRecovery_spec (passTime_law hs),
    moment_to hs (expireRecovery_frame u) (expireRecovery_stores u)⟩

end Sys2Proof.Machine
end

section
/-! Deadlines, penalties and identification's moments (O49, O50). -/

set_option Elab.async false

namespace Sys2Proof.Machine

/-! ## Surveillance (O49) -/

theorem passTime_pttLaw {s : State} (n : Nat) (h : s.pttLaw) : (s.passTime n).pttLaw := by
  intro hptt
  obtain ⟨⟨g, hg, hair⟩, hallowed⟩ := h hptt
  exact ⟨⟨g.passTime n, passTime_grant n hg, hair⟩, hallowed⟩

theorem pttLaw_of_frame {s t : State} (hkey : t.key = s.key) (hsupervisor : t.supervisor = s.supervisor)
    (hready : t.ready = s.ready) (h : s.pttLaw) : t.pttLaw := by
  unfold State.pttLaw State.pttForbidden at *
  rwa [hkey, hsupervisor, hready]

theorem State.untilClock_eq (s : State) : s.untilClock = s.leftTo := by
  funext t
  unfold State.untilClock State.leftTo reached
  simp only [decide_eq_true_eq]

theorem State.deadlineLeft_eq (s : State) (k : Slot) : s.deadlineLeft k =
    if (s.session k).state = .opened then (s.session k).deadline.map s.untilClock else none := by
  rw [State.untilClock_eq]; rfl

/-- Session `k`'s record as its deadline expires, its member's lost count raised (R28). -/
def State.sessionLost (u : State) (k : Slot) : State :=
  let x := u.withSession k { u.session k with state := .lost, deadline := none }
  match (u.session k).member with
  | none => x
  | some m => x.withMember m { u.member m with lostCount := min 255 ((u.member m).lostCount + 1) }

theorem expireSession_eq (k : Slot) (u : State) :
    expireSession k u = departEntry k .linkLost (endGrantOf k .linkLost (u.sessionLost k)) := by
  unfold expireSession State.sessionLost
  cases (u.session k).member <;> rfl

theorem sessionLost_frame (u : State) (k : Slot) : OnlyChanges [.members, .sessions] u (u.sessionLost k) := by
  unfold State.sessionLost
  cases (u.session k).member with
  | none => exact withSession_frame
  | some m => exact OnlyChanges.trans withSession_frame withMember_frame

theorem sessionLost_session (u : State) (k : Slot) :
    (u.sessionLost k).session k = { u.session k with state := .lost, deadline := none } := by
  unfold State.sessionLost
  cases (u.session k).member <;> exact (State.withSession_session ..).trans (if_pos rfl)

theorem sessionLost_lostCount (u : State) (k : Slot) (m : MemberIx) : ((u.sessionLost k).member m).lostCount =
    if (u.session k).member = some m then min 255 ((u.member m).lostCount + 1) else (u.member m).lostCount := by
  unfold State.sessionLost
  cases (u.session k).member with
  | none => rfl
  | some b =>
    by_cases hm : m = b
    · rw [if_pos (congrArg some hm.symm), hm]
      exact congrArg Member.lostCount ((State.withMember_member ..).trans (if_pos rfl))
    · rw [if_neg fun h => hm (Option.some.inj h).symm]
      exact congrArg Member.lostCount ((State.withMember_member ..).trans (if_neg hm))

/-- Settles O49. -/
theorem surveillanceExpiryLosesTheSession : Obligations.SurveillanceExpiryLosesTheSession := by
  refine ⟨State.deadlineLeft_eq, fun s n k hs hp hnext => ?_⟩
  intro u x y
  have hy : y = u.sessionLost k := rfl
  have hframe := sessionLost_frame u k
  have hlaw : (u.sessionLost k).memoryLaw := by
    rw [State.memoryLaw, hframe .mem (by decide)]; exact passTime_law hs
  have hptt : (u.sessionLost k).pttLaw := pttLaw_of_frame (hframe .key (by decide)) (hframe .supervisor (by decide))
    (congrArg (· == Phase.ready) (hframe .phase (by decide))) (passTime_pttLaw n hp)
  obtain ⟨hends, hstate, hmember, hdeadline⟩ := endService_spec k .linkLost (u.sessionLost k) hlaw hptt rfl
  rw [sessionLost_session] at hstate hmember hdeadline
  rw [hy]
  refine ⟨_, expireSession k u, congrArg Host.Outcome.next (timed_next hnext), ?_, ?_, ?_, ?_, fun m => ?_,
    moment_ends hs (expireSession_frame k u) (.at (expireSession_stores k u) rfl)⟩ <;> rw [expireSession_eq]
  · exact hends
  · exact hstate
  · exact hmember
  · exact hdeadline nofun
  · rw [(departEntry_frame _ _ _).member, endGrantOf_lost k .linkLost _ hlaw rfl]
    exact sessionLost_lostCount u k m

/-! ## The ends of a penalty, of the ID interval and of the quiet timer (O50) -/

theorem penaltyInForce_iff (s : State) (m : MemberIx) : s.penaltyInForce m = true ↔
    ∃ e, (s.member m).penaltyEnd = some e ∧ 2 ^ 31 ≤ (s.clock - e).toNat := by
  unfold State.penaltyInForce reached
  cases (s.member m).penaltyEnd with
  | none => simp
  | some e => simp

theorem State.intervalLeft_eq (s : State) : s.intervalLeft = if s.ident.intervalReached then none else
    some (s.untilClock (s.ident.lastId.getD 0 + BitVec.ofNat 32 (1000 * s.params.idInterval))) := by
  rw [State.untilClock_eq]; rfl

/-- Settles O50. -/
theorem penaltyEndsAndIdentificationFallsDue : Obligations.PenaltyEndsAndIdentificationFallsDue := by
  refine ⟨fun s m => by rw [State.untilClock_eq]; rfl, State.intervalLeft_eq, penaltyInForce_iff, fun s n m hs hnext => ?_, fun s n hs hnext => ?_,
    fun s n hs hnext => ?_⟩
  · intro u
    have hu : u.memoryLaw := passTime_law hs
    exact ⟨_, _, congrArg Host.Outcome.next (timed_next hnext), arbitrate_spec _ hu,
      moment_to hs (f := endPenalty m) (OnlyChanges.after (arbitrate_frame _) (withMember_frame (by decide)))
        (Stores.after (arbitrate_stores _) withMember_stores)⟩
  · intro u
    have hu : u.memoryLaw := passTime_law hs
    exact ⟨_, _, congrArg Host.Outcome.next (timed_next hnext), dueThen_spec (u.withIdent _) hu,
      moment_to hs (f := reachInterval) (OnlyChanges.after (dueThen_frame _ _) (withIdent_frame (by decide)))
        (Stores.after (dueThen_stores _ _) withIdent_stores)⟩
  · intro u
    have hu : u.memoryLaw := passTime_law hs
    exact ⟨_, _, congrArg Host.Outcome.next (timed_next hnext), dueThen_spec (u.withIdent _) hu,
      moment_to hs (f := expireQuiet) (OnlyChanges.after (dueThen_frame _ _) (withIdent_frame (by decide)))
        (Stores.after (dueThen_stores _ _) withIdent_stores)⟩

end Sys2Proof.Machine
end

section
/-! What the DAC is given, and the identification's pattern (O51). -/

set_option Elab.async false

namespace Sys2Proof.Machine

/-! ## The layout of the pattern (R130, 11.3) -/

theorem characterParts_eq (elements : List Bool) : characterParts elements =
    (elements.map fun dash => PatternPart.mk true (if dash then 3 else 1)).intersperse ⟨false, 1⟩ := by
  induction elements with
  | nil => rfl
  | cons a rest ih =>
    cases rest with
    | nil => rfl
    | cons b rest =>
      rw [characterParts, ih]
      · rfl
      · exact List.cons_ne_nil b rest

/-- A character is laid out and the rest follows it. -/
theorem patternFrom_character (started spaces : Bool) {c : Nat} (hc : c ≤ 36) (rest : List Nat) :
    patternFrom started spaces (c :: rest) =
      (if started then [⟨false, if spaces then 7 else 3⟩] else []) ++ characterParts (morse c) ++ patternFrom true false rest :=
  if_neg (by omega)

theorem patternFrom_space (started spaces : Bool) (rest : List Nat) :
    patternFrom started spaces (37 :: rest) = patternFrom started true rest := if_pos rfl

/-- What follows a character depends on the text behind it alone. -/
theorem patternFrom_append {c : Nat} (hc : c ≤ 36) (rest : List Nat) (front : List Nat) : ∀ started spaces : Bool,
    patternFrom started spaces (front ++ c :: rest) = patternFrom started spaces (front ++ [c]) ++ patternFrom true false rest := by
  induction front with
  | nil =>
    intro started spaces
    rw [List.nil_append, List.nil_append, patternFrom_character _ _ hc, patternFrom_character _ _ hc]
    simp only [patternFrom, List.append_nil]
  | cons a front ih =>
    intro started spaces
    rw [List.cons_append, List.cons_append, patternFrom, patternFrom]
    split
    · exact ih _ _
    · rw [ih, List.append_assoc, List.append_assoc, List.append_assoc]

/-- Spaces are passed over, and noted. -/
theorem patternFrom_spaces (started spaces : Bool) (k : Nat) (rest : List Nat) :
    patternFrom started spaces (List.replicate k 37 ++ rest) = patternFrom started (if k = 0 then spaces else true) rest := by
  induction k generalizing spaces with
  | zero => rfl
  | succ k ih =>
    rw [List.replicate_succ, List.cons_append, patternFrom_space, ih, if_neg (Nat.succ_ne_zero k), ite_self]

/-- Before the first character, spaces leave no gap. -/
theorem patternFrom_leading (spaces : Bool) (text : List Nat) : patternFrom false spaces text = pattern text := by
  unfold pattern
  cases text <;> rfl

/-- Behind the last character, spaces leave no gap. -/
theorem patternFrom_trailing (k : Nat) (text : List Nat) : ∀ started spaces : Bool,
    patternFrom started spaces (text ++ List.replicate k 37) = patternFrom started spaces text := by
  induction text with
  | nil =>
    intro started spaces
    have h := patternFrom_spaces started spaces k []
    rw [List.append_nil] at h
    exact h
  | cons a text ih =>
    intro started spaces
    rw [List.cons_append, patternFrom, patternFrom, ih, ih]

/-- A character after another, with the gap that the spaces between them make. -/
theorem patternFrom_next (spaces : Bool) {d : Nat} (hd : d ≤ 36) (back : List Nat) :
    patternFrom true spaces (d :: back) = ⟨false, if spaces then 7 else 3⟩ :: pattern (d :: back) := by
  unfold pattern
  rw [patternFrom_character _ _ hd, patternFrom_character _ _ hd]
  rfl

theorem pattern_layout (text front back : List Nat) (k c d : Nat) (hc : c ≤ 36) (hd : d ≤ 36) :
    pattern [c] = ((morse c).map fun dash => PatternPart.mk true (if dash then 3 else 1)).intersperse ⟨false, 1⟩ ∧
    pattern (front ++ c :: d :: back) = pattern (front ++ [c]) ++ ⟨false, 3⟩ :: pattern (d :: back) ∧
    pattern (front ++ c :: List.replicate (k + 1) 37 ++ d :: back) =
      pattern (front ++ [c]) ++ ⟨false, 7⟩ :: pattern (d :: back) ∧
    pattern (List.replicate k 37 ++ text) = pattern text ∧ pattern (text ++ List.replicate k 37) = pattern text := by
  refine ⟨?_, ?_, ?_, ?_, patternFrom_trailing k text _ _⟩
  · rw [← characterParts_eq]
    exact (patternFrom_character _ _ hc []).trans (List.append_nil _)
  · exact (patternFrom_append hc _ front _ _).trans (congrArg _ (patternFrom_next false hd back))
  · rw [List.append_assoc, List.cons_append]
    refine (patternFrom_append hc _ front _ _).trans (congrArg _ ?_)
    rw [patternFrom_spaces, if_neg (Nat.succ_ne_zero k), patternFrom_next true hd]
    rfl
  · exact (patternFrom_spaces _ _ k text).trans (patternFrom_leading _ text)

/-- The last part, if any, is an element of tone. -/
def endsInTone (parts : List PatternPart) : Prop := ∀ x, parts.getLast? = some x → x.tone = true

theorem characterParts_endsInTone : ∀ elements : List Bool, endsInTone (characterParts elements)
  | [] => nofun
  | [_] => fun _ h => by cases h; rfl
  | _ :: b :: rest => fun x h => by
    refine characterParts_endsInTone (b :: rest) x ?_
    cases hparts : characterParts (b :: rest) with
    | nil => cases rest <;> cases hparts
    | cons y ys =>
      rw [characterParts, hparts, List.getLast?_cons_cons, List.getLast?_cons_cons] at h
      · exact h
      · exact List.cons_ne_nil b rest

theorem characterParts_ne_nil {c : Nat} (hc : c ≤ 36) : characterParts (morse c) ≠ [] := by
  have hall : ∀ c : Fin 37, characterParts (morse c) ≠ [] := by decide
  exact hall ⟨c, by omega⟩

theorem patternFrom_endsInTone (text : List Nat) : ∀ started spaces : Bool, (∀ c ∈ text, c ≤ 37) →
    endsInTone (patternFrom started spaces text) := by
  induction text with
  | nil => exact fun _ _ _ => nofun
  | cons a text ih =>
    intro started spaces hcodes
    have hrest := fun c hc => hcodes c (List.mem_cons_of_mem a hc)
    by_cases ha : a = 37
    · rw [ha, patternFrom_space]
      exact ih _ _ hrest
    · have ha' : a ≤ 36 := by have := hcodes a List.mem_cons_self; omega
      intro x hx
      rw [patternFrom_character _ _ ha', List.getLast?_append] at hx
      cases hlast : (patternFrom true false text).getLast? with
      | some y =>
        rw [hlast] at hx
        exact ih _ _ hrest x (hlast.trans hx)
      | none =>
        rw [hlast, Option.none_or, List.getLast?_append, List.getLast?_eq_some_getLast (characterParts_ne_nil ha')] at hx
        exact characterParts_endsInTone _ x ((List.getLast?_eq_some_getLast (characterParts_ne_nil ha')).trans hx)

theorem patternUnits_eq (parts : List PatternPart) : patternUnits parts = (parts.map (·.units)).sum := by
  induction parts with
  | nil => rfl
  | cons p rest ih => rw [patternUnits, ih, List.map_cons, List.sum_cons]

/-! ## The envelope and the DAC (R101, R131, R132) -/

/-- The envelope behind the last part: its fall, where it is an element of tone. -/
theorem envelope_end (unit j : Nat) : ∀ (parts : List PatternPart) (tail : Bool),
    envelope unit tail parts (patternUnits parts * unit + j) =
      if lastTone tail parts && decide (j < 32) then some (4 * (j / 2 + 1)) else none := by
  intro parts
  induction parts with
  | nil =>
    intro tail
    simp only [patternUnits, Nat.zero_mul, Nat.zero_add]
    rfl
  | cons p rest ih =>
    intro tail
    have hsplit : patternUnits (p :: rest) * unit + j = p.units * unit + (patternUnits rest * unit + j) := by
      rw [patternUnits, Nat.add_mul, Nat.add_assoc]
    rw [envelope, hsplit, if_neg (by omega), Nat.add_sub_cancel_left, ih]
    congr 2
    unfold lastTone
    cases rest with
    | nil => rfl
    | cons q r => rw [List.getLast?_cons_cons, List.getLast?_eq_some_getLast (l := q :: r) (by simp)]; rfl

theorem lastTone_concat (tail : Bool) (front : List PatternPart) (y : PatternPart) : lastTone tail (front ++ [y]) = y.tone := by
  unfold lastTone
  rw [List.getLast?_concat]
  rfl

theorem dac_idSending {s : State} {g : Grant} (hptt : s.key.ptt = true) (hg : s.key.grant = some g)
    (hstate : g.state = .idSending) {k : Nat} (hk : s.ident.position = some k) :
    s.dac = match envelope s.params.unitSamples false (pattern s.params.idText) k with
      | none => 0
      | some e => level (triangle s.ident.phase) (s.params.idAttenuation + e) := by
  unfold State.dac
  rw [hptt, hg]
  dsimp only
  rw [hstate, hk]
  rfl

/-- The samples of one part of the pattern. -/
theorem dac_of_part {s : State} {g : Grant} {front back : List PatternPart} {x : PatternPart} {j : Nat}
    (hptt : s.key.ptt = true) (hg : s.key.grant = some g) (hstate : g.state = .idSending)
    (hpattern : pattern s.params.idText = front ++ x :: back) (hj : j < x.units * (8 * s.params.idUnit))
    (hposition : s.ident.position = some (patternUnits front * (8 * s.params.idUnit) + j)) :
    (x.tone = true → s.dac = level (triangle s.ident.phase)
      (s.params.idAttenuation + (if j < 32 then 4 * (16 - j / 2) else 0 : Nat))) ∧
    (x.tone = false → j < 32 → (∃ f y, front = f ++ [y] ∧ y.tone = true) →
      s.dac = level (triangle s.ident.phase) (s.params.idAttenuation + (4 * (j / 2 + 1) : Nat))) ∧
    (x.tone = false → 32 ≤ j → s.dac = 0) := by
  have henvelope := envelope_at (8 * s.params.idUnit) x back j hj front false
  rw [dac_idSending hptt hg hstate hposition, hpattern, Params.unitSamples, henvelope]
  refine ⟨fun htone => ?_, fun htone hfall ⟨f, y, hfront, hy⟩ => ?_, fun htone hsilent => ?_⟩
  · rw [if_pos htone]
  · rw [htone, hfront, lastTone_concat, hy, decide_eq_true hfall]; rfl
  · rw [htone, decide_eq_false (by omega), Bool.and_false]; rfl

/-- The samples of the last element's fall. -/
theorem dac_of_last {s : State} {g : Grant} {front : List PatternPart} {x : PatternPart} {j : Nat}
    (hptt : s.key.ptt = true) (hg : s.key.grant = some g) (hstate : g.state = .idSending)
    (hpattern : pattern s.params.idText = front ++ [x]) (hx : x.tone = true) (hj : j < 32)
    (hposition : s.ident.position = some (patternUnits (pattern s.params.idText) * (8 * s.params.idUnit) + j)) :
    s.dac = level (triangle s.ident.phase) (s.params.idAttenuation + (4 * (j / 2 + 1) : Nat)) := by
  have henvelope := envelope_end s.params.unitSamples j (pattern s.params.idText) false
  rw [show lastTone false (pattern s.params.idText) = true by rw [hpattern, lastTone_concat, hx], decide_eq_true hj] at henvelope
  rw [dac_idSending hptt hg hstate hposition]
  exact (congrArg (fun e : Option Nat => match e with
    | none => 0
    | some e => level (triangle s.ident.phase) (s.params.idAttenuation + e)) henvelope)

theorem dac_block {s : State} {g : Grant} (hptt : s.key.ptt = true) (hg : s.key.grant = some g)
    (hstate : g.state ∈ [GrantState.keyed, .drain, .tail]) : s.dac = s.playout.dacBlock.headD 0 := by
  unfold State.dac
  rw [hptt, hg]
  simp only [List.mem_cons, List.not_mem_nil, or_false] at hstate
  rcases hstate with h | h | h <;> (dsimp only; rw [h])

/-- In each sample period the DAC is given the next sample of the block (R101). -/
theorem dac_passTime {s : State} {g : Grant} (hptt : s.key.ptt = true) (hg : s.key.grant = some g)
    (hstate : g.state ∈ [GrantState.keyed, .drain, .tail]) (n : Nat) : (s.passTime n).dac = s.playout.dacBlock.getD n 0 := by
  rw [dac_block (s := s.passTime n) hptt (passTime_grant n hg) hstate]
  show (s.playout.dacBlock.drop n).headD 0 = _
  rw [List.headD_eq_head?_getD, List.head?_drop, List.getD_eq_getElem?_getD]

theorem dac_silent {s : State} (h : s.key.ptt = false ∨ (∀ g, s.key.grant = some g → g.state.onAir = false)) : s.dac = 0 := by
  unfold State.dac
  rcases h with hoff | hground
  · rw [hoff]
  · cases hg : s.key.grant with
    | none => cases s.key.ptt <;> rfl
    | some g =>
      have hstate := hground g hg
      cases s.key.ptt with
      | false => rfl
      | true =>
        dsimp only
        generalize g.state = state at hstate
        cases state with
        | keyed | drain | tail | idSending => cases hstate
        | changeover | waitClear | gap1 | gap2 | prebuffer => rfl

theorem dac_unstarted {s : State} {g : Grant} (hg : s.key.grant = some g) (hstate : g.state = .idSending)
    (hposition : s.ident.position = none) : s.dac = 0 := by
  unfold State.dac
  rw [hg]
  cases s.key.ptt with
  | false => rfl
  | true =>
    dsimp only
    rw [hstate, hposition]

/-! ## The pattern's moments (R130, R133) -/

theorem patternLeft_of_none {s : State} (hg : s.key.grant = none) : s.patternStartLeft = none ∧ s.patternEndLeft = none := by
  unfold State.patternStartLeft State.patternEndLeft
  rw [hg]
  exact ⟨rfl, rfl⟩

theorem patternLeft_eq {s : State} {g : Grant} (hg : s.key.grant = some g) :
    s.patternStartLeft =
      (if g.state = .idSending ∧ s.ident.position = none then some (8 * s.params.txDelay - g.keySamples) else none) ∧
    s.patternEndLeft =
      (if g.state = .idSending ∧ s.ident.position ≠ none then
        some (8 * s.params.txDelay + patternUnits (pattern s.params.idText) * (8 * s.params.idUnit) + 32 - g.keySamples)
      else none) := by
  have hsamples : s.params.patternSamples = patternUnits (pattern s.params.idText) * (8 * s.params.idUnit) + 32 := by
    unfold Params.patternSamples Params.unitSamples
    rw [Nat.mul_comm]
  unfold State.patternStartLeft State.patternEndLeft
  rw [hg, hsamples, Nat.add_assoc]
  simp only [Option.bind_some, Option.isNone_iff_eq_none, Option.isSome_iff_ne_none, ms, and_self]

theorem passTime_pattern {s : State} {k : Nat} (n : Nat) (hk : s.ident.position = some k) :
    (s.passTime n).ident.position = some (k + n) ∧
    (s.passTime n).ident.phase = s.ident.phase + BitVec.ofNat 16 (n * ((8192 * s.params.idTone + 500) / 1000)) := by
  refine ⟨congrArg (Option.map (· + n)) hk, ?_⟩
  show (if s.ident.position.isSome then _ else _) = _
  rw [hk, Option.isSome_some, if_pos rfl, phaseStep, Nat.mul_comm 8192]
  rfl

/-- The pattern's completion is an unkey ID_DONE (R133). -/
theorem patternComplete_ends {s : State} {n : Nat} {g : Grant} (hs : s.memoryLaw) (hg : s.key.grant = some g)
    (hnext : s.comesNext State.patternEndLeft n) :
    let u := s.passTime n
    let h : Grant := { g.passTime n with endReason := some (g.endReason.getD .idDone) }
    ∃ t v, exec .idPatternComplete s = .next t ∧ Unkeys h u v ∧ EventTo endParts (endStores s) u v t := by
  intro u h
  have hsending : (g.passTime n).state = .idSending := by
    obtain ⟨hleft, -⟩ := hnext
    obtain ⟨-, hend⟩ := patternLeft_eq hg
    rw [hend] at hleft
    by_contra hstate
    rw [if_neg fun hc => hstate hc.1] at hleft
    cases hleft
  let f : Grant → State → State := fun g => applyCause g .idDone
  have hto := moment_ends (f := onGrant f) (n := n) hs (onGrant_frame (fun g u => applyCause_frame g .idDone u) _)
    (.at (onGrant_stores fun g => applyCause_stores g .idDone u) rfl)
  rw [onGrant_passTime f n hg] at hto
  have hwork : f (g.passTime n) u = unkey h u := by
    show applyCause (g.passTime n) .idDone u = _
    unfold applyCause causeClass
    rw [hsending]
    rfl
  rw [hwork] at hto
  exact ⟨_, _, congrArg Host.Outcome.next (timed_next hnext), unkey_spec h u (passTime_law hs), hto⟩

/-- Settles O51. -/
theorem theIdentificationPatternIsSentToTheDac : Obligations.TheIdentificationPatternIsSentToTheDac := by
  refine ⟨fun s g hptt hg hstate => ⟨dac_block hptt hg hstate, dac_passTime hptt hg hstate⟩, fun s hg => patternLeft_of_none hg,
    fun s g hg => patternLeft_eq hg, fun s n hnext => ?_, fun s n k hk => passTime_pattern n hk,
    fun s g front back x j hptt hg hstate hpattern hj hposition => dac_of_part hptt hg hstate hpattern hj hposition,
    fun s g front x j hptt hg hstate hpattern hx hj hposition => dac_of_last hptt hg hstate hpattern hx hj hposition,
    fun s g hg hstate hposition => dac_unstarted hg hstate hposition,
    fun text front back k c d hc hd => pattern_layout text front back k c d hc hd, by decide +kernel, patternUnits_eq,
    fun text front x hcodes hpattern => ?_, fun s n g hs hg hnext => patternComplete_ends hs hg hnext, fun s => dac_silent⟩
  · have hstart : event startPattern (s.passTime n) = startPattern (s.passTime n) :=
      event_unchanged (ps := [.ident]) withIdent_frame
    exact congrArg Host.Outcome.next ((timed_next hnext).trans hstart)
  · exact patternFrom_endsInTone text false false hcodes x (by
      show (pattern text).getLast? = _
      rw [hpattern, List.getLast?_concat])

end Sys2Proof.Machine
end

section
/-! The notices between blocks (O52–O54). -/

set_option Elab.async false

namespace Sys2Proof.Machine

/-! ## The end notice (O52) -/

/-- What the end notice does before the floor is idle (R44, R52): the claim is queued again, or the courtesy interval starts. -/
def State.claimEnded (u : State) (kind : GrantKind) (r : EndReason) : State :=
  match u.requeueEntry kind r with
  | some e => joinQueue e u
  | none => u.withFloor { u.floor with courtesy := startTimer (ms u.params.courtesy) }

/-- The granted entry is forgotten and the floor is idle, and quiet where no entry waits (R43, R126). -/
def State.floorFreed (w : State) : State :=
  (w.withFloor { w.floor with granted := none, idle := true }).withIdent { w.ident with
    quiet := if w.floor.queue = [] then .running (8000 * w.params.idEndDelay) else w.ident.quiet }

theorem takeEnded_eq (kind : GrantKind) (r : EndReason) (u : State) :
    takeEnded kind r u = arbitrate (u.claimEnded kind r).floorFreed := by
  have hquiet : ∀ w : State, (w.withFloor { w.floor with granted := none, idle := true }).noteQuiet = w.floorFreed := by
    intro w
    unfold State.noteQuiet State.floorQuiet State.floorFreed
    cases hqueue : w.floor.queue with
    | nil => rw [if_pos rfl, if_pos (by simp [hqueue])]; rfl
    | cons e rest => rw [if_neg (List.cons_ne_nil e rest), if_neg (by simp [hqueue])]; rfl
  exact congrArg arbitrate (hquiet (u.claimEnded kind r))

theorem claimEnded_frame (u : State) (kind : GrantKind) (r : EndReason) :
    OnlyChanges [.floor, .ident] u (u.claimEnded kind r) := by
  unfold State.claimEnded
  split
  · exact joinQueue_frame _ u
  · exact withFloor_frame

theorem claimEnded_stores {P : Nat → Prop} (u : State) (kind : GrantKind) (r : EndReason) :
    Stores P u (u.claimEnded kind r) := by
  unfold State.claimEnded
  split
  · exact joinQueue_stores _ u
  · exact withFloor_stores

theorem claimEnded_notifies (u : State) (kind : GrantKind) (r : EndReason) :
    Floor.Notifies u.floor (u.claimEnded kind r).floor := by
  unfold State.claimEnded
  split
  · exact joinQueue_notifies _ u
  · exact .of_same rfl rfl

/-- A claim that lives on joins the queue again; any other starts the courtesy interval (R44, R52). -/
theorem claimEnded_spec (u : State) (kind : GrantKind) (r : EndReason) :
    (∀ x left, u.claimLivesOn kind r x left → x.joinsAgain left u (u.claimEnded kind r)) ∧
    ((∀ x left, ¬ u.claimLivesOn kind r x left) → u.claimEnded kind r = u.withFloor { u.floor with
      courtesy := if u.params.courtesy = 0 then none else some (8 * u.params.courtesy) }) := by
  refine ⟨fun x left hlives => ?_, fun hends => ?_⟩
  · have hrequeue := (requeue_iff u kind r _).2 ⟨x, left, hlives, rfl⟩
    unfold State.claimEnded
    rw [hrequeue]
    exact joinQueue_spec _ u
  · have hrequeue : u.requeueEntry kind r = none := by
      cases h : u.requeueEntry kind r with
      | none => rfl
      | some e =>
        obtain ⟨x, left, hlives, -⟩ := (requeue_iff u kind r e).1 h
        exact absurd hlives (hends x left)
    unfold State.claimEnded
    rw [hrequeue, ← startTimer_ms]

/-- Settles O52. -/
theorem theEndNoticeFreesTheFloor : Obligations.TheEndNoticeFreesTheFloor := by
  intro s kind tag n r front rest hs hr hnotices hfront u
  obtain ⟨hfirst, herase⟩ := firstEnded_split front rest (.ended kind tag n r) rfl hfront
  have hmem : Notice.ended kind tag n r ∈ s.notices := by rw [hnotices]; simp
  have hwork : takeEndNotice s = event (takeEnded kind r) u := by
    unfold takeEndNotice
    rw [hnotices, hfirst]
    dsimp only
    rw [takeNotice_next hr hmem, hnotices, herase]
  let w := u.claimEnded kind r
  have hw : w.memoryLaw := (claimEnded_stores (P := noWord) u kind r).law hs
  have hparams : w.params = u.params := claimEnded_frame u kind r .params (by decide)
  have hto : EventTo arbitrationParts (inFilled s) u (takeEnded kind r u) (event (takeEnded kind r) u) :=
    (event_to (Q := noWord) (takeEnded_frame kind r u) (takeEnded_stores kind r u) hs).mono (fun _ h => h)
      fun _ h => h.resolve_left id
  obtain ⟨hjoins, hcourtesy⟩ := claimEnded_spec u kind r
  have hnotifies : Floor.Notifies w.floor (arbitrate w.floorFreed).floor :=
    (Floor.Notifies.of_same (g := w.floorFreed.floor) rfl rfl).trans (arbitrate_notifies _)
  rw [takeEnded_eq] at hto
  refine ⟨_, _, w, congrArg Host.Outcome.next hwork, hjoins, hcourtesy, ?_, hto,
    hto.newsOfMoved (.of_same rfl rfl) (claimEnded_notifies u kind r) hnotifies,
    hto.newsOfMoved (claimEnded_notifies u kind r) ?_ ?_⟩
  · rw [← hparams]
    exact arbitrate_spec w.floorFreed hw
  · rw [hto.kept .floor (by decide)]
    exact hnotifies
  · rw [hto.kept .floor (by decide)]
    exact .of_same rfl rfl

/-! ## Revocation and privilege notices (O53) -/

/-- A revocation notice closes the slot its member is bound to (R25). -/
theorem takeRevocation_bound {u : State} {m : MemberIx} {k : Slot} (hb : u.bindingLaw) (hstate : (u.session k).state ≠ .free)
    (hmember : (u.session k).member = some m) : takeRevocation m u = closeSession k .revoked u := by
  unfold takeRevocation
  rw [slotOf_some hb hstate hmember]

theorem takeRevocation_unbound {u : State} {m : MemberIx}
    (h : ∀ k, (u.session k).state ≠ .free → (u.session k).member ≠ some m) : takeRevocation m u = u := by
  unfold takeRevocation
  rw [slotOf_none h]

/-- A MEMBER grant that fails the privilege part takes REVOKED, and any other is left (R6). -/
theorem revokeGrant_spec {u : State} {m : MemberIx} (hu : u.memoryLaw) :
    (∀ g, u.key.grant = some g ∧ g.kind = .member ∧ g.member = some m → ¬ u.mayKey m g.channel →
      EndsAbruptly g .revoked u (revokeGrant m u)) ∧
    ((∀ g, u.key.grant = some g ∧ g.kind = .member ∧ g.member = some m → u.mayKey m g.channel) → revokeGrant m u = u) := by
  have hfails : ∀ c, (!privileged (u.member m) (u.channel c) c) = true ↔ ¬ u.mayKey m c := fun c => by
    rw [Bool.not_eq_true', ← privileged_iff, Bool.not_eq_true]
  unfold revokeGrant
  refine ⟨fun g ⟨hg, hkind, hmember⟩ hnot => ?_, fun hpass => ?_⟩
  · rw [hg]
    dsimp only
    rw [if_pos ⟨hkind, hmember, (hfails _).2 hnot⟩]
    exact takeCause_spec .revoked hu rfl hg
  · cases hg : u.key.grant with
    | none => rfl
    | some g => exact if_neg fun ⟨hkind, hmember, hnot⟩ => (hfails _).1 hnot (hpass g ⟨hg, hkind, hmember⟩)

/-- The slot a member is bound to, by the records of the sessions. -/
theorem slotOf_congr {u w : State} (hstate : ∀ k, (w.session k).state = (u.session k).state)
    (hmember : ∀ k, (w.session k).member = (u.session k).member) (m : MemberIx) : w.slotOf m = u.slotOf m := by
  unfold State.slotOf
  simp only [hstate, hmember]

theorem Grant.endsAt.bindings {g : Grant} {r : EndReason} {u v : State} (h : g.endsAt r u v) (k : Slot) :
    (v.session k).state = (u.session k).state ∧ (v.session k).member = (u.session k).member := by
  rw [h k]
  split <;> exact ⟨rfl, rfl⟩

/-- What the Floor Arbiter looks at in a privilege notice is as it was before the Key Controller took it. -/
theorem revokeGrant_keeps {u : State} (m : MemberIx) (hu : u.memoryLaw) :
    (∀ a, (revokeGrant m u).slotOf a = u.slotOf a) ∧ (∀ k, (revokeGrant m u).entryOf k = u.entryOf k) ∧
    (∀ a c, (revokeGrant m u).mayKey a c ↔ u.mayKey a c) := by
  have hframe := revokeGrant_frame u m
  have hwork : revokeGrant m u = u ∨ ∃ g, revokeGrant m u = applyCause g .revoked u := by
    unfold revokeGrant takeCause
    cases u.key.grant with
    | none => exact .inl rfl
    | some g =>
      dsimp only
      split
      · exact .inr ⟨g, if_pos rfl⟩
      · exact .inl rfl
  refine ⟨fun a => ?_, fun k => State.entryOf_floor (hframe .floor (by decide)) k, fun a c => ?_⟩
  · rcases hwork with h | ⟨g, h⟩ <;> rw [h]
    have hends := applyCause_sessions g .revoked u hu rfl
    exact slotOf_congr (fun k => (hends.bindings k).1) (fun k => (hends.bindings k).2) a
  · have hchannel : (revokeGrant m u).channel c = u.channel c := hframe.channel c
    unfold State.mayKey
    rw [hchannel]
    rcases hwork with h | ⟨g, h⟩ <;> rw [h]
    obtain ⟨hpresent, hpermitted, hgrade⟩ := abrupt_privileges g u hu a
    rw [hpresent, hpermitted, hgrade]

/-- The entry of the member's session leaves where it fails the privilege part, and is left where it passes (R6). -/
theorem revokeEntry_spec {w : State} {m : MemberIx} {k : Slot} {e : Entry} (hslot : w.slotOf m = some k) (he : w.entryOf k = some e) :
    (¬ w.mayKey m e.channel → Departs k .revoked w (revokeEntry m w)) ∧ (w.mayKey m e.channel → revokeEntry m w = w) := by
  have hsession : e.session = k := by
    have := List.find?_some he
    exact beq_iff_eq.1 this
  unfold revokeEntry
  rw [hslot, Option.bind_some, he]
  dsimp only
  rw [← privileged_iff, hsession]
  refine ⟨fun hnot => ?_, fun hpass => if_pos hpass⟩
  rw [if_neg hnot]
  exact departs k .revoked w (by rw [he]; rfl)

theorem revokeEntry_none {w : State} {m : MemberIx} (h : ∀ k, w.slotOf m = some k → w.entryOf k = none) : revokeEntry m w = w := by
  unfold revokeEntry
  cases hslot : w.slotOf m with
  | none => rfl
  | some k => rw [Option.bind_some, h k hslot]

/-- Settles O53. -/
theorem revocationAndPrivilegeNoticesAreTaken : Obligations.RevocationAndPrivilegeNoticesAreTaken := by
  refine ⟨fun s m hs hp hb hr hnotice => ?_, fun s m hs hb hr hnotice => ?_⟩
  · intro u
    have hexec : exec (.revocationNotice m) s = .next (event (takeRevocation m) u) :=
      congrArg Host.Outcome.next (takeNotice_next hr hnotice)
    refine ⟨fun k hstate hmember => ?_, fun hnone => ?_⟩
    · have hwork : takeRevocation m u = closeSession k .revoked u := takeRevocation_bound (u := u) hb hstate hmember
      have hto : EventTo closeParts (endStores s) u (takeRevocation m u) (event (takeRevocation m) u) :=
        (event_to (f := takeRevocation m) (u := u) (Q := logPlace s.log) (by rw [hwork]; exact closeSession_frame _ _ u)
          (by rw [hwork]; exact closeSession_stores _ _ u) hs).mono (fun _ h => h) fun _ h => h
      rw [hwork] at hto
      obtain ⟨hends, hfree, hmember, hdeadline⟩ := closeSession_spec k .revoked u hs hp rfl
      exact ⟨_, _, hexec, hends, hfree, hmember, hdeadline, hto⟩
    · rw [hexec, event_same (takeRevocation_unbound (u := u) hnone)]
  · intro u bound held
    have hu : u.memoryLaw := hs
    let w := revokeGrant m u
    have hw : w.memoryLaw := (revokeGrant_stores u m).law hu
    obtain ⟨hslot, hentry, hmayKey⟩ := revokeGrant_keeps m hu
    obtain ⟨hends, hpasses⟩ := revokeGrant_spec (m := m) hu
    have hexec : exec (.privilegeNotice m) s = .next (event (fun t => revokeEntry m (revokeGrant m t)) u) :=
      congrArg Host.Outcome.next (takeNotice_next hr hnotice)
    have hto := event_to (f := fun t => revokeEntry m (revokeGrant m t)) (u := u) (ps := closeParts) (Q := logPlace s.log)
      (OnlyChanges.trans (revokeGrant_frame _ m).mono (revokeEntry_frame _ m).mono)
      (Stores.after (revokeEntry_stores _ m) (revokeGrant_stores _ m)) hu
    have hboundTo : ∀ k, bound k → w.slotOf m = some k := fun k ⟨hstate, hmember⟩ =>
      (hslot m).trans (slotOf_some (s := u) hb hstate hmember)
    refine ⟨_, w, _, hexec, fun g hheld hnot => ⟨hends g hheld hnot, revokeGrant_frame u m⟩, hpasses, fun k e hbound he hnot => ?_,
      fun hall => ?_, hto.mono (fun _ h => h) fun _ h => h⟩
    · obtain ⟨hdeparts, -⟩ := revokeEntry_spec (hboundTo k hbound) ((hentry k).trans he)
      exact hdeparts fun h => hnot ((hmayKey m e.channel).1 h)
    · by_cases hentered : ∃ k e, w.slotOf m = some k ∧ w.entryOf k = some e
      · obtain ⟨k, e, hk, he⟩ := hentered
        have hbound : bound k := slotOf_bound (s := u) ((hslot m).symm.trans hk)
        obtain ⟨-, hstays⟩ := revokeEntry_spec hk he
        exact hstays ((hmayKey m e.channel).2 (hall k e hbound ((hentry k).symm.trans he)))
      · refine revokeEntry_none fun k hk => ?_
        cases he : w.entryOf k with
        | none => rfl
        | some e => exact absurd ⟨k, e, hk, he⟩ hentered

/-! ## Clear notices and end causes (O54) -/

theorem abrupt_of_sentAsNotice {r : EndReason} (h : r.sentAsNotice = true) : causeClass r = .abrupt := by
  cases r <;> first | rfl | cases h

/-- Settles O54. -/
theorem clearNoticesAndEndCausesAreTaken : Obligations.ClearNoticesAndEndCausesAreTaken := by
  refine ⟨fun s r hs hr hnotice => ?_, fun s tag r hs hr hsent hnotice => ?_⟩
  · intro u reason
    have hreason : clearEndReason r = reason := by cases r <;> rfl
    obtain ⟨hfloor, hempty, hsession, hident⟩ := clearQueue_spec (clearEndReason r) u
    rw [hreason] at hsession
    have hexec : exec (.clearNotice r) s = .next (event (clearQueue (clearEndReason r)) u) :=
      congrArg Host.Outcome.next (takeNotice_next hr hnotice)
    have hframe := clearQueue_frame (clearEndReason r) u
    obtain ⟨-, -, hpublishes⟩ := event_to (f := clearQueue (clearEndReason r)) (Q := noWord) hframe (clearQueue_stores _ u) hs
    exact ⟨_, _, hexec, hempty, hfloor, hsession, hident, hframe, fun a _ => hframe.read a, hpublishes⟩
  · intro u
    have hexec : exec (.endCause tag r) s = .next (event (takeCause tag r) u) :=
      congrArg Host.Outcome.next (takeNotice_next hr hnotice)
    refine ⟨fun g hg htag => ?_, fun hother => ?_⟩
    · subst htag
      have hto := event_to (f := takeCause g.tag r) (u := u) (Q := logPlace s.log) (takeCause_frame _ _ u)
        (takeCause_stores _ _ u) hs
      exact ⟨_, _, hexec, takeCause_spec (s := u) r hs (abrupt_of_sentAsNotice hsent) hg, hto.mono (fun _ h => h) fun _ h => h⟩
    · have hgone : takeCause tag r u = u := by
        unfold takeCause
        cases hg : u.key.grant with
        | none => rfl
        | some g => exact if_neg (hother g hg)
      rw [hexec, event_same hgone]

end Sys2Proof.Machine
end

section
/-! What a relation between the states before and after must hold of, so that it holds of every step (`EventsKeep`): one clause for
each effect that the events of the part are put together from. The walk through the rows of the table is made once, here, for every
such relation. -/

set_option Elab.async false

namespace Sys2Proof.Machine

/-- The parts that no law of the floor, the grant or the tables speaks of. -/
def outerParts : List Part :=
  [.channels, .changeCounts, .ident, .cells, .answered, .news, .events, .bus, .params, .mem, .txfaultPin, .disablePin, .samplesOwed,
    .pagesOwed, .choices, .pending]

/-- The relation `R` holds from before to after each effect that the part's events are put together from. The end notice and the
resets are effects of whole commands, and stand apart (`exec_rel`). -/
structure EventsKeep (R : State → State → Prop) : Prop where
  refl : ∀ s, R s s
  trans : ∀ {s t u}, R s t → R t u → R s u
  /-- Stores, flags and figures that no law speaks of. -/
  outer : ∀ {s t}, OnlyChanges outerParts s t → (s.memoryLaw → t.memoryLaw) → R s t
  passTime : ∀ {s : State} {n}, s.ready = true → s.mayPass n = true → R s (s.passTime n)
  notices : ∀ (s : State) x, isEnded x = false → R s (s.withNotices (s.notices.erase x))
  notify : ∀ (s : State) x, isEnded x = false → R s (s.notify x)
  releaseReset : ∀ {s : State}, s.phase = .held → R s s.releaseReset
  finishStartUp : ∀ {s : State}, s.phase = .clearing → R s s.finishStartUp
  -- the Supervisor
  supervisor : ∀ (s : State) v, ((s.withSupervisor v).pttForbidden = true → s.pttForbidden = true) → R s (s.withSupervisor v)
  dropPtt : ∀ {s t : State}, OnlyChanges [.supervisor, .events] s t → R s t.dropPtt
  -- the floor
  floorFlags : ∀ (s : State) f, f.queue = s.floor.queue → f.idle = s.floor.idle → R s (s.withFloor f)
  arbitrate : ∀ s, R s (arbitrate s)
  join : ∀ (s : State) e, (s.session e.session).state = .opened → s.entryOf e.session = none → s.holds e.session = false →
    R s (joinQueue e s)
  /-- A preempting entry takes the place of the session's own. -/
  preempt : ∀ {s : State} {e : Entry} now, (s.session e.session).state = .opened → s.holds e.session = false →
    R s (joinQueue e ((sendCause .preempted now s).removeEntry e.session))
  departEntry : ∀ (s : State) n r, R s (departEntry n r s)
  -- the sessions and the members
  gated : ∀ (s : State) n, R s (s.gated n)
  openSession : ∀ {s : State} {n m}, (s.session n).state = .free → s.slotOf m = none → R s (openSession n m s)
  closeSession : ∀ {s : State} {n} r, (s.session n).state ≠ .free → causeClass r = .abrupt → R s (closeSession n r s)
  expireSession : ∀ {s : State} {n}, (s.session n).state = .opened → R s (expireSession n s)
  member : ∀ (s : State) m r, ((s.member m).budgetLaw → r.budgetLaw) → R s (s.withMember m r)
  -- the receive path
  detector : ∀ (s : State) d, (s.detectorLaw → (s.withDetector d).detectorLaw) → R s (s.withDetector d)
  receiveSample : ∀ x (s : State), R s (receiveSample x s)
  -- the grant
  recovery : ∀ (s : State) k, R s (s.withKey { s.key with recovery := k })
  leaveChangeover : ∀ {s : State} {g}, s.key.grant = some g → g.changeoverLeft ≠ none → R s (leaveChangeover g s)
  enterWaitClear : ∀ {s : State} {g}, s.key.grant = some g → g.state = .gap1 → R s (enterWaitClear g s)
  expireBusyWait : ∀ {s : State} {g}, s.key.grant = some g → R s (expireBusyWait g s)
  enterGap1 : ∀ {s : State} {g}, s.key.grant = some g → g.state = .waitClear → R s (enterGap1 g s)
  enterGap2 : ∀ {s : State} {g}, s.key.grant = some g → g.gap1Left ≠ none → R s (enterGap2 g s)
  leaveGap2 : ∀ {s : State} {g}, s.key.grant = some g → g.gap2Left ≠ none → R s (leaveGap2 g s)
  expirePrebuffer : ∀ {s : State} {g}, s.key.grant = some g → g.prebufferLeft ≠ none → R s (expirePrebuffer g s)
  keyUp : ∀ {s : State} {g}, s.key.grant = some g → g.state = .prebuffer → R s (keyUp g s)
  boundary : ∀ {s : State} {g}, s.key.grant = some g → g.state = .keyed ∨ g.state = .drain → R s (boundaryOf g s)
  tailOver : ∀ {s : State} {g}, s.key.grant = some g → g.tailLeft ≠ none → R s (unkey g s)
  accountTick : ∀ {s : State} {g}, s.key.grant = some g → g.state.memberOnAir = true → R s (accountTick g s)
  endAtKeyLimit : ∀ {s : State} {g}, s.key.grant = some g → g.state.memberOnAir = true → R s (endAtKeyLimit g s)
  applyCause : ∀ {s : State} {g} r, s.key.grant = some g → R s (applyCause g r s)
  takeKeyLimit : ∀ (s : State) m, R s (takeKeyLimit m s)
  cancel : ∀ {s : State} {g}, s.key.grant = some g → g.state.onAir = false → R s (preKeyEnd g .cancelled s)
  drain : ∀ {s : State} {g} f, s.key.grant = some g → g.state = .keyed → R s (beginDrain f g s)

/-! ## The detector's figures (R112–R114) -/

/-- A filter stays within the range of its targets (R114). -/
theorem filterStep_le {up down f t : Nat} (hf : f ≤ 8388352) (ht : t ≤ 8388352) : filterStep up down f t ≤ 8388352 := by
  unfold filterStep
  split
  · have hdiv := Nat.div_le_self (t - f) (2 ^ up)
    omega
  · exact (Nat.sub_le _ _).trans hf

theorem target_le (x : Word) : target x ≤ 8388352 := by
  unfold target rectify
  omega

theorem formStatuses_detectorLaw {s : State} {d : Detector} (hs : d.speech ≤ 8388352) (hn : d.noise ≤ 8388352) (p : Params) :
    (s.withDetector (d.formStatuses p)).detectorLaw := by
  refine ⟨hs, hn, ?_, ?_⟩
  · show d.speech / 2 ^ 15 ≤ 255
    omega
  · show d.noise / 2 ^ 15 ≤ 255
    omega

/-- The debounce reaches none of the filters and levels. -/
theorem debounceBy_figures (d : Detector) (p : Params) (raise : Bool) : ∃ busy run,
    d.debounceBy p raise = { d with debounced := busy, run := run } := by
  unfold Detector.debounceBy
  split
  · exact ⟨_, _, rfl⟩
  · extract_lets count
    split <;> exact ⟨_, _, rfl⟩

theorem evaluate_detectorLaw {s : State} (x : Word) (high : Bool) (h : s.detectorLaw) :
    (s.withDetector (s.detector.evaluate s.params x high)).detectorLaw := by
  obtain ⟨hs, hn, -, -⟩ := h
  let d := s.detector.filter s.params x
  have hspeech : d.speech ≤ 8388352 := filterStep_le hs (target_le x)
  have hnoise : d.noise ≤ 8388352 := by
    show (if s.params.autoIntegrate && s.detector.previousS1 then s.detector.noise
      else filterStep 16 16 s.detector.noise (target x)) ≤ 8388352
    split
    · exact hn
    · exact filterStep_le hn (target_le x)
  have hformed := formStatuses_detectorLaw (s := s) hspeech hnoise s.params
  unfold Detector.evaluate
  obtain ⟨busy, run, heq⟩ := debounceBy_figures
    (({ d.formStatuses s.params with cos := s.params.cosJudged high } : Detector).formRaw s.params) s.params true
  dsimp only
  rw [heq]
  exact hformed

theorem restart_detectorLaw (s : State) : (s.withDetector (s.detector.restart s.params)).detectorLaw := by
  have hformed := formStatuses_detectorLaw (s := s) (d := { s.detector with speech := 0, noise := 0 }) (Nat.zero_le _)
    (Nat.zero_le _) s.params
  unfold Detector.restart
  obtain ⟨busy, run, heq⟩ := debounceBy_figures
    ((({ s.detector with speech := 0, noise := 0 } : Detector).formStatuses s.params).formRaw s.params) s.params false
  dsimp only
  rw [heq]
  exact hformed

namespace EventsKeep
variable {R : State → State → Prop}

theorem ite {c : Prop} [Decidable c] {s t u : State} (h1 : R s t) (h2 : R s u) : R s (if c then t else u) := by
  split <;> assumption

variable (k : EventsKeep R)
include k

theorem foldl {α : Type} {f : State → α → State} (hf : ∀ s a, R s (f s a)) (l : List α) : ∀ s, R s (l.foldl f s) := by
  induction l with
  | nil => exact k.refl
  | cons a l ih => exact fun s => k.trans (hf s a) (ih _)

/-! ### Whole events -/

theorem publish (s u : State) : R u (publish s u) :=
  k.outer (publish_frame s u).mono (publish_stores s u).law

theorem event {s u : State} {f : State → State} (hu : R s u) (h : R u (f u)) : R s (event f u) :=
  k.trans hu (k.trans h (k.publish _ _))

theorem raise (s : State) (e : EventBit) : R s (s.raise e) := k.outer raise_frame (raise_stores (P := noWord)).law

theorem withIdent (s : State) (i : Ident) : R s (s.withIdent i) := k.outer withIdent_frame (withIdent_stores (P := noWord)).law

theorem timed {s : State} {left : State → Option Nat} {f : State → State}
    (h : ∀ n, left s = some n → R (s.passTime n) (f (s.passTime n))) : R s (timed left f s) := by
  unfold Machine.timed
  split
  · exact k.refl s
  · next n hn =>
    split
    · next hr =>
      rw [Bool.and_eq_true] at hr
      exact k.event (k.passTime hr.1 hr.2) (h n hn)
    · exact k.refl s

theorem takes {s : State} {x : Notice} {f : State → State} (hx : isEnded x = false) (h : ∀ u, R u (f u)) :
    R s (takeNotice x f s) :=
  ite (k.event (k.notices s x hx) (h _)) (k.refl s)

theorem whenReady {s u : State} {f : State → State} (hu : R s u) (h : R u (f u)) : R s (whenReady f u) :=
  ite (k.event hu h) hu

/-- An event at a moment of the current grant, of whose record a property `P` holds then. -/
theorem onGrant {s : State} {left : Grant → Option Nat} {f : Grant → State → State} (P : Grant → Prop)
    (hP : ∀ g n, left g ≠ none → P (g.passTime n)) (h : ∀ {u : State} {g : Grant}, u.key.grant = some g → P g → R u (f g u)) :
    R s (Machine.timed (fun t => t.grantLeft left) (onGrant f) s) := by
  refine k.timed fun n hn => ?_
  cases hg : s.key.grant with
  | none => rw [State.grantLeft, hg] at hn; cases hn
  | some g =>
    rw [State.grantLeft, hg] at hn
    rw [onGrant_passTime f n hg]
    exact h (passTime_grant n hg) (hP g n fun e => by rw [Option.bind_some, e] at hn; cases hn)

/-! ### The Supervisor and the causes -/

theorem takeCause (tag : Word) (r : EndReason) (s : State) : R s (takeCause tag r s) := by
  unfold Machine.takeCause
  split
  · exact k.refl s
  · next g hg => exact ite (k.applyCause r hg) (k.refl s)

theorem sendCause (r : EndReason) (now : Bool) (s : State) : R s (sendCause r now s) := by
  unfold Machine.sendCause
  split
  · exact k.refl s
  · exact ite (k.takeCause _ _ s) (k.notify s _ rfl)

theorem stopStation (now : Bool) (s : State) : R s (stopStation now s) :=
  k.trans (k.trans (k.dropPtt withSupervisor_frame) (k.sendCause _ _ _)) (k.notify _ _ rfl)

theorem enterLockout (r : LockoutReason) (s : State) : R s (enterLockout r s) :=
  k.trans (k.dropPtt (OnlyChanges.trans withSupervisor_frame raise_frame)) (k.notify _ _ rfl)

theorem kill (now : Bool) (s : State) : R s (kill now s) := k.trans (k.sendCause _ _ s) (k.enterLockout _ _)

/-- A change of the Supervisor's that touches neither the run state, the lockout nor DISABLE. -/
theorem withSupervisor {s : State} {v : Supervisor} (h1 : v.running = s.supervisor.running) (h2 : v.lockout = s.supervisor.lockout)
    (h3 : v.disable = s.supervisor.disable) : R s (s.withSupervisor v) :=
  k.supervisor s v fun h => by
    unfold State.pttForbidden at h ⊢
    rw [← h1, ← h2, ← h3]
    exact h

theorem qualifiedFault (now : Bool) (s : State) : R s (qualifiedFault now s) := by
  unfold Machine.qualifiedFault
  extract_lets v t u history w x y
  have ht : R s t := k.withSupervisor (v := { v with qualification := none, qualifiedThisKeying := true }) rfl rfl rfl
  have hu : R s u := k.trans ht (k.sendCause _ _ t)
  have hx : R u x := k.withSupervisor rfl rfl rfl
  have hy : R s y := k.trans (k.trans hu hx) (k.raise x _)
  exact ite (k.trans hy (k.enterLockout _ _)) hy

theorem judgeTxfault (now : Bool) (s : State) : R s (judgeTxfault now s) := by
  unfold Machine.judgeTxfault
  extract_lets active v t w
  have ht : R s t := k.withSupervisor rfl rfl rfl
  have hqualification : ∀ q, R s (t.withSupervisor { t.supervisor with qualification := q }) := fun q =>
    k.trans ht (k.withSupervisor rfl rfl rfl)
  exact ite (hqualification _) (ite (ite (k.trans ht (k.qualifiedFault _ _)) (hqualification _)) ht)

/-- A change of the state of DISABLE while DISABLE is not RELEASED allows PTT no less. -/
theorem disableStep {s : State} {v : Supervisor} (h : s.supervisor.disable ≠ .released) : R s (s.withSupervisor v) :=
  k.supervisor s v fun _ => by
    unfold State.pttForbidden
    rw [bne_iff_ne.2 h, Bool.or_true, Bool.true_or]

theorem assertDisable (now : Bool) (s : State) : R s (assertDisable now s) := by
  unfold Machine.assertDisable
  split
  · exact k.trans (k.dropPtt (OnlyChanges.trans withSupervisor_frame raise_frame)) (k.sendCause _ _ _)
  · next h => exact k.disableStep (by rw [h]; decide)
  · exact k.refl s

theorem beginDisableRelease (s : State) : R s (beginDisableRelease s) := by
  unfold Machine.beginDisableRelease
  split
  · next h => exact k.disableStep (by rw [h]; decide)
  · exact k.refl s
  · exact k.refl s

/-- A change of the Supervisor's that lifts a ban on PTT. -/
theorem lifts {s : State} {v : Supervisor} (h1 : v.running = false → s.supervisor.running = false)
    (h2 : v.lockout.isSome = true → s.supervisor.lockout.isSome = true)
    (h3 : v.disable ≠ .released → s.supervisor.disable ≠ .released) : R s (s.withSupervisor v) :=
  k.supervisor s v fun h => by
    unfold State.pttForbidden at h ⊢
    simp only [State.withSupervisor_supervisor, Bool.or_eq_true, Bool.not_eq_true', bne_iff_ne, ne_eq] at h ⊢
    exact h.imp_left (Or.imp (Or.imp h1 h2) h3)

theorem completeDisableRelease (s : State) : R s (completeDisableRelease s) :=
  k.trans (k.trans (k.lifts (v := { s.supervisor with disable := .released, releaseTimer := none }) id id
    fun h => absurd rfl h) (k.raise _ _)) (k.arbitrate _)

theorem clearLockout (s : State) : R s (clearLockout s) :=
  k.trans (k.lifts (v := { s.supervisor with lockout := none, history := [] }) id (fun h => nomatch h) id) (k.arbitrate _)

theorem start (s : State) : R s (Machine.arbitrate (s.withSupervisor { s.supervisor with running := true })) :=
  k.trans (k.lifts (v := { s.supervisor with running := true }) (fun h => nomatch h) id id) (k.arbitrate _)

theorem changeTxfault (high now : Bool) (s : State) : R s (changeTxfault high now s) := by
  have ht : R s { s with txfaultPin := high } := k.outer (fun p hp => by cases p <;> first | rfl | exact fun _ => rfl | exact absurd (by decide) hp) id
  unfold Machine.changeTxfault
  dsimp only
  split
  · exact ht
  · exact k.trans ht (k.judgeTxfault now _)
  · exact k.event ht (k.judgeTxfault now _)

/-! ### The floor and identification -/

theorem clearQueue (r : EndReason) (s : State) : R s (clearQueue r s) := k.foldl (fun s _ => k.departEntry s _ _) _ s

theorem makeDue (c : Bool) (s : State) : R s (s.makeDue c) := ite (k.withIdent s _) (k.refl s)

theorem dueThenArbitrate (c : Bool) (s : State) : R s (dueThenArbitrate c s) :=
  ite (k.trans (k.makeDue c s) (k.arbitrate _)) (k.makeDue c s)

theorem expireCourtesy (s : State) : R s (expireCourtesy s) :=
  k.trans (k.floorFlags s { s.floor with courtesy := none } rfl rfl) (k.arbitrate _)

/-! ### The notices -/

theorem takeRevocation (m : MemberIx) (s : State) : R s (takeRevocation m s) := by
  unfold Machine.takeRevocation
  split
  · exact k.refl s
  · next n hn =>
    obtain ⟨hstate, -⟩ := slotOf_bound hn
    exact k.closeSession _ hstate rfl

theorem revokeGrant (m : MemberIx) (s : State) : R s (revokeGrant m s) := by
  unfold Machine.revokeGrant
  split
  · exact k.refl s
  · exact ite (k.takeCause _ _ s) (k.refl s)

theorem revokeEntry (m : MemberIx) (s : State) : R s (revokeEntry m s) := by
  unfold Machine.revokeEntry
  split
  · exact k.refl s
  · exact ite (k.refl s) (k.departEntry s _ _)

/-! ### The detector and the receive path -/

theorem holds (s : State) (h : HoldSources) : R s (s.withHolds h) := k.detector s _ id

theorem expireRecovery (s : State) : R s (expireRecovery s) := by
  unfold Machine.expireRecovery
  extract_lets c t h u
  have ht : R s t := k.recovery s none
  have hu : R s u := k.trans ht (k.holds t _)
  split
  · exact hu
  · next g hg =>
    split
    · next hw => exact k.trans hu (k.enterGap1 hg hw.1)
    · exact hu

theorem busyChange (s : State) : R s (busyChange s) := by
  unfold Machine.busyChange
  split
  · exact k.refl s
  · next g hg =>
    split
    · next hstate => exact ite (k.enterGap1 hg hstate) (k.refl s)
    · next hstate => exact ite (k.enterWaitClear hg hstate) (k.refl s)
    all_goals exact k.refl s

theorem reportDetector {s : State} {d : Detector} (h : s.detectorLaw → (s.withDetector d).detectorLaw) :
    R s (reportDetector d s) := by
  unfold Machine.reportDetector
  extract_lets old t u
  have hu : R s u := k.trans (k.detector s d h) (ite (k.refl t) (k.raise t _))
  exact ite hu (k.trans (k.trans hu (k.raise u _)) (k.busyChange _))

theorem detectSample (x : Word) (high : Bool) (s : State) : R s (detectSample x high s) :=
  ite (k.refl s) (k.reportDetector (evaluate_detectorLaw x high))

theorem sampleEvent (x : Word) (high : Bool) (s : State) : R s (sampleEvent x high s) := by
  have howed : ∀ t : State, R t { t with samplesOwed := t.samplesOwed - 1 } := fun t =>
    k.outer (fun p hp => by cases p <;> first | rfl | exact fun _ => rfl | exact absurd (by decide) hp) id
  exact k.trans (k.trans (k.detectSample x high s) (k.receiveSample x _)) (howed _)

theorem sampleRow (x : Word) (high : Bool) (s : State) :
    R s (Machine.timed (fun t => some t.sampleLeft) (Machine.sampleEvent x high) s) :=
  k.timed fun _ _ => k.sampleEvent x high _

/-! ### Playout -/

theorem boundaryEvent (s : State) : R s (boundaryEvent s) := by
  unfold Machine.boundaryEvent
  split
  · exact k.refl s
  · next g hg =>
    split
    · next hst => exact k.boundary hg hst
    · exact k.refl s

theorem boundaryRow (s : State) : R s (Machine.timed State.boundaryLeft Machine.boundaryEvent s) :=
  k.timed fun _ _ => k.boundaryEvent _

theorem examinePrebuffer (s : State) : R s (examinePrebuffer s) := by
  unfold Machine.examinePrebuffer
  split
  · exact k.refl s
  · next g hg =>
    split
    · next hst => exact k.keyUp hg hst.1
    · exact k.refl s

/-! ### The service of a cell -/

theorem serve {s : State} {c : Cell} {body : State → State × Answer} (h : R s (body s).1) : R s (serve c body s) := by
  refine k.trans h (k.outer (writeAnswer_frame c _ _ _).mono fun hm => ?_)
  show (writeAnswer c _ _ _).mem.wf = true
  rw [writeAnswer_mem]
  exact Memory.write_wf _ _ _ (Memory.writeAll_wf _ _ _ hm)

theorem gate {s : State} {n : Slot} {body : State → State × Answer}
    (h : (s.session n).state = .opened → R (s.gated n) (body (s.gated n)).1) : R s (gate n body s).1 := by
  unfold Machine.gate
  split
  · exact k.refl s
  · exact k.refl s
  · next hopen => exact k.trans (k.gated s n) (h hopen)

theorem stationService {s : State} {r : Request} {body : State → State × Answer} (h : ∀ u, R u (body u).1) :
    R s (stationService r body s) := ite (k.event (k.refl s) (k.serve (h s))) (k.refl s)

/-- The service of a session cell: the request is carried out for an OPEN session, after the gate. -/
theorem sessionService {s : State} {r : Request} {body : Slot → State → State × Answer}
    (h : ∀ n u, (u.session n).state = .opened → R u (body n u).1) : R s (sessionService r body s) := by
  unfold Machine.sessionService
  split
  · exact k.refl s
  · refine ite (k.event (k.refl s) (k.serve (k.gate fun hopen => h _ _ ?_))) (k.refl s)
    rw [gated_session _ _ _ hopen, if_pos rfl]
    exact hopen

theorem operatorOnly {s : State} {n : Slot} {body : State → State × Answer} (h : R s (body s).1) :
    R s (operatorOnly n body s).1 := by
  unfold Machine.operatorOnly
  split
  · exact h
  · exact k.refl s

end EventsKeep

end Sys2Proof.Machine
end

section
/-! The walk through the rows of the table: a relation that holds across each effect of the part's events holds across every
command, and across every step. -/

set_option Elab.async false

namespace Sys2Proof.Machine

/-! ## The records that SET MEMBER and REFILL write -/

theorem reset_budgetLaw : Member.reset.budgetLaw := ⟨0, rfl, Nat.le_refl 0⟩

theorem memberArgs_budgetLaw (s : State) (old : Member) (operator unmetered : Bool) :
    (s.memberArgs old operator unmetered).1.budgetLaw := by
  unfold State.memberArgs
  dsimp only
  generalize clamp 0 36000 (s.argument 0 8).toNat = allowance
  cases unmetered with
  | true => exact ⟨rfl, rfl⟩
  | false =>
    refine ⟨allowance, rfl, ?_⟩
    show (if (old.present && !old.unmetered) = true then min old.remaining allowance else allowance) ≤ allowance
    split
    · exact Nat.min_le_right _ _
    · exact Nat.le_refl _

theorem refilled_budgetLaw {r : Member} (hr : r.refillable = true) (h : r.budgetLaw) :
    ({ r with remaining := r.allowance.getD 0 } : Member).budgetLaw := by
  have hmetered : r.unmetered = false := by
    unfold Member.refillable at hr
    simp only [Bool.and_eq_true, Bool.not_eq_true'] at hr
    exact hr.2
  unfold Member.budgetLaw at h ⊢
  dsimp only
  rw [hmetered] at h ⊢
  obtain ⟨a, ha, -⟩ := h
  exact ⟨a, ha, by rw [ha]; exact Nat.le_refl a⟩

theorem withBus_registers (s : State) (b : Bus) : OnlyChanges [.answered, .news, .events, .bus] s (s.withBus b) := by
  intro p hp
  cases p
  case answered | news | events | bus => exact absurd (by decide) hp
  all_goals first | rfl | exact fun _ => rfl

/-! ## The moments of a grant -/

theorem countDown_ne_none {t : Option Nat} (n : Nat) (h : t ≠ none) : countDown n t ≠ none := by
  cases t with
  | none => exact absurd rfl h
  | some _ => exact nofun

theorem tickLeft_onAir {g : Grant} (h : g.tickLeft ≠ none) : g.state.memberOnAir = true := by
  by_contra hoff
  exact h (if_neg hoff)

theorem limitLeft_onAir {g : Grant} (h : g.limitLeft ≠ none) : g.state.memberOnAir = true := by
  by_contra hoff
  exact h (if_neg hoff)

theorem deadlineLeft_opened {s : State} {n : Slot} {m : Nat} (h : s.deadlineLeft n = some m) :
    (s.session n).state = .opened := by
  unfold State.deadlineLeft at h
  by_contra hclosed
  rw [if_neg hclosed] at h
  cases h

namespace EventsKeep
variable {R : State → State → Prop} (k : EventsKeep R)
include k

/-! ## The requests of the station cell -/

theorem startRequest (s : State) : R s (startRequest s).1 := by
  unfold Machine.startRequest
  split
  · exact k.refl s
  · exact k.start s

theorem stopRequest (now : Bool) (s : State) : R s (stopRequest now s).1 := by
  unfold Machine.stopRequest
  split
  · exact k.stopStation now s
  · exact k.refl s

theorem holdRequest (s : State) : R s (holdRequest s).1 := by
  unfold Machine.holdRequest
  split
  · exact k.refl s
  · exact k.floorFlags s _ rfl rfl

theorem resumeRequest (s : State) : R s (resumeRequest s).1 := by
  unfold Machine.resumeRequest
  split
  · exact k.trans (k.floorFlags s { s.floor with hold := false } rfl rfl) (k.arbitrate _)
  · exact k.refl s

theorem clearLockoutRequest (s : State) : R s (clearLockoutRequest s).1 := by
  unfold Machine.clearLockoutRequest
  split
  · exact k.clearLockout s
  · exact k.refl s

theorem stationActs (s : State) : R s (stationActs s) := by
  unfold Machine.stationActs
  extract_lets t i u now j v w
  have ht : R s t := k.judgeTxfault false s
  have hu : R s u := k.trans ht (ite (k.withIdent t _) (k.refl t))
  have hv : R s v := k.trans hu (ite (k.withIdent u _) (k.refl u))
  have hw : R s w := k.trans hv (k.makeDue _ v)
  exact ite (k.trans hw (k.arbitrate w)) hw

theorem setStationRequest (s : State) : R s (setStationRequest s).1 := by
  unfold Machine.setStationRequest
  split
  · exact k.refl s
  · split
    · exact k.refl s
    · next codes _ =>
      exact k.trans (t := s.withParams (s.stationParams 0 codes)) (k.outer withParams_frame id) (k.stationActs _)

theorem noteKeyTime (m : MemberIx) (old new : Member) (s : State) : R s (noteKeyTime m old new s) :=
  ite (k.notify s _ rfl) (k.refl s)

theorem writeMember {s : State} {m : MemberIx} {new : Member} (h : new.budgetLaw) : R s (writeMember m new s) := by
  unfold Machine.writeMember
  extract_lets old t u
  have ht : R s t := k.member s m new fun _ => h
  have hu : R s u := k.trans ht (ite (k.notify t _ rfl) (k.refl t))
  exact k.trans hu (k.noteKeyTime _ _ _ u)

theorem removeMember (m : MemberIx) (s : State) : R s (removeMember m s) := by
  unfold Machine.removeMember
  extract_lets t u
  have ht : R s t := k.member s m _ fun _ => reset_budgetLaw
  have hu : R s u := k.trans ht (ite (k.notify t _ rfl) (k.refl t))
  exact k.trans hu (k.noteKeyTime _ _ _ u)

theorem setMemberRequest (s : State) : R s (setMemberRequest s).1 := by
  unfold Machine.setMemberRequest
  split
  · exact k.removeMember _ s
  · split
    · exact k.writeMember (memberArgs_budgetLaw ..)
    · exact k.refl s
  · exact k.refl s

theorem readMemberRequest (s : State) : R s (readMemberRequest s).1 := by
  unfold Machine.readMemberRequest
  split <;> exact k.refl s

theorem setChannelRequest (s : State) : R s (setChannelRequest s).1 := by
  have hwrite : ∀ c r, R s (s.withChannel c r) := fun c r => k.outer withChannel_frame id
  unfold Machine.setChannelRequest
  split
  · exact k.refl s
  · split
    · exact k.refl s
    · split
      · exact k.refl s
      · exact hwrite _ _
      · split
        · exact k.refl s
        · exact hwrite _ _

theorem readChannelRequest (s : State) : R s (readChannelRequest s).1 := by
  unfold Machine.readChannelRequest
  split <;> exact k.refl s

theorem refillRequest (s : State) : R s (refillRequest s).1 := by
  unfold Machine.refillRequest
  split
  · exact k.refl s
  · refine k.foldl (fun u m => ?_) _ s
    unfold refillOne
    extract_lets r
    split
    · next hr => exact k.member u m _ (refilled_budgetLaw hr)
    · exact k.refl u

theorem openSessionRequest (s : State) : R s (openSessionRequest s).1 := by
  unfold Machine.openSessionRequest
  split
  · split
    · exact k.refl s
    · next hfree =>
      split
      · exact k.refl s
      · split
        · exact k.refl s
        · next hunbound => exact k.openSession (not_not.1 hfree) (Option.not_isSome_iff_eq_none.1 hunbound)
  · exact k.refl s

theorem closeSessionRequest (s : State) : R s (closeSessionRequest s).1 := by
  unfold Machine.closeSessionRequest
  split
  · exact k.refl s
  · split
    · exact k.refl s
    · next hbound => exact k.closeSession _ hbound rfl

theorem detectorHoldRequest (s : State) : R s (detectorHoldRequest s).1 := by
  unfold Machine.detectorHoldRequest
  split
  · exact k.refl s
  · exact k.reportDetector fun _ => restart_detectorLaw s

theorem detectorReleaseRequest (s : State) : R s (detectorReleaseRequest s).1 := by
  unfold Machine.detectorReleaseRequest
  split
  · exact k.holds s _
  · exact k.refl s

/-! ## The requests of the session cells -/

/-- An entry of an OPEN session that neither waits nor holds joins the queue, and the join is an arbitration event. -/
theorem admitEntry {s : State} {n : Slot} {e : Entry} (h1 : (s.session e.session).state = .opened)
    (h2 : s.entryOf e.session = none) (h3 : s.holds e.session = false) : R s (admitEntry n e s).1 :=
  k.trans (k.join s e h1 h2 h3) (k.arbitrate _)

theorem keyRequest {s : State} {n : Slot} (hopen : (s.session n).state = .opened) : R s (keyRequest n s).1 := by
  unfold Machine.keyRequest
  split
  · exact k.refl s
  · split
    · exact k.refl s
    · split
      · exact k.refl s
      · split
        · exact k.refl s
        · next hclaims =>
          simp only [Bool.or_eq_true, not_or, Bool.not_eq_true, Option.isSome_eq_false_iff, Option.isNone_iff_eq_none] at hclaims
          split
          · exact k.refl s
          · exact k.refl s
          · split
            · exact k.admitEntry hopen hclaims.1 hclaims.2
            · exact k.refl s

theorem preemptRequest {s : State} {n : Slot} (now : Bool) (hopen : (s.session n).state = .opened) :
    R s (preemptRequest now n s).1 := by
  unfold Machine.preemptRequest
  split
  · exact k.refl s
  · split
    · exact k.refl s
    · next hholds =>
      split
      · exact k.refl s
      · split
        · exact k.refl s
        · split
          · exact k.refl s
          · exact k.refl s
          · split
            · next m c _ _ =>
              exact k.trans (k.preempt (e := s.newEntry n m c none true) now hopen (Bool.not_eq_true _ ▸ hholds)) (k.arbitrate _)
            · exact k.refl s

theorem releaseRequest (n : Slot) (s : State) : R s (releaseRequest n s).1 := by
  unfold Machine.releaseRequest
  split
  · next g hg =>
    obtain ⟨hgrant, -⟩ := grantOf_some hg
    unfold releaseGrant
    cases hstate : g.state with
    | changeover | waitClear | gap1 | gap2 | prebuffer => exact k.cancel hgrant (by rw [hstate]; rfl)
    | keyed => exact k.drain _ hgrant hstate
    | drain | tail | idSending => exact k.refl s
  · split
    · exact k.departEntry s _ _
    · split <;> exact k.refl s

theorem ejectRequest (n : Slot) (s : State) : R s (ejectRequest n s).1 := by
  unfold Machine.ejectRequest
  split
  · exact k.refl s
  · split
    · exact k.refl s
    · split
      · exact k.refl s
      · next hbound => exact k.closeSession _ hbound rfl

/-! ## The host's accesses -/

theorem writeMemory (a : Nat) (v : Word) (s : State) : R s (writeMemory a v s) := by
  have hwrite : R s (s.write a v) := k.outer write_frame (Memory.write_wf _ _ _)
  unfold Machine.writeMemory
  extract_lets t
  exact ite (k.trans hwrite (k.examinePrebuffer t)) hwrite

/-- A host write is a reset, or an event of the part. -/
theorem hostWrite (a v : Word) (s : State) : R s (hostWrite a v s) ∨ hostWrite a v s = s.resetBlocks .clearing := by
  have houter : ∀ {f : State → State}, OnlyChanges outerParts s (f s) → (s.memoryLaw → (f s).memoryLaw) →
      R s (Machine.event f s) := fun hf hs => k.event (k.refl s) (k.outer hf hs)
  have hreadOnly : R s (Machine.event writeReadOnly s) :=
    houter (OnlyChanges.trans withBus_frame raise_frame) id
  unfold Machine.hostWrite
  split
  · exact .inl (k.refl s)
  · split
    · exact .inl hreadOnly
    · exact .inl hreadOnly
    · exact .inl hreadOnly
    · exact .inl hreadOnly
    · split
      · exact .inr rfl
      · exact .inl (houter (writeControl_frame v s).mono (writeControl_stores v s).law)
    · exact .inl (houter (callSessions_frame v s).mono (callSessions_stores v s).law)
    · exact .inl (houter (f := clearEvents v) withBus_frame id)
    · exact .inl (houter (f := writeEventEnable v) withBus_frame id)
    · refine .inl ?_
      split
      · exact k.event (k.refl s) (k.writeMemory _ v s)
      · exact k.refl s

theorem disablePin (s : State) (active : Bool) : R s { s with disablePin := active } :=
  k.outer (fun p hp => by cases p <;> first | rfl | exact fun _ => rfl | exact absurd (by decide) hp) id

/-- An event at a moment of the current grant whose effect is kept whatever its record. -/
theorem onAnyGrant {s : State} {left : State → Option Nat} {f : Grant → State → State}
    (h : ∀ {u : State} {g : Grant}, u.key.grant = some g → R u (f g u)) : R s (Machine.timed left (Machine.onGrant f) s) := by
  refine k.timed fun n _ => ?_
  unfold Machine.onGrant
  split
  · exact k.refl _
  · next hg => exact h hg

theorem hostRead (a : Word) (s : State) : R s (hostRead a s) := by
  have hbus : ∀ b, R s (s.withBus b) := fun b => k.outer (withBus_registers s b).mono id
  unfold Machine.hostRead
  extract_lets w t
  split
  · exact hbus _
  · split <;> exact hbus _

end EventsKeep

/-! ## Every command -/

/-- What a whole command does: what its effects do, a reset, or the taking of the first end notice. -/
structure CommandsKeep (T : State → State → Prop) (R : State → State → Prop) : Prop where
  events : EventsKeep R
  of : ∀ {s t}, R s t → T s t
  after : ∀ {s u t}, OnlyChanges [.pending, .choices] s u → T u t → T s t
  reset : ∀ (s : State) p, T s (s.resetBlocks p)
  endNotice : ∀ {s : State} {kind tag n r}, .ended kind tag n r ∈ s.notices →
    T s (event (takeEnded kind r) (s.withNotices (s.notices.erase (.ended kind tag n r))))

theorem firstEnded_ended : ∀ {l : List Notice} {x : Notice}, firstEnded l = some x → isEnded x = true
  | .ended .. :: _, _, h => by cases h; rfl
  | .cause .. :: l, _, h | .revocation _ :: l, _, h | .privilege _ :: l, _, h | .keyLimit _ :: l, _, h | .clear _ :: l, _, h =>
    firstEnded_ended (l := l) h

namespace CommandsKeep
variable {T R : State → State → Prop} (c : CommandsKeep T R)
include c

theorem takeEndNotice (s : State) : T s (takeEndNotice s) := by
  unfold Machine.takeEndNotice
  split
  · unfold takeNotice
    split
    · next h =>
      rw [Bool.and_eq_true, List.contains_iff_mem] at h
      exact c.endNotice h.2
    · exact c.of (c.events.refl s)
  · exact c.of (c.events.refl s)

theorem hostWrite (a v : Word) (s : State) : T s (hostWrite a v s) := by
  rcases c.events.hostWrite a v s with h | h
  · exact c.of h
  · rw [h]; exact c.reset s _

/-- The relation holds across every command (one case for each row of the table). -/
theorem exec_rel {s t : State} {i : Instr} (h : exec i s = .next t) : T s t := by
  have k := c.events
  cases i
  case undefinedRequest =>
    change execUndefinedRequest s = .next t at h
    unfold execUndefinedRequest at h
    split at h <;> cases h
    · exact c.of (k.stationService fun u => k.refl u)
    · exact c.of (k.sessionService fun _ u _ => k.refl u)
  all_goals cases h
  -- the requests of the station cell
  case nop => exact c.of (k.stationService fun u => k.refl u)
  case start => exact c.of (k.stationService k.startRequest)
  case stop now => exact c.of (k.stationService (k.stopRequest now))
  case holdFloor => exact c.of (k.stationService k.holdRequest)
  case resumeFloor => exact c.of (k.stationService k.resumeRequest)
  case setStation => exact c.of (k.stationService k.setStationRequest)
  case setMember => exact c.of (k.stationService k.setMemberRequest)
  case readMember => exact c.of (k.stationService k.readMemberRequest)
  case setChannel => exact c.of (k.stationService k.setChannelRequest)
  case readChannel => exact c.of (k.stationService k.readChannelRequest)
  case refill => exact c.of (k.stationService k.refillRequest)
  case openSession => exact c.of (k.stationService k.openSessionRequest)
  case closeSession => exact c.of (k.stationService k.closeSessionRequest)
  case clearLockout => exact c.of (k.stationService k.clearLockoutRequest)
  case kill now => exact c.of (k.stationService (k.kill now))
  case detectorHold => exact c.of (k.stationService k.detectorHoldRequest)
  case detectorRelease => exact c.of (k.stationService k.detectorReleaseRequest)
  -- the requests of the session cells
  case keepalive => exact c.of (k.sessionService fun _ u _ => k.refl u)
  case key => exact c.of (k.sessionService fun _ _ hopen => k.keyRequest hopen)
  case release => exact c.of (k.sessionService fun n u _ => k.releaseRequest n u)
  case preempt now => exact c.of (k.sessionService fun _ _ hopen => k.preemptRequest now hopen)
  case eject => exact c.of (k.sessionService fun n u _ => k.ejectRequest n u)
  case killFromSession now => exact c.of (k.sessionService fun _ u _ => k.operatorOnly (k.kill now u))
  case clearLockoutFromSession => exact c.of (k.sessionService fun _ u _ => k.operatorOnly (k.clearLockoutRequest u))
  case holdFloorFromSession => exact c.of (k.sessionService fun _ u _ => k.operatorOnly (k.holdRequest u))
  case resumeFloorFromSession => exact c.of (k.sessionService fun _ u _ => k.operatorOnly (k.resumeRequest u))
  -- the host's accesses
  case attentionWrite v => exact c.hostWrite _ v s
  case stationCellCall v => exact c.hostWrite _ v s
  case interruptEnableWrite v => exact c.hostWrite _ v s
  case softReset v => exact c.hostWrite _ v s
  case eventEnableWrite v => exact c.hostWrite _ v s
  case eventsClear v => exact c.hostWrite _ v s
  case answeredRead => exact c.of (k.hostRead _ s)
  case newsRead => exact c.of (k.hostRead _ s)
  case readOnlyRegisterWrite a v => exact c.hostWrite a v s
  case hostMemoryWrite a v => exact c.hostWrite a v s
  -- reset, the inputs and the samples
  case hardwareReset => exact c.reset s _
  case resetRelease =>
    split
    · next hheld => exact c.of (k.releaseReset hheld)
    · exact c.of (k.refl s)
  case startUpClearingDone =>
    split
    · next hclearing => exact c.of (k.finishStartUp hclearing)
    · exact c.of (k.refl s)
  case txfaultChange high now => exact c.of (k.changeTxfault high now s)
  case disableAssert now => exact c.of (k.whenReady (k.disablePin s true) (k.assertDisable now _))
  case disableReleaseBegin => exact c.of (k.whenReady (k.disablePin s false) (k.beginDisableRelease _))
  case releaseTimerExpiry => exact c.of (k.timed fun _ _ => k.completeDisableRelease _)
  case adcSample x high => exact c.of (k.sampleRow x high s)
  case debounceComplete x high => exact c.of (EventsKeep.ite (k.sampleRow x high s) (k.refl s))
  case captureBoundary x high => exact c.of (EventsKeep.ite (k.sampleRow x high s) (k.refl s))
  case statusPageRewrite =>
    exact c.of (k.timed fun _ _ => k.outer (rewritePageOnce_frame _).mono (rewritePageOnce_stores _).law)
  -- the timers
  case courtesyExpiry => exact c.of (k.timed fun _ _ => k.expireCourtesy _)
  case changeoverExpiry =>
    exact c.of (k.onGrant (·.changeoverLeft ≠ none) (fun _ n h => countDown_ne_none n h) k.leaveChangeover)
  case busyWaitExpiry => exact c.of (k.onAnyGrant k.expireBusyWait)
  case gap1Expiry => exact c.of (k.onGrant (·.gap1Left ≠ none) (fun _ n h => countDown_ne_none n h) k.enterGap2)
  case gap2Expiry => exact c.of (k.onGrant (·.gap2Left ≠ none) (fun _ n h => countDown_ne_none n h) k.leaveGap2)
  case prebufferLimitExpiry =>
    exact c.of (k.onGrant (·.prebufferLeft ≠ none) (fun _ n h => countDown_ne_none n h) k.expirePrebuffer)
  case blockBoundary => exact c.of (k.boundaryRow s)
  case audioLost => exact c.of (EventsKeep.ite (k.boundaryRow s) (k.refl s))
  case drainLimit => exact c.of (EventsKeep.ite (k.boundaryRow s) (k.refl s))
  case tailExpiry => exact c.of (k.onGrant (·.tailLeft ≠ none) (fun _ n h => countDown_ne_none n h) k.tailOver)
  case accountingTick => exact c.of (k.onGrant (·.state.memberOnAir = true) (fun g _ h => tickLeft_onAir (g := g) h) k.accountTick)
  case keyLimitReached => exact c.of (k.onGrant (·.state.memberOnAir = true) (fun g _ h => limitLeft_onAir (g := g) h) k.endAtKeyLimit)
  case receiverRecoveryExpiry => exact c.of (k.timed fun _ _ => k.expireRecovery _)
  case surveillanceExpiry n => exact c.of (k.timed fun m hm => k.expireSession (n := n) (deadlineLeft_opened (s := s) hm))
  case penaltyEnd m =>
    exact c.of (k.timed fun _ _ => k.trans (k.member _ m { (State.member _ m) with penaltyEnd := none } id) (k.arbitrate _))
  case intervalReached => exact c.of (k.timed fun _ _ => k.trans (k.withIdent _ _) (k.dueThenArbitrate _ _))
  case quietTimerExpiry => exact c.of (k.timed fun _ _ => k.trans (k.withIdent _ _) (k.dueThenArbitrate _ _))
  case idPatternStart => exact c.of (k.timed fun _ _ => k.withIdent _ _)
  case idPatternComplete => exact c.of (k.onAnyGrant fun hg => k.applyCause _ hg)
  case qualificationExpiry now => exact c.of (k.timed fun _ _ => k.qualifiedFault now _)
  -- the notices
  case keyLimitNotice m => exact c.of (k.takes rfl (k.takeKeyLimit · m))
  case endNotice => exact c.takeEndNotice s
  case revocationNotice m => exact c.of (k.takes rfl (k.takeRevocation m))
  case privilegeNotice m => exact c.of (k.takes rfl fun u => k.trans (k.revokeGrant m u) (k.revokeEntry m _))
  case clearNotice r => exact c.of (k.takes rfl (k.clearQueue _))
  case endCause tag r => exact c.of (k.takes rfl (k.takeCause tag r))

/-- The relation holds across every step. -/
theorem step_rel {s t : State} (h : step s = .next t) : T s t := by
  have hpending : ∀ l, OnlyChanges [.pending, .choices] s { s with pending := l } := fun l p hp => by
    cases p <;> first | rfl | exact fun _ => rfl | exact absurd (by decide) hp
  have hdrawn : OnlyChanges [.pending, .choices] s s.drawn := fun p hp => by
    cases p <;> first | rfl | exact fun _ => rfl | exact absurd (by decide) hp
  unfold step at h
  split at h
  · exact c.after (hpending _) (c.exec_rel h)
  · unfold idleStep at h
    split at h
    · cases h
      exact c.of (c.events.refl s)
    · next hpass =>
      cases h
      have hmem := List.mem_of_getElem? hpass
      simp only [State.idleChoices, List.mem_append, List.mem_map, reduceCtorEq, and_false, exists_false, false_or] at hmem
      split at hmem
      · next hready =>
        rw [Bool.and_eq_true] at hready
        exact c.after hdrawn (c.of (c.events.passTime (s := s.drawn) hready.1 hready.2))
      · cases hmem
    · exact c.after hdrawn (c.exec_rel h)

end CommandsKeep

end Sys2Proof.Machine
end

section
/-! The state stays sound (O58): each effect keeps the detector's ranges, the collection, the budgets, the bindings, the DAC's
samples and the tags. The canonical form of the memory comes from what each effect stores. -/

set_option Elab.async false

namespace Sys2Proof.Machine

/-- The parts that the laws of soundness, the memory's apart, speak of. -/
def soundParts : List Part := [.members, .sessions, .key, .playout, .receive, .detector]

/-- Every law of soundness but the memory's is kept, each for itself. -/
structure Steady (s t : State) : Prop where
  detector : s.detectorLaw → t.detectorLaw
  collection : s.collectionLaw → t.collectionLaw
  budget : s.budgetLaw → t.budgetLaw
  binding : s.bindingLaw → t.bindingLaw
  dac : s.dacLaw → t.dacLaw
  tag : s.tagLaw → t.tagLaw

namespace Steady

theorem refl (s : State) : Steady s s := ⟨id, id, id, id, id, id⟩

theorem trans {s t u : State} (h1 : Steady s t) (h2 : Steady t u) : Steady s u where
  detector := h2.detector ∘ h1.detector
  collection := h2.collection ∘ h1.collection
  budget := h2.budget ∘ h1.budget
  binding := h2.binding ∘ h1.binding
  dac := h2.dac ∘ h1.dac
  tag := h2.tag ∘ h1.tag

theorem ite {c : Prop} [Decidable c] {s t u : State} (h1 : Steady s t) (h2 : Steady s u) : Steady s (if c then t else u) := by
  split <;> assumption

theorem sound {s t : State} (h : Steady s t) (hm : s.memoryLaw → t.memoryLaw) (hs : s.Sound) : t.Sound where
  memoryLaw := hm hs.memoryLaw
  detectorLaw := h.detector hs.detectorLaw
  collectionLaw := h.collection hs.collectionLaw
  budgetLaw := h.budget hs.budgetLaw
  bindingLaw := h.binding hs.bindingLaw
  dacLaw := h.dac hs.dacLaw
  tagLaw := h.tag hs.tagLaw

/-- The bindings are read from the slots' states, members and deadlines. -/
theorem bindingLaw_of {s t : State} (hstate : ∀ n, (t.session n).state = (s.session n).state)
    (hmember : ∀ n, (t.session n).member = (s.session n).member)
    (hdeadline : ∀ n, (t.session n).deadline ≠ none → (s.session n).deadline ≠ none ∨ (s.session n).state = .opened)
    (h : s.bindingLaw) : t.bindingLaw := by
  obtain ⟨h1, h2, h3⟩ := h
  refine ⟨fun n => ?_, fun n hn => ?_, fun n k => ?_⟩
  · rw [hstate, hmember]; exact h1 n
  · rw [hstate]; exact (hdeadline n hn).elim (h2 n) id
  · rw [hstate, hstate, hmember, hmember]; exact h3 n k

/-- What an effect has to say for itself, by the parts it reaches. -/
theorem of_parts {ps : List Part} {s t : State} (h : OnlyChanges ps s t)
    (hdetector : .detector ∈ ps → s.detectorLaw → t.detectorLaw := by exact fun h => absurd h (by decide))
    (hcollection : .receive ∈ ps → s.collectionLaw → t.collectionLaw := by exact fun h => absurd h (by decide))
    (hbudget : .members ∈ ps → s.budgetLaw → t.budgetLaw := by exact fun h => absurd h (by decide))
    (hbinding : .sessions ∈ ps → s.bindingLaw → t.bindingLaw := by exact fun h => absurd h (by decide))
    (hdac : .playout ∈ ps → s.dacLaw → t.dacLaw := by exact fun h => absurd h (by decide))
    (htag : .key ∈ ps → s.tagLaw → t.tagLaw := by exact fun h => absurd h (by decide)) : Steady s t where
  detector := by
    by_cases hp : Part.detector ∈ ps
    · exact hdetector hp
    · unfold State.detectorLaw; rw [h .detector hp]; exact id
  collection := by
    by_cases hp : Part.receive ∈ ps
    · exact hcollection hp
    · unfold State.collectionLaw; rw [h .receive hp]; exact id
  budget := by
    by_cases hp : Part.members ∈ ps
    · exact hbudget hp
    · unfold State.budgetLaw; intro hs m; rw [h.member m hp]; exact hs m
  binding := by
    by_cases hp : Part.sessions ∈ ps
    · exact hbinding hp
    · have huncounted : ∀ n, (t.session n).uncounted = (s.session n).uncounted := h .sessions hp
      exact bindingLaw_of (fun n => (congrArg Session.state (huncounted n) :)) (fun n => (congrArg Session.member (huncounted n) :))
        fun n hn => .inl fun hnone => hn ((congrArg Session.deadline (huncounted n) :).trans hnone)
  dac := by
    by_cases hp : Part.playout ∈ ps
    · exact hdac hp
    · unfold State.dacLaw; rw [h .playout hp]; exact id
  tag := by
    by_cases hp : Part.key ∈ ps
    · exact htag hp
    · unfold State.tagLaw; rw [h .key hp]; exact id

theorem of_frame {ps : List Part} {s t : State} (h : OnlyChanges ps s t) (hp : ∀ p ∈ soundParts, p ∉ ps := by decide) :
    Steady s t :=
  .of_parts h (fun hm => absurd hm (hp _ (by decide))) (fun hm => absurd hm (hp _ (by decide)))
    (fun hm => absurd hm (hp _ (by decide))) (fun hm => absurd hm (hp _ (by decide))) (fun hm => absurd hm (hp _ (by decide)))
    fun hm => absurd hm (hp _ (by decide))

/-! ## The updates of the parts -/

section updates
variable {s : State}

theorem withGrant {g : Grant} (h : g.tag ≠ 0) : Steady s (s.withGrant (some g)) :=
  .of_parts (ps := [.key]) withGrant_frame (htag := fun _ _ _ hg => by cases hg; exact h)

theorem withoutGrant : Steady s (s.withGrant none) :=
  .of_parts (ps := [.key]) withGrant_frame (htag := fun _ _ _ hg => nomatch hg)

/-- A change of the Key Controller that leaves the grant. -/
theorem withKey {k : KeyController} (h : k.grant = s.key.grant) : Steady s (s.withKey k) :=
  .of_parts (ps := [.key]) withKey_frame (htag := fun _ ht g hg => ht g (h ▸ hg))

theorem withHolds (x : HoldSources) : Steady s (s.withHolds x) :=
  .of_parts (ps := [.detector]) withHolds_frame (hdetector := fun _ => id)

theorem withMember {m : MemberIx} {r : Member} (h : (s.member m).budgetLaw → r.budgetLaw) : Steady s (s.withMember m r) :=
  .of_parts (ps := [.members]) withMember_frame (hbudget := fun _ hs k => by
    rw [State.withMember_member]
    split
    · exact h (hs m)
    · exact hs k)

/-- A change of a session's record that leaves its state and member, and gives a deadline to an OPEN session only. -/
theorem withSession {n : Slot} {r : Session} (hcount : r.changeCount = (s.session n).changeCount)
    (hstate : r.state = (s.session n).state) (hmember : r.member = (s.session n).member)
    (hdeadline : r.deadline ≠ none → (s.session n).deadline ≠ none ∨ (s.session n).state = .opened) :
    Steady s (s.withSession n r) := by
  refine .of_parts (ps := [.sessions]) (withSession_frame hcount) (hbinding := fun _ => ?_)
  refine bindingLaw_of (fun k => ?_) (fun k => ?_) fun k => ?_ <;> rw [State.withSession_session] <;> split
  · next h => rw [h]; exact hstate
  · rfl
  · next h => rw [h]; exact hmember
  · rfl
  · next h => rw [h]; exact hdeadline
  · exact .inl

/-- A change of the Playout Engine whose block is made of samples where the old one was. -/
theorem withPlayout {p : Playout} (h : s.dacLaw → ∀ y ∈ p.dacBlock, isSample y) : Steady s (s.withPlayout p) :=
  .of_parts (ps := [.playout]) withPlayout_frame (hdac := fun _ => h)

end updates

/-! ## The ends of a grant -/

section ends
variable (s : State)

theorem dropPtt : Steady s s.dropPtt := by
  unfold State.dropPtt
  extract_lets k t h u v w
  exact ite ((withKey (k := { s.key with ptt := false }) rfl).trans <| (withHolds _).trans <| (of_frame (ps := [.supervisor]) withSupervisor_frame).trans <|
    of_frame (ps := [.events]) raise_frame) (refl s)

theorem assertPtt : Steady s s.assertPtt :=
  ((withKey (k := { s.key with ptt := true }) rfl).trans (withHolds _)).trans (of_frame (ps := [.events]) raise_frame)

theorem sweep (drop : Word → Bool) : Steady s (s.sweep drop) := by
  have hplaces : (s.freePlaces (s.sweepSet drop)).playout = s.playout := freePlaces_frame s _ .playout (by decide)
  refine .of_parts (sweep_frame s drop) (hdac := fun _ hs => ?_)
  show ∀ y ∈ (s.freePlaces (s.sweepSet drop)).playout.dacBlock, isSample y
  rw [hplaces]
  exact hs

theorem endPlayout : Steady s s.endPlayout :=
  (withPlayout (p := { s.playout with boundary := none, dacBlock := [], currentTag := none }) fun _ _ hy => nomatch hy).trans
    (sweep _ _)

theorem startSweep (tag : Word) : Steady s (s.startSweep tag) :=
  (withPlayout (p := { s.playout with currentTag := some tag }) id).trans (sweep _ _)

theorem chargeTicks (g : Grant) (n : Nat) : Steady s (s.chargeTicks g n).1 := by
  unfold State.chargeTicks
  split
  · exact refl s
  · refine withMember fun h => ?_
    unfold Member.charge
    split
    · unfold Member.budgetLaw at h ⊢
      dsimp only
      split
      · next hu =>
        rw [if_pos hu] at h
        exact ⟨h.1, by rw [h.2, Nat.zero_sub]⟩
      · next hu =>
        rw [if_neg hu] at h
        obtain ⟨a, ha, hle⟩ := h
        exact ⟨a, ha, (Nat.sub_le _ _).trans hle⟩
    · exact h

/-- The end of a grant recorded for its session (R31), an OPEN one's deadline re-armed. -/
theorem endForHolder (g : Grant) (r : EndReason) : Steady s (s.endForHolder g r) := by
  unfold State.endForHolder
  split
  · exact refl s
  · next n _ =>
    refine withSession rfl rfl rfl fun hd => ?_
    dsimp only at hd
    split at hd
    · next hopen => exact .inr hopen
    · exact .inl hd

theorem startRecovery : Steady s s.startRecovery :=
  (withKey (k := { s.key with recovery := startTimer (ms s.params.recovery) }) rfl).trans (withHolds _)

theorem noteTimeout (g : Grant) : Steady s (s.noteTimeout g) := by
  unfold State.noteTimeout
  split
  · exact refl s
  · exact ite (withKey rfl) (refl s)

theorem preKeyEnd (g : Grant) (r : EndReason) : Steady s (preKeyEnd g r s) := by
  unfold Machine.preKeyEnd
  extract_lets _ h t u v
  exact (withHolds _).trans <| (endPlayout t).trans <| (endForHolder u g _).trans <|
    (of_frame (ps := [.notices]) notify_frame).trans withoutGrant

theorem unkey (g : Grant) : Steady s (unkey g s) := by
  unfold Machine.unkey
  extract_lets t owed charged h u v w x y x' z
  have hu : Steady s u := (dropPtt s).trans <| (chargeTicks t g owed).trans (of_frame (appendLog_frame _ _))
  have hv : Steady u v := by
    unfold v
    split
    · exact ite (withMember id) (refl u)
    · exact refl u
  have hx : Steady v x := (of_frame (identEnd_frame v h)).trans (endPlayout w)
  have hz : Steady x z := (endForHolder x h y).trans <| (startRecovery _).trans (noteTimeout _ h)
  exact hu.trans <| hv.trans <| hx.trans <| hz.trans <| (of_frame (ps := [.notices]) notify_frame).trans withoutGrant

variable {s}

theorem enterTail (q : Bool) {g : Grant} (h : g.tag ≠ 0) : Steady s (enterTail q g s) := by
  unfold Machine.enterTail
  extract_lets g' _ t
  have ht : Steady s t := withPlayout fun hs => by
    split
    · exact nofun
    · exact hs
  exact ite (ht.trans (unkey t g')) (ht.trans (withGrant h))

theorem beginDrain (f : Option Word) {g : Grant} (h : g.tag ≠ 0) : Steady s (beginDrain f g s) := by
  unfold Machine.beginDrain
  extract_lets _ g' _ t
  have ht : Steady s t := withPlayout id
  split
  · exact ite (ht.trans (enterTail false (g := g') h)) (ht.trans (withGrant h))
  · exact ht.trans (withGrant h)

theorem applyCause (r : EndReason) {g : Grant} (h : g.tag ≠ 0) : Steady s (applyCause g r s) := by
  unfold Machine.applyCause
  split
  case h_1 | h_2 | h_3 | h_4 => exact unkey s _
  case h_5 => exact preKeyEnd s _ _
  case h_6 => exact enterTail _ h
  case h_8 => exact unkey s _
  case h_10 => exact beginDrain _ h
  case h_14 => exact preKeyEnd s _ _
  case h_19 => exact preKeyEnd s _ _
  all_goals exact refl s

theorem takeCause (tag : Word) (r : EndReason) (ht : s.tagLaw) : Steady s (takeCause tag r s) := by
  unfold Machine.takeCause
  split
  · exact refl s
  · next g hg => exact ite (applyCause r (ht g hg)) (refl s)

/-! ## The key-up and the course to it -/

theorem keyUpSucceeds {g : Grant} (h : g.tag ≠ 0) : Steady s (keyUpSucceeds g s) := by
  have hmember : ∀ (g : Grant) (t : State), Steady t (t.memberKeyUp g) := by
    intro g t
    unfold State.memberKeyUp
    extract_lets u v w
    have hu : Steady t u := by
      unfold u
      split
      · exact withMember id
      · exact refl t
    have hv : Steady u v := of_frame (identOwed_frame u)
    have hw : Steady v w := by
      unfold w
      split
      · next n _ =>
        extract_lets r
        split
        · next hopen => exact withSession rfl rfl rfl fun _ => .inr hopen
        · exact refl v
      · exact refl v
    exact hu.trans <| hv.trans <| hw.trans <| withPlayout fun _ => nofun
  unfold Machine.keyUpSucceeds
  extract_lets g' t
  have ht : Steady s t := (withGrant (g := g') h).trans (assertPtt _)
  split
  · exact ht.trans (hmember _ _)
  · exact ht

theorem keyUp {g : Grant} (h : g.tag ≠ 0) : Steady s (keyUp g s) := by
  have hreserve : Steady s s.reserve.1 := of_frame (reserve_frame s)
  unfold Machine.keyUp
  exact ite (withGrant h) (ite (preKeyEnd s _ _) (ite (hreserve.trans (keyUpSucceeds h)) (hreserve.trans (preKeyEnd _ _ _))))

theorem enterPrebuffer {g : Grant} (h : g.tag ≠ 0) : Steady s (enterPrebuffer g s) := ite (keyUp h) (withGrant h)

theorem leaveGap2 {g : Grant} (h : g.tag ≠ 0) : Steady s (leaveGap2 g s) := by
  unfold Machine.leaveGap2
  extract_lets g'
  split
  · exact enterPrebuffer h
  · exact keyUp h

theorem enterGap2 {g : Grant} (h : g.tag ≠ 0) : Steady s (enterGap2 g s) := ite (leaveGap2 h) (withGrant h)

theorem enterGap1 {g : Grant} (h : g.tag ≠ 0) : Steady s (enterGap1 g s) := ite (enterGap2 h) (withGrant h)

theorem busyWaitOver {g : Grant} (h : g.tag ≠ 0) : Steady s (busyWaitOver g s) := by
  unfold Machine.busyWaitOver
  split
  · exact preKeyEnd s _ _
  · exact (of_frame (ps := [.ident]) withIdent_frame).trans (enterGap1 h)

theorem enterWaitClear {g : Grant} (h : g.tag ≠ 0) : Steady s (enterWaitClear g s) :=
  ite (enterGap1 h) (ite (busyWaitOver h) (withGrant h))

theorem leaveChangeover {g : Grant} (h : g.tag ≠ 0) : Steady s (leaveChangeover g s) :=
  (withHolds _).trans (ite (enterWaitClear h) (enterPrebuffer h))

theorem enterChangeover {g : Grant} (h : g.tag ≠ 0) : Steady s (enterChangeover g s) := by
  unfold Machine.enterChangeover
  extract_lets g' _ t _ u
  have hu : Steady s u := (withKey (k := { s.key with chsel := (s.channel g'.channel).radioMemory }) rfl).trans (withHolds _)
  exact ite (hu.trans (leaveChangeover h)) (hu.trans (withGrant h))

theorem expireBusyWait {g : Grant} (h : g.tag ≠ 0) : Steady s (expireBusyWait g s) := by
  rw [expireBusyWait_eq]
  exact ite (busyWaitOver h) (withGrant h)

theorem expirePrebuffer {g : Grant} (h : g.tag ≠ 0) : Steady s (expirePrebuffer g s) :=
  ite (withGrant h) (ite (keyUp h) (preKeyEnd s _ _))

/-! ## The floor, the sessions and playout -/

theorem takeMemberGrant {tag : Word} (n : Slot) (m : MemberIx) (c : ChannelIx) (h : tag ≠ 0) :
    Steady s (takeMemberGrant tag n m c s) := by
  unfold Machine.takeMemberGrant
  extract_lets _ g _ t u
  have hu : Steady s u := (withKey (k := { s.key with chselChannel := some c }) rfl).trans (startSweep _ tag)
  exact ite (hu.trans (enterChangeover h)) (ite (hu.trans (enterWaitClear h)) (hu.trans (enterPrebuffer h)))

theorem takeIdentGrant {tag : Word} (c : ChannelIx) (h : tag ≠ 0) : Steady s (takeIdentGrant tag c s) :=
  (startSweep s tag).trans (ite (enterWaitClear h) (keyUp h))

theorem nextTag_ne_zero (t : Word) : nextTag t ≠ 0 := by
  unfold nextTag
  split
  · decide
  · next h => exact fun h0 => h (by bv_omega)

theorem grantEntry (e : Entry) : Steady s (grantEntry e s) :=
  ((of_frame (openGrant_frame s)).trans (of_frame (ps := [.floor]) withFloor_frame)).trans
    (takeMemberGrant _ _ _ (nextTag_ne_zero _))

theorem grantIdent : Steady s (grantIdent s).1 := by
  unfold Machine.grantIdent
  split
  · exact refl s
  · exact (of_frame (openGrant_frame s)).trans (takeIdentGrant _ (nextTag_ne_zero _))

theorem departEntry (n : Slot) (r : EndReason) : Steady s (departEntry n r s) := by
  unfold Machine.departEntry
  split
  · exact refl s
  · exact (of_frame (removeEntry_frame s n)).trans (withSession rfl rfl rfl .inl)

theorem tryEntries (skip : State → Entry → Bool) (l : List Entry) : ∀ s, Steady s (tryEntries skip l s).1 := by
  induction l with
  | nil => exact refl
  | cons e rest ih =>
    intro s
    unfold Machine.tryEntries
    split
    · exact ih s
    · split
      · exact grantEntry e
      · exact (departEntry _ _).trans (ih _)
      · exact (departEntry _ _).trans (ih _)

theorem arbitrate (s : State) : Steady s (arbitrate s) := by
  have hident : ∀ t, Steady t (tryIdent t).1 := fun t => by
    unfold tryIdent
    split
    · exact grantIdent
    · exact refl t
  have hunmarked : ∀ t, Steady t (tryUnmarked t).1 := fun t => by
    unfold tryUnmarked
    split
    · exact tryEntries _ _ t
    · exact refl t
  have hmarked : Steady s (tryMarked s).1 := tryEntries _ _ s
  unfold Machine.arbitrate
  exact ite (refl s) (ite hmarked (ite (hmarked.trans (hident _)) ((hmarked.trans (hident _)).trans (hunmarked _))))

/-- A session's counters are raised by `f`. -/
def Counts (f : Session → Session) : Prop :=
  ∀ r, (f r).changeCount = r.changeCount ∧ (f r).state = r.state ∧ (f r).member = r.member ∧ (f r).deadline = r.deadline

theorem countNotice (n : Slot) {f : Session → Session} (hf : Counts f) : Steady s (s.countNotice n f) := by
  obtain ⟨hcount, hstate, hmember, hdeadline⟩ := hf (s.session n)
  exact withSession hcount hstate hmember fun h => .inl fun hnone => h (hdeadline.trans hnone)

theorem countFor (holder : Option Slot) {f : Session → Session} (hf : Counts f) : Steady s (s.countFor holder f) := by
  unfold State.countFor
  split
  · exact refl s
  · exact countNotice _ hf

theorem armDeadline (n : Slot) (p : Nat) : Steady s (s.armDeadline n p) := by
  unfold State.armDeadline
  extract_lets r
  split
  · next hopen => exact withSession rfl rfl rfl fun _ => .inr hopen
  · exact refl s

theorem gated (n : Slot) : Steady s (s.gated n) :=
  (countNotice n (f := fun r => { r with requestsTaken := saturate 65535 r.requestsTaken 1 })
    fun _ => ⟨rfl, rfl, rfl, rfl⟩).trans (armDeadline n _)

theorem endGrantOf (n : Slot) (r : EndReason) (ht : s.tagLaw) : Steady s (endGrantOf n r s) := by
  unfold Machine.endGrantOf
  split
  · exact refl s
  · exact takeCause _ r ht

/-- The closing of session `n`: its slot serves no member (R22). -/
theorem closeSession {n : Slot} (r : EndReason) (ht : s.tagLaw) : Steady s (closeSession n r s) := by
  let u := s.withSession n { s.session n with state := .free, member := none, deadline := none }
  have hsession : ∀ k, u.session k =
      if k = n then { s.session n with state := .free, member := none, deadline := none } else s.session k := fun k =>
    State.withSession_session ..
  have hu : Steady s u := .of_parts (ps := [.sessions]) withSession_frame (hbinding := fun _ ⟨h1, h2, h3⟩ => by
    refine ⟨fun k => ?_, fun k => ?_, fun a b hab => ?_⟩
    · rw [hsession]
      split
      · exact ⟨fun _ => rfl, fun _ => rfl⟩
      · exact h1 k
    · rw [hsession]
      split
      · exact fun h => absurd rfl h
      · exact h2 k
    · rw [hsession, hsession]
      split
      · exact fun h => absurd rfl h
      · split
        · exact fun _ h => absurd rfl h
        · exact h3 a b hab)
  exact hu.trans ((endGrantOf (s := u) n r ht).trans (departEntry n r))

/-- The loss of session `n`: its slot serves its member still, with no deadline (R28). -/
theorem expireSession {n : Slot} (hopen : (s.session n).state = .opened) (ht : s.tagLaw) : Steady s (expireSession n s) := by
  let u := s.withSession n { s.session n with state := .lost, deadline := none }
  have hsession : ∀ k, u.session k = if k = n then { s.session n with state := .lost, deadline := none } else s.session k :=
    fun k => State.withSession_session ..
  have hu : Steady s u := .of_parts (ps := [.sessions]) withSession_frame (hbinding := fun _ ⟨h1, h2, h3⟩ => by
    have hstate : ∀ k, (u.session k).state ≠ .free → (s.session k).state ≠ .free := fun k => by
      rw [hsession]
      split
      · next hk => rw [hk, hopen]; exact fun _ => nofun
      · exact id
    have hmember : ∀ k, (u.session k).member = (s.session k).member := fun k => by
      rw [hsession]
      split
      · next hk => rw [hk]
      · rfl
    refine ⟨fun k => ?_, fun k => ?_, fun a b hab ha hb => ?_⟩
    · rw [hmember, h1, hsession]
      split
      · next hk => rw [hk, hopen]; exact ⟨nofun, nofun⟩
      · exact Iff.rfl
    · rw [hsession]
      split
      · exact fun h => absurd rfl h
      · exact h2 k
    · rw [hmember, hmember]
      exact h3 a b hab (hstate a ha) (hstate b hb))
  rw [expireSession_eq]
  have hlost : Steady s (s.sessionLost n) := by
    unfold State.sessionLost
    split
    · exact hu
    · exact hu.trans (withMember id)
  exact hlost.trans ((endGrantOf n _ (hlost.tag ht)).trans (departEntry n _))

/-- The opening of a FREE slot for a member that no slot serves (R21). -/
theorem openSession {n : Slot} {m : MemberIx} (hunbound : s.slotOf m = none) :
    Steady s (openSession n m s) := by
  have hsession : ∀ k, (Machine.openSession n m s).session k = if k = n then
      { Session.reset with
        state := .opened, member := some m, deadline := some (Clock.plus s.clock s.params.surveillance),
        changeCount := (s.session n).changeCount }
      else s.session k := fun k => State.withSession_session ..
  have hother : ∀ k, (s.session k).state ≠ .free → (s.session k).member ≠ some m := fun k hk hm => by
    have := List.find?_eq_none.1 hunbound k (List.mem_finRange k)
    simp [hk, hm] at this
  refine .of_parts (ps := [.sessions]) withSession_frame (hbinding := fun _ ⟨h1, h2, h3⟩ => ?_)
  refine ⟨fun k => ?_, fun k => ?_, fun a b hab => ?_⟩
  · rw [hsession]
    split
    · exact ⟨nofun, nofun⟩
    · exact h1 k
  · rw [hsession]
    split
    · exact fun _ => rfl
    · exact h2 k
  · rw [hsession, hsession]
    split
    · next ha =>
      rw [if_neg fun hb => hab (ha.trans hb.symm)]
      exact fun _ hb hm => hother b hb hm.symm
    · split
      · exact fun ha _ hm => hother a ha hm
      · exact h3 a b hab

/-! ## The DAC's samples (R101, R104) -/

theorem isSample_zero : isSample 0 := ⟨by decide, by decide⟩

theorem isSample_level (x a : Int) : isSample (level x a) := by
  unfold level saturateSample isSample
  split <;> omega

theorem isSample_levelBlock (a : Option Int) (extra : Int) (block : List Word) :
    ∀ y ∈ levelBlock a extra block, isSample y := by
  intro y hy
  unfold levelBlock at hy
  split at hy
  · obtain ⟨x, -, rfl⟩ := List.mem_map.1 hy
    exact isSample_zero
  · obtain ⟨x, -, rfl⟩ := List.mem_map.1 hy
    exact isSample_level _ _

theorem releasePlace (i : Nat) : Steady s (s.releasePlace i) :=
  .of_parts (releasePlace_frame s i) (hdac := fun _ => id)

theorem playBlock (g : Grant) : Steady s (playBlock g s) := by
  unfold Machine.playBlock
  extract_lets i block t _ u v
  have hu : Steady s u := (releasePlace i).trans (withPlayout fun _ => isSample_levelBlock _ _ _)
  have hv : Steady s v := hu.trans (countFor _ fun _ => ⟨rfl, rfl, rfl, rfl⟩)
  split
  · exact hv.trans (armDeadline _ _)
  · exact hv

theorem clearPlace (g : Grant) (c : PlaceCase) : Steady s (clearPlace g c s) := by
  have hcounts : ∀ {f : Session → Session} (i : Nat), Counts f → Steady s ((s.releasePlace i).countFor g.session f) :=
    fun i hf => (releasePlace i).trans (countFor _ hf)
  unfold Machine.clearPlace
  cases c
  case stale | late | overrun => exact hcounts _ fun _ => ⟨rfl, rfl, rfl, rfl⟩
  case play | empty => exact refl s

theorem recentre_dacBlock (tag : Word) (fuel : Nat) : ∀ s : State,
    (State.recentre tag fuel s).playout.dacBlock = s.playout.dacBlock := by
  induction fuel with
  | zero => exact fun _ => rfl
  | succ fuel ih =>
    intro s
    unfold State.recentre
    split
    · rfl
    · split
      · rfl
      · exact ih _

theorem countDepth (tag : Word) (keyed : Bool) : Steady s (s.countDepth tag keyed) := by
  refine .of_parts (countDepth_frame s tag keyed) (hdac := fun _ hs => ?_)
  have hblock : (s.countDepth tag keyed).playout.dacBlock = s.playout.dacBlock := by
    unfold State.countDepth
    change (if (keyed && _) = true then _ else s : State).playout.dacBlock = _
    split
    · exact recentre_dacBlock tag 64 s
    · rfl
  unfold State.dacLaw
  rw [hblock]
  exact hs

theorem substitute (g : Grant) : Steady s (substitute g s) := by
  unfold Machine.substitute
  split
  · exact (withPlayout fun _ => isSample_levelBlock _ _ _).trans (countFor _ fun _ => ⟨rfl, rfl, rfl, rfl⟩)
  · refine withPlayout fun _ y hy => ?_
    rw [List.eq_of_mem_replicate hy]
    exact isSample_zero

theorem finishBoundary {g : Grant} (missing : Bool) (h : g.tag ≠ 0) : Steady s (finishBoundary g missing s) := by
  unfold Machine.finishBoundary
  split
  · extract_lets t _ u
    have hu : Steady s u := (countDepth g.tag false).trans (withPlayout id)
    exact ite (hu.trans (enterTail false h)) hu
  · exact countDepth _ _

theorem missBlock {g : Grant} (h : g.tag ≠ 0) (ht : s.tagLaw) : Steady s (missBlock g s) := by
  have hlost : Steady s (s.withPlayout { s.playout with missingRun := saturate 65535 s.playout.missingRun 1 }) := withPlayout id
  exact ite (finishBoundary true h) (ite (hlost.trans (takeCause _ _ ht)) ((substitute g).trans (finishBoundary true h)))

theorem advance : Steady s s.advance := withPlayout id

theorem boundaryOf {g : Grant} (h : g.tag ≠ 0) (ht : s.tagLaw) : Steady s (boundaryOf g s) := by
  unfold Machine.boundaryOf
  extract_lets c _ t
  have hstart : Steady s t := withPlayout id
  have hmiss : Steady s (Machine.clearPlace g c t).advance := (hstart.trans (clearPlace g c)).trans advance
  exact ite (((hstart.trans (playBlock g)).trans advance).trans (finishBoundary false h))
    (hmiss.trans (missBlock h (hmiss.tag ht)))

end ends

end Steady

end Sys2Proof.Machine
end

section
/-! The state stays sound across every step (O58). -/

set_option Elab.async false

namespace Sys2Proof.Machine

namespace Steady
variable {s : State}

theorem accountTick {g : Grant} (h : g.tag ≠ 0) : Steady s (accountTick g s) := by
  have hcharged : ∀ h' : Grant, h'.tag ≠ 0 → Steady s ((s.chargeTicks g 1).1.withGrant (some h')) := fun h' ht =>
    (chargeTicks s g 1).trans (withGrant ht)
  rw [accountTick_eq]
  let h' : Grant := { g with ticks := g.ticks + 1, budgetExhausted := g.budgetExhausted || (s.chargeTicks g 1).2 }
  exact ite ((hcharged h' h).trans (enterTail true (g := h'.withReason .budget) h)) (hcharged h' h)

theorem endAtKeyLimit {g : Grant} (h : g.tag ≠ 0) : Steady s (endAtKeyLimit g s) := by
  unfold Machine.endAtKeyLimit
  cases g.state
  case keyed => exact enterTail true h
  case drain => exact enterTail true h
  case tail => exact unkey s g
  all_goals exact refl s

theorem takeKeyLimit (m : MemberIx) (ht : s.tagLaw) : Steady s (takeKeyLimit m s) := by
  unfold Machine.takeKeyLimit
  split
  · exact refl s
  · next g hg => exact ite (ite (ite (unkey s _) (unkey s _)) (withGrant (ht g hg))) (refl s)

theorem joinQueue (e : Entry) : Steady s (joinQueue e s) := of_frame (joinQueue_frame e s)

/-- A boundary empties the collection before it is 160 samples long (R107, R109). -/
theorem receiveSample (x : Word) : Steady s (receiveSample x s) := by
  refine .of_parts (receiveSample_frame x s) (hcollection := fun _ _ => ?_)
  unfold Machine.receiveSample
  extract_lets block keyed
  split
  · exact Nat.zero_le _
  · next hshort =>
    show block.length ≤ 159
    omega

theorem passTime (n : Nat) : Steady s (s.passTime n) where
  detector := id
  collection := id
  budget := id
  binding := id
  dac h y hy := h y (List.mem_of_mem_drop hy)
  tag h g hg := by
    obtain ⟨g', hg', rfl⟩ := Option.map_eq_some_iff.1 hg
    exact h g' hg'

theorem releaseReset : Steady s s.releaseReset := ⟨id, id, id, id, id, id⟩

theorem finishStartUp : Steady s s.finishStartUp := by
  have hrecorded : Steady s s.recorded := .trans (t := s.cleared) ⟨id, id, id, id, id, id⟩
    (of_frame (rewriteRecords_frame allSlots s.cleared))
  rw [finishStartUp_eq]
  exact (hrecorded.trans (of_frame (rewritePage_frame s.recorded))).trans (of_frame (endOfClearing_frame _ _))

theorem takeEnded (kind : GrantKind) (r : EndReason) : Steady s (takeEnded kind r s) := by
  rw [takeEnded_eq]
  exact ((of_frame (claimEnded_frame s kind r)).trans (of_frame (ps := [.floor, .ident])
    (OnlyChanges.trans withFloor_frame withIdent_frame))).trans (arbitrate _)

end Steady

theorem finishStartUp_law (s : State) : s.finishStartUp.memoryLaw := by
  obtain ⟨hlaw, -, -⟩ := recorded_spec s
  have hpage : s.recorded.rewritePage.memoryLaw := (rewritePage_stores s.recorded).law hlaw
  rw [State.memoryLaw, finishStartUp_mem]
  exact hpage

/-- A reset leaves the memory and gives every other part its reset values (R170). -/
theorem resetBlocks_sound {s : State} (p : Phase) (h : s.memoryLaw) : (s.resetBlocks p).Sound where
  memoryLaw := h
  detectorLaw := reset_sound.detectorLaw
  collectionLaw := reset_sound.collectionLaw
  budgetLaw := reset_sound.budgetLaw
  bindingLaw := reset_sound.bindingLaw
  dacLaw := reset_sound.dacLaw
  tagLaw := reset_sound.tagLaw

/-- What O58 says of an effect. -/
def KeepsSound (s t : State) : Prop := s.Sound → t.Sound

namespace KeepsSound
variable {s t : State}

theorem of_stores {P : Nat → Prop} (h : Steady s t) (hs : Stores P s t) : KeepsSound s t := h.sound hs.law

/-- An effect on the current grant, whose tag is not 0. -/
theorem of_grant {g : Grant} {P : Nat → Prop} (hg : s.key.grant = some g) (h : g.tag ≠ 0 → Steady s t) (hs : Stores P s t) :
    KeepsSound s t := fun hsound => (h (hsound.tagLaw g hg)).sound hs.law hsound

theorem of_tags {P : Nat → Prop} (h : s.tagLaw → Steady s t) (hs : Stores P s t) : KeepsSound s t := fun hsound =>
  (h hsound.tagLaw).sound hs.law hsound

theorem events : EventsKeep KeepsSound where
  refl _ := id
  trans h1 h2 := h2 ∘ h1
  outer hf hm := (Steady.of_frame hf).sound hm
  passTime _ _ := (Steady.passTime _).sound id
  notices s x _ := (Steady.of_frame (ps := [.notices]) withNotices_frame).sound id
  notify s x _ := (Steady.of_frame (ps := [.notices]) notify_frame).sound id
  releaseReset _ := Steady.releaseReset.sound id
  finishStartUp {s} _ := Steady.finishStartUp.sound fun _ => finishStartUp_law s
  supervisor s v _ := (Steady.of_frame (ps := [.supervisor]) withSupervisor_frame).sound id
  dropPtt {s t} hf := ((Steady.of_frame hf).trans (Steady.dropPtt t)).sound fun hm =>
    (dropPtt_stores (P := noWord) t).law (by rw [State.memoryLaw, hf .mem (by decide)]; exact hm)
  floorFlags s f _ _ := (Steady.of_frame (ps := [.floor]) withFloor_frame).sound id
  arbitrate s := of_stores (P := noWord) (Steady.arbitrate s) (arbitrate_stores s)
  join s e _ _ _ := of_stores (P := noWord) (Steady.joinQueue e) (joinQueue_stores e s)
  preempt {s e} now _ _ := by
    have hsent : KeepsSound s (sendCause .preempted now s) := by
      refine of_tags (fun ht => ?_) (sendCause_stores _ now s)
      unfold sendCause
      split
      · exact Steady.refl s
      · exact Steady.ite (Steady.takeCause _ _ ht) (Steady.of_frame (ps := [.notices]) notify_frame)
    exact of_stores (P := noWord) ((Steady.of_frame (removeEntry_frame _ _)).trans (Steady.joinQueue e))
      (Stores.after (joinQueue_stores e _) (removeEntry_stores _ _)) ∘ hsent
  departEntry s n r := of_stores (P := noWord) (Steady.departEntry n r) (departEntry_stores n r s)
  gated s n := of_stores (P := noWord) (Steady.gated n) (gated_stores s n)
  openSession {s n m} _ hunbound := (Steady.openSession hunbound).sound id
  closeSession {s n} r _ _ := of_tags (Steady.closeSession r) (closeSession_stores n r s)
  expireSession {s n} hopen := of_tags (Steady.expireSession hopen) (expireSession_stores n s)
  member s m r h := (Steady.withMember h).sound id
  detector s d h := (Steady.of_parts (ps := [.detector]) withDetector_frame (hdetector := fun _ => h)).sound id
  receiveSample x s := (Steady.receiveSample x).sound (receiveSample_law x)
  recovery s k := (Steady.withKey (k := { s.key with recovery := k }) rfl).sound id
  leaveChangeover hg _ := of_grant (P := noWord) hg Steady.leaveChangeover (leaveChangeover_stores _ _)
  enterWaitClear hg _ := of_grant (P := noWord) hg Steady.enterWaitClear (enterWaitClear_stores _ _)
  expireBusyWait hg := of_grant (P := noWord) hg Steady.expireBusyWait (expireBusyWait_stores _ _)
  enterGap1 hg _ := of_grant (P := noWord) hg Steady.enterGap1 (enterGap1_stores _ _)
  enterGap2 hg _ := of_grant (P := noWord) hg Steady.enterGap2 (enterGap2_stores _ _)
  leaveGap2 hg _ := of_grant (P := noWord) hg Steady.leaveGap2 (leaveGap2_stores _ _)
  expirePrebuffer hg _ := of_grant (P := noWord) hg Steady.expirePrebuffer (expirePrebuffer_stores _ _)
  keyUp hg _ := of_grant (P := noWord) hg Steady.keyUp (keyUp_stores _ _)
  boundary {s g} hg _ hs :=
    (of_grant hg (fun h => Steady.boundaryOf h hs.tagLaw) (boundaryOf_stores g s)) hs
  tailOver {s g} hg _ := of_stores (Steady.unkey s g) (unkey_stores g s)
  accountTick {s g} hg _ := of_grant hg Steady.accountTick (accountTick_stores g s)
  endAtKeyLimit {s g} hg _ := of_grant hg Steady.endAtKeyLimit (endAtKeyLimit_stores g s)
  applyCause {s g} r hg := of_grant hg (Steady.applyCause r) (applyCause_stores g r s)
  takeKeyLimit s m hs := (Steady.takeKeyLimit m hs.tagLaw).sound (takeKeyLimit_work (stored := noWord) s m).law hs
  cancel {s g} hg _ := of_stores (P := noWord) (Steady.preKeyEnd s g _) (preKeyEnd_stores g _ s)
  drain {s g} f hg _ := of_grant hg (Steady.beginDrain f) (beginDrain_stores f g s)

theorem commands : CommandsKeep KeepsSound KeepsSound where
  events := events
  of := id
  after {s u t} hf h hs := h ((Steady.of_frame hf).sound (by
    intro hm; rw [State.memoryLaw, hf .mem (by decide)]; exact hm) hs)
  reset s p hs := resetBlocks_sound p hs.memoryLaw
  endNotice {s kind tag n r} _ :=
    events.event (u := s.withNotices (s.notices.erase (.ended kind tag n r)))
      ((Steady.of_frame (ps := [.notices]) withNotices_frame).sound id)
      (of_stores (P := noWord) (Steady.takeEnded kind r) (takeEnded_stores kind r _))

end KeepsSound

/-- Settles O58: the walk through the rows (`CommandsKeep.step_rel`) with the laws kept by each effect (`Steady`). -/
theorem everyStepKeepsTheStateSound : Obligations.EveryStepKeepsTheStateSound :=
  fun _ _ hs h => KeepsSound.commands.step_rel h hs

end Sys2Proof.Machine
end

section
/-! What the laws of the floor and the grant (O59) read of a state besides its grant: the state's ground. How each effect changes
the ground is said once, here. -/

set_option Elab.async false

namespace Sys2Proof.Machine

/-- What the laws of the floor, the queue, PTT and the log read of a state, its grant apart. -/
structure Ground where
  /-- How many end notices are on their way. -/
  ended : Nat
  idle : Bool
  /-- The sessions that wait in the floor queue. -/
  queue : List Slot
  opened : Slot → Bool
  ptt : Bool
  forbidden : Bool
  log : StationLog

def State.ground (s : State) : Ground where
  ended := s.notices.countP isEnded
  idle := s.floor.idle
  queue := s.floor.queue.map (·.session)
  opened n := (s.session n).state == .opened
  ptt := s.key.ptt
  forbidden := s.pttForbidden
  log := s.log

/-- The parts that the ground and the grant are read from. -/
def groundParts : List Part := [.notices, .floor, .sessions, .key, .supervisor, .phase, .log]

/-- Neither the ground nor the grant is touched. -/
def SameGround (s t : State) : Prop := t.ground = s.ground ∧ t.key.grant = s.key.grant

namespace SameGround

theorem refl (s : State) : SameGround s s := ⟨rfl, rfl⟩

theorem trans {s t u : State} (h1 : SameGround s t) (h2 : SameGround t u) : SameGround s u :=
  ⟨h2.1.trans h1.1, h2.2.trans h1.2⟩

theorem ite {c : Prop} [Decidable c] {s t u : State} (h1 : SameGround s t) (h2 : SameGround s u) :
    SameGround s (if c then t else u) := by
  split <;> assumption

end SameGround

theorem OnlyChanges.opened {ps : List Part} {s t : State} (h : OnlyChanges ps s t) (hp : Part.sessions ∉ ps := by decide)
    (n : Slot) : (t.session n).state = (s.session n).state :=
  (congrArg Session.state (h .sessions hp n) :)

theorem OnlyChanges.forbidden {ps : List Part} {s t : State} (h : OnlyChanges ps s t) (hp : Part.supervisor ∉ ps := by decide)
    (hq : Part.phase ∉ ps := by decide) : t.pttForbidden = s.pttForbidden := by
  have hsupervisor : t.supervisor = s.supervisor := h .supervisor hp
  have hphase : t.phase = s.phase := h .phase hq
  unfold State.pttForbidden State.ready
  rw [hsupervisor, hphase]

/-- What an effect changes of the ground, by the parts it reaches. -/
theorem ground_of_frame {ps : List Part} {s t : State} (h : OnlyChanges ps s t) (hp : ∀ p ∈ groundParts, p ∉ ps := by decide) :
    SameGround s t := by
  have hnotices : t.notices = s.notices := h .notices (hp _ (by decide))
  have hfloor : t.floor = s.floor := h .floor (hp _ (by decide))
  have hkey : t.key = s.key := h .key (hp _ (by decide))
  have hlog : t.log = s.log := h .log (hp _ (by decide))
  refine ⟨?_, congrArg KeyController.grant hkey⟩
  unfold State.ground
  rw [hnotices, hfloor, hkey, hlog, h.forbidden (hp _ (by decide)) (hp _ (by decide))]
  simp only [h.opened (hp _ (by decide))]

/-! ## The updates -/

section updates
variable {s : State}

theorem withSession_ground {n : Slot} {r : Session} (h : r.state = (s.session n).state) : SameGround s (s.withSession n r) := by
  refine ⟨?_, rfl⟩
  have hopened : ∀ k, ((s.withSession n r).session k).state = (s.session k).state := fun k => by
    rw [State.withSession_session]
    split
    · next hk => rw [hk, h]
    · rfl
  unfold State.ground
  simp only [hopened]
  rfl

/-- A change of session `n`'s state (R21, R22, R28). -/
theorem withSession_opened {n : Slot} {r : Session} :
    (s.withSession n r).ground = { s.ground with opened := Function.update s.ground.opened n (r.state == .opened) } := by
  have hopened : (fun k => ((s.withSession n r).session k).state == .opened) =
      Function.update (fun k => (s.session k).state == .opened) n (r.state == .opened) := funext fun k => by
    rw [State.withSession_session, Function.update_apply]
    split <;> rfl
  exact congrArg (fun o => { s.ground with opened := o }) hopened

theorem withGrant_ground (x : Option Grant) : (s.withGrant x).ground = s.ground := rfl

/-- A change of the Key Controller that leaves the grant and PTT. -/
theorem withKey_ground {k : KeyController} (hg : k.grant = s.key.grant) (hp : k.ptt = s.key.ptt) : SameGround s (s.withKey k) := by
  refine ⟨?_, hg⟩
  show { s.ground with ptt := k.ptt } = s.ground
  rw [hp]; rfl

theorem notify_ground (x : Notice) :
    (s.notify x).ground = { s.ground with ended := s.ground.ended + if isEnded x then 1 else 0 } := by
  have hcount : (s.notices ++ [x]).countP isEnded = s.notices.countP isEnded + if isEnded x then 1 else 0 := by
    rw [List.countP_append, List.countP_singleton]
  exact congrArg (fun k => { s.ground with ended := k }) hcount

end updates

/-! ## The ends of a grant -/

theorem endForHolder_ground (g : Grant) (r : EndReason) (s : State) : SameGround s (s.endForHolder g r) := by
  unfold State.endForHolder
  split
  · exact .refl s
  · exact withSession_ground rfl

theorem endPlayout_ground (s : State) : SameGround s s.endPlayout := ground_of_frame (endPlayout_frame s)

/-- The ground after a grant that has not keyed ends (R82). -/
theorem preKeyEnd_ground (g : Grant) (r : EndReason) (s : State) :
    (preKeyEnd g r s).ground = { s.ground with ended := s.ground.ended + 1 } := by
  unfold preKeyEnd
  extract_lets r' h t u v
  obtain ⟨hv, -⟩ : SameGround s v :=
    (ground_of_frame (ps := [.detector]) withHolds_frame).trans <| (endPlayout_ground t).trans (endForHolder_ground g r' u)
  rw [withGrant_ground, notify_ground, hv]
  rfl

theorem preKeyEnd_grant (g : Grant) (r : EndReason) (s : State) : (preKeyEnd g r s).key.grant = none := by rw [preKeyEnd_key]

theorem dropPtt_ground (s : State) : s.dropPtt.ground = { s.ground with ptt := false } := by
  unfold State.dropPtt
  split
  · rfl
  · next h =>
    unfold State.ground
    rw [Bool.not_eq_true] at h
    rw [h]

theorem startRecovery_ground (s : State) : SameGround s s.startRecovery :=
  (withKey_ground (k := { s.key with recovery := startTimer (ms s.params.recovery) }) rfl rfl).trans
    (ground_of_frame (ps := [.detector]) withHolds_frame)

theorem noteTimeout_ground (g : Grant) (s : State) : SameGround s (s.noteTimeout g) := by
  unfold State.noteTimeout
  split
  · exact .refl s
  · exact .ite (withKey_ground rfl rfl) (.refl s)

/-- The log after an append (R156). -/
def StationLog.appended (l : StationLog) : StationLog := { l with next := l.next + 1, reserved := false }

theorem withLog_ground (s : State) (l : StationLog) : (s.withLog l).ground = { s.ground with log := l } := rfl

theorem appendLog_ground (e : LogEntry) (s : State) : (s.appendLog e).ground = { s.ground with log := s.log.appended } := by
  unfold State.appendLog
  extract_lets t
  obtain ⟨ht, -⟩ : SameGround s t := ground_of_frame (ps := [.mem]) writeAll_frame
  have hwritten : OnlyChanges [.mem] s t := writeAll_frame
  have hlog : t.log = s.log := hwritten .log (by decide)
  obtain ⟨hraised, -⟩ : SameGround (t.withLog t.log.appended) ((t.withLog t.log.appended).raise .logAppended) :=
    ground_of_frame (ps := [.events]) raise_frame
  exact hraised.trans (by rw [withLog_ground, ht, hlog])

/-- The ground after an unkey (R83). -/
theorem unkey_ground (g : Grant) (s : State) :
    (unkey g s).ground = { s.ground with ended := s.ground.ended + 1, ptt := false, log := s.log.appended } := by
  unfold unkey
  extract_lets t owed charged h u v w x y x' z
  have ht : t.ground = { s.ground with ptt := false } := dropPtt_ground s
  obtain ⟨hcharged, -⟩ : SameGround t charged.1 := ground_of_frame (chargeTicks_frame t g owed)
  have hu : u.ground = { charged.1.ground with log := charged.1.log.appended } := appendLog_ground _ _
  obtain ⟨hv, -⟩ : SameGround u v := by
    unfold v
    split
    · exact .ite (ground_of_frame (setPenalty_frame u _)) (.refl u)
    · exact .refl u
  obtain ⟨hx, -⟩ : SameGround v x := (ground_of_frame (identEnd_frame v h)).trans (endPlayout_ground w)
  obtain ⟨hz, -⟩ : SameGround x z :=
    (endForHolder_ground h y x).trans <| (startRecovery_ground _).trans (noteTimeout_ground h _)
  have hlog : charged.1.log = s.log :=
    (chargeTicks_frame t g owed .log (by decide)).trans (dropPtt_frame s .log (by decide))
  rw [withGrant_ground, notify_ground, hz, hx, hv, hu, hcharged, ht, hlog]
  rfl

theorem unkey_grant (g : Grant) (s : State) : (unkey g s).key.grant = none := by rw [unkey_key]; rfl

/-! ## The queue -/

theorem without_sessions (f : Floor) (n : Slot) :
    (f.without n).queue.map (·.session) = (f.queue.map (·.session)).filter (· != n) := by
  rw [List.filter_map]; rfl

/-- Where session `n` has no entry, none leaves. -/
theorem filter_sessions_of_entryOf {s : State} {n : Slot} (h : s.entryOf n = none) :
    (s.floor.queue.map (·.session)).filter (· != n) = s.floor.queue.map (·.session) := by
  rw [List.filter_eq_self]
  intro k hk
  obtain ⟨e, he, rfl⟩ := List.mem_map.1 hk
  have hne := List.find?_eq_none.1 h e he
  simpa using hne

theorem removeEntry_ground (s : State) (n : Slot) :
    (s.removeEntry n).ground = { s.ground with queue := s.ground.queue.filter (· != n) } := by
  unfold State.removeEntry
  cases h : s.entryOf n with
  | none => exact (congrArg (fun q => { s.ground with queue := q }) (filter_sessions_of_entryOf h)).symm
  | some e =>
    dsimp only
    obtain ⟨hquiet, -⟩ := ground_of_frame (noteQuiet_frame (s.withFloor (s.floor.without n)))
    rw [hquiet]
    exact congrArg (fun q => { s.ground with queue := q }) (without_sessions s.floor n)

theorem removeEntry_grant (s : State) (n : Slot) : (s.removeEntry n).key.grant = s.key.grant :=
  congrArg KeyController.grant (removeEntry_frame s n .key (by decide))

theorem departEntry_ground (s : State) (n : Slot) (r : EndReason) :
    (departEntry n r s).ground = { s.ground with queue := s.ground.queue.filter (· != n) } := by
  unfold departEntry
  split
  · next h => exact (congrArg (fun q => { s.ground with queue := q }) (filter_sessions_of_entryOf h)).symm
  · obtain ⟨hdeparted, -⟩ : SameGround (s.removeEntry n) ((s.removeEntry n).noteDeparture n r) := withSession_ground rfl
    rw [hdeparted, removeEntry_ground]

theorem departEntry_grant (s : State) (n : Slot) (r : EndReason) : (departEntry n r s).key.grant = s.key.grant :=
  congrArg KeyController.grant (departEntry_frame n r s .key (by decide))

theorem insertEntry_perm (e : Entry) (q : List Entry) : List.Perm (insertEntry e q) (e :: q) := by
  unfold insertEntry
  split
  · exact .refl _
  · induction q with
    | nil => exact .refl _
    | cons x rest ih =>
      unfold insertUnmarked
      split
      · exact .refl _
      · exact (ih.cons x).trans (.swap e x rest)

/-- A join (R36): the new entry's session waits besides those that waited. -/
theorem joinQueue_ground (e : Entry) (s : State) : ∃ q, List.Perm q (e.session :: s.ground.queue) ∧
    (joinQueue e s).ground = { s.ground with queue := q } := by
  unfold joinQueue
  extract_lets a _ t
  refine ⟨t.floor.queue.map (·.session), ?_, ?_⟩
  · exact (insertEntry_perm { e with arrival := a } s.floor.queue).map (·.session)
  · obtain ⟨hquiet, -⟩ := ground_of_frame (stopQuiet_frame t)
    exact hquiet

theorem joinQueue_grant (e : Entry) (s : State) : (joinQueue e s).key.grant = s.key.grant :=
  congrArg KeyController.grant (joinQueue_frame e s .key (by decide))

theorem openGrant_ground (s : State) : s.openGrant.ground = { s.ground with idle := false } := by
  unfold State.openGrant
  obtain ⟨hquiet, -⟩ := ground_of_frame (stopQuiet_frame (s.withFloor { s.floor with
    idle := false, courtesy := none, tagCounter := nextTag s.floor.tagCounter }))
  exact hquiet

/-! ## The log (R153, R154) -/

theorem judgeMark_ground (s : State) : s.judgeMark.ground = { s.ground with log := s.judgeMark.log } := by
  unfold State.judgeMark
  extract_lets v
  split <;> rfl

theorem judgeMark_log {s : State} (h : s.log.unread ≤ 64) :
    s.judgeMark.log.unread ≤ 64 ∧ s.judgeMark.log.reserved = s.log.reserved := by
  unfold State.judgeMark
  extract_lets v
  split
  · next hvalid => exact ⟨hvalid, rfl⟩
  · exact ⟨h, rfl⟩

/-- A reservation changes the log alone: granted, there is room for it (R154). -/
theorem reserve_ground {s : State} (h : s.log.unread ≤ 64) (hreserved : s.log.reserved = false) : ∃ l : StationLog,
    s.reserve.1.ground = { s.ground with log := l } ∧ l.reserved = s.reserve.2 ∧
    l.unread + (if s.reserve.2 then 1 else 0) ≤ 64 := by
  obtain ⟨hunread, hmark⟩ := judgeMark_log h
  unfold State.reserve
  extract_lets t
  have hfree : t.log.reserved = false := hmark.trans hreserved
  split
  · next hroom =>
    refine ⟨{ t.log with reserved := true }, ?_, rfl, ?_⟩
    · show { t.ground with log := { t.log with reserved := true } } = _
      rw [judgeMark_ground]
    · unfold StationLog.room at hroom
      rw [hfree] at hroom
      show t.log.unread + 1 ≤ 64
      rw [if_neg (by decide)] at hroom
      omega
  · exact ⟨t.log, judgeMark_ground s, hfree, hunread⟩

/-- A held reservation leaves room for the entry it is for (R155, R156). -/
theorem appended_unread {l : StationLog} (h : l.unread + 1 ≤ 64) : l.appended.unread ≤ 64 := by
  unfold StationLog.unread StationLog.appended at *
  dsimp only
  have hnext : (l.next + 1 - l.lastMark).toNat ≤ (l.next - l.lastMark).toNat + 1 := by bv_omega
  omega

end Sys2Proof.Machine
end

section
/-! The laws of the floor and the grant (O59) over the ground of a state: the ground that hosts a grant, the vacant ground, and
what the ends of a grant, its key-up and the course to it make of them. -/

set_option Elab.async false

namespace Sys2Proof.Machine

/-- The ground on which a grant of session `n` stands, on the air or not yet. -/
structure Ground.Hosts (a : Ground) (n : Option Slot) (air : Bool) : Prop where
  ended : a.ended = 0
  busy : a.idle = false
  ptt : a.ptt = true → air = true ∧ a.forbidden = false
  nodup : a.queue.Nodup
  entries : ∀ k ∈ a.queue, a.opened k = true ∧ n ≠ some k
  holder : ∀ k, n = some k → a.opened k = true
  room : a.log.unread + (if a.log.reserved then 1 else 0) ≤ 64
  reserved : a.log.reserved = air

/-- The ground on which no grant stands. -/
structure Ground.Vacant (a : Ground) : Prop where
  ended : a.ended ≤ 1
  idle : a.idle = true → a.ended = 0
  ptt : a.ptt = false
  nodup : a.queue.Nodup
  entries : ∀ k ∈ a.queue, a.opened k = true
  room : a.log.unread ≤ 64
  reserved : a.log.reserved = false

/-- A member grant's key time is within its key limit (R75). -/
def Grant.withinLimit (g : Grant) : Prop := ∀ l, g.state.memberOnAir = true → g.keyLimit = some l → g.keyTime ≤ l

/-- The laws of O59. -/
def State.Laws (s : State) : Prop := s.Lawful ∧ s.keyLimitLaw

theorem any_ended_iff (l : List Notice) : l.any isEnded = false ↔ l.countP isEnded = 0 := by
  rw [List.any_eq_false, List.countP_eq_zero]

theorem opened_iff (s : State) (n : Slot) : s.ground.opened n = true ↔ (s.session n).state = .opened := beq_iff_eq

theorem queue_iff {s : State} {P : Slot → Prop} : (∀ k ∈ s.ground.queue, P k) ↔ ∀ e ∈ s.floor.queue, P e.session :=
  List.forall_mem_map

/-- The laws of a state with a grant. -/
theorem laws_hosting {s : State} {g : Grant} (hg : s.key.grant = some g) :
    s.Laws ↔ s.ground.Hosts g.session g.state.onAir ∧ g.lawful ∧ g.withinLimit := by
  have hholds : ∀ n, s.holds n = true ↔ g.session = some n := fun n => by
    unfold State.holds
    rw [hg]
    exact beq_iff_eq
  have hair : (∃ h, s.key.grant = some h ∧ h.state.onAir = true) ↔ g.state.onAir = true := by simp [hg]
  constructor
  · rintro ⟨⟨⟨hidle, hbusy, -⟩, hgrant, hptt, ⟨hnodup, hentry⟩, hholder, hroom, hreserved⟩, hlimit⟩
    have hnone : s.key.grant ≠ none := by rw [hg]; nofun
    refine ⟨⟨(any_ended_iff _).1 (hbusy hnone), ?_, fun h => ?_, hnodup, queue_iff.2 fun e he => ?_, fun k hk => ?_, hroom,
      Bool.eq_iff_iff.2 (hreserved.trans hair)⟩, hgrant g hg, fun l ha hl => hlimit g l hg ha hl⟩
    · exact Bool.eq_false_iff.2 fun h => hnone (hidle h).1
    · exact ⟨hair.1 (hptt h).1, (hptt h).2⟩
    · obtain ⟨hopen, hfree⟩ := hentry e he
      exact ⟨(opened_iff _ _).2 hopen, fun h => by rw [(hholds _).2 h] at hfree; cases hfree⟩
    · exact (opened_iff _ _).2 (hholder k ((hholds k).2 hk))
  · rintro ⟨⟨hended, hbusy, hptt, hnodup, hentry, hholder, hroom, hreserved⟩, hlawful, hlimit⟩
    have hany : s.notices.any isEnded = false := (any_ended_iff _).2 hended
    refine ⟨⟨⟨fun h => ?_, fun _ => hany, (Nat.le_of_eq hended).trans (Nat.zero_le 1)⟩, fun h hh => ?_, fun h => ?_, ⟨hnodup, fun e he => ?_⟩,
      fun n hn => ?_, hroom, ?_⟩, fun h l hh ha hl => ?_⟩
    · rw [show s.floor.idle = false from hbusy] at h; cases h
    · cases hg.symm.trans hh; exact hlawful
    · exact ⟨hair.2 (hptt h).1, (hptt h).2⟩
    · obtain ⟨hopen, hfree⟩ := queue_iff.1 hentry e he
      exact ⟨(opened_iff _ _).1 hopen, Bool.eq_false_iff.2 fun h => hfree ((hholds _).1 h)⟩
    · exact (opened_iff _ _).1 (hholder n ((hholds n).1 hn))
    · rw [hair]; exact Bool.eq_iff_iff.1 hreserved
    · cases hg.symm.trans hh; exact hlimit l ha hl

/-- The laws of a state with no grant. -/
theorem laws_vacant {s : State} (hg : s.key.grant = none) : s.Laws ↔ s.ground.Vacant := by
  have hair : ¬ ∃ h, s.key.grant = some h ∧ h.state.onAir = true := by simp [hg]
  have hholds : ∀ n, s.holds n = false := fun n => by unfold State.holds; rw [hg]
  constructor
  · rintro ⟨⟨⟨hidle, -, hended⟩, -, hptt, ⟨hnodup, hentry⟩, -, hroom, hreserved⟩, -⟩
    have hlog : s.log.reserved = false := Bool.eq_false_iff.2 fun h => hair (hreserved.1 h)
    refine ⟨hended, fun h => (any_ended_iff _).1 (hidle h).2, Bool.eq_false_iff.2 fun h => hair (hptt h).1, hnodup,
      queue_iff.2 fun e he => (opened_iff _ _).2 (hentry e he).1, ?_, hlog⟩
    rw [hlog] at hroom
    exact hroom
  · rintro ⟨hended, hidle, hptt, hnodup, hentry, hroom, hreserved⟩
    have hlog : s.log.reserved = false := hreserved
    refine ⟨⟨⟨fun h => ⟨hg, (any_ended_iff _).2 (hidle h)⟩, fun h => absurd hg h, hended⟩, fun h hh => ?_, fun h => ?_,
      ⟨hnodup, fun e he => ⟨(opened_iff _ _).1 (queue_iff.1 hentry e he), hholds _⟩⟩, fun n hn => ?_, ?_, ?_⟩,
      fun h l hh => ?_⟩
    · rw [hg] at hh; cases hh
    · rw [show s.key.ptt = false from hptt] at h; cases h
    · rw [hholds n] at hn; cases hn
    · rw [hlog]; exact hroom
    · rw [hlog]; exact ⟨nofun, fun h => absurd h hair⟩
    · rw [hg] at hh; cases hh

/-- The laws are read from the ground and the grant. -/
theorem SameGround.laws {s t : State} (h : SameGround s t) (hs : s.Laws) : t.Laws := by
  obtain ⟨hground, hgrant⟩ := h
  cases hg : s.key.grant with
  | none =>
    rw [hg] at hgrant
    rw [laws_vacant hgrant, hground]
    exact (laws_vacant hg).1 hs
  | some g =>
    rw [hg] at hgrant
    rw [laws_hosting hgrant, hground]
    exact (laws_hosting hg).1 hs

/-- The grant has ended, and no other is made before its end notice is taken. -/
def State.Closed (s : State) : Prop := s.key.grant = none ∧ s.floor.idle = false

/-! ## The ends of a grant -/

theorem withGrant_laws {s : State} {g : Grant} (hs : s.ground.Hosts g.session g.state.onAir) (hlawful : g.lawful)
    (hlimit : g.withinLimit) : (s.withGrant (some g)).Laws := (laws_hosting rfl).2 ⟨hs, hlawful, hlimit⟩

theorem withinLimit_offAir {g : Grant} (h : g.state.onAir = false) : g.withinLimit := fun l hair => by
  cases hst : g.state <;> rw [hst] at h hair <;> cases h <;> cases hair

/-- The ground a grant's end leaves. -/
theorem Ground.Hosts.ends {a : Ground} {n : Option Slot} {air : Bool} (h : a.Hosts n air) {l : StationLog} (hroom : l.unread ≤ 64)
    (hreserved : l.reserved = false) : Ground.Vacant { a with ended := a.ended + 1, ptt := false, log := l } where
  ended := by dsimp only; rw [h.ended]
  idle hidle := by rw [h.busy] at hidle; cases hidle
  ptt := rfl
  nodup := h.nodup
  entries k hk := (h.entries k hk).1
  room := hroom
  reserved := hreserved

theorem preKeyEnd_laws {s : State} {g : Grant} {n : Option Slot} (r : EndReason) (h : s.ground.Hosts n false) :
    (preKeyEnd g r s).Laws ∧ (preKeyEnd g r s).Closed := by
  have hroom : s.ground.log.unread ≤ 64 := (Nat.le_add_right _ _).trans h.room
  have hptt : s.ground.ptt = false := Bool.eq_false_iff.2 fun hp => nomatch (h.ptt hp).1
  have hground : (preKeyEnd g r s).ground = { s.ground with ended := s.ground.ended + 1, ptt := false, log := s.ground.log } := by
    rw [preKeyEnd_ground, ← hptt]
  refine ⟨(laws_vacant (preKeyEnd_grant g r s)).2 ?_, preKeyEnd_grant g r s, ?_⟩
  · rw [hground]
    exact h.ends hroom h.reserved
  · exact (congrArg Ground.idle hground).trans h.busy

theorem unkey_laws {s : State} {g : Grant} {n : Option Slot} (h : s.ground.Hosts n true) :
    (unkey g s).Laws ∧ (unkey g s).Closed := by
  have hroom : s.log.unread + 1 ≤ 64 := by
    have hheld := h.room
    rw [h.reserved] at hheld
    exact hheld
  refine ⟨(laws_vacant (unkey_grant g s)).2 ?_, unkey_grant g s, ?_⟩
  · rw [unkey_ground]
    exact h.ends (appended_unread hroom) rfl
  · exact (congrArg Ground.idle (unkey_ground g s)).trans h.busy

/-! ## A grant on the air -/

/-- A member grant that has keyed, with its turnaround timers stopped. -/
structure Grant.Keyed (g : Grant) : Prop where
  kind : g.kind = .member
  session : g.session ≠ none
  member : g.member ≠ none
  changeover : g.changeoverLeft = none
  gap1 : g.gap1Left = none
  gap2 : g.gap2Left = none
  prebuffer : g.prebufferLeft = none
  busyWait : g.busyWait.left = none
  keyUpTime : g.keyUpTime ≠ none
  reservation : g.reservationHeld = true
  unheld : g.keyUpHeld = false
  limit : ∀ l, g.keyLimit = some l → g.keyTime ≤ l

theorem memberOnAir_onAir {st : GrantState} (h : st.memberOnAir = true) : st.onAir = true := by
  cases st <;> first | rfl | cases h

theorem not_none_of {α : Type} {x : Option α} {p : Prop} (h : x ≠ none → p) (hp : ¬ p) : x = none := not_not.1 (mt h hp)

theorem Grant.lawful.unheld {g : Grant} (h : g.lawful) (h1 : g.state ≠ .prebuffer) (h2 : g.state ≠ .gap2) :
    g.keyUpHeld = false := by
  obtain ⟨-, -, -, -, -, -, -, -, -, -, -, -, -, hheld⟩ := h
  refine Bool.eq_false_iff.2 fun hh => ?_
  have hst := hheld hh
  split at hst
  · exact h1 hst
  · exact h2 hst

theorem Grant.lawful.keyed {g : Grant} (h : g.lawful) (hair : g.state.memberOnAir = true) (hlimit : g.withinLimit) : g.Keyed := by
  have hunheld : g.keyUpHeld = false := h.unheld (fun e => by rw [e] at hair; cases hair) fun e => by rw [e] at hair; cases hair
  obtain ⟨hchangeover, hgap1, hgap2, hprebuffer, -, hbusy, hsession, hmember, hident, -, htime, hreserved, -, -⟩ := h
  have hoff : ∀ st : GrantState, st.memberOnAir = false → g.state ≠ st := fun st hst e => by rw [e, hst] at hair; cases hair
  have hkind : g.kind = .member := by
    cases hk : g.kind with
    | member => rfl
    | ident =>
      rcases hident hk with e | e | e | e <;> exact absurd e (hoff _ rfl)
  exact
    { kind := hkind
      session := hsession.1 hkind
      member := hmember.1 hkind
      changeover := not_none_of hchangeover (hoff _ rfl)
      gap1 := not_none_of hgap1 (hoff _ rfl)
      gap2 := not_none_of hgap2 (hoff _ rfl)
      prebuffer := not_none_of hprebuffer (hoff _ rfl)
      busyWait := not_none_of hbusy (by rintro (e | e | e) <;> exact hoff _ rfl e)
      keyUpTime := htime.2 (memberOnAir_onAir hair)
      reservation := hreserved.2 (memberOnAir_onAir hair)
      unheld := hunheld
      limit := fun l => hlimit l hair }

theorem Grant.Keyed.withReason {g : Grant} (h : g.Keyed) (r : EndReason) : (g.withReason r).Keyed :=
  ⟨h.kind, h.session, h.member, h.changeover, h.gap1, h.gap2, h.prebuffer, h.busyWait, h.keyUpTime, h.reservation, h.unheld, h.limit⟩

/-- A keyed grant is lawful in KEYED, DRAIN and TAIL, its tail timer and end reason as the state has them. -/
theorem Grant.Keyed.lawful {g : Grant} (h : g.Keyed) (hair : g.state.memberOnAir = true)
    (htail : g.tailLeft ≠ none → g.state = .tail) (hreason : g.endReason ≠ none ↔ g.state = .drain ∨ g.state = .tail) :
    g.lawful ∧ g.withinLimit := by
  refine ⟨⟨absurd h.changeover, absurd h.gap1, absurd h.gap2, absurd h.prebuffer, htail, absurd h.busyWait,
    ⟨fun _ => h.session, fun _ => h.kind⟩, ⟨fun _ => h.member, fun _ => h.kind⟩, fun hk => ?_, fun hst => ?_,
    ⟨fun _ => memberOnAir_onAir hair, fun _ => h.keyUpTime⟩, ⟨fun _ => memberOnAir_onAir hair, fun _ => h.reservation⟩, hreason,
    fun hh => ?_⟩, fun l _ => h.limit l⟩
  · rw [h.kind] at hk; cases hk
  · rw [hst] at hair; cases hair
  · rw [h.unheld] at hh; cases hh

section onAir
variable {s : State} {g : Grant}

theorem withPlayout_ground (p : Playout) : SameGround s (s.withPlayout p) := ground_of_frame (ps := [.playout]) withPlayout_frame

theorem enterTail_laws (q : Bool) (h : s.ground.Hosts g.session true) (hk : g.Keyed) (hreason : g.endReason ≠ none) :
    (enterTail q g s).Laws := by
  unfold enterTail
  extract_lets g' _ t
  obtain ⟨ht, -⟩ : SameGround s t := withPlayout_ground _
  rw [← ht] at h
  have hk' : g'.Keyed := ⟨hk.kind, hk.session, hk.member, hk.changeover, hk.gap1, hk.gap2, hk.prebuffer, hk.busyWait, hk.keyUpTime,
    hk.reservation, hk.unheld, hk.limit⟩
  obtain ⟨hlawful, hlimit⟩ := hk'.lawful rfl (fun _ => rfl) ⟨fun _ => .inr rfl, fun _ => hreason⟩
  split
  · exact (unkey_laws h).1
  · exact withGrant_laws h hlawful hlimit

theorem beginDrain_laws (f : Option Word) (h : s.ground.Hosts g.session true) (hk : g.Keyed) (htail : g.tailLeft = none) :
    (beginDrain f g s).Laws := by
  unfold beginDrain
  extract_lets _ g' _ t
  obtain ⟨ht, -⟩ : SameGround s t := withPlayout_ground _
  rw [← ht] at h
  have hk' : g'.Keyed := ⟨hk.kind, hk.session, hk.member, hk.changeover, hk.gap1, hk.gap2, hk.prebuffer, hk.busyWait, hk.keyUpTime,
    hk.reservation, hk.unheld, hk.limit⟩
  have hreason : g'.endReason ≠ none := nofun
  obtain ⟨hlawful, hlimit⟩ := hk'.lawful rfl (absurd htail) ⟨fun _ => .inl rfl, fun _ => hreason⟩
  have hdrain : (t.withGrant (some g')).Laws := withGrant_laws h hlawful hlimit
  split
  · split
    · exact enterTail_laws false h hk' hreason
    · exact hdrain
  · exact hdrain

end onAir

/-! ## The key-up and the course to it -/

/-- A grant on its way to its key-up: what the laws ask of it but for the turnaround timers and the hold. -/
structure Grant.Preparing (g : Grant) : Prop where
  session : g.kind = .member ↔ g.session ≠ none
  member : g.kind = .member ↔ g.member ≠ none
  keyUpTime : g.keyUpTime = none
  reservation : g.reservationHeld = false
  endReason : g.endReason = none
  tail : g.tailLeft = none

theorem Grant.lawful.preparing {g : Grant} (h : g.lawful) (hair : g.state.onAir = false) : g.Preparing := by
  obtain ⟨-, -, -, -, htail, -, hsession, hmember, -, -, htime, hreserved, hreason, -⟩ := h
  have hoff : ∀ st : GrantState, st.onAir = true → g.state ≠ st := fun st hst e => by rw [e, hst] at hair; cases hair
  exact
    { session := hsession
      member := hmember
      keyUpTime := not_none_of htime.1 (by rw [hair]; nofun)
      reservation := Bool.eq_false_iff.2 fun hr => by rw [hreserved.1 hr] at hair; cases hair
      endReason := not_none_of hreason.1 (by rintro (e | e) <;> exact hoff _ rfl e)
      tail := not_none_of htail (hoff _ rfl) }

/-- A grant on its way is lawful in a state that has its timers, its kind and its hold. -/
theorem Grant.Preparing.lawful {g : Grant} (h : g.Preparing) (hair : g.state.onAir = false)
    (hchangeover : g.changeoverLeft ≠ none → g.state = .changeover) (hgap1 : g.gap1Left ≠ none → g.state = .gap1)
    (hgap2 : g.gap2Left ≠ none → g.state = .gap2) (hprebuffer : g.prebufferLeft ≠ none → g.state = .prebuffer)
    (hbusy : g.busyWait.left ≠ none → g.state = .waitClear ∨ g.state = .gap1 ∨ g.state = .gap2)
    (hident : g.kind = .ident → g.state = .waitClear ∨ g.state = .gap1 ∨ g.state = .gap2)
    (hheld : g.keyUpHeld = true → g.state = if g.kind = .member then .prebuffer else .gap2) : g.lawful := by
  refine ⟨hchangeover, hgap1, hgap2, hprebuffer, absurd h.tail, hbusy, h.session, h.member,
    fun hk => (hident hk).imp_right (Or.imp_right .inl), fun hst => ?_, ?_, ?_, ?_, hheld⟩
  · rw [hst] at hair; cases hair
  · rw [h.keyUpTime, hair]; exact ⟨absurd rfl, nofun⟩
  · rw [h.reservation, hair]
  · rw [h.endReason]
    refine ⟨absurd rfl, ?_⟩
    rintro (e | e) <;> rw [e] at hair <;> cases hair

/-- The ground, once PTT is asserted for a key-up with room in the log (R72). -/
theorem Ground.Hosts.keysUp {a : Ground} {n : Option Slot} (h : a.Hosts n false) (hallowed : a.forbidden = false) {l : StationLog}
    (hroom : l.unread + 1 ≤ 64) (hreserved : l.reserved = true) : Ground.Hosts { a with ptt := true, log := l } n true where
  ended := h.ended
  busy := h.busy
  ptt _ := ⟨rfl, hallowed⟩
  nodup := h.nodup
  entries := h.entries
  holder := h.holder
  room := by dsimp only; rw [hreserved]; exact hroom
  reserved := hreserved

/-- The key-up makes of grant `g` this one (R72). -/
def Grant.keyedUp (g : Grant) (now : Clock) : Grant :=
  { g with
    reservationHeld := true, keyUpTime := some now, keySamples := 0, ticks := 0, busyWait := .off, prebufferLeft := none
    state := match g.kind with | .member => .keyed | .ident => .idSending }

/-- The state in which a grant of this kind comes to its key-up (R69, R71). -/
def Grant.atKeyUp (g : Grant) : Prop := (g.state = if g.kind = .member then .prebuffer else .gap2) ∧ g.gap2Left = none

theorem Grant.atKeyUp.offAir {g : Grant} (h : g.atKeyUp) : g.state.onAir = false := by
  obtain ⟨hst, -⟩ := h
  rw [hst]
  split <;> rfl

theorem keyedUp_lawful {g : Grant} (now : Clock) (hlawful : g.lawful) (hat : g.atKeyUp) (hunheld : g.keyUpHeld = false) :
    (g.keyedUp now).lawful ∧ (g.keyedUp now).withinLimit := by
  have hp := hlawful.preparing hat.offAir
  obtain ⟨hst, hgap2⟩ := hat
  obtain ⟨hchangeover, hgap1, -⟩ := hlawful
  have hnot : ∀ st : GrantState, st ≠ .prebuffer → st ≠ .gap2 → g.state ≠ st := fun st h1 h2 e => by
    rw [e] at hst
    split at hst
    · exact h1 hst
    · exact h2 hst
  have hc : g.changeoverLeft = none := not_none_of hchangeover (hnot _ nofun nofun)
  have h1 : g.gap1Left = none := not_none_of hgap1 (hnot _ nofun nofun)
  unfold Grant.keyedUp Grant.lawful Grant.withinLimit
  refine ⟨⟨absurd hc, absurd h1, absurd hgap2, absurd rfl, absurd hp.tail, absurd rfl, hp.session, hp.member, fun hk => ?_,
    fun hs => ?_, ?_, ?_, ?_, fun hh => ?_⟩, fun l _ _ => ?_⟩
  · dsimp only at hk ⊢
    rw [hk]; exact .inr (.inr (.inr rfl))
  · dsimp only at hs ⊢
    cases hk : g.kind with
    | member => rw [hk] at hs; cases hs
    | ident => rfl
  · dsimp only
    cases g.kind <;> exact ⟨fun _ => rfl, fun _ => nofun⟩
  · dsimp only
    cases g.kind <;> exact ⟨fun _ => rfl, fun _ => rfl⟩
  · dsimp only
    rw [hp.endReason]
    cases g.kind <;> exact ⟨absurd rfl, by rintro (e | e) <;> cases e⟩
  · rw [hunheld] at hh; cases hh
  · show 0 / 8 ≤ l
    omega

section course
variable {s : State} {g : Grant}

theorem memberKeyUp_ground (g : Grant) (t : State) : SameGround t (t.memberKeyUp g) := by
  unfold State.memberKeyUp
  extract_lets u v w
  have hu : SameGround t u := by
    unfold u
    split
    · exact ground_of_frame (ps := [.members]) withMember_frame
    · exact .refl t
  have hv : SameGround u v := ground_of_frame (identOwed_frame u)
  have hw : SameGround v w := by
    unfold w
    split
    · next n _ =>
      extract_lets r
      split
      · exact withSession_ground rfl
      · exact .refl v
    · exact .refl v
  exact hu.trans (hv.trans (hw.trans (ground_of_frame (startPlayout_frame w))))

theorem keyUpSucceeds_laws (h : s.ground.Hosts g.session false) (hallowed : s.pttForbidden = false) (hlawful : g.lawful)
    (hat : g.atKeyUp) (hunheld : g.keyUpHeld = false) {r : State} {l : StationLog} (hr : r.ground = { s.ground with log := l })
    (hroom : l.unread + 1 ≤ 64) (hreserved : l.reserved = true) : (keyUpSucceeds g r).Laws := by
  obtain ⟨hlaw, hlimit⟩ := keyedUp_lawful r.clock hlawful hat hunheld
  have hair : (g.keyedUp r.clock).state.onAir = true := by
    show (match g.kind with | .member => GrantState.keyed | .ident => .idSending).onAir = true
    cases g.kind <;> rfl
  let t := (r.withGrant (some (g.keyedUp r.clock))).assertPtt
  have hground : t.ground = { s.ground with ptt := true, log := l } := by
    show ({ r.ground with ptt := true } : Ground) = _
    rw [hr]
  have ht : t.Laws := by
    refine (laws_hosting (g := g.keyedUp r.clock) rfl).2 ⟨?_, hlaw, hlimit⟩
    rw [hground, hair]
    exact h.keysUp hallowed hroom hreserved
  show (match g.kind with | .member => t.memberKeyUp (g.keyedUp r.clock) | .ident => t).Laws
  cases g.kind with
  | member => exact (memberKeyUp_ground _ t).laws ht
  | ident => exact ht

theorem keyUp_laws (h : s.ground.Hosts g.session false) (hlawful : g.lawful) (hat : g.atKeyUp) : (keyUp g s).Laws := by
  unfold keyUp
  split
  · have hp := hlawful.preparing hat.offAir
    obtain ⟨hc, h1, h2, h3, -, hb, -, -, hident, -⟩ := hlawful
    refine withGrant_laws ?_ (Grant.Preparing.lawful ⟨hp.session, hp.member, hp.keyUpTime, hp.reservation, hp.endReason, hp.tail⟩
      hat.offAir hc h1 h2 h3 hb (fun hk => ?_) fun _ => hat.1) (withinLimit_offAir hat.offAir)
    · show s.ground.Hosts g.session g.state.onAir
      rw [hat.offAir]; exact h
    · obtain ⟨hst, -⟩ := hat
      rw [if_neg (by rw [show g.kind = .ident from hk]; nofun)] at hst
      exact .inr (.inr hst)
  · next hbar =>
    rw [Bool.not_eq_true] at hbar
    unfold State.barsKeyUp at hbar
    obtain ⟨⟨hallowed, hunheld⟩, -⟩ := (Bool.or_eq_false_iff.1 hbar).imp_left Bool.or_eq_false_iff.1
    split
    · exact (preKeyEnd_laws _ h).1
    · obtain ⟨l, hground, hreserved, hroom⟩ := reserve_ground ((Nat.le_add_right _ _).trans h.room) h.reserved
      extract_lets r
      split
      · next hgranted =>
        rw [if_pos hgranted] at hroom
        exact keyUpSucceeds_laws h hallowed hlawful hat hunheld hground hroom (hreserved.trans hgranted)
      · next hrefused =>
        refine (preKeyEnd_laws (n := g.session) _ ?_).1
        rw [Bool.not_eq_true] at hrefused
        rw [show r.1.ground = _ from hground]
        exact { h with room := by dsimp only; rw [hreserved]; exact hroom, reserved := hreserved.trans hrefused }

/-- A grant on its way whose changeover and prebuffer timers stand still, and which is not held. -/
structure Grant.Waits (g : Grant) : Prop extends g.Preparing where
  changeover : g.changeoverLeft = none
  prebuffer : g.prebufferLeft = none
  unheld : g.keyUpHeld = false

/-- A waiting grant is lawful in the three states of the turnaround. -/
theorem Grant.Waits.lawful (h : g.Waits) (hst : g.state = .waitClear ∨ g.state = .gap1 ∨ g.state = .gap2)
    (h1 : g.gap1Left ≠ none → g.state = .gap1) (h2 : g.gap2Left ≠ none → g.state = .gap2) : g.lawful :=
  h.toPreparing.lawful (by rcases hst with e | e | e <;> rw [e] <;> rfl) (absurd h.changeover) h1 h2 (absurd h.prebuffer)
    (fun _ => hst) (fun _ => hst) fun hh => by rw [h.unheld] at hh; cases hh

/-- The same grant with another state and other turnaround timers. -/
theorem Grant.Waits.of_same {g' : Grant} (h : g.Waits) (hkind : g'.kind = g.kind := by rfl) (hsession : g'.session = g.session := by rfl)
    (hmember : g'.member = g.member := by rfl) (htime : g'.keyUpTime = g.keyUpTime := by rfl)
    (hreserved : g'.reservationHeld = g.reservationHeld := by rfl) (hreason : g'.endReason = g.endReason := by rfl)
    (htail : g'.tailLeft = g.tailLeft := by rfl) (hchangeover : g'.changeoverLeft = g.changeoverLeft := by rfl)
    (hprebuffer : g'.prebufferLeft = g.prebufferLeft := by rfl) (hheld : g'.keyUpHeld = g.keyUpHeld := by rfl) : g'.Waits where
  session := by rw [hkind, hsession]; exact h.session
  member := by rw [hkind, hmember]; exact h.member
  keyUpTime := htime.trans h.keyUpTime
  reservation := hreserved.trans h.reservation
  endReason := hreason.trans h.endReason
  tail := htail.trans h.tail
  changeover := hchangeover.trans h.changeover
  prebuffer := hprebuffer.trans h.prebuffer
  unheld := hheld.trans h.unheld

theorem enterPrebuffer_laws (h : s.ground.Hosts g.session false) (hw : g.Waits) (hkind : g.kind = .member)
    (h1 : g.gap1Left = none) (h2 : g.gap2Left = none) (hb : g.busyWait.left = none) : (enterPrebuffer g s).Laws := by
  unfold enterPrebuffer
  extract_lets g'
  have hlawful : g'.lawful := Grant.Preparing.lawful
    ⟨hw.session, hw.member, hw.keyUpTime, hw.reservation, hw.endReason, hw.tail⟩ rfl (absurd hw.changeover) (absurd h1) (absurd h2)
    (fun _ => rfl) (absurd hb) (fun hk => by rw [show g'.kind = .member from hkind] at hk; cases hk)
    fun hh => by rw [show g'.keyUpHeld = false from hw.unheld] at hh; cases hh
  split
  · exact keyUp_laws (g := g') h hlawful ⟨(if_pos hkind).symm, h2⟩
  · exact withGrant_laws (g := g') h hlawful (withinLimit_offAir rfl)

theorem leaveGap2_laws (h : s.ground.Hosts g.session false) (hw : g.Waits) (hst : g.state = .gap2) (h1 : g.gap1Left = none) :
    (leaveGap2 g s).Laws := by
  unfold leaveGap2
  extract_lets g'
  have hw' : g'.Waits := hw.of_same
  split
  · next hk => exact enterPrebuffer_laws (g := g') h hw' hk h1 rfl rfl
  · next hk =>
    have hlawful : g'.lawful := hw'.lawful (.inr (.inr hst)) (absurd h1) (absurd rfl)
    exact keyUp_laws (g := g') h hlawful ⟨hst.trans (if_neg (by rw [hk]; nofun)).symm, rfl⟩

theorem enterGap2_laws (h : s.ground.Hosts g.session false) (hw : g.Waits) : (enterGap2 g s).Laws := by
  unfold enterGap2
  extract_lets g'
  have hw' : g'.Waits := hw.of_same
  split
  · exact leaveGap2_laws (g := g') h hw' rfl rfl
  · exact withGrant_laws (g := g') h (hw'.lawful (.inr (.inr rfl)) (absurd rfl) fun _ => rfl) (withinLimit_offAir rfl)

theorem enterGap1_laws (h : s.ground.Hosts g.session false) (hw : g.Waits) (h2 : g.gap2Left = none) : (enterGap1 g s).Laws := by
  unfold enterGap1
  extract_lets g'
  have hw' : g'.Waits := hw.of_same
  split
  · exact enterGap2_laws (g := g') h hw'
  · exact withGrant_laws (g := g') h (hw'.lawful (.inr (.inl rfl)) (fun _ => rfl) (absurd h2)) (withinLimit_offAir rfl)

theorem busyWaitOver_laws (h : s.ground.Hosts g.session false) (hw : g.Waits) (h2 : g.gap2Left = none) : (busyWaitOver g s).Laws := by
  unfold busyWaitOver
  split
  · exact (preKeyEnd_laws _ h).1
  · unfold forceIdent
    extract_lets _ t
    obtain ⟨ht, -⟩ : SameGround s t := ground_of_frame (ps := [.ident]) withIdent_frame
    have hw' : Grant.Waits { g with forced := true } := hw.of_same
    exact enterGap1_laws (g := { g with forced := true }) (by rw [ht]; exact h) hw' h2

theorem enterWaitClear_laws (h : s.ground.Hosts g.session false) (hw : g.Waits) (h2 : g.gap2Left = none) :
    (enterWaitClear g s).Laws := by
  unfold enterWaitClear
  extract_lets g'
  have hw' : g'.Waits := hw.of_same
  split
  · exact enterGap1_laws (g := g') h hw' h2
  · split
    · exact busyWaitOver_laws (g := g') h hw' h2
    · exact withGrant_laws (g := g') h (hw'.lawful (.inl rfl) (absurd rfl) (absurd h2)) (withinLimit_offAir rfl)

/-- A MEMBER grant with no turnaround timer running. -/
structure Grant.Unstarted (g : Grant) : Prop extends g.Preparing where
  kind : g.kind = .member
  prebuffer : g.prebufferLeft = none
  unheld : g.keyUpHeld = false
  gap1 : g.gap1Left = none
  gap2 : g.gap2Left = none
  busyWait : g.busyWait.left = none

theorem Grant.Unstarted.waits (h : g.Unstarted) (hc : g.changeoverLeft = none) : g.Waits :=
  { h.toPreparing with changeover := hc, prebuffer := h.prebuffer, unheld := h.unheld }

theorem leaveChangeover_laws (h : s.ground.Hosts g.session false) (hu : g.Unstarted) : (leaveChangeover g s).Laws := by
  unfold leaveChangeover
  extract_lets g' _ t
  obtain ⟨ht, -⟩ : SameGround s t := ground_of_frame (ps := [.detector]) withHolds_frame
  have hw : g'.Waits := Grant.Waits.of_same (g := { g with changeoverLeft := none })
    { session := hu.session, member := hu.member, keyUpTime := hu.keyUpTime, reservation := hu.reservation, endReason := hu.endReason,
      tail := hu.tail, changeover := rfl, prebuffer := hu.prebuffer, unheld := hu.unheld }
  rw [← ht] at h
  split
  · exact enterWaitClear_laws (g := g') h hw hu.gap2
  · exact enterPrebuffer_laws (g := g') h hw hu.kind hu.gap1 hu.gap2 hu.busyWait

theorem enterChangeover_laws (h : s.ground.Hosts g.session false) (hu : g.Unstarted) : (enterChangeover g s).Laws := by
  unfold enterChangeover
  extract_lets g' _ t _ u
  obtain ⟨hground, -⟩ : SameGround s u := (withKey_ground (k := { s.key with chsel := (s.channel g'.channel).radioMemory }) rfl rfl).trans
    (ground_of_frame (ps := [.detector]) withHolds_frame)
  rw [← hground] at h
  have hu' : g'.Unstarted :=
    { session := hu.session, member := hu.member, keyUpTime := hu.keyUpTime, reservation := hu.reservation, endReason := hu.endReason,
      tail := hu.tail, kind := hu.kind, prebuffer := hu.prebuffer, unheld := hu.unheld, gap1 := hu.gap1, gap2 := hu.gap2,
      busyWait := hu.busyWait }
  split
  · exact leaveChangeover_laws (g := g') h hu'
  · refine withGrant_laws (g := g') h (hu'.toPreparing.lawful rfl (fun _ => rfl) (absurd hu.gap1) (absurd hu.gap2)
      (absurd hu.prebuffer) (absurd hu.busyWait) (fun hk => ?_) fun hh => ?_) (withinLimit_offAir rfl)
    · rw [show g'.kind = .member from hu.kind] at hk; cases hk
    · rw [show g'.keyUpHeld = false from hu.unheld] at hh; cases hh

/-! ## A grant taken (R62) -/

theorem startSweep_ground (tag : Word) : SameGround s (s.startSweep tag) := ground_of_frame (startSweep_frame s tag)

theorem takeMemberGrant_laws (tag : Word) {n : Slot} (m : MemberIx) (c : ChannelIx) (h : s.ground.Hosts (some n) false) :
    (takeMemberGrant tag n m c s).Laws := by
  unfold takeMemberGrant
  extract_lets _ g _ t u
  obtain ⟨hu, -⟩ : SameGround s u := (withKey_ground (k := { s.key with chselChannel := some c }) rfl rfl).trans (startSweep_ground tag)
  have hg : g.Unstarted :=
    { session := ⟨fun _ => nofun, fun _ => rfl⟩, member := ⟨fun _ => nofun, fun _ => rfl⟩, keyUpTime := rfl, reservation := rfl,
      endReason := rfl, tail := rfl, kind := rfl, prebuffer := rfl, unheld := rfl, gap1 := rfl, gap2 := rfl, busyWait := rfl }
  rw [← hu] at h
  split
  · exact enterChangeover_laws (g := g) h hg
  · split
    · exact enterWaitClear_laws (g := g) h (hg.waits rfl) rfl
    · exact enterPrebuffer_laws (g := g) h (hg.waits rfl) rfl rfl rfl rfl

theorem takeIdentGrant_laws (tag : Word) (c : ChannelIx) (h : s.ground.Hosts none false) : (takeIdentGrant tag c s).Laws := by
  unfold takeIdentGrant
  extract_lets g t
  obtain ⟨ht, -⟩ : SameGround s t := startSweep_ground tag
  have hg : g.Waits :=
    { session := ⟨nofun, absurd rfl⟩, member := ⟨nofun, absurd rfl⟩, keyUpTime := rfl, reservation := rfl, endReason := rfl,
      tail := rfl, changeover := rfl, prebuffer := rfl, unheld := rfl }
  rw [← ht] at h
  split
  · exact enterWaitClear_laws (g := g) h hg rfl
  · exact keyUp_laws (g := g) h (hg.lawful (.inr (.inr rfl)) (absurd rfl) (absurd rfl)) ⟨rfl, rfl⟩

end course

end Sys2Proof.Machine
end

section
/-! The laws of the floor and the grant across each effect (O59), and what becomes of a held grant. -/

set_option Elab.async false

namespace Sys2Proof.Machine

/-- What O59 says of an effect. That no grant is made after a grant's end, before its end notice is taken, is what makes it hold of
effects that follow each other. -/
def Upholds (s t : State) : Prop := s.Laws → t.Laws ∧
  (∀ g, s.key.grant = some g → g.keyUpHeld = true →
    t.Closed ∨ ∃ h, t.key.grant = some h ∧ h.tag = g.tag ∧ h.state = g.state ∧ h.keyUpHeld = true) ∧
  (s.Closed → t.Closed)

namespace Upholds
variable {s t u : State}

theorem refl (s : State) : Upholds s s := fun hs => ⟨hs, fun g hg hh => .inr ⟨g, hg, rfl, rfl, hh⟩, id⟩

theorem trans (h1 : Upholds s t) (h2 : Upholds t u) : Upholds s u := fun hs => by
  obtain ⟨ht, hheld, hclosed⟩ := h1 hs
  obtain ⟨hu, hheld', hclosed'⟩ := h2 ht
  refine ⟨hu, fun g hg hh => ?_, hclosed' ∘ hclosed⟩
  rcases hheld g hg hh with h | ⟨x, hx, htag, hstate, hxh⟩
  · exact .inl (hclosed' h)
  · rcases hheld' x hx hxh with h | ⟨y, hy, htag', hstate', hyh⟩
    · exact .inl h
    · exact .inr ⟨y, hy, htag'.trans htag, hstate'.trans hstate, hyh⟩

theorem ite {c : Prop} [Decidable c] (h1 : c → Upholds s t) (h2 : ¬ c → Upholds s u) : Upholds s (if c then t else u) := by
  split
  · next h => exact h1 h
  · next h => exact h2 h

/-- An effect that leaves the grant and the floor's idleness. -/
theorem of_grant (hgrant : t.key.grant = s.key.grant) (hidle : t.ground.idle = s.ground.idle) (h : s.Laws → t.Laws) :
    Upholds s t := fun hs =>
  ⟨h hs, fun g hg hh => .inr ⟨g, hgrant.trans hg, rfl, rfl, hh⟩, fun ⟨hnone, hbusy⟩ => ⟨hgrant.trans hnone, hidle.trans hbusy⟩⟩

theorem of_same (h : SameGround s t) : Upholds s t := of_grant h.2 (congrArg Ground.idle h.1) h.laws

theorem of_frame {ps : List Part} (h : OnlyChanges ps s t) (hp : ∀ p ∈ groundParts, p ∉ ps := by decide) : Upholds s t :=
  of_same (ground_of_frame h hp)

/-- An effect on the current grant, which is not held. -/
theorem of_unheld {g : Grant} (hg : s.key.grant = some g) (hunheld : g.keyUpHeld = false) (h : t.Laws) : Upholds s t := fun _ =>
  ⟨h, fun x hx hh => by (cases hg.symm.trans hx; rw [hunheld] at hh; cases hh), fun hclosed => by
    obtain ⟨hnone, -⟩ := hclosed
    rw [hg] at hnone; cases hnone⟩

/-- The end of the current grant. -/
theorem of_end (h : t.Laws) (hclosed : t.Closed) : Upholds s t := fun _ =>
  ⟨h, fun _ _ _ => .inl hclosed, fun _ => hclosed⟩

/-- A change of the current grant's record that leaves its tag, its state and its hold. -/
theorem of_record {g h : Grant} (hg : s.key.grant = some g) (ht : t.Laws) (hh : t.key.grant = some h)
    (hheld : g.keyUpHeld = true → h.tag = g.tag ∧ h.state = g.state ∧ h.keyUpHeld = true) : Upholds s t := fun _ =>
  ⟨ht, fun x hx hxh => by cases hg.symm.trans hx; exact .inr ⟨h, hh, hheld hxh⟩, fun hclosed => by
    obtain ⟨hnone, -⟩ := hclosed
    rw [hg] at hnone; cases hnone⟩

/-- An effect on the current grant, on the ground that hosts it. -/
theorem on {g : Grant} (hg : s.key.grant = some g)
    (h : s.ground.Hosts g.session g.state.onAir → g.lawful → g.withinLimit → Upholds s t) : Upholds s t := fun hs => by
  obtain ⟨hhosts, hlawful, hlimit⟩ := (laws_hosting hg).1 hs
  exact h hhosts hlawful hlimit hs

/-! ## PTT and the Supervisor -/

/-- A change that at most lifts a ban on PTT, or is made while PTT is released. -/
theorem of_ban {b : Bool} (hground : t.ground = { s.ground with forbidden := b }) (hgrant : t.key.grant = s.key.grant)
    (hban : b = true → s.ground.forbidden = true) : Upholds s t := by
  refine of_grant hgrant (congrArg Ground.idle hground :) fun hs => ?_
  cases hg : s.key.grant with
  | none =>
    rw [laws_vacant (hgrant.trans hg), hground]
    have h := (laws_vacant hg).1 hs
    exact { h with }
  | some g =>
    rw [laws_hosting (hgrant.trans hg), hground]
    obtain ⟨h, hrest⟩ := (laws_hosting hg).1 hs
    exact ⟨{ h with ptt := fun hp => ⟨(h.ptt hp).1, Bool.eq_false_iff.2 fun hb => by
      have hallowed := (h.ptt hp).2
      rw [hban hb] at hallowed; cases hallowed⟩ }, hrest⟩

/-- The release of PTT, whatever the ban. -/
theorem releases {b : Bool} (hground : t.ground = { s.ground with ptt := false, forbidden := b })
    (hgrant : t.key.grant = s.key.grant) : Upholds s t := by
  refine of_grant hgrant (congrArg Ground.idle hground :) fun hs => ?_
  cases hg : s.key.grant with
  | none =>
    rw [laws_vacant (hgrant.trans hg), hground]
    have h := (laws_vacant hg).1 hs
    exact { h with ptt := rfl }
  | some g =>
    rw [laws_hosting (hgrant.trans hg), hground]
    obtain ⟨h, hrest⟩ := (laws_hosting hg).1 hs
    exact ⟨{ h with ptt := fun hp => nomatch hp }, hrest⟩

theorem withSupervisor {v : Supervisor} (h : (s.withSupervisor v).pttForbidden = true → s.pttForbidden = true) :
    Upholds s (s.withSupervisor v) := of_ban (b := (s.withSupervisor v).pttForbidden) rfl rfl h

theorem dropPtt {s t : State} (h : OnlyChanges [.supervisor, .events] s t) : Upholds s t.dropPtt := by
  have hnotices : t.notices = s.notices := h .notices (by decide)
  have hfloor : t.floor = s.floor := h .floor (by decide)
  have hkey : t.key = s.key := h .key (by decide)
  have hlog : t.log = s.log := h .log (by decide)
  have hground : t.ground = { s.ground with forbidden := t.pttForbidden } := by
    unfold State.ground
    rw [hnotices, hfloor, hkey, hlog]
    simp only [h.opened]
  refine releases (b := t.pttForbidden) (by rw [dropPtt_ground, hground]) ?_
  rw [dropPtt_key, hkey]

theorem releaseReset (h : s.phase = .held) : Upholds s s.releaseReset :=
  of_ban (b := s.releaseReset.pttForbidden) rfl rfl fun _ => by
    show s.pttForbidden = true
    unfold State.pttForbidden State.ready
    rw [h, Bool.or_eq_true]
    exact .inr rfl

/-- The end of the clearing (R172): DISABLE is taken from its input, and the part is ready. -/
theorem becomesReady (h : s.phase = .clearing) (hu : SameGround s u) (v : Supervisor) :
    Upholds s { u.withSupervisor v with phase := .ready } := by
  obtain ⟨hground, hgrant⟩ := hu
  refine of_ban (b := State.pttForbidden { u.withSupervisor v with phase := .ready }) (by rw [← hground]; rfl) hgrant fun _ => ?_
  show s.pttForbidden = true
  unfold State.pttForbidden State.ready
  rw [h, Bool.or_eq_true]
  exact .inr rfl

theorem finishStartUp (h : s.phase = .clearing) : Upholds s s.finishStartUp := by
  have hrecorded : SameGround s s.recorded :=
    SameGround.trans (t := s.cleared) ⟨rfl, rfl⟩ (ground_of_frame (rewriteRecords_frame allSlots s.cleared))
  rw [finishStartUp_eq]
  exact becomesReady h (hrecorded.trans (ground_of_frame (rewritePage_frame s.recorded))) _

/-! ## The notices -/

theorem notify {x : Notice} (hx : isEnded x = false) : Upholds s (s.notify x) :=
  of_same ⟨by rw [notify_ground, hx]; rfl, rfl⟩

theorem erase {x : Notice} (hx : isEnded x = false) : Upholds s (s.withNotices (s.notices.erase x)) := by
  refine of_same ⟨?_, rfl⟩
  show { s.ground with ended := (s.notices.erase x).countP isEnded } = s.ground
  rw [List.countP_erase, if_neg (by rw [hx]; exact nofun)]
  rfl

/-! ## Time -/

theorem countDown_none {n : Nat} {t : Option Nat} (h : countDown n t ≠ none) : t ≠ none := by
  rintro rfl
  exact h rfl

theorem passTime_lawful {g : Grant} (n : Nat) (h : g.lawful) : (g.passTime n).lawful := by
  obtain ⟨hchangeover, hgap1, hgap2, hprebuffer, htail, hbusy, hrest⟩ := h
  refine ⟨hchangeover ∘ countDown_none, hgap1 ∘ countDown_none, hgap2 ∘ countDown_none, hprebuffer ∘ countDown_none,
    htail ∘ countDown_none, fun hb => hbusy ?_, hrest⟩
  intro hoff
  unfold Grant.passTime at hb
  cases hw : g.busyWait with
  | off | expired => rw [hw] at hb; exact hb rfl
  | running k => rw [hw] at hoff; cases hoff

/-- Time passes to the key limit at most (R75). -/
theorem passTime_withinLimit {g : Grant} {n : Nat} (hg : s.key.grant = some g) (hpass : s.mayPass n = true)
    (h : g.withinLimit) : (g.passTime n).withinLimit := by
  intro l hair hl
  have hair' : g.state.memberOnAir = true := hair
  have hwithin : g.keySamples / 8 ≤ l := h l hair' hl
  have hleft : n ≤ 8 * l - g.keySamples ∨ n = 0 := by
    rcases (mayPass_iff s n).1 hpass with h0 | ⟨-, -, -, -, hleft⟩
    · exact .inr h0
    · refine .inl (hleft true (ms l - g.keySamples) .keyLimitReached (.limit hg ?_))
      unfold Grant.limitLeft
      rw [if_pos hair', show g.keyLimit = some l from hl]
      rfl
  show (if g.state.onAir = true then g.keySamples + n else g.keySamples) / 8 ≤ l
  rw [if_pos (memberOnAir_onAir hair')]
  omega

theorem passTime {n : Nat} (hpass : s.mayPass n = true) : Upholds s (s.passTime n) := by
  cases hg : s.key.grant with
  | none =>
    have hnone : (s.passTime n).key.grant = none := by
      show s.key.grant.map (·.passTime n) = none
      rw [hg]; rfl
    exact of_grant (hnone.trans hg.symm) rfl fun hs => (laws_vacant hnone).2 ((laws_vacant hg).1 hs)
  | some g =>
    refine on hg fun hhosts hlawful hlimit => ?_
    exact of_record hg ((laws_hosting (passTime_grant n hg)).2
      ⟨hhosts, passTime_lawful n hlawful, passTime_withinLimit hg hpass hlimit⟩) (passTime_grant n hg) fun hh => ⟨rfl, rfl, hh⟩

end Upholds

end Sys2Proof.Machine
end

section
/-! The floor queue, the sessions and the arbitration under the laws of O59. -/

set_option Elab.async false

namespace Sys2Proof.Machine

/-! ## What leaves and what joins the queue -/

namespace Ground
variable {a : Ground} {n : Option Slot} {air : Bool}

/-- Session `k` is OPEN no more, and does not wait. -/
def close (a : Ground) (k : Slot) : Ground :=
  { a with queue := a.queue.filter (· != k), opened := Function.update a.opened k false }

/-- Session `k` waits no more. -/
def depart (a : Ground) (k : Slot) : Ground := { a with queue := a.queue.filter (· != k) }

theorem mem_depart {k j : Slot} (h : j ∈ a.queue.filter (· != k)) : j ∈ a.queue ∧ j ≠ k := by
  obtain ⟨hmem, hne⟩ := List.mem_filter.1 h
  exact ⟨hmem, bne_iff_ne.1 hne⟩

theorem Vacant.depart (h : a.Vacant) (k : Slot) : (a.depart k).Vacant :=
  { h with
    nodup := h.nodup.filter _
    entries := fun j hj => h.entries j (mem_depart hj).1 }

theorem Hosts.depart (h : a.Hosts n air) (k : Slot) : (a.depart k).Hosts n air :=
  { h with
    nodup := h.nodup.filter _
    entries := fun j hj => h.entries j (mem_depart hj).1 }

theorem Vacant.close (h : a.Vacant) (k : Slot) : (a.close k).Vacant :=
  { h with
    nodup := h.nodup.filter _
    entries := fun j hj => by
      obtain ⟨hmem, hne⟩ := mem_depart hj
      exact (Function.update_of_ne hne ..).trans (h.entries j hmem) }

theorem Hosts.close (h : a.Hosts n air) {k : Slot} (hk : n ≠ some k) : (a.close k).Hosts n air :=
  { h with
    nodup := h.nodup.filter _
    entries := fun j hj => by
      obtain ⟨hmem, hne⟩ := mem_depart hj
      obtain ⟨hopen, hfree⟩ := h.entries j hmem
      exact ⟨(Function.update_of_ne hne ..).trans hopen, hfree⟩
    holder := fun j hj => (Function.update_of_ne (fun heq => hk (hj.trans (congrArg some heq))) ..).trans (h.holder j hj) }

/-- Session `k` joins the queue, which is `q` then. -/
theorem Vacant.join {k : Slot} {q : List Slot} (h : a.Vacant) (hq : List.Perm q (k :: a.queue)) (hk : k ∉ a.queue)
    (hopen : a.opened k = true) : Vacant { a with queue := q } :=
  { h with
    nodup := hq.nodup_iff.2 (List.nodup_cons.2 ⟨hk, h.nodup⟩)
    entries := fun j hj => by
      rcases List.mem_cons.1 (hq.mem_iff.1 hj) with rfl | hmem
      · exact hopen
      · exact h.entries j hmem }

theorem Hosts.join {k : Slot} {q : List Slot} (h : a.Hosts n air) (hq : List.Perm q (k :: a.queue)) (hk : k ∉ a.queue)
    (hopen : a.opened k = true) (hfree : n ≠ some k) : Hosts { a with queue := q } n air :=
  { h with
    nodup := hq.nodup_iff.2 (List.nodup_cons.2 ⟨hk, h.nodup⟩)
    entries := fun j hj => by
      rcases List.mem_cons.1 (hq.mem_iff.1 hj) with rfl | hmem
      · exact ⟨hopen, hfree⟩
      · exact h.entries j hmem }

/-- The ground after the end of a grant, on the air or not. -/
def afterEnd (a : Ground) : Bool → Ground
  | true => { a with ended := a.ended + 1, ptt := false, log := a.log.appended }
  | false => { a with ended := a.ended + 1 }

theorem afterEnd_close (a : Ground) (air : Bool) (k : Slot) : (a.close k).afterEnd air = (a.afterEnd air).close k := by
  cases air <;> rfl

theorem afterEnd_idle (a : Ground) (air : Bool) : (a.afterEnd air).idle = a.idle := by cases air <;> rfl

theorem afterEnd_opened (a : Ground) (air : Bool) : (a.afterEnd air).opened = a.opened := by cases air <;> rfl

theorem Hosts.afterEnd (h : a.Hosts n air) : (a.afterEnd air).Vacant := by
  cases air with
  | true =>
    have hroom := h.room
    rw [h.reserved] at hroom
    exact h.ends (appended_unread hroom) rfl
  | false =>
    have hptt : a.ptt = false := Bool.eq_false_iff.2 fun hp => nomatch (h.ptt hp).1
    have hvacant := h.ends ((Nat.le_add_right _ _).trans h.room) h.reserved
    rw [← hptt] at hvacant
    exact hvacant

end Ground

/-- An abrupt cause ends the grant, by the unkey on the air and before its key-up otherwise (R80). -/
theorem applyCause_ground (g : Grant) {r : EndReason} (s : State) (hr : causeClass r = .abrupt) :
    (applyCause g r s).key.grant = none ∧ (applyCause g r s).ground = s.ground.afterEnd g.state.onAir := by
  have hunkey : ∀ h : Grant, (unkey h s).key.grant = none ∧ (unkey h s).ground = s.ground.afterEnd true := fun h =>
    ⟨unkey_grant h s, unkey_ground h s⟩
  have hpre : (preKeyEnd g r s).key.grant = none ∧ (preKeyEnd g r s).ground = s.ground.afterEnd false :=
    ⟨preKeyEnd_grant g r s, preKeyEnd_ground g r s⟩
  unfold applyCause
  rw [hr]
  cases g.state
  case keyed | idSending | drain | tail => exact hunkey _
  all_goals exact hpre

/-- What is left of the end of session `k`'s claim, once its slot is OPEN no more (R22, R28). -/
theorem endClaim_ground {s u : State} {k : Slot} (r : EndReason) (hr : causeClass r = .abrupt)
    (hu : u.ground = { s.ground with opened := Function.update s.ground.opened k false }) (hgrant : u.key.grant = s.key.grant) :
    let t := departEntry k r (endGrantOf k r u)
    (∃ g, s.key.grant = some g ∧ g.session = some k ∧ t.key.grant = none ∧ t.ground = (s.ground.close k).afterEnd g.state.onAir) ∨
      ((∀ g, s.key.grant = some g → g.session ≠ some k) ∧ t.key.grant = s.key.grant ∧ t.ground = s.ground.close k) := by
  intro t
  have ht : t.key.grant = (endGrantOf k r u).key.grant := departEntry_grant _ k r
  have htground : t.ground = (endGrantOf k r u).ground.depart k := departEntry_ground _ k r
  unfold endGrantOf at ht htground
  cases hg : u.grantOf k with
  | some g =>
    obtain ⟨hcurrent, hsession⟩ := grantOf_some hg
    rw [hg] at ht htground
    dsimp only at ht htground
    have htaken : takeCause g.tag r u = applyCause g r u := by
      unfold takeCause
      rw [hcurrent]
      exact if_pos rfl
    obtain ⟨hnone, hground⟩ := applyCause_ground g u hr
    rw [htaken] at ht htground
    refine .inl ⟨g, hgrant ▸ hcurrent, hsession, ht.trans hnone, ?_⟩
    rw [htground, hground, hu]
    cases g.state.onAir <;> rfl
  | none =>
    rw [hg] at ht htground
    dsimp only at ht htground
    refine .inr ⟨fun g hcurrent hsession => ?_, ht.trans hgrant, ?_⟩
    · unfold State.grantOf at hg
      rw [hgrant, hcurrent] at hg
      dsimp only at hg
      rw [if_pos hsession] at hg
      cases hg
    · rw [htground, hu]; rfl

namespace Upholds
variable {s t u : State}

theorem endClaim {k : Slot} (r : EndReason) (hr : causeClass r = .abrupt)
    (hu : u.ground = { s.ground with opened := Function.update s.ground.opened k false }) (hgrant : u.key.grant = s.key.grant) :
    Upholds s (departEntry k r (endGrantOf k r u)) := by
  rcases endClaim_ground r hr hu hgrant with ⟨g, hg, hsession, hnone, hground⟩ | ⟨hothers, hsame, hground⟩
  · refine on hg fun hhosts _ _ => of_end ((laws_vacant hnone).2 ?_) ⟨hnone, ?_⟩
    · rw [hground, Ground.afterEnd_close]
      exact hhosts.afterEnd.close k
    · exact ((congrArg Ground.idle hground).trans (Ground.afterEnd_idle _ _)).trans hhosts.busy
  · refine of_grant hsame (congrArg Ground.idle hground :) fun hs => ?_
    cases hg : s.key.grant with
    | none =>
      rw [laws_vacant (hsame.trans hg), hground]
      exact ((laws_vacant hg).1 hs).close k
    | some g =>
      rw [laws_hosting (hsame.trans hg), hground]
      obtain ⟨hhosts, hrest⟩ := (laws_hosting hg).1 hs
      exact ⟨hhosts.close (hothers g hg), hrest⟩

theorem closeSession {n : Slot} (r : EndReason) (hr : causeClass r = .abrupt) : Upholds s (closeSession n r s) :=
  endClaim r hr withSession_opened rfl

theorem expireSession {n : Slot} : Upholds s (expireSession n s) := by
  rw [expireSession_eq]
  refine endClaim .linkLost rfl ?_ (congrArg KeyController.grant (sessionLost_frame s n .key (by decide)))
  unfold State.sessionLost
  extract_lets _ u
  have hu : u.ground = { s.ground with opened := Function.update s.ground.opened n false } := withSession_opened
  split
  · exact hu
  · obtain ⟨hmember, -⟩ : SameGround u (u.withMember _ _) := ground_of_frame (ps := [.members]) withMember_frame
    exact hmember.trans hu

theorem openSession (n : Slot) (m : MemberIx) : Upholds s (openSession n m s) := by
  have hground : (Machine.openSession n m s).ground = { s.ground with opened := Function.update s.ground.opened n true } :=
    withSession_opened
  have hopened : ∀ k, s.ground.opened k = true → Function.update s.ground.opened n true k = true := fun k hk => by
    rw [Function.update_apply]
    split
    · rfl
    · exact hk
  refine of_grant rfl (congrArg Ground.idle hground :) fun hs => ?_
  cases hg : s.key.grant with
  | none =>
    rw [laws_vacant (s := Machine.openSession n m s) hg, hground]
    have h := (laws_vacant hg).1 hs
    exact { h with entries := fun k hk => hopened k (h.entries k hk) }
  | some g =>
    rw [laws_hosting (s := Machine.openSession n m s) hg, hground]
    obtain ⟨h, hrest⟩ := (laws_hosting hg).1 hs
    exact ⟨{ h with
      entries := fun k hk => ⟨hopened k (h.entries k hk).1, (h.entries k hk).2⟩
      holder := fun k hk => hopened k (h.holder k hk) }, hrest⟩

theorem of_depart {n : Slot} (hgrant : t.key.grant = s.key.grant) (hground : t.ground = s.ground.depart n) : Upholds s t := by
  refine of_grant hgrant (congrArg Ground.idle hground :) fun hs => ?_
  cases hg : s.key.grant with
  | none =>
    rw [laws_vacant (hgrant.trans hg), hground]
    exact ((laws_vacant hg).1 hs).depart n
  | some g =>
    rw [laws_hosting (hgrant.trans hg), hground]
    obtain ⟨h, hrest⟩ := (laws_hosting hg).1 hs
    exact ⟨h.depart n, hrest⟩

theorem departEntry (n : Slot) (r : EndReason) : Upholds s (departEntry n r s) :=
  of_depart (departEntry_grant s n r) (departEntry_ground s n r)

theorem removeEntry (n : Slot) : Upholds s (s.removeEntry n) := of_depart (removeEntry_grant s n) (removeEntry_ground s n)

/-- An OPEN session that neither waits nor holds joins. -/
theorem joinQueue {e : Entry} (hopen : s.ground.opened e.session = true) (hfresh : e.session ∉ s.ground.queue)
    (hfree : ∀ g, s.key.grant = some g → g.session ≠ some e.session) : Upholds s (joinQueue e s) := by
  obtain ⟨q, hq, hground⟩ := joinQueue_ground e s
  have hgrant := joinQueue_grant e s
  refine of_grant hgrant (congrArg Ground.idle hground :) fun hs => ?_
  cases hg : s.key.grant with
  | none =>
    rw [laws_vacant (hgrant.trans hg), hground]
    exact ((laws_vacant hg).1 hs).join hq hfresh hopen
  | some g =>
    rw [laws_hosting (hgrant.trans hg), hground]
    obtain ⟨h, hrest⟩ := (laws_hosting hg).1 hs
    exact ⟨h.join hq hfresh hopen (hfree g hg), hrest⟩

theorem not_waits {s : State} {n : Slot} (h : s.entryOf n = none) : n ∉ s.ground.queue := fun hn => by
  have hstay : n ∈ s.ground.queue.filter (· != n) := (filter_sessions_of_entryOf h).symm ▸ hn
  exact (Ground.mem_depart hstay).2 rfl

theorem not_holds {s : State} {n : Slot} (h : s.holds n = false) : ∀ g, s.key.grant = some g → g.session ≠ some n := by
  intro g hg hsession
  unfold State.holds at h
  rw [hg] at h
  exact bne_iff_ne.1 (congrArg not h) hsession

end Upholds

/-! ## The arbitration -/

/-- No grant exists, no end notice is on its way, and the floor is idle. -/
structure State.FloorFree (s : State) : Prop where
  grant : s.key.grant = none
  vacant : s.ground.Vacant
  idle : s.ground.idle = true

theorem State.FloorFree.laws {s : State} (h : s.FloorFree) : s.Laws := (laws_vacant h.grant).2 h.vacant

theorem departEntry_free {s : State} (h : s.FloorFree) (n : Slot) (r : EndReason) : (departEntry n r s).FloorFree := by
  have hground : (departEntry n r s).ground = s.ground.depart n := departEntry_ground s n r
  exact ⟨(departEntry_grant s n r).trans h.grant, hground ▸ h.vacant.depart n, (congrArg Ground.idle hground).trans h.idle⟩

/-- The ground of a grant just made (R51). -/
theorem State.FloorFree.hosts {s : State} (h : s.FloorFree) {q : List Slot} {n : Option Slot} (hq : q.Sublist s.ground.queue)
    (hfree : ∀ k ∈ q, n ≠ some k) (hopen : ∀ k, n = some k → s.ground.opened k = true) :
    Ground.Hosts { s.ground with idle := false, queue := q } n false where
  ended := h.vacant.idle h.idle
  busy := rfl
  ptt hp := absurd hp (by rw [h.vacant.ptt]; nofun)
  nodup := h.vacant.nodup.sublist hq
  entries k hk := ⟨h.vacant.entries k (hq.subset hk), hfree k hk⟩
  holder := hopen
  room := by
    show s.ground.log.unread + _ ≤ 64
    rw [h.vacant.reserved]
    exact h.vacant.room
  reserved := h.vacant.reserved

theorem grantEntry_laws {s : State} {e : Entry} (h : s.FloorFree) (hopen : s.ground.opened e.session = true) :
    (grantEntry e s).Laws := by
  unfold grantEntry
  extract_lets t f u
  refine takeMemberGrant_laws _ _ _ ?_
  have ht : t.ground = { s.ground with idle := false } := openGrant_ground s
  have hqueue : t.floor.queue.map Entry.session = s.ground.queue := congrArg Ground.queue ht
  have hu : u.ground = { s.ground with idle := false, queue := s.ground.queue.filter (· != e.session) } := by
    show { t.ground with queue := (t.floor.without e.session).queue.map Entry.session } = _
    rw [without_sessions, hqueue, ht]
  rw [hu]
  exact h.hosts List.filter_sublist (fun k hk heq => (Ground.mem_depart hk).2 (Option.some.inj heq).symm)
    fun k hk => Option.some.inj hk ▸ hopen

theorem grantIdent_laws {s : State} (h : s.FloorFree) :
    (grantIdent s).1.Laws ∧ ((grantIdent s).2 = false → (grantIdent s).1.FloorFree) := by
  unfold grantIdent
  split
  · exact ⟨h.laws, fun _ => h⟩
  · extract_lets t
    refine ⟨takeIdentGrant_laws _ _ ?_, nofun⟩
    have ht : t.ground = { s.ground with idle := false } := openGrant_ground s
    rw [ht]
    exact h.hosts (List.Sublist.refl _) (fun _ _ => nofun) nofun

theorem tryEntries_laws (skip : State → Entry → Bool) (l : List Entry) : ∀ s : State, s.FloorFree →
    (∀ e ∈ l, s.ground.opened e.session = true) →
    (tryEntries skip l s).1.Laws ∧ ((tryEntries skip l s).2 = false → (tryEntries skip l s).1.FloorFree) := by
  induction l with
  | nil => exact fun s h _ => ⟨h.laws, fun _ => h⟩
  | cons e rest ih =>
    intro s h hopen
    obtain ⟨he, hrest⟩ := List.forall_mem_cons.1 hopen
    have hdeparts : ∀ r, (tryEntries skip rest (departEntry e.session r s)).1.Laws ∧
        ((tryEntries skip rest (departEntry e.session r s)).2 = false →
          (tryEntries skip rest (departEntry e.session r s)).1.FloorFree) := fun r =>
      ih _ (departEntry_free h _ r) fun x hx => by
        rw [departEntry_ground]
        exact hrest x hx
    unfold tryEntries
    split
    · exact ih s h hrest
    · split
      · exact ⟨grantEntry_laws h he, nofun⟩
      · exact hdeparts _
      · exact hdeparts _

/-- The entries of the queue are of OPEN sessions. -/
theorem State.FloorFree.queued {s : State} (h : s.FloorFree) (p : Entry → Bool) :
    ∀ e ∈ s.floor.queue.filter p, s.ground.opened e.session = true := fun _ he =>
  h.vacant.entries _ (List.mem_map_of_mem (List.mem_of_mem_filter he))

theorem tryIdent_laws {s : State} (h : s.FloorFree) :
    (tryIdent s).1.Laws ∧ ((tryIdent s).2 = false → (tryIdent s).1.FloorFree) := by
  unfold tryIdent
  split
  · exact grantIdent_laws h
  · exact ⟨h.laws, fun _ => h⟩

theorem tryUnmarked_laws {s : State} (h : s.FloorFree) : (tryUnmarked s).1.Laws := by
  unfold tryUnmarked
  split
  · exact (tryEntries_laws _ _ s h (h.queued _)).1
  · exact h.laws

theorem arbitrate_laws {s : State} (h : s.FloorFree) : (arbitrate s).Laws := by
  unfold arbitrate
  extract_lets a b
  obtain ⟨ha, hafree⟩ : a.1.Laws ∧ (a.2 = false → a.1.FloorFree) := tryEntries_laws _ _ s h (h.queued _)
  split
  · exact h.laws
  · split
    · exact ha
    · next hmarked =>
      obtain ⟨hb, hbfree⟩ : b.1.Laws ∧ (b.2 = false → b.1.FloorFree) := tryIdent_laws (hafree (Bool.not_eq_true _ ▸ hmarked))
      split
      · exact hb
      · next hident => exact tryUnmarked_laws (hbfree (Bool.not_eq_true _ ▸ hident))

theorem arbitrate_busy {s : State} (h : s.floor.idle = false) : arbitrate s = s := by
  unfold arbitrate State.grantsForbidden
  rw [h]
  rfl

theorem floorFree_of_idle {s : State} (hs : s.Laws) (h : s.floor.idle = true) : s.FloorFree := by
  have hgrant : s.key.grant = none := (hs.1.floorLaw.1 h).1
  exact ⟨hgrant, (laws_vacant hgrant).1 hs, h⟩

/-- An arbitration makes a grant on an idle floor only (R46). -/
theorem Upholds.arbitrate (s : State) : Upholds s (arbitrate s) := by
  cases hidle : s.floor.idle with
  | false =>
    rw [arbitrate_busy hidle]
    exact .refl s
  | true =>
    intro hs
    have h := floorFree_of_idle hs hidle
    refine ⟨arbitrate_laws h, fun g hg => ?_, fun ⟨_, hbusy⟩ => ?_⟩
    · rw [h.grant] at hg; cases hg
    · rw [hidle] at hbusy; cases hbusy

end Sys2Proof.Machine
end

section
/-! What each event of a grant makes of the laws, and the laws across every step (O59). -/

set_option Elab.async false

namespace Sys2Proof.Machine

/-- A grant before its key-up, which is not held, with the changeover and prebuffer timers stopped. -/
theorem Grant.lawful.waits {g : Grant} (h : g.lawful) (hair : g.state.onAir = false) (hchangeover : g.state ≠ .changeover)
    (hprebuffer : g.state ≠ .prebuffer) (hunheld : g.keyUpHeld = false) : g.Waits :=
  { h.preparing hair with
    changeover := not_none_of h.1 hchangeover
    prebuffer := by
      obtain ⟨-, -, -, hlimit, -⟩ := h
      exact not_none_of hlimit hprebuffer
    unheld := hunheld }

namespace Upholds
variable {s t : State} {g : Grant}

theorem preKeyEnd (r : EndReason) (h : s.ground.Hosts g.session false) :
    Upholds s (preKeyEnd g r s) :=
  of_end (preKeyEnd_laws r h).1 (preKeyEnd_laws r h).2

theorem unkey {g' : Grant} (h : s.ground.Hosts g.session true) : Upholds s (unkey g' s) :=
  of_end (unkey_laws h).1 (unkey_laws h).2

/-- A change of the current grant's record in its state, lawful as before. -/
theorem rewrites {g' : Grant} (hg : s.key.grant = some g) (hhosts : s.ground.Hosts g.session g.state.onAir)
    (hlawful : g'.lawful) (hlimit : g'.withinLimit) (hsession : g'.session = g.session) (htag : g'.tag = g.tag)
    (hstate : g'.state = g.state) (hheld : g'.keyUpHeld = g.keyUpHeld) : Upholds s (s.withGrant (some g')) :=
  of_record hg (withGrant_laws (by rw [hsession, hstate]; exact hhosts) hlawful hlimit) rfl
    fun hh => ⟨htag, hstate, hheld.trans hh⟩

/-! ## The course to the key-up -/

theorem onWaiting {f : Grant → State → State} (hg : s.key.grant = some g)
    (hstate : g.state = .waitClear ∨ g.state = .gap1)
    (h : s.ground.Hosts g.session false → g.Waits → g.gap2Left = none → (f g s).Laws) : Upholds s (f g s) := by
  refine on hg fun hhosts hlawful _ => ?_
  have hnot : ∀ st : GrantState, st ≠ .waitClear → st ≠ .gap1 → g.state ≠ st := fun st h1 h2 e =>
    hstate.elim (fun e' => h1 (e.symm.trans e')) fun e' => h2 (e.symm.trans e')
  have hair : g.state.onAir = false := by rcases hstate with e | e <;> rw [e] <;> rfl
  have hunheld : g.keyUpHeld = false := hlawful.unheld (hnot _ nofun nofun) (hnot _ nofun nofun)
  have hgap2 : g.gap2Left = none := by
    obtain ⟨-, -, hgap2, -⟩ := hlawful
    exact not_none_of hgap2 (hnot _ nofun nofun)
  rw [hair] at hhosts
  exact of_unheld hg hunheld (h hhosts (hlawful.waits hair (hnot _ nofun nofun) (hnot _ nofun nofun) hunheld) hgap2)

theorem enterGap1 (hg : s.key.grant = some g) (hstate : g.state = .waitClear) : Upholds s (enterGap1 g s) :=
  onWaiting hg (.inl hstate) enterGap1_laws

theorem enterWaitClear (hg : s.key.grant = some g) (hstate : g.state = .gap1) : Upholds s (enterWaitClear g s) :=
  onWaiting hg (.inr hstate) enterWaitClear_laws

theorem enterGap2 (hg : s.key.grant = some g) (htimer : g.gap1Left ≠ none) : Upholds s (enterGap2 g s) :=
  on hg fun _ ⟨_, hgap1, _⟩ _ => onWaiting hg (.inr (hgap1 htimer)) fun h hw _ => enterGap2_laws h hw

theorem leaveChangeover (hg : s.key.grant = some g) (htimer : g.changeoverLeft ≠ none) : Upholds s (leaveChangeover g s) := by
  refine on hg fun hhosts hlawful _ => ?_
  have hstate : g.state = .changeover := hlawful.1 htimer
  have hoff : ∀ st : GrantState, st ≠ .changeover → g.state ≠ st := fun st h e => h (e.symm.trans hstate)
  have hair : g.state.onAir = false := by rw [hstate]; rfl
  have hunheld : g.keyUpHeld = false := hlawful.unheld (hoff _ nofun) (hoff _ nofun)
  have hpreparing := hlawful.preparing hair
  obtain ⟨-, hgap1, hgap2, hprebuffer, -, hbusy, -, -, hident, -⟩ := hlawful
  have hkind : g.kind = .member := by
    cases hk : g.kind with
    | member => rfl
    | ident => rcases hident hk with e | e | e | e <;> exact absurd e (hoff _ nofun)
  rw [hair] at hhosts
  exact of_unheld hg hunheld (leaveChangeover_laws hhosts
    { hpreparing with
      kind := hkind
      prebuffer := not_none_of hprebuffer (hoff _ nofun)
      unheld := hunheld
      gap1 := not_none_of hgap1 (hoff _ nofun)
      gap2 := not_none_of hgap2 (hoff _ nofun)
      busyWait := not_none_of hbusy (by rintro (e | e | e) <;> exact absurd e (hoff _ (by decide))) })

theorem expireBusyWait (hg : s.key.grant = some g) : Upholds s (expireBusyWait g s) := by
  rw [expireBusyWait_eq]
  refine ite (fun hstate => ?_) fun _ => ?_
  · refine onWaiting (f := fun g s => busyWaitOver { g with busyWait := .expired } s) hg (.inl hstate) fun h hw h2 => ?_
    have hw' : Grant.Waits { g with busyWait := .expired } := hw.of_same
    exact busyWaitOver_laws (g := { g with busyWait := .expired }) h hw' h2
  · refine on hg fun hhosts ⟨hchangeover, hgap1, hgap2, hprebuffer, htail, _, hrest⟩ hlimit => ?_
    exact rewrites (g' := { g with busyWait := .expired }) hg hhosts
      ⟨hchangeover, hgap1, hgap2, hprebuffer, htail, absurd rfl, hrest⟩ hlimit rfl rfl rfl rfl

/-- A key-up event on the current grant, whose record has at most had its timers stopped since: a held grant stays held. -/
theorem keysUp {g' : Grant} (hg : s.key.grant = some g) (hhosts : s.ground.Hosts g'.session false) (hlawful : g'.lawful)
    (hat : g'.atKeyUp) (htag : g'.tag = g.tag) (hstate : g'.state = g.state) (hheld : g'.keyUpHeld = g.keyUpHeld) :
    Upholds s (keyUp g' s) := by
  have hlaws := keyUp_laws hhosts hlawful hat
  cases hh : g.keyUpHeld with
  | false => exact of_unheld hg hh hlaws
  | true =>
    rw [keyUp_held s (hheld.trans hh)] at hlaws ⊢
    exact of_record hg hlaws rfl fun _ => ⟨htag, hstate, hheld.trans hh⟩

theorem atKeyUp_of_prebuffer (hlawful : g.lawful) (hstate : g.state = .prebuffer) : g.atKeyUp := by
  obtain ⟨-, -, hgap2, -, -, -, -, -, hident, -⟩ := hlawful
  have hkind : g.kind = .member := by
    cases hk : g.kind with
    | member => rfl
    | ident => rcases hident hk with e | e | e | e <;> rw [hstate] at e <;> cases e
  exact ⟨by rw [hkind]; exact hstate, not_none_of hgap2 (by rw [hstate]; nofun)⟩

theorem keyUp (hg : s.key.grant = some g) (hstate : g.state = .prebuffer) : Upholds s (keyUp g s) :=
  on hg fun hhosts hlawful _ => by
    rw [hstate] at hhosts
    exact keysUp hg hhosts hlawful (atKeyUp_of_prebuffer hlawful hstate) rfl rfl rfl

theorem leaveGap2 (hg : s.key.grant = some g) (htimer : g.gap2Left ≠ none) : Upholds s (leaveGap2 g s) := by
  refine on hg fun hhosts hlawful _ => ?_
  have hlaw := hlawful
  obtain ⟨-, hgap1, hgap2, -, -, -, -, -, -, -, -, -, -, hheld⟩ := hlawful
  have hstate : g.state = .gap2 := hgap2 htimer
  have hair : g.state.onAir = false := by rw [hstate]; rfl
  have h1 : g.gap1Left = none := not_none_of hgap1 (by rw [hstate]; nofun)
  rw [hair] at hhosts
  cases hh : g.keyUpHeld with
  | false =>
    have hw := hlaw.waits hair (by rw [hstate]; nofun) (by rw [hstate]; nofun) hh
    exact of_unheld hg hh (leaveGap2_laws hhosts hw hstate h1)
  | true =>
    have hkind : g.kind = .ident := by
      cases hk : g.kind with
      | ident => rfl
      | member =>
        have hprebuffer := hheld hh
        rw [hk, hstate] at hprebuffer
        cases hprebuffer
    let g' : Grant := { g with gap2Left := none, busyWait := .off }
    have hcases : Machine.leaveGap2 g s =
        match g.kind with | .member => Machine.enterPrebuffer g' s | .ident => Machine.keyUp g' s := rfl
    have hleave : Machine.leaveGap2 g s = Machine.keyUp g' s := by
      rw [hcases, hkind]
    obtain ⟨hc, -, -, hp, ht, -, hrest⟩ := hlaw
    rw [hleave]
    refine keysUp (g' := g') hg hhosts ⟨hc, hgap1, absurd rfl, hp, ht, absurd rfl, hrest⟩ ⟨?_, rfl⟩ rfl rfl rfl
    exact hheld hh

theorem expirePrebuffer (hg : s.key.grant = some g) (htimer : g.prebufferLeft ≠ none) : Upholds s (expirePrebuffer g s) := by
  refine on hg fun hhosts hlawful hlimit => ?_
  have hat := hlawful
  obtain ⟨hc, h1, h2, hprebuffer, ht, hrest⟩ := hlawful
  have hstate : g.state = .prebuffer := hprebuffer htimer
  have hlaw : Grant.lawful { g with prebufferLeft := none } := ⟨hc, h1, h2, absurd rfl, ht, hrest⟩
  have hoff : s.ground.Hosts g.session false := by rw [hstate] at hhosts; exact hhosts
  unfold Machine.expirePrebuffer
  refine ite (fun _ => ?_) fun hunheld => ite (fun _ => ?_) fun _ => ?_
  · exact rewrites (g' := { g with prebufferLeft := none }) hg hhosts hlaw hlimit rfl rfl rfl rfl
  · exact keysUp (g' := { g with prebufferLeft := none }) hg hoff hlaw (atKeyUp_of_prebuffer (g := g) hat hstate) rfl rfl rfl
  · exact of_end (preKeyEnd_laws _ hoff).1 (preKeyEnd_laws _ hoff).2

/-! ## A grant on the air -/

theorem on_keyed (hg : s.key.grant = some g) (hair : g.state.memberOnAir = true)
    (h : s.ground.Hosts g.session true → g.Keyed → g.lawful → Upholds s t) : Upholds s t :=
  on hg fun hhosts hlawful hlimit => by
    rw [memberOnAir_onAir hair] at hhosts
    exact h hhosts (hlawful.keyed hair hlimit) hlawful

theorem reason_of_drain (h : g.lawful) (hstate : g.state = .drain) : g.endReason ≠ none := by
  obtain ⟨-, -, -, -, -, -, -, -, -, -, -, -, hreason, -⟩ := h
  exact hreason.2 (.inl hstate)

theorem tail_of_keyed (h : g.lawful) (hstate : g.state = .keyed) : g.tailLeft = none := by
  obtain ⟨-, -, -, -, htail, -⟩ := h
  exact not_none_of htail (by rw [hstate]; nofun)

theorem beginDrain (f : Option Word) (hg : s.key.grant = some g) (hstate : g.state = .keyed) : Upholds s (beginDrain f g s) :=
  on_keyed hg (by rw [hstate]; rfl) fun hhosts hk hlawful =>
    of_unheld hg hk.unheld (beginDrain_laws f hhosts hk (tail_of_keyed hlawful hstate))

theorem cutsOff (r : EndReason) (hg : s.key.grant = some g) (hstate : g.state = .keyed) :
    Upholds s (enterTail true (g.withReason r) s) :=
  on_keyed hg (by rw [hstate]; rfl) fun hhosts hk _ =>
    of_unheld hg hk.unheld (enterTail_laws true (g := g.withReason r) hhosts (hk.withReason r) nofun)

theorem drainOver (q : Bool) (hg : s.key.grant = some g) (hstate : g.state = .drain) : Upholds s (enterTail q g s) :=
  on_keyed hg (by rw [hstate]; rfl) fun hhosts hk hlawful =>
    of_unheld hg hk.unheld (enterTail_laws q hhosts hk (reason_of_drain hlawful hstate))

/-- What any cause does to the current grant (R80). -/
theorem applyCause (r : EndReason) (hg : s.key.grant = some g) : Upholds s (applyCause g r s) := by
  refine on hg fun hhosts _ _ => ?_
  have hunkey : ∀ g' : Grant, g.state.onAir = true → Upholds s (Machine.unkey g' s) := fun g' hair => by
    rw [hair] at hhosts
    exact unkey hhosts
  have hend : ∀ r, g.state.onAir = false → Upholds s (Machine.preKeyEnd g r s) := fun r hair => by
    rw [hair] at hhosts
    exact preKeyEnd r hhosts
  unfold Machine.applyCause
  cases hstate : g.state
  case keyed =>
    cases causeClass r
    case abrupt => exact hunkey _ (by rw [hstate]; rfl)
    case limit => exact cutsOff r hg hstate
    case orderly => exact beginDrain none hg hstate
    all_goals exact .refl s
  case idSending =>
    cases causeClass r
    case abrupt | completion => exact hunkey _ (by rw [hstate]; rfl)
    all_goals exact .refl s
  case drain | tail =>
    cases causeClass r
    case abrupt => exact hunkey _ (by rw [hstate]; rfl)
    all_goals exact .refl s
  all_goals
    cases causeClass r
    case abrupt | preKey | orderly => exact hend _ (by rw [hstate]; rfl)
    all_goals exact .refl s

theorem takeCause (tag : Word) (r : EndReason) : Upholds s (takeCause tag r s) := by
  unfold Machine.takeCause
  split
  · exact .refl s
  · next g hg => exact ite (fun _ => applyCause r hg) fun _ => .refl s

theorem chargeTicks (n : Nat) : SameGround s (s.chargeTicks g n).1 := ground_of_frame (chargeTicks_frame s g n)

theorem accountTick (hg : s.key.grant = some g) : Upholds s (accountTick g s) := by
  have hcharged : SameGround s (s.chargeTicks g 1).1 := chargeTicks 1
  have hgrant : (s.chargeTicks g 1).1.key.grant = some g := hcharged.2.trans hg
  let h : Grant := { g with ticks := g.ticks + 1, budgetExhausted := g.budgetExhausted || (s.chargeTicks g 1).2 }
  have hcounted : Upholds s ((s.chargeTicks g 1).1.withGrant (some h)) := (of_same hcharged).trans <|
    on hgrant fun hhosts hlawful hlimit => rewrites (g' := h) hgrant hhosts hlawful hlimit rfl rfl rfl rfl
  rw [accountTick_eq]
  exact ite (fun hlimit => hcounted.trans (cutsOff (g := h) .budget rfl hlimit.2)) fun _ => hcounted

theorem endAtKeyLimit (hg : s.key.grant = some g) : Upholds s (endAtKeyLimit g s) := by
  unfold Machine.endAtKeyLimit
  cases hstate : g.state
  case keyed => exact cutsOff _ hg hstate
  case drain => exact drainOver _ hg hstate
  case tail => exact on_keyed hg (by rw [hstate]; rfl) fun hhosts _ _ => unkey hhosts
  all_goals exact .refl s

theorem takeKeyLimit (m : MemberIx) : Upholds s (takeKeyLimit m s) := by
  unfold Machine.takeKeyLimit
  split
  · exact .refl s
  · next g hg =>
    refine ite (fun _ => ?_) fun _ => .refl s
    extract_lets limit
    refine ite (fun hover => ?_) fun hunder => ?_
    · rw [Bool.and_eq_true] at hover
      exact on_keyed hg hover.1 fun hhosts _ _ => ite (fun _ => unkey hhosts) fun _ => unkey hhosts
    · refine on hg fun hhosts hlawful _ => rewrites (g' := { g with keyLimit := some limit }) hg hhosts hlawful ?_ rfl rfl rfl rfl
      intro l hair hl
      cases hl
      rw [Bool.and_eq_true, decide_eq_true_eq] at hunder
      exact Nat.le_of_not_le fun hle => hunder ⟨hair, hle⟩

/-! ## The block boundary -/

theorem countNotice_ground (n : Slot) {f : Session → Session} (hf : Steady.Counts f) : SameGround s (s.countNotice n f) := by
  obtain ⟨-, hstate, -⟩ := hf (s.session n)
  exact withSession_ground hstate

theorem countFor_ground (holder : Option Slot) {f : Session → Session} (hf : Steady.Counts f) :
    SameGround s (s.countFor holder f) := by
  unfold State.countFor
  split
  · exact .refl s
  · exact countNotice_ground _ hf

theorem armDeadline_ground (n : Slot) (p : Nat) : SameGround s (s.armDeadline n p) := by
  unfold State.armDeadline
  extract_lets r
  split
  · exact withSession_ground rfl
  · exact .refl s

theorem releasePlace_ground (i : Nat) : SameGround s (s.releasePlace i) := ground_of_frame (releasePlace_frame s i)

theorem playBlock_ground : SameGround s (playBlock g s) := by
  unfold Machine.playBlock
  extract_lets i block t _ u v
  have hv : SameGround s v :=
    ((releasePlace_ground i).trans (withPlayout_ground _)).trans (countFor_ground _ fun _ => ⟨rfl, rfl, rfl, rfl⟩)
  split
  · exact hv.trans (armDeadline_ground _ _)
  · exact hv

theorem clearPlace_ground (c : PlaceCase) : SameGround s (clearPlace g c s) := by
  unfold Machine.clearPlace
  cases c
  case stale | late | overrun => exact (releasePlace_ground _).trans (countFor_ground _ fun _ => ⟨rfl, rfl, rfl, rfl⟩)
  case play | empty => exact .refl s

theorem substitute_ground : SameGround s (substitute g s) := by
  unfold Machine.substitute
  split
  · exact (withPlayout_ground _).trans (countFor_ground _ fun _ => ⟨rfl, rfl, rfl, rfl⟩)
  · exact withPlayout_ground _

theorem finishBoundary (missing : Bool) (hg : s.key.grant = some g) : Upholds s (finishBoundary g missing s) := by
  have hdepth : ∀ b, SameGround s (s.countDepth g.tag b) := fun b => ground_of_frame (countDepth_frame s g.tag b)
  unfold Machine.finishBoundary
  refine ite (fun hstate => ?_) fun _ => of_same (hdepth true)
  extract_lets t _ u
  have hu : SameGround s u := (hdepth false).trans (withPlayout_ground _)
  exact ite (fun _ => (of_same hu).trans (drainOver false (hu.2.trans hg) hstate)) fun _ => of_same hu

theorem missBlock (hg : s.key.grant = some g) : Upholds s (missBlock g s) :=
  ite (fun _ => finishBoundary true hg) fun _ =>
    ite (fun _ => (of_same (withPlayout_ground _)).trans (takeCause _ _)) fun _ =>
      (of_same substitute_ground).trans (finishBoundary true (substitute_ground.2.trans hg))

theorem boundaryOf (hg : s.key.grant = some g) : Upholds s (boundaryOf g s) := by
  unfold Machine.boundaryOf
  extract_lets c _ t
  have ht : SameGround s t := withPlayout_ground _
  have hadvance : ∀ u : State, SameGround u u.advance := fun u => withPlayout_ground _
  have hplayed : SameGround s (playBlock g t).advance := ht.trans (playBlock_ground.trans (hadvance _))
  have hmissed : SameGround s (clearPlace g c t).advance := ht.trans ((clearPlace_ground c).trans (hadvance _))
  exact ite (fun _ => (of_same hplayed).trans (finishBoundary false (hplayed.2.trans hg)))
    fun _ => (of_same hmissed).trans (missBlock (hmissed.2.trans hg))

/-! ## Preemption (R54) -/

/-- A cause of preemption leaves every session's state, and the grant's session free of a grant. -/
theorem sendCause_others (now : Bool) (n : Slot) : (sendCause .preempted now s).ground.opened n = s.ground.opened n ∧
    ∀ h, (sendCause .preempted now s).key.grant = some h → s.key.grant = some h := by
  unfold sendCause
  cases hg : s.key.grant with
  | none => exact ⟨rfl, fun h hh => by rw [hg] at hh; cases hh⟩
  | some g =>
    dsimp only
    split
    · have htaken : Machine.takeCause g.tag .preempted s = Machine.applyCause g .preempted s := by
        unfold Machine.takeCause
        rw [hg]
        exact if_pos rfl
      obtain ⟨hnone, hground⟩ := applyCause_ground g (r := .preempted) s rfl
      rw [htaken, hnone, hground]
      exact ⟨congrFun (Ground.afterEnd_opened _ _) n, fun _ hh => absurd hh (Option.some_ne_none _).symm⟩
    · exact ⟨rfl, fun h hh => hg.symm.trans hh⟩

theorem sendCause (r : EndReason) (now : Bool) : Upholds s (sendCause r now s) := by
  unfold Machine.sendCause
  split
  · exact .refl s
  · exact ite (fun _ => takeCause _ _) fun _ => notify rfl

theorem preempt {e : Entry} (now : Bool) (hopen : (s.session e.session).state = .opened) (hfree : s.holds e.session = false) :
    Upholds s (Machine.joinQueue e ((Machine.sendCause .preempted now s).removeEntry e.session)) := by
  let u := Machine.sendCause .preempted now s
  obtain ⟨hopened, hothers⟩ := sendCause_others (s := s) now e.session
  have hground : (u.removeEntry e.session).ground = u.ground.depart e.session := removeEntry_ground u e.session
  refine trans ((sendCause .preempted now).trans (removeEntry e.session)) (joinQueue ?_ ?_ fun h hh => ?_)
  · rw [hground]
    exact hopened.trans ((opened_iff s _).2 hopen)
  · rw [hground]
    exact fun hmem => (Ground.mem_depart hmem).2 rfl
  · exact not_holds hfree h (hothers h ((removeEntry_grant u e.session).symm.trans hh))

/-! ## Every effect -/

theorem gated_ground (n : Slot) : SameGround s (s.gated n) :=
  (countNotice_ground n (f := fun r => { r with requestsTaken := saturate 65535 r.requestsTaken 1 })
    fun _ => ⟨rfl, rfl, rfl, rfl⟩).trans (armDeadline_ground n _)

theorem events : EventsKeep Upholds where
  refl := refl
  trans := trans
  outer h _ := of_frame h
  passTime _ h := passTime h
  notices _ _ h := erase h
  notify _ _ h := notify h
  releaseReset := releaseReset
  finishStartUp := finishStartUp
  supervisor _ _ h := withSupervisor h
  dropPtt := dropPtt
  floorFlags s f hqueue hidle := of_same ⟨by
    show { s.ground with idle := f.idle, queue := f.queue.map (·.session) } = s.ground
    rw [hqueue, hidle]
    rfl, rfl⟩
  arbitrate := arbitrate
  join s e hopen hentry hfree := joinQueue ((opened_iff s _).2 hopen) (not_waits hentry) (not_holds hfree)
  preempt := preempt
  departEntry _ n r := departEntry n r
  gated _ n := of_same (gated_ground n)
  openSession _ _ := openSession _ _
  closeSession r _ h := closeSession r h
  expireSession _ := expireSession
  member _ _ _ _ := of_frame (ps := [.members]) withMember_frame
  detector _ _ _ := of_frame (ps := [.detector]) withDetector_frame
  receiveSample x s := of_frame (receiveSample_frame x s)
  recovery s k := of_same (withKey_ground (k := { s.key with recovery := k }) rfl rfl)
  leaveChangeover := leaveChangeover
  enterWaitClear := enterWaitClear
  expireBusyWait := expireBusyWait
  enterGap1 := enterGap1
  enterGap2 := enterGap2
  leaveGap2 := leaveGap2
  expirePrebuffer := expirePrebuffer
  keyUp := keyUp
  boundary hg _ := boundaryOf hg
  tailOver hg htimer := on hg fun hhosts ⟨_, _, _, _, htail, _⟩ _ => by
    rw [htail htimer] at hhosts
    exact unkey hhosts
  accountTick hg _ := accountTick hg
  endAtKeyLimit hg _ := endAtKeyLimit hg
  applyCause r hg := applyCause r hg
  takeKeyLimit _ m := takeKeyLimit m
  cancel hg hair := on hg fun hhosts _ _ => by
    rw [hair] at hhosts
    exact preKeyEnd _ hhosts
  drain f hg hstate := beginDrain f hg hstate

end Upholds

/-! ## The end notice and every command -/

theorem claimEnded_vacant {u : State} (h : u.ground.Vacant) (kind : GrantKind) (r : EndReason) :
    (u.claimEnded kind r).ground.Vacant ∧ (u.claimEnded kind r).ground.ended = u.ground.ended := by
  unfold State.claimEnded
  split
  · next e he =>
    obtain ⟨hopen, hentry⟩ : (u.session e.session).state = .opened ∧ u.entryOf e.session = none := by
      obtain ⟨x, left, ⟨-, -, -, -, hclaim⟩, rfl⟩ := (requeue_iff u kind r e).1 he
      exact hclaim
    obtain ⟨q, hq, hground⟩ := joinQueue_ground e u
    rw [hground]
    exact ⟨h.join hq (Upholds.not_waits hentry) ((opened_iff u _).2 hopen), rfl⟩
  · exact ⟨{ h with }, rfl⟩

/-- The end notice is taken on a floor that is free (R43). -/
theorem takeEnded_laws {u : State} (hgrant : u.key.grant = none) (h : u.ground.Vacant) (hended : u.ground.ended = 0)
    (kind : GrantKind) (r : EndReason) : (takeEnded kind r u).Laws := by
  obtain ⟨hvacant, hcount⟩ := claimEnded_vacant h kind r
  rw [takeEnded_eq]
  generalize hv : u.claimEnded kind r = v at hvacant hcount
  refine arbitrate_laws ⟨?_, ?_, rfl⟩
  · show v.key.grant = none
    rw [← hv, claimEnded_frame u kind r .key (by decide)]
    exact hgrant
  · show Ground.Vacant { v.ground with idle := true }
    exact { hvacant with idle := fun _ => hcount.trans hended }

/-- What O59 says of a step. -/
def KeepsLaws (s t : State) : Prop := s.Laws → t.Laws ∧ HeldGrantStays s t

namespace KeepsLaws
variable {s t : State}

theorem endNotice {kind : GrantKind} {tag : Word} {n : Option Slot} {r : EndReason} (hmem : .ended kind tag n r ∈ s.notices) :
    KeepsLaws s (event (takeEnded kind r) (s.withNotices (s.notices.erase (.ended kind tag n r)))) := fun hs => by
  have hany : s.notices.any isEnded = true := List.any_eq_true.2 ⟨_, hmem, rfl⟩
  obtain ⟨⟨hidle, hbusy, hcount⟩, -⟩ := hs.1
  have hgrant : s.key.grant = none := not_none_of hbusy (by rw [hany]; nofun)
  have hvacant := (laws_vacant hgrant).1 hs
  let u := s.withNotices (s.notices.erase (.ended kind tag n r))
  have hended : u.ground.ended = 0 := by
    show (s.notices.erase _).countP isEnded = 0
    rw [List.countP_erase, if_pos ⟨hmem, rfl⟩]
    omega
  have hu : u.ground.Vacant :=
    { hvacant with
      ended := by rw [hended]; exact Nat.zero_le 1
      idle := fun _ => hended }
  refine ⟨?_, fun g hg => by rw [hgrant] at hg; cases hg⟩
  exact (ground_of_frame (publish_frame u _)).laws (takeEnded_laws (u := u) hgrant hu hended kind r)

theorem reset (s : State) (p : Phase) : KeepsLaws s (s.resetBlocks p) := fun _ => by
  refine ⟨(laws_vacant rfl).2 ?_, fun _ _ _ => .inl rfl⟩
  have h := (laws_vacant (s := State.reset) rfl).1 ⟨reset_lawful, fun _ _ hg => nomatch hg⟩
  exact { h with }

theorem commands : CommandsKeep KeepsLaws Upholds where
  events := Upholds.events
  of h hs := by
    obtain ⟨ht, hheld, -⟩ := h hs
    exact ⟨ht, fun g hg hh => (hheld g hg hh).imp_left And.left⟩
  after h hut hs := by
    have hsame := ground_of_frame h
    obtain ⟨ht, hheld⟩ := hut (hsame.laws hs)
    exact ⟨ht, fun g hg hh => hheld g (hsame.2.trans hg) hh⟩
  reset := reset
  endNotice := endNotice

end KeepsLaws

/-- Settles O59: the walk through the rows (`CommandsKeep.step_rel`) with what each effect makes of the laws (`Upholds`). -/
theorem everyStepKeepsTheFloorAndTheGrantLawful : Obligations.EveryStepKeepsTheFloorAndTheGrantLawful := by
  intro s t _ hlawful hlimit hstep
  obtain ⟨⟨ht, htlimit⟩, hheld⟩ := KeepsLaws.commands.step_rel hstep ⟨hlawful, hlimit⟩
  exact ⟨ht, htlimit, hheld⟩

end Sys2Proof.Machine
end
